-- ==== Sys2Proof/Word.lean ====
section
/-! DEFINITION. The words of the Z1 and the index types of its register files. -/
namespace Sys2Proof

/-- A 64-bit register value (R11). -/
abbrev Word := BitVec 64
/-- The unit of memory: one byte (R3). -/
abbrev Byte := BitVec 8
/-- x0 to x31 (R11). -/
abbrev XReg := Fin 32
/-- v0 to v31 (R11). -/
abbrev VReg := Fin 32
/-- p0 to p7 (R11). -/
abbrev PReg := Fin 8
/-- k0 to k7 (R11). -/
abbrev KReg := Fin 8
/-- Tile slots t0 to t7 (R11, R28). -/
abbrev TReg := Fin 8
/-- A group of four vector registers, named by its first register divided by four (R28). -/
abbrev VGroup := Fin 8
/-- Watermark slots 0 to 15 (R267). -/
abbrev Slot := Fin 16

end Sys2Proof
end

