-- ==== Sys2Proof/Config.lean ====
section
/-! DEFINITION. What the spec leaves open, as constants without a body: free values, each applied to a
counter of the state, so that a claim is true whatever they are. -/
namespace Sys2Proof.Config

/-- How many cycles of the 2 GHz clock pass before the step that the counter numbers (R4, R12: the spec gives
latencies as bounds, never an exact time for a step). -/
opaque elapsed : Nat → Nat
/-- An open choice between two outcomes: old or new code halfword (R22, R23), the writer of an 8-byte unit (R192). -/
opaque freeBit : Nat → Bool
/-- An open 64-bit value. -/
opaque freeWord : Nat → Word
/-- An open number (a signature, a digest of an unknown image). -/
opaque freeNat : Nat → Nat
/-- Whether the host completes PCIe AtomicOps (R369). -/
opaque hostAtomicOps : Bool
/-- The physical monitor area that the security core assigns to Deckle (R347): its base and length in HBM. -/
opaque monitorArea : Nat × Nat
/-- The measurement at boot of each part of R345, numbered in its order: the digest of an image the model is not told. -/
opaque bootDigest : Nat → Nat
/-- The module register window's contents where no rule assigns a register (R171). -/
opaque unassignedRegister : Nat → Word

/-- The digest of an image (R345): SHA-256 of its bytes, which the model does not compute. -/
opaque digest : List Byte → Nat

/-- The digest of the image of a part that passes the fused version, when the one that ran does not (R359). -/
opaque passingDigest : Nat → Nat → Nat

end Sys2Proof.Config
end

