-- ==== Sys2Proof/Syntax.lean ====
section
/-! DEFINITION. The instruction set as syntax: one constructor for each row of the opcode table, the encoded
instructions first (R36 to R41) and then the module's events, whose operands are the inputs from outside. -/
namespace Sys2Proof

/-- The format tags of R74. -/
inductive Fmt where
  | none | i8 | i16 | i32 | i64 | fp8e4 | fp8e5 | bf16 | fp16 | fp32 | fp64 | t2 | t5 | fp8e4s | fp8e5s
  deriving DecidableEq, Repr

/-- The G field of R30: negation and predicate. -/
structure Guard where
  neg : Bool
  p : PReg
  deriving DecidableEq, Repr

/-- The scope codes of R33. -/
inductive Scope where
  | core | team | dev | sys
  deriving DecidableEq, Repr

/-- The order-and-scope codes of R32. -/
inductive AmoOrder where
  | rlxTeam | arTeam | rlxDev | acqDev | relDev | arDev | rlxSys | arSys
  deriving DecidableEq, Repr

/-- The KIND field of FENCE (R36). -/
inductive FenceKind where
  | full | acquire | release
  deriving DecidableEq, Repr

/-- The PATHS field of FENCE, bits [24:20] (R36). -/
structure Paths where
  c : Bool
  x : Bool
  m : Bool
  b : Bool
  h : Bool
  deriving DecidableEq, Repr

/-- What an access from outside does at its home: a store, or one of the atomics of a host (R193). -/
inductive InboundOp where
  | store
  | add
  | swap
  | cas (expect : Nat)
  deriving DecidableEq, Repr

/-- The formats of RED (R37). -/
inductive RedFmt where
  | fp32 | fp64 | i32 | i16
  deriving DecidableEq, Repr

/-- The rounding codes of VCVT (R37): five modes, or the mode held in FCSR.RM. -/
inductive VRnd where
  | rne | rtz | rdn | rup | rna | dyn
  deriving DecidableEq, Repr

/-- The cause codes of R303. -/
inductive Cause where
  | ok | illegal | profile | format | align | loc | rights | gate | xlate | poison | loopst | seq | timeout
  | noatomic | gstack | calexit | brk | trapi | mcall | peerlost | watch
  deriving DecidableEq, Repr

/-- What an access needs of the page it touches (R174, R204). -/
inductive Need where
  | load | store | atomic | fetch
  deriving DecidableEq, Repr

/-- Where a task record may lie (R271). -/
inductive SegPlace where
  | segment (field : Nat)
  | spill
  deriving DecidableEq, Repr

/-- A task record as one module hands it to another (R271): BOUND, ARG, PSEQ, SEQ and ROOT. -/
structure TaskWords where
  bound : Word
  arg : Word
  pseq : Nat
  seq : Nat
  root : Bool
  deriving DecidableEq, Repr

/-- What another module does at the home of a slot joined with it (R267): offers an update, spawns, or drops a spawn whose bound
fails; pops, discards or ends a task; or sets the slot. -/
inductive MemberAct where
  | update (v : Word) (p : Nat)
  | spawn
  | failed
  | pop
  | discard
  | ends
  | set (v : Word) (p : Nat) (gap : Word)
  /-- Its slice moves records to a segment of this module, whose TNEXT waits, or takes some from a place here (R272). -/
  | give (field : Nat) (l : List TaskWords)
  | take (src : SegPlace) (n : Nat)
  deriving DecidableEq, Repr

/-- Where an update goes: to who holds a copy of a watermark slot (R270), or, of another module, to the home of a joined slot. -/
inductive CopyHolder where
  | core (c : Nat)
  | segment (field : Nat)
  | member (a : MemberAct)
  deriving DecidableEq, Repr

/-- The measured parts of R345. -/
inductive FwPart where
  | security | deckle | headbox | slice | management
  deriving DecidableEq, Repr

/-- A tenant's or group's policy (R357, R361, R367): acceptable measurements, debugging, acceptable owners. -/
structure Policy where
  accept : List (FwPart × Nat)
  debug : Bool
  owners : List Nat
  deriving DecidableEq, Repr

/-- A mapping the host driver proposes (R354). -/
inductive Mapping where
  /-- A page table entry: the physical address it is written to and its value. -/
  | leaf (cid : Nat) (pa : Nat) (entry : Word)
  /-- A protection entry of a core. -/
  | protEntry (cid : Nat) (c : Nat) (i : Fin 8) (value : Word)
  /-- An LPT tag of a core. -/
  | lptTag (cid : Nat) (c : Nat) (page : Nat) (tag : Byte)
  /-- A queue register block. -/
  | queueBlock (cid : Nat) (q : Nat) (priv : Bool)
  /-- A key-slot binding. -/
  | keySlot (cid : Nat) (slot : Nat)
  /-- The root of the context's page table, as the security core records it (R168). -/
  | root (cid : Nat) (pa : Nat)
  /-- A core given to the context (R353). -/
  | coreOwn (cid : Nat) (c : Nat)
  deriving DecidableEq, Repr

/-- The tamper events of R360. -/
inductive Tamper where
  | voltageClock | temperature | enclosure | linkTags
  deriving DecidableEq, Repr

/-- A route of the route table (R366): the module it leads to, the port it leaves through, and the modules between. -/
structure ModuleRoute where
  dest : Nat
  port : Nat
  via : List Nat
  deriving DecidableEq, Repr

/-- A Deckle image and its version (R25, R359). -/
structure Firmware where
  bytes : List Byte
  version : Nat
  deriving DecidableEq, Repr

/-- The image of one part of the firmware (R358). -/
structure PartImage where
  part : FwPart
  bytes : List Byte
  deriving DecidableEq, Repr

/-- A core in IDLE, and whether a wake event is sent to it now (R72). -/
structure WakeAt where
  core : Nat
  sent : Bool
  deriving DecidableEq, Repr

/-- An access from outside: its source, what it does at its home, where (R191, R193), and whether the security core of the module it
comes from has checked the mapping it was made through (R329, R350). -/
structure InboundAt where
  src : Nat
  op : InboundOp
  loc : Nat
  checked : Bool
  deriving DecidableEq, Repr

/-- A core whose thread is evicted, and the field named for its resumption (R314, R325). -/
structure Eviction where
  core : Nat
  field : Nat
  deriving DecidableEq, Repr

/-- A register of the window, and the host that writes it (R329, R361). -/
structure HostReg where
  host : Nat
  off : Nat
  deriving DecidableEq, Repr

/-- A mapping, and the host that proposes it (R354, R361). -/
structure Proposal where
  host : Nat
  mapping : Mapping
  deriving DecidableEq, Repr

/-- What a collective group is formed under: its policy, and the slots it joins (R267, R367). -/
structure GroupTerms where
  policy : Policy
  slots : List Slot
  deriving DecidableEq, Repr

/-- A member's report (R367): the member and its measurements, the member that has checked it, and whether it was made since the
member's last reset. -/
structure MemberReport where
  member : Nat
  measured : List (FwPart × Nat)
  checker : Nat
  reset : Bool
  deriving DecidableEq, Repr

/-- What the power governor measures at a sample (R370). -/
structure PowerSample where
  overLimit : Bool
  /-- Classes (numbered as the GOVSTAT nibbles of R371), the one farthest above its share first. -/
  order : List (Fin 8)
  /-- Classes that serve a LATENCY gang. -/
  latency : List (Fin 8)
  /-- Classes of a die whose junction is at 95 degrees. -/
  hot : List (Fin 8)
  deriving DecidableEq, Repr

/-- One constructor for each row of the opcode table. -/
inductive Instr where
  /-- ADD (R47). -/
  | add (d : XReg) (a : XReg) (b : XReg)
  /-- SUB (R47). -/
  | sub (d : XReg) (a : XReg) (b : XReg)
  /-- AND (R47). -/
  | and (d : XReg) (a : XReg) (b : XReg)
  /-- OR (R47). -/
  | or (d : XReg) (a : XReg) (b : XReg)
  /-- XOR (R47). -/
  | xor (d : XReg) (a : XReg) (b : XReg)
  /-- SLL (R47). -/
  | sll (d : XReg) (a : XReg) (b : XReg)
  /-- SRL (R47). -/
  | srl (d : XReg) (a : XReg) (b : XReg)
  /-- SRA (R47). -/
  | sra (d : XReg) (a : XReg) (b : XReg)
  /-- SLT (R47). -/
  | slt (d : XReg) (a : XReg) (b : XReg)
  /-- SLTU (R47). -/
  | sltu (d : XReg) (a : XReg) (b : XReg)
  /-- MIN (R47). -/
  | min (d : XReg) (a : XReg) (b : XReg)
  /-- MAX (R47). -/
  | max (d : XReg) (a : XReg) (b : XReg)
  /-- MINU (R47). -/
  | minu (d : XReg) (a : XReg) (b : XReg)
  /-- MAXU (R47). -/
  | maxu (d : XReg) (a : XReg) (b : XReg)
  /-- MUL (R47). -/
  | mul (d : XReg) (a : XReg) (b : XReg)
  /-- MULH (R47). -/
  | mulh (d : XReg) (a : XReg) (b : XReg)
  /-- MULHU (R47). -/
  | mulhu (d : XReg) (a : XReg) (b : XReg)
  /-- DIV (R48). -/
  | div (d : XReg) (a : XReg) (b : XReg)
  /-- DIVU (R48). -/
  | divu (d : XReg) (a : XReg) (b : XReg)
  /-- REM (R48). -/
  | rem (d : XReg) (a : XReg) (b : XReg)
  /-- REMU (R48). -/
  | remu (d : XReg) (a : XReg) (b : XReg)
  /-- CLZ (R47). -/
  | clz (d : XReg) (a : XReg)
  /-- CTZ (R47). -/
  | ctz (d : XReg) (a : XReg)
  /-- POPC (R47). -/
  | popc (d : XReg) (a : XReg)
  /-- ROL (R47). -/
  | rol (d : XReg) (a : XReg) (b : XReg)
  /-- ROR (R47). -/
  | ror (d : XReg) (a : XReg) (b : XReg)
  /-- ADDI (R49). -/
  | addi (d : XReg) (a : XReg) (imm : BitVec 12)
  /-- ANDI (R49). -/
  | andi (d : XReg) (a : XReg) (imm : BitVec 12)
  /-- ORI (R49). -/
  | ori (d : XReg) (a : XReg) (imm : BitVec 12)
  /-- XORI (R49). -/
  | xori (d : XReg) (a : XReg) (imm : BitVec 12)
  /-- SLLI (R49). -/
  | slli (d : XReg) (a : XReg) (sh : BitVec 6)
  /-- SRLI (R49). -/
  | srli (d : XReg) (a : XReg) (sh : BitVec 6)
  /-- SRAI (R49). -/
  | srai (d : XReg) (a : XReg) (sh : BitVec 6)
  /-- SLTI (R49). -/
  | slti (d : XReg) (a : XReg) (imm : BitVec 12)
  /-- SLTIU (R49). -/
  | sltiu (d : XReg) (a : XReg) (imm : BitVec 12)
  /-- LIH (R50). -/
  | lih (d : XReg) (imm : BitVec 20)
  /-- ADDPC (R50). -/
  | addpc (d : XReg) (imm : BitVec 20)
  /-- CMP_EQ (R51). -/
  | cmpEq (p : PReg) (a : XReg) (b : XReg)
  /-- CMP_NE (R51). -/
  | cmpNe (p : PReg) (a : XReg) (b : XReg)
  /-- CMP_LT (R51). -/
  | cmpLt (p : PReg) (a : XReg) (b : XReg)
  /-- CMP_GE (R51). -/
  | cmpGe (p : PReg) (a : XReg) (b : XReg)
  /-- CMP_LTU (R51). -/
  | cmpLtu (p : PReg) (a : XReg) (b : XReg)
  /-- CMP_GEU (R51). -/
  | cmpGeu (p : PReg) (a : XReg) (b : XReg)
  /-- CMPI_EQ (R51). -/
  | cmpiEq (p : PReg) (a : XReg) (imm : BitVec 12)
  /-- CMPI_NE (R51). -/
  | cmpiNe (p : PReg) (a : XReg) (imm : BitVec 12)
  /-- CMPI_LT (R51). -/
  | cmpiLt (p : PReg) (a : XReg) (imm : BitVec 12)
  /-- CMPI_GE (R51). -/
  | cmpiGe (p : PReg) (a : XReg) (imm : BitVec 12)
  /-- CMPI_LTU (R51). -/
  | cmpiLtu (p : PReg) (a : XReg) (imm : BitVec 12)
  /-- CMPI_GEU (R51). -/
  | cmpiGeu (p : PReg) (a : XReg) (imm : BitVec 12)
  /-- PAND (R52). -/
  | pand (d : PReg) (a : PReg) (b : PReg)
  /-- POR (R52). -/
  | por (d : PReg) (a : PReg) (b : PReg)
  /-- PXOR (R52). -/
  | pxor (d : PReg) (a : PReg) (b : PReg)
  /-- PNOT (R52). -/
  | pnot (d : PReg) (a : PReg)
  /-- PMOV (R52). -/
  | pmov (d : PReg) (a : PReg)
  /-- MOVP (R52). -/
  | movp (d : XReg) (a : PReg)
  /-- SETP (R52). -/
  | setp (d : PReg) (a : XReg)
  /-- SEL (R53). -/
  | sel (g : Guard) (d : XReg) (a : XReg) (b : XReg)
  /-- BR (R54). -/
  | br (g : Guard) (off : BitVec 21)
  /-- JAL (R55). -/
  | jal (d : XReg) (off : BitVec 20)
  /-- JALR (R56). -/
  | jalr (d : XReg) (a : XReg) (imm : BitVec 12)
  /-- LB (R58). -/
  | lb (d : XReg) (a : XReg) (imm : BitVec 12)
  /-- LBU (R58). -/
  | lbu (d : XReg) (a : XReg) (imm : BitVec 12)
  /-- LH (R58). -/
  | lh (d : XReg) (a : XReg) (imm : BitVec 12)
  /-- LHU (R58). -/
  | lhu (d : XReg) (a : XReg) (imm : BitVec 12)
  /-- LW (R58). -/
  | lw (d : XReg) (a : XReg) (imm : BitVec 12)
  /-- LWU (R58). -/
  | lwu (d : XReg) (a : XReg) (imm : BitVec 12)
  /-- LD (R58). -/
  | ld (d : XReg) (a : XReg) (imm : BitVec 12)
  /-- LW_S (R176). -/
  | lwS (sc : Scope) (d : XReg) (a : XReg) (off : BitVec 10)
  /-- LD_S (R176). -/
  | ldS (sc : Scope) (d : XReg) (a : XReg) (off : BitVec 10)
  /-- LW_A (R176). -/
  | lwA (sc : Scope) (d : XReg) (a : XReg) (off : BitVec 10)
  /-- LD_A (R176). -/
  | ldA (sc : Scope) (d : XReg) (a : XReg) (off : BitVec 10)
  /-- SB (R59). -/
  | sb (g : Guard) (b : XReg) (a : XReg) (off : BitVec 8)
  /-- SH (R59). -/
  | sh (g : Guard) (b : XReg) (a : XReg) (off : BitVec 8)
  /-- SW (R59). -/
  | sw (g : Guard) (b : XReg) (a : XReg) (off : BitVec 8)
  /-- SD (R59). -/
  | sd (g : Guard) (b : XReg) (a : XReg) (off : BitVec 8)
  /-- SW_S (R177). -/
  | swS (g : Guard) (sc : Scope) (b : XReg) (a : XReg) (off : BitVec 7)
  /-- SD_S (R177). -/
  | sdS (g : Guard) (sc : Scope) (b : XReg) (a : XReg) (off : BitVec 7)
  /-- SW_L (R177). -/
  | swL (g : Guard) (sc : Scope) (b : XReg) (a : XReg) (off : BitVec 7)
  /-- SD_L (R177). -/
  | sdL (g : Guard) (sc : Scope) (b : XReg) (a : XReg) (off : BitVec 7)
  /-- AMOADD_W (R178). -/
  | amoaddW (p : PReg) (os : AmoOrder) (d : XReg) (b : XReg) (a : XReg)
  /-- AMOAND_W (R178). -/
  | amoandW (p : PReg) (os : AmoOrder) (d : XReg) (b : XReg) (a : XReg)
  /-- AMOOR_W (R178). -/
  | amoorW (p : PReg) (os : AmoOrder) (d : XReg) (b : XReg) (a : XReg)
  /-- AMOXOR_W (R178). -/
  | amoxorW (p : PReg) (os : AmoOrder) (d : XReg) (b : XReg) (a : XReg)
  /-- AMOMIN_W (R178). -/
  | amominW (p : PReg) (os : AmoOrder) (d : XReg) (b : XReg) (a : XReg)
  /-- AMOMAX_W (R178). -/
  | amomaxW (p : PReg) (os : AmoOrder) (d : XReg) (b : XReg) (a : XReg)
  /-- AMOMINU_W (R178). -/
  | amominuW (p : PReg) (os : AmoOrder) (d : XReg) (b : XReg) (a : XReg)
  /-- AMOMAXU_W (R178). -/
  | amomaxuW (p : PReg) (os : AmoOrder) (d : XReg) (b : XReg) (a : XReg)
  /-- AMOSWAP_W (R178). -/
  | amoswapW (p : PReg) (os : AmoOrder) (d : XReg) (b : XReg) (a : XReg)
  /-- CAS_W (R178). -/
  | casW (p : PReg) (os : AmoOrder) (d : XReg) (b : XReg) (a : XReg)
  /-- AMOADD_D (R178). -/
  | amoaddD (p : PReg) (os : AmoOrder) (d : XReg) (b : XReg) (a : XReg)
  /-- AMOAND_D (R178). -/
  | amoandD (p : PReg) (os : AmoOrder) (d : XReg) (b : XReg) (a : XReg)
  /-- AMOOR_D (R178). -/
  | amoorD (p : PReg) (os : AmoOrder) (d : XReg) (b : XReg) (a : XReg)
  /-- AMOXOR_D (R178). -/
  | amoxorD (p : PReg) (os : AmoOrder) (d : XReg) (b : XReg) (a : XReg)
  /-- AMOMIN_D (R178). -/
  | amominD (p : PReg) (os : AmoOrder) (d : XReg) (b : XReg) (a : XReg)
  /-- AMOMAX_D (R178). -/
  | amomaxD (p : PReg) (os : AmoOrder) (d : XReg) (b : XReg) (a : XReg)
  /-- AMOMINU_D (R178). -/
  | amominuD (p : PReg) (os : AmoOrder) (d : XReg) (b : XReg) (a : XReg)
  /-- AMOMAXU_D (R178). -/
  | amomaxuD (p : PReg) (os : AmoOrder) (d : XReg) (b : XReg) (a : XReg)
  /-- AMOSWAP_D (R178). -/
  | amoswapD (p : PReg) (os : AmoOrder) (d : XReg) (b : XReg) (a : XReg)
  /-- CAS_D (R178). -/
  | casD (p : PReg) (os : AmoOrder) (d : XReg) (b : XReg) (a : XReg)
  /-- FENCE (R181). -/
  | fence (kind : FenceKind) (sc : Scope) (paths : Paths)
  /-- CSRR (R61). -/
  | csrr (d : XReg) (n : BitVec 12)
  /-- CSRW (R61). -/
  | csrw (d : XReg) (n : BitVec 12) (a : XReg)
  /-- CSRS (R61). -/
  | csrs (d : XReg) (n : BitVec 12) (a : XReg)
  /-- CSRC (R61). -/
  | csrc (d : XReg) (n : BitVec 12) (a : XReg)
  /-- LOOP (R64). -/
  | loop (a : XReg) (e : BitVec 12)
  /-- LOOPI (R64). -/
  | loopi (c : BitVec 12) (e : BitVec 10)
  /-- TRAP (R70). -/
  | trap (imm : BitVec 12)
  /-- BRK (R70). -/
  | brk (imm : BitVec 12)
  /-- MCALL (R71). -/
  | mcall (imm : BitVec 12)
  /-- CALLG (R207). -/
  | callg (a : XReg) (imm : BitVec 12)
  /-- LEND_R (R212). -/
  | lendR (d : XReg) (a : XReg) (b : XReg)
  /-- LEND_RW (R212). -/
  | lendRw (d : XReg) (a : XReg) (b : XReg)
  /-- RECL (R213). -/
  | recl (a : XReg)
  /-- LOANQ (R214). -/
  | loanq (d : XReg) (a : XReg)
  /-- BAR_INIT (R149). -/
  | barInit (a : XReg) (b : XReg)
  /-- BAR_ARR (R149). -/
  | barArr (a : XReg)
  /-- BAR_WAIT (R149). -/
  | barWait (a : XReg)
  /-- BAR_SYNC (R149). -/
  | barSync (a : XReg)
  /-- WAITA (R153). -/
  | waita (a : XReg) (b : XReg)
  /-- WAITA_GE (R153). -/
  | waitaGe (a : XReg) (b : XReg)
  /-- CWAIT (R155). -/
  | cwait (c : Fin 16) (n : Fin 32)
  /-- FORK (R144). -/
  | fork (d : XReg) (a : XReg)
  /-- JOIN (R145). -/
  | join (a : XReg)
  /-- RED_ADD (R157). -/
  | redAdd (tok : XReg) (tree : Bool) (f : RedFmt) (d : VGroup) (a : VGroup)
  /-- RED_MIN (R157). -/
  | redMin (tok : XReg) (tree : Bool) (f : RedFmt) (d : VGroup) (a : VGroup)
  /-- RED_MAX (R157). -/
  | redMax (tok : XReg) (tree : Bool) (f : RedFmt) (d : VGroup) (a : VGroup)
  /-- VADD (R97). -/
  | vadd (k : KReg) (d : VReg) (a : VReg) (b : VReg)
  /-- VSUB (R97). -/
  | vsub (k : KReg) (d : VReg) (a : VReg) (b : VReg)
  /-- VMUL (R97). -/
  | vmul (k : KReg) (d : VReg) (a : VReg) (b : VReg)
  /-- VFMA (R99). -/
  | vfma (k : KReg) (d : VReg) (a : VReg) (b : VReg)
  /-- VFMS (R99). -/
  | vfms (k : KReg) (d : VReg) (a : VReg) (b : VReg)
  /-- VFNMA (R99). -/
  | vfnma (k : KReg) (d : VReg) (a : VReg) (b : VReg)
  /-- VMIN (R97). -/
  | vmin (k : KReg) (d : VReg) (a : VReg) (b : VReg)
  /-- VMAX (R97). -/
  | vmax (k : KReg) (d : VReg) (a : VReg) (b : VReg)
  /-- VMINU (R98). -/
  | vminu (k : KReg) (d : VReg) (a : VReg) (b : VReg)
  /-- VMAXU (R98). -/
  | vmaxu (k : KReg) (d : VReg) (a : VReg) (b : VReg)
  /-- VABS (R97). -/
  | vabs (k : KReg) (d : VReg) (a : VReg)
  /-- VNEG (R97). -/
  | vneg (k : KReg) (d : VReg) (a : VReg)
  /-- VAND (R98). -/
  | vand (k : KReg) (d : VReg) (a : VReg) (b : VReg)
  /-- VOR (R98). -/
  | vor (k : KReg) (d : VReg) (a : VReg) (b : VReg)
  /-- VXOR (R98). -/
  | vxor (k : KReg) (d : VReg) (a : VReg) (b : VReg)
  /-- VNOT (R98). -/
  | vnot (k : KReg) (d : VReg) (a : VReg)
  /-- VSLL (R98). -/
  | vsll (k : KReg) (d : VReg) (a : VReg) (b : VReg)
  /-- VSRL (R98). -/
  | vsrl (k : KReg) (d : VReg) (a : VReg) (b : VReg)
  /-- VSRA (R98). -/
  | vsra (k : KReg) (d : VReg) (a : VReg) (b : VReg)
  /-- VADDS (R98). -/
  | vadds (k : KReg) (d : VReg) (a : VReg) (b : VReg)
  /-- VSUBS (R98). -/
  | vsubs (k : KReg) (d : VReg) (a : VReg) (b : VReg)
  /-- VDIV (R97). -/
  | vdiv (k : KReg) (d : VReg) (a : VReg) (b : VReg)
  /-- VSQRT (R99). -/
  | vsqrt (k : KReg) (d : VReg) (a : VReg)
  /-- VCMP_EQ (R100). -/
  | vcmpEq (k : KReg) (d : KReg) (a : VReg) (b : VReg)
  /-- VCMP_NE (R100). -/
  | vcmpNe (k : KReg) (d : KReg) (a : VReg) (b : VReg)
  /-- VCMP_LT (R100). -/
  | vcmpLt (k : KReg) (d : KReg) (a : VReg) (b : VReg)
  /-- VCMP_GE (R100). -/
  | vcmpGe (k : KReg) (d : KReg) (a : VReg) (b : VReg)
  /-- VCMP_LTU (R100). -/
  | vcmpLtu (k : KReg) (d : KReg) (a : VReg) (b : VReg)
  /-- VCMP_GEU (R100). -/
  | vcmpGeu (k : KReg) (d : KReg) (a : VReg) (b : VReg)
  /-- VSEL (R101). -/
  | vsel (k : KReg) (d : VReg) (a : VReg) (b : VReg)
  /-- VMOV (R101). -/
  | vmov (k : KReg) (d : VReg) (a : VReg)
  /-- VBCAST (R101). -/
  | vbcast (k : KReg) (d : VReg) (a : XReg)
  /-- VEXTR (R102). -/
  | vextr (d : XReg) (a : VReg) (b : XReg)
  /-- VINS (R102). -/
  | vins (d : VReg) (a : XReg) (b : XReg)
  /-- VSLIDE (R103). -/
  | vslide (k : KReg) (d : VReg) (a : VReg) (b : XReg)
  /-- VPERM (R103). -/
  | vperm (k : KReg) (d : VReg) (a : VReg) (b : VReg)
  /-- VIOTA (R104). -/
  | viota (k : KReg) (d : VReg)
  /-- VREDSUM (R105). -/
  | vredsum (k : KReg) (d : VReg) (a : VReg)
  /-- VREDMIN (R105). -/
  | vredmin (k : KReg) (d : VReg) (a : VReg)
  /-- VREDMAX (R105). -/
  | vredmax (k : KReg) (d : VReg) (a : VReg)
  /-- VTAG (R107). -/
  | vtag (f : Fmt) (d : VReg) (a : VReg)
  /-- KAND (R108). -/
  | kand (d : KReg) (a : KReg) (b : KReg)
  /-- KOR (R108). -/
  | kor (d : KReg) (a : KReg) (b : KReg)
  /-- KXOR (R108). -/
  | kxor (d : KReg) (a : KReg) (b : KReg)
  /-- KNOT (R108). -/
  | knot (d : KReg) (a : KReg)
  /-- KPOP (R108). -/
  | kpop (d : XReg) (a : KReg)
  /-- KFIRST (R108). -/
  | kfirst (d : XReg) (a : KReg)
  /-- VCVT (R106). -/
  | vcvt (r : VRnd) (f : Fmt) (k : KReg) (d : VReg) (a : VReg)
  /-- VLD (R109). -/
  | vld (f : Fmt) (k : KReg) (d : VReg) (a : XReg)
  /-- VLDS (R109). -/
  | vlds (f : Fmt) (k : KReg) (d : VReg) (a : XReg) (b : XReg)
  /-- VLDX (R109). -/
  | vldx (f : Fmt) (k : KReg) (d : VReg) (a : XReg) (b : VReg)
  /-- VLDB (R109). -/
  | vldb (f : Fmt) (k : KReg) (d : VReg) (a : XReg)
  /-- VST (R111). -/
  | vst (k : KReg) (d : VReg) (a : XReg)
  /-- VSTS (R111). -/
  | vsts (k : KReg) (d : VReg) (a : XReg) (b : XReg)
  /-- VSTX (R111). -/
  | vstx (k : KReg) (d : VReg) (a : XReg) (b : VReg)
  /-- SETVL (R95). -/
  | setvl (f : Fmt) (d : XReg) (a : XReg)
  /-- TCFG (R229). -/
  | tcfg (tc : TReg) (a : XReg)
  /-- ACCFG (R229). -/
  | accfg (a : XReg)
  /-- TLD (R230). -/
  | tld (tok : XReg) (tc : TReg) (a : XReg) (d : XReg)
  /-- TST (R230). -/
  | tst (tok : XReg) (tc : TReg) (a : XReg) (d : XReg)
  /-- TLDS (R230). -/
  | tlds (tok : XReg) (tc : TReg) (a : XReg) (d : XReg)
  /-- TZERO (R230). -/
  | tzero (tok : XReg) (tc : TReg)
  /-- MMA (R234). -/
  | mma (tok : XReg) (tc : TReg) (tb : TReg) (a : XReg)
  /-- MMAS (R234). -/
  | mmas (tok : XReg) (tc : TReg) (tb : TReg) (a : XReg)
  /-- MTV (R236). -/
  | mtv (tok : XReg) (tc : TReg) (a : XReg) (d : XReg)
  /-- ACLD (R232). -/
  | acld (tok : XReg) (a : XReg) (d : XReg)
  /-- ACST (R232). -/
  | acst (tok : XReg) (a : XReg) (d : XReg)
  /-- ACCVT (R237). -/
  | accvt (tok : XReg) (tc : TReg) (a : XReg)
  /-- ACZERO (R232). -/
  | aczero (tok : XReg) (a : XReg)
  /-- CPY (R245). -/
  | cpy (tok : XReg) (d : XReg) (a : XReg) (b : XReg)
  /-- TCPY (R248). -/
  | tcpy (tok : XReg) (d : XReg) (a : XReg) (b : XReg)
  /-- CPYF (R246). -/
  | cpyf (tok : XReg) (d : XReg) (a : XReg) (b : XReg)
  /-- BTE_GO (R254). -/
  | bteGo (tok : XReg) (d : XReg) (a : XReg) (b : XReg)
  /-- BTE_Q (R259). -/
  | bteQ (d : XReg) (a : XReg)
  /-- TSPAWN (R277). -/
  | tspawn (sl : Slot) (a : XReg) (b : XReg)
  /-- TNEXT (R278). -/
  | tnext (pd : PReg) (d : XReg) (sl : Slot)
  /-- WMK_RD (R281). -/
  | wmkRd (d : XReg) (b : XReg) (sl : Slot)
  /-- WMK_RD_S (R281). -/
  | wmkRdS (d : XReg) (b : XReg) (sl : Slot)
  /-- WMK_UPD (R282). -/
  | wmkUpd (pd : PReg) (a : XReg) (b : XReg)
  /-- WMK_SET (R283). -/
  | wmkSet (d : XReg) (a : XReg) (b : XReg)
  /-- CAL_RUN (R295). -/
  | calRun (tok : XReg) (d : XReg) (a : XReg)
  /-- CAL_QRY (R297). -/
  | calQry (d : XReg)
  /-- PROT_SET (R352). -/
  | protSet (a : XReg) (b : XReg)
  /-- LPT_SET (R352). -/
  | lptSet (a : XReg) (b : XReg)
  /-- CTX_SAVE (R352). -/
  | ctxSave (a : XReg)
  /-- CTX_LOAD (R352). -/
  | ctxLoad (a : XReg)
  /-- H_MOV (R40). -/
  | hMov (d : XReg) (b : XReg)
  /-- H_ADD (R40). -/
  | hAdd (d : XReg) (b : XReg)
  /-- H_SUB (R40). -/
  | hSub (d : XReg) (b : XReg)
  /-- H_AND (R40). -/
  | hAnd (d : XReg) (b : XReg)
  /-- H_OR (R40). -/
  | hOr (d : XReg) (b : XReg)
  /-- H_XOR (R40). -/
  | hXor (d : XReg) (b : XReg)
  /-- H_ADDI (R40). -/
  | hAddi (d : XReg) (imm : BitVec 5)
  /-- H_LI (R40). -/
  | hLi (d : XReg) (imm : BitVec 5)
  /-- H_SLLI (R40). -/
  | hSlli (d : XReg) (sh : BitVec 5)
  /-- H_SRLI (R40). -/
  | hSrli (d : XReg) (sh : BitVec 5)
  /-- H_SRAI (R40). -/
  | hSrai (d : XReg) (sh : BitVec 5)
  /-- H_LD (R40). -/
  | hLd (d : XReg) (b : XReg)
  /-- H_SD (R40). -/
  | hSd (d : XReg) (b : XReg)
  /-- H_JMP (R40). -/
  | hJmp (b : XReg)
  /-- H_MUL (R40). -/
  | hMul (d : XReg) (b : XReg)
  /-- H_NEG (R40). -/
  | hNeg (d : XReg) (b : XReg)
  /-- H_VADD (R41). -/
  | hVadd (d : VReg) (b : VReg)
  /-- H_VSUB (R41). -/
  | hVsub (d : VReg) (b : VReg)
  /-- H_VMUL (R41). -/
  | hVmul (d : VReg) (b : VReg)
  /-- H_VMIN (R41). -/
  | hVmin (d : VReg) (b : VReg)
  /-- H_VMAX (R41). -/
  | hVmax (d : VReg) (b : VReg)
  /-- H_VMINU (R41). -/
  | hVminu (d : VReg) (b : VReg)
  /-- H_VMAXU (R41). -/
  | hVmaxu (d : VReg) (b : VReg)
  /-- H_VAND (R41). -/
  | hVand (d : VReg) (b : VReg)
  /-- H_VOR (R41). -/
  | hVor (d : VReg) (b : VReg)
  /-- H_VXOR (R41). -/
  | hVxor (d : VReg) (b : VReg)
  /-- H_VSLL (R41). -/
  | hVsll (d : VReg) (b : VReg)
  /-- H_VSRL (R41). -/
  | hVsrl (d : VReg) (b : VReg)
  /-- H_VSRA (R41). -/
  | hVsra (d : VReg) (b : VReg)
  /-- H_VADDS (R41). -/
  | hVadds (d : VReg) (b : VReg)
  /-- H_VSUBS (R41). -/
  | hVsubs (d : VReg) (b : VReg)
  /-- H_VMOV (R41). -/
  | hVmov (d : VReg) (b : VReg)
  /-- IDLE (R72). -/
  | idle
  /-- YIELD (R73). -/
  | yield
  /-- TRET (R307). -/
  | tret
  /-- MRET (R348). -/
  | mret
  /-- GATE (R205). -/
  | gate
  /-- RETG (R208). -/
  | retg
  /-- CVY_LEAD (R142). -/
  | cvyLead
  /-- CVY_JOIN (R140). -/
  | cvyJoin
  /-- CVY_LEAVE (R142). -/
  | cvyLeave
  /-- TEND (R279). -/
  | tend
  /-- TPOLL (R280). -/
  | tpoll
  /-- POWER_ON (R25). -/
  | powerOn (c : Nat) (image : Firmware)
  /-- YIELD_END (R73). -/
  | yieldEnd (c : Nat)
  /-- IDLE_WAKE (R72). -/
  | idleWake (w : WakeAt)
  /-- TRAP_RING_RESUME (R310). -/
  | trapRingResume (i : Nat)
  /-- GANG_COMMIT (R134). -/
  | gangCommit (gs : List Nat) (places : List (List (List Nat)))
  /-- SVC_END_THREAD (R349). -/
  | svcEndThread (c : Nat)
  /-- SVC_SET_PAGE_TAG (R349). -/
  | svcSetPageTag (c : Nat)
  /-- SVC_WRITE_REACH (R349). -/
  | svcWriteReach (c : Nat)
  /-- SVC_READ_REACH (R349). -/
  | svcReadReach (c : Nat)
  /-- SVC_UNKNOWN (R349). -/
  | svcUnknown (c : Nat)
  /-- THREAD_END (R133). -/
  | threadEnd (c : Nat)
  /-- CONVOY_RELEASE (R140). -/
  | convoyRelease (team : Nat) (group : Nat)
  /-- JOIN_RECRUITED (R144). -/
  | joinRecruited (c : Nat)
  /-- BAR_WAIT_WAKE (R149). -/
  | barWaitWake (c : Nat)
  /-- BAR_TIMEOUT (R150). -/
  | barTimeout (c : Nat)
  /-- WAITA_WAKE (R154). -/
  | waitaWake (c : Nat)
  /-- CWAIT_WAKE (R155). -/
  | cwaitWake (c : Nat)
  /-- TOKEN_STALL_RELEASE (R139). -/
  | tokenStallRelease (c : Nat)
  /-- COUNTER_ROOM (R139). -/
  | counterRoom (c : Nat)
  /-- RED_CLOSE (R160). -/
  | redClose (team : Nat) (tree : Bool) (n : Nat)
  /-- RED_TIMEOUT (R160). -/
  | redTimeout (team : Nat) (tree : Bool) (n : Nat)
  /-- RED_LATE_COMPLETE (R163). -/
  | redLateComplete (c : Nat) (tree : Bool)
  /-- PEER_ACCESS_ARRIVAL (R166). -/
  | peerAccessArrival (c : Nat) (home : Nat) (off : Nat) (need : Need) (data : List Byte)
  /-- INBOUND_WRITE (R191). -/
  | inboundWrite (loc : InboundAt) (data : List Byte)
  /-- TRANSLATION_WALK_DONE (R172). -/
  | translationWalkDone (i : Nat)
  /-- TRANSLATION_RETRY (R172). -/
  | translationRetry
  /-- STATION_INVALIDATE (R173). -/
  | stationInvalidate (cid : Nat) (va : Nat)
  /-- RECL_FREE (R213). -/
  | reclFree (c : Nat)
  /-- MATRIX_QUEUE_ROOM (R216). -/
  | matrixQueueRoom (c : Nat)
  /-- MATRIX_JOB_START (R218). -/
  | matrixJobStart (cluster : Nat) (transfer : Bool)
  /-- MATRIX_JOB_COMPLETE (R228). -/
  | matrixJobComplete (cluster : Nat) (transfer : Bool)
  /-- COPY_SLOT_FREE (R240). -/
  | copySlotFree (c : Nat)
  /-- COPY_OP_START (R244). -/
  | copyOpStart (id : Nat)
  /-- COPY_COMPLETE (R240). -/
  | copyComplete (id : Nat)
  /-- BEAT_LANDING (R151). -/
  | beatLanding (id : Nat) (n : Nat)
  /-- BEATS_ROOM (R151). -/
  | beatsRoom (id : Nat)
  /-- FENCE_DRAIN (R181). -/
  | fenceDrain (c : Nat)
  /-- BTE_REQUEST_REFUSED (R255). -/
  | bteRequestRefused (c : Nat) (i : Nat) (ns : Nat)
  /-- BTE_RETRY (R255). -/
  | bteRetry (c : Nat) (i : Nat)
  /-- BTE_REQUEST_ROOM (R255). -/
  | bteRequestRoom (c : Nat)
  /-- BTE_ACCEPT (R255). -/
  | bteAccept (c : Nat) (i : Nat)
  /-- BTE_RECORD_TAKEUP (R256). -/
  | bteRecordTakeup (ch : Nat)
  /-- BTE_RECORD_LANDED (R256). -/
  | bteRecordLanded (ch : Nat)
  /-- BTE_RING_RESUME (R258). -/
  | bteRingResume (ch : Nat)
  /-- HOME_SPAWN_COUNT (R277). -/
  | homeSpawnCount (c : Nat)
  /-- HOME_UPDATE (R282). -/
  | homeUpdate (c : Nat)
  /-- HOME_SET (R283). -/
  | homeSet (c : Nat)
  /-- WMK_SET_OPEN (R283). -/
  | wmkSetOpen (sl : Slot)
  /-- WMK_PROPAGATE (R270). -/
  | wmkPropagate (sl : Slot) (holder : CopyHolder)
  /-- RECORD_MOVE (R272). -/
  | recordMove (sl : Slot) (src : SegPlace) (dst : Nat)
  /-- SPILL_RETURN (R272). -/
  | spillReturn (sl : Slot) (field : Nat)
  /-- TNEXT_WAKE (R278). -/
  | tnextWake (c : Nat)
  /-- SLOT_CLOSE (R275). -/
  | slotClose (sl : Slot)
  /-- CAL_RUN_START (R289). -/
  | calRunStart (team : Nat)
  /-- CAL_KERNEL_DONE (R292). -/
  | calKernelDone (team : Nat)
  /-- STRONG_LOAD_TIMEOUT (R312). -/
  | strongLoadTimeout (c : Nat)
  /-- STRONG_LOAD_ARRIVE (R312). -/
  | strongLoadArrive (c : Nat)
  /-- SLICE_EVICT (R314). -/
  | sliceEvict (v : Eviction)
  /-- SLICE_RESUME (R317). -/
  | sliceResume (i : Nat) (c : Nat)
  /-- SLICE_MIGRATE (R319). -/
  | sliceMigrate (is : List Nat) (cs : List Nat)
  /-- DEBUG_RUN (R350). -/
  | debugRun (c : Nat)
  /-- DEBUG_PLAIN_HALT (R321). -/
  | debugPlainHalt (c : Nat)
  /-- DEBUG_QUIESCE_HALT (R321). -/
  | debugQuiesceHalt (c : Nat)
  /-- DEBUG_STABLE (R321). -/
  | debugStable (c : Nat)
  /-- QUEUE_ENABLE (R330). -/
  | queueEnable (q : Nat) (v : Word)
  /-- QUEUE_DISABLE (R330). -/
  | queueDisable (q : Nat) (v : Word)
  /-- QTAIL_WRITE (R333). -/
  | qtailWrite (q : Nat) (v : Word)
  /-- REGISTER_WRITE (R329). -/
  | registerWrite (r : HostReg) (v : Word)
  /-- PACKET_FETCH (R332). -/
  | packetFetch (q : Nat)
  /-- PACKET_POLL (R332). -/
  | packetPoll (q : Nat)
  /-- LAUNCH (R335). -/
  | launch (q : Nat)
  /-- LOAD (R338). -/
  | load (q : Nat) (ptes : List (Nat × Word))
  /-- UNLOAD (R338). -/
  | unload (q : Nat)
  /-- SIGNAL (R336). -/
  | signal (q : Nat)
  /-- WAIT (R336). -/
  | wait (q : Nat)
  /-- WAIT_SATISFIED (R336). -/
  | waitSatisfied (q : Nat)
  /-- QFENCE (R336). -/
  | qfence (q : Nat)
  /-- NOP (R336). -/
  | nop (q : Nat)
  /-- SLICE_PERMIT_RETURN (R328). -/
  | slicePermitReturn (slice : Nat)
  /-- HEADBOX_RESTART (R341). -/
  | headboxRestart
  /-- HEADBOX_RESUME (R341). -/
  | headboxResume
  /-- NOTIFY_WRITE (R342). -/
  | notifyWrite (c : Nat)
  /-- NOTIFY_GATED_DELIVER (R342). -/
  | notifyGatedDeliver (field : Nat)
  /-- SECURITY_CORE_REQUEST (R346). -/
  | securityCoreRequest (c : Nat) (v : Word)
  /-- MAPPING_PROPOSAL (R354). -/
  | mappingProposal (m : Proposal)
  /-- LEAF_ACTIVATE (R354). -/
  | leafActivate (pa : Nat)
  /-- ATTEST_REQUEST (R356). -/
  | attestRequest (nonce : Word)
  /-- MEASUREMENT_REQUEST (R358). -/
  | measurementRequest (part : FwPart)
  /-- INTERFACE_LOCK (R357). -/
  | interfaceLock (cid : Nat) (policy : Policy)
  /-- INTERFACE_START (R357). -/
  | interfaceStart (cid : Nat)
  /-- INTERFACE_STOP (R362). -/
  | interfaceStop (cid : Nat)
  /-- TEARDOWN_DRAINED (R362). -/
  | teardownDrained (cid : Nat)
  /-- SCRUB_UNIT (R362). -/
  | scrubUnit
  /-- ACTIVATE_IMAGE (R358). -/
  | activateImage (image : PartImage) (digest : Nat) (version : Nat) (signed : Bool)
  /-- ACTIVATION_COMMIT (R358). -/
  | activationCommit
  /-- TAMPER_EVENT (R360). -/
  | tamperEvent (kind : Tamper)
  /-- OWNER_CLAIM (R361). -/
  | ownerClaim (h : Nat)
  /-- OWNER_HEARTBEAT (R361). -/
  | ownerHeartbeat (h : Nat)
  /-- OWNER_RELEASE (R361). -/
  | ownerRelease (h : Nat)
  /-- OWNER_TAKEOVER (R361). -/
  | ownerTakeover (h : Nat)
  /-- LINK_REKEY (R355). -/
  | linkRekey (link : Nat)
  /-- SEAL_TAG_FAIL (R355). -/
  | sealTagFail (link : Nat)
  /-- UCIE_LINK_ERROR (R365). -/
  | ucieLinkError (link : Nat)
  /-- LINK_RECOVERY_TIMEOUT (R365). -/
  | linkRecoveryTimeout (link : Nat)
  /-- CAUSEWAY_CRC_FAIL (R366). -/
  | causewayCrcFail (port : Nat)
  /-- GROUP_FORM (R367). -/
  | groupForm (g : Nat) (members : List Nat) (primary : Nat) (terms : GroupTerms)
  /-- MEMBER_VERIFIED (R367). -/
  | memberVerified (g : Nat) (r : MemberReport)
  /-- MEMBER_LOST (R368). -/
  | memberLost (g : Nat) (m : Nat)
  /-- GOVERNOR_SAMPLE (R370). -/
  | governorSample (sample : PowerSample)
  /-- MODULE_RESET (R373). -/
  | moduleReset
  /-- RESERVED_ENCODING (R42). -/
  | reservedEncoding (w : BitVec 32)
  /-- INSTRUCTION_FETCH_FAULT (R21). -/
  | instructionFetchFault (cause : Cause) (val : Word)
  /-- FOLLOWER_STALL_DETACH (R141). -/
  | followerStallDetach (c : Nat)
  /-- LOGGING_ENABLE (R322). -/
  | loggingEnable (cid : Nat)
  /-- ALARM_LEVEL_CONFIG (R360). -/
  | alarmLevelConfig (level : Nat)
  /-- MODULE_NUMBER_ASSIGN (R366). -/
  | moduleNumberAssign (n : Nat) (routes : List ModuleRoute)
  deriving DecidableEq, Repr

end Sys2Proof
end

