-- ==== Sys2Proof/Machine/State.lean ====
section
/-! DEFINITION. The state of one Z1 module as plain data: its cores, memory, engines, search engine, calender,
Headbox, security core and links, and the state right after reset. -/
namespace Sys2Proof.Machine
open Sys2Proof

/-- Why the machine stops. -/
inductive Fault where
  /-- Raised by step when nothing is on the agenda and the focused core has stopped in monitor mode (R346).
  Safe: the spec gives a stopped core no further step. -/
  | coreStopped
  deriving DecidableEq, Repr

/-- Why an instruction has no meaning here. -/
inductive Refusal where
  /-- Raised by exec's arms for an instruction without a meaning. Safe: nothing follows from it. -/
  | notModelled (mnemonic : String)
  deriving DecidableEq, Repr

/-- A sparse byte memory: addresses strictly rising, no entry equal to the byte an unlisted address reads as. -/
abbrev Memory := List Host.Cell

/-- The two modes of R10. -/
inductive Mode where
  | program | monitor
  deriving DecidableEq, Repr

/-- A vector register: 256 bits and a format tag (R11). -/
structure VecReg where
  bits : BitVec 256
  tag : Fmt
  deriving DecidableEq, Repr

/-- A gate frame (R209). -/
structure Frame where
  ret : Word
  caller : Byte
  deriving DecidableEq, Repr

/-- The states of a loan entry (R210). -/
inductive LoanState where
  | free | active | ended
  deriving DecidableEq, Repr

/-- A loan entry (R210). -/
structure Loan where
  state : LoanState
  base : Word
  len : Nat
  rw : Bool
  lender : Byte
  depth : Nat
  parent : Option (Fin 8)
  holds : Nat
  deriving DecidableEq, Repr

/-- The convoy states of R140. -/
inductive Convoy where
  | alone | leader | attached | left
  deriving DecidableEq, Repr

/-- What waits at a blocking point (R137, R313), or in YIELD (R73). -/
inductive Wait where
  | idle
  /-- BAR.WAIT or BAR.SYNC: the record, when the wait began, its TMO in microseconds. -/
  | barrier (adr : Word) (since : Nat) (tmo : Nat)
  | waita (ge : Bool) (adr : Word) (val : Word)
  | parked
  | cvyJoin
  | tnext (pd : PReg) (d : XReg) (sl : Slot)
  /-- In CAL.RUN, with the block address it named. -/
  | cal (block : Word)
  /-- A strong load of R312, by its operation number and destination. -/
  | strongLoad (id : Nat) (d : XReg) (adr : Word)
  | yield (since : Nat)
  deriving DecidableEq, Repr

/-- What an instruction that stalls, but is at no blocking point, stalls on. -/
inductive StallOn where
  | register | counter | matrixQueue | copySlot | beats | bteRequest | reduction | recl | fence | cwait | home | drain
  deriving DecidableEq, Repr

structure Stall where
  on : StallOn
  since : Nat
  deriving DecidableEq, Repr

/-- A copy or the home's answer of a watermark slot (R270). -/
structure SlotCopy where
  w : Int
  p : Nat
  seq : Nat
  g : Nat
  phase : Nat
  deriving DecidableEq, Repr

/-- A request of the search instructions on its way to a slot's home (R277, R282, R283). -/
inductive HomeReq where
  /-- TSPAWN: the slot, whether the bound failed against the copy, the bound and the argument. -/
  | spawn (sl : Slot) (failed : Bool) (bound : Word) (arg : Word)
  | update (sl : Slot) (value : Word) (payload : Nat)
  | set (sl : Slot) (value : Word) (payload : Nat) (gap : Word)
  deriving DecidableEq, Repr

/-- One instruction of a convoy leader's stream: where it went next and how its guard decided (R141). -/
structure TrailStep where
  next : Word
  cond : Bool
  deriving DecidableEq, Repr

/-- The CSRs with storage of their own (R12 and the chapters that add to it). -/
structure Csrs where
  fcsr : Word
  vl : Word
  ccsel : Word
  lpc0 : Word
  lps0 : Word
  lpe0 : Word
  lpc1 : Word
  lps1 : Word
  lpe1 : Word
  tkmode : Word
  tbnd : Word
  tc : Vector Word 8
  redmask : Word
  redtmo : Word
  mstat : Word
  xbar : Word
  tkillv : Vector Word 16
  instret : Word
  rank : Word
  teamsz : Word
  stage : Word
  gangid : Word
  bargen : Word
  baradr : Word
  ttask : Word
  accbase : Word
  acclim : Word
  cnt : Vector Nat 16
  tvec : Word
  tcause : Word
  tpc : Word
  tval : Word
  tring : Word
  tflags : Word
  dkentry : Word
  dkresume : Word
  dkdata : Word
  dkctx : Word
  dkwork : Vector Word 4
  deriving DecidableEq, Repr

/-- A core's debug block (R350). -/
structure DebugBlock where
  dctl : Word
  halted : Bool
  stable : Bool
  whit : Bool
  wnum : Fin 4
  wbase : Vector Word 4
  wctl : Vector Word 4
  deriving DecidableEq, Repr

/-- Who issued an operation: a launched thread, a core that runs a context without one, or a context put away. -/
inductive Owner where
  | thread (tid : Nat)
  | bare (core : Nat)
  /-- A context that lies in the save area with this key, another one having been loaded over it (R316, R352). -/
  | saved (key : Nat)
  deriving DecidableEq, Repr

/-- The paths of R181 and R191: the cores' own accesses, the three engine paths, and inbound writes. -/
inductive Route where
  | core | copy | matrix | bte | inbound
  deriving DecidableEq, Repr

/-- Which writes are ordered before an observer's accesses (R188 to R191): of path C those with a stamp up to base, and those
visible to every party at an instant up to level (R189); of every path those up to all; and of a byte with a key in locs those
up to its stamp. An engine operation issued later also lands on top of the writes in land (R192). -/
structure View where
  base : Nat
  level : Nat
  all : Nat
  locs : List (Nat × Nat)
  land : List (Nat × Nat)
  deriving DecidableEq, Repr

/-- The home's answer. -/
inductive HomeReply where
  | spawn (drop : Bool)
  | update (accepted : Bool)
  | set
  /-- To a TNEXT that waits in an evicted thread: its slot closed, with what the task ends release (R275, R284). -/
  | closed (ends : View)
  | refused (cause : Cause) (value : Word)
  deriving DecidableEq, Repr

/-- What FORK hands a recruit (R144). -/
structure Recruit where
  lo : Word
  hi : Word
  arg : Word
  cell : Word
  body : Word
  /-- What the forker had read and written, ordered before the recruit's accesses (R146). -/
  view : View
  deriving DecidableEq, Repr

/-- What a release carries for the acquires that read it (R188): the view, its scope and the releasing party. -/
structure Release where
  view : View
  scope : Scope
  who : Owner
  deriving DecidableEq, Repr

/-- Who writes: the path, the issuer, the engine operation or the inbound source (R191), the releases carried, and whether
the write is a strong one (R183). -/
structure Source where
  route : Route
  who : Option Owner
  num : Nat
  msg : List Release
  strong : Bool
  deriving DecidableEq, Repr

/-- A write as performed at its home (R185): the bytes it touched, as they were before it in coherence order. A strong store
is visible to every other party from one instant, counted in stamps; a weak one from the first read by another (R189). -/
structure Write where
  stamp : Nat
  clock : Nat
  src : Source
  vis : Option Nat
  cells : List Host.Cell
  deriving DecidableEq, Repr

/-- Where a weak load delivers: a register, with or without sign extension, or lanes of a vector register. -/
inductive LateDest where
  | scalar (d : XReg) (sext : Bool)
  | lanes (d : VReg) (l : List Nat)
  deriving DecidableEq, Repr

/-- A weak load whose value may still be that of a later performance (R184, R185, R191): its bytes, whether on a UN page, and
the number of writes there were when it was first performed. -/
structure LateLoad where
  dest : LateDest
  adr : Word
  size : Nat
  keys : List Nat
  un : Bool
  asOf : Nat
  deriving DecidableEq, Repr

/-- What an engine path's later operations follow (R191): their reads, and their writes. -/
structure Fenced where
  rd : View
  wr : View
  deriving DecidableEq, Repr

/-- A core's place in the consistency model of R182 to R192. -/
structure Views where
  /-- What is ordered before its later loads. -/
  ordered : View
  /-- What its own accesses read or wrote and no fence or strong access of it has ordered since. -/
  seen : View
  /-- The releases that its loads have read and no acquire fence has taken yet. -/
  acq : List Release
  /-- What a release fence hands to the core's later stores. -/
  rel : List Release
  /-- Writes of engine operations whose completion the core observed, and what its fences ordered of the other paths (R181,
  R191): visible to it alone. -/
  own : List (Route × Nat × Nat)
  /-- Completed operations not yet observed: token, counter and writes. -/
  fresh : List (XReg × Option (Fin 16) × List (Route × Nat × Nat))
  copy : Fenced
  matrix : Fenced
  bte : Fenced
  /-- What its engine operations have read: their path, and of the last write read at each byte its path, key and stamp (R181). -/
  reads : List (Route × Route × Nat × Nat)
  /-- The latest stamp observed of each inbound source. -/
  inbound : List (Nat × Nat)
  late : List LateLoad
  deriving DecidableEq, Repr

/-- One core (R11) with its tables, waits and engine-visible state. -/
structure Core where
  num : Nat
  x : Vector Word 32
  pc : Word
  p : Vector Bool 8
  v : Vector VecReg 32
  k : Vector (BitVec 32) 8
  mode : Mode
  csr : Csrs
  domain : Byte
  /-- The context of program mode (R347, R351). -/
  cid : Nat
  /-- The profiles the context's code objects declare (R43). -/
  declared : Byte
  /-- The thread the core holds, if the Headbox started one here (R132). -/
  tid : Option Nat
  gateHw : List Frame
  gateSpill : List Frame
  loans : Vector Loan 8
  lpt : Vector Byte 48
  pe : Vector Word 8
  tiles : Memory
  scales : Memory
  wake : Bool
  convoy : Convoy
  trail : List TrailStep
  /-- Pending x and v registers (R139), one bit each. -/
  pendX : BitVec 32
  pendV : BitVec 32
  /-- Results delivered while the thread was away, written at resume (R316). -/
  delivered : List (XReg × Word)
  /-- The fault of a strong load that failed while its thread was away, delivered at resume (R317, R368). -/
  loadFault : Option (Cause × Word)
  wait : Option Wait
  stall : Option Stall
  request : Option HomeReq
  reply : Option HomeReply
  recruit : Option Recruit
  /-- The save area that holds its context as it stands: of a CTX.SAVE or CTX.LOAD since the last MRET (R352). -/
  inArea : Option Nat
  /-- The address of the instruction that passed control to pc (R206). -/
  passer : Word
  /-- Bytes of its code the core stored over since the prefetch buffer was last emptied, as they were (R22). -/
  pfb : List Host.Cell
  /-- Global bytes changed since the instruction cache was last invalidated, as they were (R23). -/
  icache : List Host.Cell
  /-- Its place in the consistency model (R182 to R192). -/
  views : Views
  /-- REDs issued on trees T0 and T1 since the team's start (R158). -/
  red0 : Nat
  red1 : Nat
  dbg : DebugBlock
  stopped : Bool
  /-- Held in reset until the security core has written its Deckle image (R25). -/
  held : Bool
  /-- The live Deckle image it installed last, by its number (R358). -/
  deckle : Nat
  /-- The cycle at which the core left reset (R12). -/
  resetAt : Nat
  deriving DecidableEq, Repr

/-- The rights an access carries (R204, R215): the address space, context, domain and loans. -/
structure Rights where
  owner : Owner
  cid : Nat
  domain : Byte
  loans : Vector Loan 8
  inForce : List (Fin 8)
  team : Option Nat
  rank : Nat
  teamsz : Nat
  monitor : Bool
  deriving DecidableEq, Repr

/-- A matrix job as captured at issue (R226). -/
inductive Job where
  | tld (tc : TReg) (shape : Word) (adr : Word) (stride : Word)
  | tst (tc : TReg) (shape : Word) (adr : Word) (stride : Word)
  | tlds (tc : TReg) (shape : Word) (adr : Word) (stride : Word)
  | tzero (tc : TReg)
  | mma (zero : Bool) (ta : TReg) (shapeA : Word) (tb : TReg) (shapeB : Word) (desc : Word)
  | mtv (tc : TReg) (shape : Word) (adr : Word) (desc : Word)
  | acld (adr : Word) (desc : Word)
  | acst (adr : Word) (desc : Word)
  | accvt (tc : TReg) (shape : Word) (desc : Word) (rows : List Byte) (rm : Nat)
  | aczero (desc : Word)
  deriving DecidableEq, Repr

/-- Where an engine operation stands. -/
inductive Phase where
  | issued
  | started
  /-- A matrix job has read its memory: the bytes of its ranges, or why they failed, and whether at a check (R227). -/
  | fetched (fail : Option (Bool × Cause × Word)) (data : List (List Byte))
  /-- The outcome is known: status, count and failing address; the completion word is still to be written. -/
  | moved (status : Cause) (count : Nat) (fa : Word)
  deriving DecidableEq, Repr

/-- What an engine operation does. -/
inductive Body where
  | matrix (cluster : Nat) (lane : Bool) (accbase : Nat) (job : Job)
  | cpy (dst : Word) (src : Word) (len : Nat) (bar : Option Word)
  | cpyf (dst : Word) (pat : Word) (len : Nat) (bar : Option Word)
  | tcpy (dst : Word) (src : Word) (desc : Word) (bar : Option Word)
  /-- BTE.GO: the channel, ring header, chain head, and when its next attempt is due while it is held. -/
  | bte (chan : Nat) (ring : Word) (head : Word) (accepted : Bool) (retryAt : Nat)
  | red (team : Nat) (tree : Bool) (n : Nat) (vd : VGroup)
  /-- A delayed strong load, with the bytes it was sent to (R312) and, of an acquire, its scope (R176). -/
  | strong (d : XReg) (adr : Word) (size : Nat) (sext : Bool) (keys : List Nat) (acq : Option Scope)
  | cal (team : Nat)
  deriving DecidableEq, Repr

/-- An engine operation issued and not completed: its token, counter and captured holds (R138, R139, R215). -/
structure Op where
  id : Nat
  owner : Owner
  cls : Nat
  tok : XReg
  ctr : Option (Fin 16)
  pc : Word
  rights : Rights
  holds : List (Fin 8)
  body : Body
  phase : Phase
  /-- Beats the operation has still to subtract (R249). -/
  beats : Nat
  /-- The thread has ended or been killed out of the run: the completion is discarded (R349, R296). -/
  discard : Bool
  /-- What its reads and its writes follow (R191). -/
  fenced : Fenced
  /-- Issued in monitor mode over a context that lies in a save area: it is no part of that context (R215, R352). -/
  apart : Bool
  deriving DecidableEq, Repr

/-- A contribution to a reduction (R157). -/
structure Packet where
  rank : Nat
  op : Nat
  fmt : RedFmt
  data : List Byte
  since : Nat
  tmo : Nat
  opId : Nat
  /-- What the contributor had read and written (R161). -/
  view : View
  deriving DecidableEq, Repr

/-- How a reduction closed (R160, R161). -/
structure RedOutcome where
  status : Cause
  result : List Byte
  mask : Word
  flags : Word
  fmt : RedFmt
  view : View
  deriving DecidableEq, Repr

/-- One reduction of a team (R158, R160). -/
structure Reduction where
  tree : Bool
  n : Nat
  packets : List Packet
  closed : Option RedOutcome
  deriving DecidableEq, Repr

/-- One member's part in a calender run (R289, R295). -/
structure CalMember where
  rank : Nat
  opId : Nat
  block : Word
  xd : XReg
  /-- The address of the CAL.RUN it waits in, none while a kernel runs. -/
  waiting : Option Word
  /-- Dispatched, but away from its core: the dispatch waits for its resumption (R298). -/
  due : Bool
  done : Bool
  deriving DecidableEq, Repr

/-- A team's calender run: the state of R294, the configuration captured at its start (R286) and its progress. -/
structure CalRun where
  state : Nat
  members : List CalMember
  lastArrival : Nat
  rights : Option Rights
  block : Nat
  cfg : List Byte
  best : Word
  prev : Word
  rung : Nat
  iter : Nat
  iters : Nat
  riters : List Nat
  exit : Nat
  /-- A member's fault or kill, or a failed access, that ends the run: exit code, status, failing address. -/
  ending : Option (Nat × Cause × Word)
  /-- Rank 0 traps with CALEXIT when it completes (R293). -/
  trapExit : Bool
  /-- What the re-arrivals have released (R291), and how many writes there were at the last dispatch: a later store to ABORT
  that nothing orders before the next dispatch may be missed there (R294, R299). -/
  view : View
  asOf : Nat
  deriving DecidableEq, Repr

/-- A team (R128). -/
structure Team where
  id : Nat
  gang : Nat
  cid : Nat
  size : Nat
  stage : Nat
  field : Nat
  accn : Nat
  reds : List Reduction
  cal : CalRun
  /-- The rank nominated by the most recent CVY.LEAD of each cluster group (R140). -/
  nominees : List (Nat × Nat)
  ended : Bool
  deriving DecidableEq, Repr

/-- A launched thread: where its local-store region lies, and its saved core when it is evicted (R314). -/
structure Thread where
  tid : Nat
  cid : Nat
  gang : Nat
  team : Nat
  rank : Nat
  home : Nat
  /-- End-thread service requested; the thread waits for its operations to drain (R349). -/
  ending : Bool
  ended : Bool
  evicted : Option Core
  /-- The field named at the eviction of a waiting TNEXT: where it resumes (R325). -/
  named : Nat
  /-- Not started yet: a WEAK thread whose core was not free at the commit (R135). -/
  unstarted : Bool
  deriving DecidableEq, Repr

/-- The states of R339. -/
inductive GangState where
  | pending | reserving | running | ended | refused | failed
  deriving DecidableEq, Repr

/-- A team to start: partition, size, stage and accumulator rows (R335). -/
structure TeamPlan where
  field : Nat
  size : Nat
  stage : Nat
  accn : Nat
  deriving DecidableEq, Repr

/-- A gang from its LAUNCH packet (R335, R339). -/
structure Gang where
  id : Nat
  gangid : Nat
  queue : Nat
  seq : Nat
  cid : Nat
  cls : Nat
  latency : Bool
  arg : Word
  handle : Nat
  slots : Nat
  nchan : Nat
  staddr : Word
  plan : List TeamPlan
  state : GangState
  /-- The launch it forms one unit with (R335). -/
  partner : Option Nat
  channels : List Nat
  cause : Cause
  tstart : Nat
  /-- TIME when it ended (R339). -/
  tend : Nat
  deriving DecidableEq, Repr

/-- A loaded code object (R338): its bytes, profiles, entry and local-store image. -/
structure CodeObject where
  cid : Nat
  handle : Nat
  bytes : List Byte
  profiles : Byte
  entry : Word
  teamLo : Nat
  teamHi : Nat
  /-- Image content: local address, tag and bytes. -/
  image : List (Nat × Byte × List Byte)
  /-- Addresses and sizes of its global sections. -/
  sections : List (Nat × Nat)
  /-- Page-table entries the loader wrote to map them. -/
  ptes : List Nat
  refs : List Nat
  deriving DecidableEq, Repr

/-- A packet taken from a ring and not yet complete. -/
structure TakenPacket where
  seq : Nat
  bytes : List Byte
  started : Bool
  completed : Bool
  /-- The gang a LAUNCH has become. -/
  gang : Option Nat
  /-- The access of a SIGNAL or WAIT failed: it never completes (R375). -/
  failed : Bool
  /-- Taken since EN was last set: DONE counts it (R330). -/
  counted : Bool
  /-- The context of the queue when it was taken: it runs on there (R330). -/
  cid : Nat
  /-- A JOINPREV LAUNCH taken up when no LAUNCH directly before it awaited its commit (R335, R339). -/
  late : Bool
  deriving DecidableEq, Repr

/-- A queue register block and its fetcher (R329). -/
structure Queue where
  q : Nat
  base : Word
  ctl : Word
  seq : Nat
  tail : Nat
  head : Nat
  donea : Word
  done : Nat
  reason : Nat
  state : Nat
  priv : Bool
  /-- Packets taken and not yet counted by DONE, in order. -/
  taken : List TakenPacket
  /-- Headers fetched ahead in AHEAD mode, by packet number (R334). -/
  ahead : List (Nat × List Byte)
  /-- A tail write latched during a restart (R341). -/
  latch : Option Nat
  deriving DecidableEq, Repr

/-- A task record (R271) with the field of the segment it lies in, its place in the queue there, and what its spawn
releases (R284). -/
structure TaskRec where
  bound : Int
  arg : Word
  pseq : Nat
  seq : Nat
  slot : Slot
  root : Bool
  moved : Bool
  field : Nat
  order : Nat
  view : View
  deriving DecidableEq, Repr

/-- A watermark slot at its home (R268) with the copies that differ from the last WMK.SET (R270). -/
structure WSlot where
  granted : Option Nat
  w : Int
  p : Nat
  seq : Nat
  g : Nat
  phase : Nat
  queued : Nat
  running : Nat
  spawned : Bool
  base : SlotCopy
  copies : List (CopyHolder × SlotCopy)
  /-- The slot's spill area in HBM while it is granted (R340). -/
  area : Option Nat
  /-- The records that lie there, in order: the number of each, and what its spawn releases. -/
  spill : List (Nat × View)
  /-- The collective group of a joined slot, and whether a member's loss has closed it (R368). -/
  joined : Option Nat
  lost : Bool
  /-- SEQs of the tasks that were running when a loss closed it: they count no longer (R368). -/
  orphans : List Nat
  /-- What its run of accepted updates and SETs releases, and the task ends since the last SET (R284). -/
  view : View
  ends : View
  deriving DecidableEq, Repr

/-- A block-transfer channel in use (R251, R256): the chain's operation, the record in progress and the counts. -/
structure Channel where
  ch : Nat
  op : Option Nat
  recAdr : Word
  moved : Nat
  /-- 0 idle, 1 taking up, 2 moving, 3 stalled on the ring, 4 stalled on BEATS, 5 at its end, its completion still to come. -/
  phase : Nat
  /-- The record being moved, as read at take-up. -/
  bytes : List Byte
  /-- The entry waiting for room in the ring: ID, status, count, failing address, record. -/
  entry : Option (Nat × Cause × Nat × Word × Word)
  lastId : Nat
  last : Cause
  deriving DecidableEq, Repr

/-- A cached leaf of a translation station (R172). -/
structure Leaf where
  station : Nat
  cid : Nat
  page : Nat
  bits : Nat
  entry : Word
  deriving DecidableEq, Repr

/-- A walk in flight, or a request held for want of room (R172). -/
structure Miss where
  station : Nat
  cid : Nat
  page : Nat
  /-- What the walk has found: the leaf and its page bits, or the cause that every request merged in it faults with. -/
  found : Cause ⊕ (Word × Nat)
  deriving DecidableEq, Repr

/-- The interface states of R357. -/
inductive IfState where
  | unlocked | locked | run | error
  deriving DecidableEq, Repr

/-- What the security core records of a context. -/
structure Context where
  cid : Nat
  root : Option Nat
  keySlot : Option Nat
  reach : Memory
  protect : Bool
  iface : IfState
  policy : Policy
  /-- Teardown has begun; drained once the context's operations completed (R362). -/
  ending : Bool
  /-- Its operations have completed; what is left of teardown is the scrub (R362). -/
  drained : Bool
  /-- Its threads are halted (R357, R360, R362). -/
  halted : Bool
  logging : Bool
  deriving DecidableEq, Repr

/-- An ownership table entry (R353). -/
inductive Own where
  | free
  | assigned (cids : List Nat)
  | dirty
  deriving DecidableEq, Repr

/-- What the ownership table has an entry for (R353). -/
inductive Thing where
  | core (c : Nat)
  | page (c : Nat) (n : Nat)
  | granule (g : Nat)
  deriving DecidableEq, Repr

/-- The source of an entry of the replay log (R322): a core, an engine operation, an inbound source, a reduction or a calender
of a team, the home of a watermark slot, the Headbox or the security core. -/
inductive Origin where
  | core (c : Nat)
  | engine (r : Route) (id : Nat)
  | inbound (src : Nat)
  | team (id : Nat)
  | slot (sl : Slot)
  | channel (ch : Nat)
  | module
  deriving DecidableEq, Repr

/-- One entry of the replay log (R322): the core it reached, its source, the instructions the core had retired, what it is, its
value, and for a write the bytes of the own local store it changed. -/
structure LogEntry where
  core : Nat
  source : Origin
  place : Word
  what : Nat
  value : Word
  cells : List Host.Cell
  deriving DecidableEq, Repr

/-- One event of management's log. -/
structure Event where
  core : Nat
  what : Nat
  value : Word
  deriving DecidableEq, Repr

/-- A sealed link (R355): whether keyed, the counters of the batches it has sent and received under the key, and the
cycles of its recent tag failures. -/
structure Link where
  num : Nat
  keyed : Bool
  sent : Nat
  got : Nat
  fails : List Nat
  deriving DecidableEq, Repr

/-- A member's state in a collective group (R367). -/
inductive MemberState where
  | attesting | active | lost
  deriving DecidableEq, Repr

structure Group where
  g : Nat
  members : List (Nat × MemberState)
  primary : Nat
  policy : Policy
  /-- The watermark slots joined across it (R267). -/
  slots : List Slot
  /-- Pairs of members, of which the first has verified the second's report; and the members whose Causeway keys for the group are
  set (R367). -/
  pairs : List (Nat × Nat)
  keyed : List Nat
  deriving DecidableEq, Repr

/-- The answers of the DOE mailbox (R354, R356, R358, R361). -/
inductive Answer where
  | ok | refused
  /-- The retry hint in microseconds. -/
  | busy (hint : Nat)
  | measurement (digest : Nat)
  /-- A report: the measurements, the fused version, the nonce, the interface states, the signature. -/
  | report (measured : List (FwPart × Nat)) (version : Nat) (nonce : Word) (ifaces : List (Nat × IfState)) (sig : Nat)
  deriving DecidableEq, Repr

/-- The security core (R345 to R363). -/
structure Security where
  contexts : List Context
  /-- Entries that are not FREE; kept over every reset (R353). -/
  owned : List (Thing × Own)
  /-- Activated leaves: where, for which context, and the entry as it was activated (R170, R354). -/
  activated : List (Nat × Nat × Word)
  /-- Leaves written and not activated yet: where, for which context, and the entry (R354). -/
  checked : List (Nat × Nat × Word)
  measured : List (FwPart × Nat)
  /-- The security version of each part's image (R359). -/
  versions : List (FwPart × Nat)
  /-- The image being exchanged, its digest and version, and the cycle at which its commit window opened (R358). -/
  window : Option (FwPart × Nat × Nat × Nat)
  /-- The latest live Deckle image, which each core installs at its next monitor entry (R358): its number and bytes. -/
  deckle : Nat × List Byte
  /-- Cores released since the last reset (R25, R373): a count that the model keeps. -/
  released : Nat
  fuses : Nat
  sigIndex : Nat
  seedErased : Bool
  alarm : Option Nat
  alarmed : Bool
  owner : Option Nat
  heartbeat : Nat
  former : List Nat
  answers : List Answer
  scrub : List Thing
  /-- 4 KiB units already zeroed of the granule at the head of scrub. -/
  scrubPart : Nat
  scrubTotal : Nat
  scrubDone : Nat
  scrubActive : Bool
  /-- The scrub is one that a reset left: no mapping is accepted until it is finished (R362). -/
  boot : Bool
  keys : List Nat
  /-- The physical area of the Deckle monitor (R347): base and length. -/
  area : Option (Nat × Nat)
  links : List Link
  events : List Event
  deriving DecidableEq, Repr

/-- Who moves next: a step of the module, or a core. -/
inductive Turn where
  | event (i : Instr)
  | core (c : Nat)
  deriving DecidableEq, Repr

/-- The whole module. -/
structure State where
  /-- The core in focus. -/
  core : Core
  /-- The other cores that have left their reset state; a core not listed is as after reset. -/
  others : List Core
  /-- Physical memory, and local stores above it. -/
  mem : Memory
  /-- 8-byte units whose data is uncorrectable (R165). -/
  poison : List Nat
  /-- 8-byte units with a single-bit error, which the next read of them corrects (R165): of the data, mem holds what is corrected. -/
  singles : List Nat
  /-- Accumulator elements and row tags of every cluster (R219, R220). -/
  acc : Memory
  accTags : Memory
  /-- The writes performed, the latest in coherence order first (R185). -/
  hist : List Write
  /-- How many writes have been performed. -/
  stamp : Nat
  /-- Cycles of the main clock since module reset. -/
  clock : Nat
  /-- How many free values the steps have drawn. The model's own field. -/
  freeCount : Nat
  /-- Turns to come. The model's own field: plain data that says which agent moves next. -/
  agenda : List Turn
  nextId : Nat
  ops : List Op
  /-- The core each matrix unit served last: twice the cluster, plus one for the transfer unit (R218). -/
  served : List (Nat × Nat)
  threads : List Thread
  teams : List Team
  gangs : List Gang
  slots : Vector WSlot 16
  records : List TaskRec
  /-- Spawn counters of the segments that have one (R271). -/
  spawnCounters : List (Nat × Nat)
  channels : List Channel
  leaves : List Leaf
  misses : List Miss
  heldMisses : List Miss
  queues : List Queue
  objects : List CodeObject
  restarting : Bool
  restartAt : Nat
  /-- Ends of gangs not yet reported because the Headbox restarts (R341). -/
  reports : List Nat
  /-- Permits spent on each command link (R328). -/
  permits : List (Nat × Nat)
  /-- Fields whose notify aperture is gated, and the cores whose writes are latched there (R342). -/
  gated : List Nat
  gatedWrites : List Nat
  /-- Asynchronous records waiting for room in a trap ring (R310): the operation and its record's fields. -/
  asyncWaiting : List (Nat × Cause × Word × Word)
  replayLog : List LogEntry
  /-- The spilled gate frames of the threads that CTX.SAVE saved, by the key of the save area (R209). -/
  gateSpills : List (Nat × List Frame)
  sec : Security
  groups : List Group
  moduleNumber : Nat
  routes : List ModuleRoute
  /-- Ports and links in retransmission: the link and the cycle it failed (R365, R366). -/
  recovering : List (Nat × Nat)
  throttle : Vector (Fin 16) 8
  /-- The cycle since which the module has been below its power limit (R370). -/
  belowSince : Option Nat
  deriving DecidableEq, Repr

/-- A loan entry that holds no loan (R210). -/
def Loan.empty : Loan := ⟨.free, 0, 0, false, 0, 0, none, 0⟩

/-- The CSRs after reset (R12); REDTMO is 100, every other stored field 0. -/
def Csrs.reset : Csrs where
  fcsr := 0
  vl := 0
  ccsel := 0
  lpc0 := 0
  lps0 := 0
  lpe0 := 0
  lpc1 := 0
  lps1 := 0
  lpe1 := 0
  tkmode := 0
  tbnd := 0
  tc := Vector.replicate 8 0
  redmask := 0
  redtmo := 100
  mstat := 0
  xbar := 0
  tkillv := Vector.replicate 16 0
  instret := 0
  rank := 0
  teamsz := 0
  stage := 0
  gangid := 0
  bargen := 0
  baradr := 0
  ttask := 0
  accbase := 0
  acclim := 0
  cnt := Vector.replicate 16 0
  tvec := 0
  tcause := 0
  tpc := 0
  tval := 0
  tring := 0
  tflags := 0
  dkentry := 0
  dkresume := 0
  dkdata := 0
  dkctx := 0
  dkwork := Vector.replicate 4 0

def DebugBlock.reset : DebugBlock where
  dctl := 0
  halted := false
  stable := false
  whit := false
  wnum := 0
  wbase := Vector.replicate 4 0
  wctl := Vector.replicate 4 0

def View.empty : View := ⟨0, 0, 0, [], []⟩

/-- Every write so far, n of them. -/
def View.upTo (n : Nat) : View := ⟨n, n, n, [], []⟩

/-- The views of a core that starts or resumes after n writes: all of them are ordered before it. -/
def Views.start (n : Nat) : Views where
  ordered := View.upTo n
  seen := View.empty
  acq := []
  rel := []
  own := []
  fresh := []
  copy := ⟨View.upTo n, View.upTo n⟩
  matrix := ⟨View.upTo n, View.upTo n⟩
  bte := ⟨View.upTo n, View.upTo n⟩
  reads := []
  inbound := []
  late := []

/-- Core n after reset (R11, R12, R25, R306, R347, R350, R351). DESIGN CHOICE: LPT tags 0 and the declared set 0x3F,
to which the spec gives no reset value. It is held in reset until the security core releases it. -/
def Core.reset (n : Nat) : Core where
  num := n
  x := Vector.replicate 32 0
  pc := 0x2F000
  p := Vector.replicate 8 false
  v := Vector.replicate 32 ⟨0, .none⟩
  k := Vector.replicate 8 0
  mode := .monitor
  csr := Csrs.reset
  domain := 255
  cid := 0
  declared := 0x3F
  tid := none
  gateHw := []
  gateSpill := []
  loans := Vector.replicate 8 Loan.empty
  lpt := Vector.replicate 48 0
  pe := Vector.replicate 8 0
  tiles := []
  scales := []
  wake := false
  convoy := .alone
  trail := []
  pendX := 0
  pendV := 0
  delivered := []
  loadFault := none
  wait := none
  stall := none
  request := none
  reply := none
  recruit := none
  inArea := none
  passer := 0
  pfb := []
  icache := []
  views := Views.start 0
  red0 := 0
  red1 := 0
  dbg := DebugBlock.reset
  stopped := false
  held := true
  deckle := 0
  resetAt := 0

/-- The copy of a slot at its grant (R268); PHASE is 0 CLOSED, 1 OPENING, 2 OPEN. -/
def SlotCopy.reset : SlotCopy := ⟨9223372036854775807, 4294967295, 0, 0, 0⟩

/-- A slot nobody holds, with the values of its grant (R268). -/
def WSlot.reset : WSlot where
  granted := none
  w := 9223372036854775807
  p := 4294967295
  seq := 0
  g := 0
  phase := 0
  queued := 0
  running := 0
  spawned := false
  base := SlotCopy.reset
  copies := []
  area := none
  spill := []
  joined := none
  lost := false
  orphans := []
  view := View.empty
  ends := View.empty

/-- The security core as the model starts it. DESIGN CHOICE: images of version 0 with measurements that are
free values, no alarm level configured, nothing owned. -/
def Security.reset : Security where
  contexts := []
  owned := []
  activated := []
  checked := []
  measured := [.security, .deckle, .headbox, .slice, .management].zipIdx.map fun e => (e.1, Config.bootDigest e.2)
  versions := [(.security, 0), (.deckle, 0), (.headbox, 0), (.slice, 0), (.management, 0)]
  window := none
  deckle := (0, [])
  released := 0
  fuses := 0
  sigIndex := 0
  seedErased := false
  alarm := none
  alarmed := false
  owner := none
  heartbeat := 0
  former := []
  answers := []
  scrub := []
  scrubPart := 0
  scrubTotal := 0
  scrubDone := 0
  scrubActive := false
  boot := false
  keys := []
  area := some Config.monitorArea
  links := []
  events := []

/-- A team's calender before any run (R294, R297). -/
def CalRun.idle : CalRun where
  state := 0
  members := []
  lastArrival := 0
  rights := none
  block := 0
  cfg := []
  best := 0
  prev := 0
  rung := 0
  iter := 0
  iters := 0
  riters := [0, 0, 0, 0]
  exit := 255
  ending := none
  trapExit := false
  view := View.empty
  asOf := 0

/-- The module right after reset (R11, R12, R25, R373): core 0 in focus, every core held until the security core
writes its Deckle image, memory with nothing listed, every unit idle. -/
def State.reset : State where
  core := Core.reset 0
  others := []
  mem := []
  poison := []
  singles := []
  acc := []
  accTags := []
  hist := []
  stamp := 0
  clock := 0
  freeCount := 0
  agenda := []
  nextId := 0
  ops := []
  served := []
  threads := []
  teams := []
  gangs := []
  slots := Vector.replicate 16 WSlot.reset
  records := []
  spawnCounters := []
  channels := []
  leaves := []
  misses := []
  heldMisses := []
  queues := []
  objects := []
  restarting := false
  restartAt := 0
  reports := []
  permits := []
  gated := []
  gatedWrites := []
  asyncWaiting := []
  replayLog := []
  gateSpills := []
  sec := Security.reset
  groups := []
  moduleNumber := 0
  routes := []
  recovering := []
  throttle := Vector.replicate 8 0
  belowSince := none

end Sys2Proof.Machine
end

