-- ==== Sys2Proof/Machine/Mem.lean ====
section
/-! DEFINITION. Bytes and memory: the canonical sparse memory, byte order (R3), and where the bytes of local stores
and of the physical address space lie in it. -/
namespace Sys2Proof.Machine
open Sys2Proof

/-- The byte at a key; an unlisted key reads as 0 (DESIGN CHOICE: R25 and R373 leave unwritten bytes undefined). -/
def Memory.get : Memory → Nat → Byte
  | [], _ => 0
  | (k, b) :: t, a => if k = a then b else Memory.get t a

/-- Sets a byte and keeps the canonical form: keys rising, no entry 0. -/
def Memory.set : Memory → Nat → Byte → Memory
  | [], a, b => if b = 0 then [] else [(a, b)]
  | (k, c) :: t, a, b =>
    if a < k then (if b = 0 then (k, c) :: t else (a, b) :: (k, c) :: t)
    else if a = k then (if b = 0 then t else (a, b) :: t)
    else (k, c) :: Memory.set t a b

/-- The canonical form: keys strictly rising and no entry equal to what an unlisted key reads as. -/
def Memory.wf : Memory → Bool
  | [] => true
  | [(_, b)] => b != 0
  | (a, b) :: (a', b') :: t => b != 0 && decide (a < a') && Memory.wf ((a', b') :: t)

/-- The n bytes from key a up. -/
def Memory.read (m : Memory) (a : Nat) : Nat → List Byte
  | 0 => []
  | n + 1 => m.get a :: Memory.read m (a + 1) n

/-- Writes bytes from key a up. -/
def Memory.write (m : Memory) (a : Nat) : List Byte → Memory
  | [] => m
  | b :: t => Memory.write (m.set a b) (a + 1) t

/-- The unsigned value of bytes, lowest first (R3). -/
def natOfBytes : List Byte → Nat
  | [] => 0
  | b :: t => b.toNat + 256 * natOfBytes t

/-- The n low bytes of a value, lowest first (R3). -/
def bytesOfNat : Nat → Nat → List Byte
  | 0, _ => []
  | n + 1, v => BitVec.ofNat 8 v :: bytesOfNat n (v / 256)

def wordOfBytes (l : List Byte) : Word := BitVec.ofNat 64 (natOfBytes l)
def bytesOfWord (w : Word) : List Byte := bytesOfNat 8 w.toNat

/-- The little-endian field of n bytes at an offset of a byte string. -/
def fieldAt (l : List Byte) (off n : Nat) : Nat := natOfBytes ((l.drop off).take n)

/-- sext of the low n bits of a value (R5). -/
def sextNat (n v : Nat) : Word := (BitVec.ofNat n v).signExtend 64

/-- Bits hi down to lo of a word (R5). -/
def bitsOf (w : Word) (hi lo : Nat) : Nat := w.toNat / 2 ^ lo % 2 ^ (hi + 1 - lo)

def bitOf (w : Word) (i : Nat) : Bool := w.getLsbD i

/-- The key of a local-store byte: above the 52 bits of the physical address space (R171, R182). -/
def localKey (c off : Nat) : Nat := 2 ^ 52 + c * 2 ^ 18 + off

/-- The key of a byte of the accumulator store: element (row, col) of a cluster (R219). -/
def accKey (cluster row col : Nat) : Nat := ((cluster * 128 + row) * 128 + col) * 4

/-- 1,048,576 cores (R16). -/
def numCores : Nat := 1048576

/-- The field of a core, stack and field number together, 0 to 1,023 (R16, R271). -/
def fieldOf (c : Nat) : Nat := c / 1024

/-- The cluster of a core (R16). -/
def clusterOf (c : Nat) : Nat := c / 8

def State.readMem (s : State) (key n : Nat) : List Byte := s.mem.read key n

def State.writeMem (s : State) (key : Nat) (data : List Byte) : State := { s with mem := s.mem.write key data }

/-- What the n bytes from a key up were before no access can read any more. -/
def State.forget (s : State) (key n : Nat) : State :=
  { s with hist := s.hist.map fun e => { e with cells := e.cells.filter fun c => !(decide (key ≤ c.1 ∧ c.1 < key + n)) } }

/-- The bytes from a key up are written outside the coherence order (a region moved or filled, an area zeroed). -/
def State.overwrite (s : State) (key : Nat) (data : List Byte) : State := (s.writeMem key data).forget key data.length

/-- Where the byte of a key is kept: the two windows of R171 onto host memory show the same bytes (DEDUCED). -/
def hostKey (k : Nat) : Nat := if 2 ^ 51 ≤ k ∧ k < 3 * 2 ^ 50 then k - 2 ^ 50 else k

/-- Whether a byte lies in a unit whose data is uncorrectable (R165). -/
def State.poisoned (s : State) (key n : Nat) : Bool :=
  s.poison.any fun u => decide (u * 8 < hostKey key + n ∧ hostKey key < u * 8 + 8)

/-- A core by its number; one that is not listed is as after reset. -/
def State.getCore (s : State) (c : Nat) : Core :=
  if s.core.num = c then s.core else (s.others.find? fun o => o.num == c).getD (Core.reset c)

def insertCore (c : Core) : List Core → List Core
  | [] => [c]
  | o :: t => if c.num < o.num then c :: o :: t else if c.num = o.num then c :: t else o :: insertCore c t

/-- Puts a core's state back under its number. -/
def State.putCore (s : State) (c : Core) : State :=
  if s.core.num = c.num then { s with core := c } else { s with others := insertCore c s.others }

def State.modCore (s : State) (c : Nat) (f : Core → Core) : State := s.putCore (f (s.getCore c))

/-- Brings core c into focus. -/
def State.focus (s : State) (c : Nat) : State :=
  if s.core.num = c then s
  else
    { s with core := s.getCore c, others := insertCore s.core (s.others.filter fun o => o.num != c) }

/-- Runs f with core c in focus, and brings the core that was in focus back. -/
def State.onCore (s : State) (c : Nat) (f : State → State) : State := (f (s.focus c)).focus s.core.num

/-- Draws a fresh index for a free value. -/
def State.draw (s : State) : State × Nat := ({ s with freeCount := s.freeCount + 1 }, s.freeCount)

/-- Draws a fresh number for an operation, thread, team or gang. -/
def State.fresh (s : State) : State × Nat := ({ s with nextId := s.nextId + 1 }, s.nextId)

/-- TIME in nanoseconds (R12): two cycles to a nanosecond (R4). DESIGN CHOICE: R12 lets the cores' reads of TIME differ
by up to 2 ns; every core reads the one clock here, with no skew. -/
def State.time (s : State) : Word := BitVec.ofNat 64 (s.clock / 2)

/-- Replaces the entries of a list that p picks by f of them. -/
def modWhere {α : Type} (p : α → Bool) (f : α → α) (l : List α) : List α := l.map fun a => if p a then f a else a

/-- The value under a key, or a default. -/
def lookupD (l : List (Nat × Nat)) (k d : Nat) : Nat := ((l.find? fun e => e.1 == k).map (·.2)).getD d

/-- Sets the value under a key. -/
def assign (l : List (Nat × Nat)) (k v : Nat) : List (Nat × Nat) := (k, v) :: l.filter fun e => e.1 != k

/-- x[r] (R11): x0 reads 0. -/
def Core.rx (c : Core) (r : XReg) : Word := if r = 0 then 0 else c.x.get r

/-- Writes x[r]; a write to x0 is dropped (R11). -/
def Core.wx (c : Core) (r : XReg) (v : Word) : Core := if r = 0 then c else { c with x := c.x.set r v }

/-- p[r] (R11): p0 reads true. -/
def Core.rp (c : Core) (r : PReg) : Bool := if r = 0 then true else c.p.get r

/-- Writes p[r]; a write to p0 is dropped (R11). -/
def Core.wp (c : Core) (r : PReg) (v : Bool) : Core := if r = 0 then c else { c with p := c.p.set r v }

/-- k[r] (R11): k0 reads all ones. -/
def Core.rk (c : Core) (r : KReg) : BitVec 32 := if r = 0 then BitVec.allOnes 32 else c.k.get r

/-- Writes k[r]; a write to k0 is dropped (R11). -/
def Core.wk (c : Core) (r : KReg) (v : BitVec 32) : Core := if r = 0 then c else { c with k := c.k.set r v }

def Core.rv (c : Core) (r : VReg) : VecReg := c.v.get r
def Core.wv (c : Core) (r : VReg) (v : VecReg) : Core := { c with v := c.v.set r v }

/-- GDEPTH (R209): the frames in the core and those spilled. -/
def Core.gdepth (c : Core) : Nat := c.gateHw.length + c.gateSpill.length

def State.rx (s : State) (r : XReg) : Word := s.core.rx r
def State.wx (s : State) (r : XReg) (v : Word) : State := { s with core := s.core.wx r v }
def State.rp (s : State) (r : PReg) : Bool := s.core.rp r
def State.wp (s : State) (r : PReg) (v : Bool) : State := { s with core := s.core.wp r v }
def State.rk (s : State) (r : KReg) : BitVec 32 := s.core.rk r
def State.wk (s : State) (r : KReg) (v : BitVec 32) : State := { s with core := s.core.wk r v }
def State.rv (s : State) (r : VReg) : VecReg := s.core.rv r
def State.wv (s : State) (r : VReg) (v : VecReg) : State := { s with core := s.core.wv r v }
def State.setCsr (s : State) (c : Csrs) : State := { s with core := { s.core with csr := c } }

/-- Tile byte b of slot t, and its memory key (R221). -/
def tileKey (t : TReg) (b : Nat) : Nat := t.val * 1024 + b
def scaleKey (t : TReg) (row : Nat) : Nat := (t.val * 32 + row) * 2

end Sys2Proof.Machine
end

