-- ==== Sys2Proof/Machine/Float.lean ====
section
/-! DEFINITION. Number formats and their arithmetic (R74 to R88, R374): exact dyadic values, rounded once. -/
namespace Sys2Proof.Machine
open Sys2Proof

/-- The rounding modes of R78. -/
inductive Rm where
  | rne | rtz | rdn | rup | rna
  deriving DecidableEq, Repr

/-- The mode of a rounding code (R78). No write leaves 5 to 7 in FCSR.RM (R14); DESIGN CHOICE (log 46): one that a save area brings
rounds as RNE. -/
def rmOf : Nat → Rm
  | 1 => .rtz | 2 => .rdn | 3 => .rup | 4 => .rna | _ => .rne

/-- The sticky flags at their places in FCSR (R14, R79). -/
def flNV : Word := 8
def flDZ : Word := 16
def flOF : Word := 32
def flUF : Word := 64
def flNX : Word := 128
def flUFLUSH : Word := 256

/-- A value: NaN (signalling or quiet), infinity, or (-1)^neg * m * 2^e; m = 0 is a zero with its sign. -/
inductive Num where
  | nan (sig : Bool)
  | inf (neg : Bool)
  | fin (neg : Bool) (m : Nat) (e : Int)
  deriving DecidableEq, Repr

/-- A floating-point format (R76). -/
structure FpFmt where
  ebits : Nat
  p : Nat
  bias : Nat
  /-- FP8E4: no infinities, one NaN pattern per sign. -/
  noInf : Bool
  /-- Overflow saturates in every mode (R78). -/
  sat : Bool
  deriving DecidableEq, Repr

/-- The formats of R76; the shared-scale formats hold the same elements (R83). -/
def fpFmt : Fmt → Option FpFmt
  | .fp8e4 | .fp8e4s => some ⟨4, 3, 7, true, true⟩
  | .fp8e5 | .fp8e5s => some ⟨5, 2, 15, false, true⟩
  | .bf16 => some ⟨8, 7, 127, false, false⟩
  | .fp16 => some ⟨5, 10, 15, false, false⟩
  | .fp32 => some ⟨8, 23, 127, false, false⟩
  | .fp64 => some ⟨11, 52, 1023, false, false⟩
  | _ => none

/-- Lane width in bits (R74, R89). -/
def lanewidth : Fmt → Nat
  | .i16 | .bf16 | .fp16 => 16
  | .i32 | .fp32 => 32
  | .i64 | .fp64 => 64
  | _ => 8

def isInt : Fmt → Bool
  | .i8 | .i16 | .i32 | .i64 => true
  | _ => false

/-- The class FPA of R93. -/
def isFpa : Fmt → Bool
  | .bf16 | .fp16 | .fp32 | .fp64 => true
  | _ => false

/-- The class CVT of R93. -/
def isCvt (f : Fmt) : Bool := isInt f || isFpa f || f == .fp8e4 || f == .fp8e5

/-- The value of a bit pattern (R76, R77). -/
def FpFmt.decode (f : FpFmt) (bits : Nat) : Num :=
  let m := bits % 2 ^ f.p
  let e := bits / 2 ^ f.p % 2 ^ f.ebits
  let neg := bits / 2 ^ (f.p + f.ebits) % 2 == 1
  let emax := 2 ^ f.ebits - 1
  if e = 0 then .fin neg m (1 - (f.bias : Int) - f.p)
  else if f.noInf then
    if e = emax ∧ m = 2 ^ f.p - 1 then .nan false else .fin neg (2 ^ f.p + m) ((e : Int) - f.bias - f.p)
  else if e = emax then
    if m = 0 then .inf neg else .nan (m / 2 ^ (f.p - 1) % 2 == 0)
  else .fin neg (2 ^ f.p + m) ((e : Int) - f.bias - f.p)

def FpFmt.signBit (f : FpFmt) (neg : Bool) : Nat := if neg then 2 ^ (f.p + f.ebits) else 0

/-- The canonical NaN (R77). -/
def FpFmt.canonNaN (f : FpFmt) : Nat :=
  if f.noInf then 2 ^ (f.p + f.ebits) - 1 else (2 ^ f.ebits - 1) * 2 ^ f.p + 2 ^ (f.p - 1)

def FpFmt.infBits (f : FpFmt) (neg : Bool) : Nat := f.signBit neg + (2 ^ f.ebits - 1) * 2 ^ f.p

/-- The largest finite magnitude (R76). -/
def FpFmt.maxBits (f : FpFmt) : Nat := if f.noInf then 2 ^ (f.p + f.ebits) - 2 else (2 ^ f.ebits - 1) * 2 ^ f.p - 1

/-- Whether a magnitude n + remainder rounds away from zero (R78): the remainder against one half. -/
def roundsUp (rm : Rm) (neg : Bool) (n rem half : Nat) (sticky : Bool) : Bool :=
  let exact := rem == 0 && !sticky
  let above := decide (half < rem) || (rem == half && sticky)
  let tie := rem == half && !sticky
  match rm with
  | .rtz => false
  | .rdn => neg && !exact
  | .rup => !neg && !exact
  | .rne => !exact && (above || (tie && n % 2 == 1))
  | .rna => !exact && (above || tie)

/-- Rounds m * 2^e (and a little more where sticky) to a multiple of 2^q: the multiple and whether it is inexact. -/
def roundAt (rm : Rm) (neg : Bool) (m : Nat) (e q : Int) (sticky : Bool) : Nat × Bool :=
  if q ≤ e then (m * 2 ^ (e - q).toNat, sticky)
  else
    let sh := (q - e).toNat
    let n := m / 2 ^ sh
    let rem := m % 2 ^ sh
    let up := roundsUp rm neg n rem (2 ^ (sh - 1)) sticky
    ((if up then n + 1 else n), rem != 0 || sticky)

/-- What an overflow delivers (R78). -/
def FpFmt.overflow (f : FpFmt) (rm : Rm) (neg : Bool) : Nat :=
  let toMax := match rm with
    | .rtz => true
    | .rdn => !neg
    | .rup => neg
    | _ => false
  if f.sat || toMax then f.signBit neg + f.maxBits else f.infBits neg

/-- rnd(fmt, mode, v) of R78 for the exact magnitude m * 2^e: the bits and the flags OF, UF, NX (R79). -/
def FpFmt.round (f : FpFmt) (rm : Rm) (neg : Bool) (m : Nat) (e : Int) (sticky : Bool) : Nat × Word :=
  if m = 0 then (f.signBit neg, 0)
  else
    let ex : Int := (Nat.log2 m : Int) + e
    let (n, ix) := roundAt rm neg m e (ex - f.p) sticky
    let (n, ex) := if n = 2 ^ (f.p + 1) then (2 ^ f.p, ex + 1) else (n, ex)
    let emin : Int := 1 - (f.bias : Int)
    let emax : Int := if f.noInf then (f.bias : Int) + 1 else f.bias
    if ex > emax ∨ (f.noInf ∧ ex = emax ∧ n = 2 ^ (f.p + 1) - 1) then
      (f.overflow rm neg, flOF ||| flNX)
    else if ex < emin then
      let (n', ix') := roundAt rm neg m e (emin - f.p) sticky
      (f.signBit neg + n', if ix' then flUF ||| flNX else 0)
    else (f.signBit neg + (ex + f.bias).toNat * 2 ^ f.p + (n - 2 ^ f.p), if ix then flNX else 0)

/-- An exact result before rounding. -/
inductive Exact where
  | nan (flags : Word)
  | inf (neg : Bool) (flags : Word)
  | fin (neg : Bool) (m : Nat) (e : Int) (sticky : Bool) (flags : Word)
  deriving DecidableEq, Repr

/-- Delivers an exact result in a format: the bits and the flags. -/
def FpFmt.deliver (f : FpFmt) (rm : Rm) : Exact → Nat × Word
  | .nan fl => (f.canonNaN, fl)
  | .inf neg fl => (f.infBits neg, fl)
  | .fin neg m e st fl => let (b, fl') := f.round rm neg m e st; (b, fl ||| fl')

def Num.isSig : Num → Bool
  | .nan s => s
  | _ => false

def Num.isNaN : Num → Bool
  | .nan _ => true
  | _ => false

def Num.negate : Num → Num
  | .nan s => .nan s
  | .inf n => .inf !n
  | .fin n m e => .fin (!n) m e

def nvIf (b : Bool) : Word := if b then flNV else 0

/-- The integer of a finite value at exponent e0, e0 at most its own. -/
def alignInt (neg : Bool) (m : Nat) (e e0 : Int) : Int :=
  let v : Int := ((m * 2 ^ (e - e0).toNat : Nat) : Int)
  if neg then -v else v

/-- a + b, its zero sign by R374. -/
def addNum (rm : Rm) (a b : Num) : Exact :=
  match a, b with
  | .nan s, b => .nan (nvIf (s || b.isSig))
  | a, .nan s => .nan (nvIf (s || a.isSig))
  | .inf n, .inf n' => if n = n' then .inf n 0 else .nan flNV
  | .inf n, _ => .inf n 0
  | _, .inf n => .inf n 0
  | .fin n m e, .fin n' m' e' =>
    let e0 := if e < e' then e else e'
    let v := alignInt n m e e0 + alignInt n' m' e' e0
    if v = 0 then
      let neg := if m = 0 ∧ m' = 0 ∧ n = n' then n else rm == .rdn
      .fin neg 0 0 false 0
    else .fin (decide (v < 0)) v.natAbs e0 false 0

/-- a * b, exact. -/
def mulNum (a b : Num) : Exact :=
  match a, b with
  | .nan s, b => .nan (nvIf (s || b.isSig))
  | a, .nan s => .nan (nvIf (s || a.isSig))
  | .inf n, .inf n' => .inf (n != n') 0
  | .inf n, .fin n' m' _ => if m' = 0 then .nan flNV else .inf (n != n') 0
  | .fin n m _, .inf n' => if m = 0 then .nan flNV else .inf (n != n') 0
  | .fin n m e, .fin n' m' e' => .fin (n != n') (m * m') (e + e') false 0

def Exact.toNum : Exact → Num
  | .nan _ => .nan false
  | .inf n _ => .inf n
  | .fin n m e _ _ => .fin n m e

def Exact.flags : Exact → Word
  | .nan f => f
  | .inf _ f => f
  | .fin _ _ _ _ f => f

def Exact.orFlags (fl : Word) : Exact → Exact
  | .nan f => .nan (f ||| fl)
  | .inf n f => .inf n (f ||| fl)
  | .fin n m e s f => .fin n m e s (f ||| fl)

/-- a * b + d with one rounding; the product's flags stand even when d is a quiet NaN (R99). -/
def fmaNum (rm : Rm) (a b d : Num) : Exact :=
  let p := mulNum a b
  (addNum rm p.toNum d).orFlags p.flags

/-- a / b (R99). -/
def divNum (a b : Num) : Exact :=
  match a, b with
  | .nan s, b => .nan (nvIf (s || b.isSig))
  | a, .nan s => .nan (nvIf (s || a.isSig))
  | .inf _, .inf _ => .nan flNV
  | .inf n, .fin n' _ _ => .inf (n != n') 0
  | .fin n _ _, .inf n' => .fin (n != n') 0 0 false 0
  | .fin n m e, .fin n' m' e' =>
    if m' = 0 then (if m = 0 then .nan flNV else .inf (n != n') flDZ)
    else if m = 0 then .fin (n != n') 0 0 false 0
    else
      let k := 70 + Nat.log2 m'
      let q := m * 2 ^ k / m'
      .fin (n != n') q (e - e' - k) (m * 2 ^ k % m' != 0) 0

/-- The integer square root of m, one bit at a time from bit k down. -/
def isqrt : Nat → Nat → Nat → Nat
  | 0, _, r => r
  | k + 1, m, r => if (r + 2 ^ k) * (r + 2 ^ k) ≤ m then isqrt k m (r + 2 ^ k) else isqrt k m r

/-- The square root (R99). -/
def sqrtNum : Num → Exact
  | .nan s => .nan (nvIf s)
  | .inf n => if n then .nan flNV else .inf false 0
  | .fin n m e =>
    if m = 0 then .fin n 0 0 false 0
    else if n then .nan flNV
    else
      let odd := e % 2 != 0
      let m1 := (if odd then m * 2 else m) * 2 ^ 120
      let e1 := (if odd then e - 1 else e) - 120
      let r := isqrt 96 m1 0
      .fin false r (e1 / 2) (r * r != m1) 0

/-- a < b for values that are no NaN; -0 equals +0. -/
def Num.lt : Num → Num → Bool
  | .inf n, .inf n' => n && !n'
  | .inf n, .fin _ _ _ => n
  | .fin _ _ _, .inf n' => !n'
  | .fin n m e, .fin n' m' e' =>
    let e0 := if e < e' then e else e'
    decide (alignInt n m e e0 < alignInt n' m' e' e0)
  | _, _ => false

/-- Whether a stands below b in the order of VMIN, where -0 is below +0 (R99). -/
def Num.below (a b : Num) : Bool :=
  a.lt b || (!b.lt a && match a, b with
    | .fin true 0 _, .fin false 0 _ => true
    | _, _ => false)

/-- VMIN or VMAX of two patterns (R99): the bits delivered and the flags. -/
def FpFmt.minMax (f : FpFmt) (max : Bool) (a b : Nat) : Nat × Word :=
  let x := f.decode a
  let y := f.decode b
  let fl := nvIf (x.isSig || y.isSig)
  match x.isNaN, y.isNaN with
  | true, true => (f.canonNaN, fl)
  | true, false => (b, fl)
  | false, true => (a, fl)
  | false, false => (if max then (if x.below y then b else a) else (if y.below x then b else a), fl)

/-- v read as an n-bit two's-complement integer (R75). -/
def signedOf (n v : Nat) : Int := (BitVec.ofNat n v).toInt

/-- The low n bits of an integer. -/
def wrapInt (n : Nat) (v : Int) : Nat := (BitVec.ofInt n v).toNat

/-- Saturation to n-bit two's complement, and whether it saturated. -/
def satInt (n : Nat) (v : Int) : Nat × Bool :=
  let hi : Int := 2 ^ (n - 1) - 1
  let lo : Int := -(2 ^ (n - 1))
  if v > hi then (wrapInt n hi, true) else if v < lo then (wrapInt n lo, true) else (wrapInt n v, false)

/-- Floating point to integer (R84). -/
def toInt (rm : Rm) (n : Nat) : Num → Nat × Word
  | .nan _ => (0, flNV)
  | .inf neg => ((if neg then 2 ^ (n - 1) else 2 ^ (n - 1) - 1), flNV)
  | .fin neg m e =>
    let (v, ix) := roundAt rm neg m e 0 false
    let (r, s) := satInt n (if neg then -(v : Int) else v)
    (r, if s then flNV else if ix then flNX else 0)

/-- The conversion of R84 between two formats of class CVT: the bits delivered and the flags. -/
def convert (src dst : Fmt) (rm : Rm) (bits : Nat) : Nat × Word :=
  match fpFmt src, fpFmt dst with
  | some f, some g =>
    match f.decode bits with
    | .nan s => (g.canonNaN, nvIf s)
    | .inf neg =>
      if src = dst then (bits, 0) else if g.noInf then (g.canonNaN, flNV) else (g.infBits neg, 0)
    | .fin neg m e => if src = dst then (bits, 0) else g.round rm neg m e false
  | some f, none => toInt rm (lanewidth dst) (f.decode bits)
  | none, some g =>
    let v := signedOf (lanewidth src) bits
    g.round rm (decide (v < 0)) v.natAbs 0 false
  | none, none =>
    let (r, s) := satInt (lanewidth dst) (signedOf (lanewidth src) bits)
    (r, if s then flOF ||| flNX else 0)

/-- An element under its shared scale (R83). -/
def scaled (scale : Nat) (v : Num) : Num :=
  let e := scale / 16 % 256
  if e = 0 then .fin false 0 0
  else if e = 255 then .nan false
  else
    match v with
    | .fin n m x => .fin n (m * (16 + scale % 16)) (x + ((e : Int) - 127 - 4))
    | w => w

/-- The exact sum of a group of products (R85): a NaN product or infinities of both signs make it NaN; an exact zero
is -0 only when every product is -0. DESIGN CHOICE: a group that holds a quiet NaN product beside products of both
infinities sets no NV for the infinities; R85 does not say whether it does. -/
def groupSum (ps : List Exact) : Exact :=
  let fl := ps.foldl (fun f p => f ||| p.flags) 0
  let nums := ps.map Exact.toNum
  if nums.any Num.isNaN then .nan fl
  else
    let pinf := nums.any fun n => n == .inf false
    let ninf := nums.any fun n => n == .inf true
    if pinf && ninf then .nan (fl ||| flNV)
    else if pinf then .inf false fl
    else if ninf then .inf true fl
    else
      let e0 := nums.foldl (fun (a : Int) n => match n with | .fin _ _ e => if e < a then e else a | _ => a) 0
      let v := nums.foldl (fun (a : Int) n => match n with | .fin ng m e => a + alignInt ng m e e0 | _ => a) 0
      if v = 0 then
        let allNeg := nums.all fun n => match n with | .fin ng 0 _ => ng | _ => false
        .fin allNeg 0 0 false fl
      else .fin (decide (v < 0)) v.natAbs e0 false fl

/-- A subnormal FP32 result of the multiplier plane becomes a zero of its sign and sets UFLUSH alone (R80). -/
def flushFp32 (r : Nat × Word) : Nat × Word :=
  let mag := r.1 % 2 ^ 31
  if mag ≠ 0 ∧ mag < 2 ^ 23 then (r.1 - mag, flUFLUSH) else r

/-- flush(rnd(FP32, RNE, c + g)) (R85, R234): the product flags are kept beside the result's. -/
def accumulate (c : Nat) (g : Exact) : Nat × Word :=
  match fpFmt .fp32 with
  | some f =>
    let (b, fl) := flushFp32 (f.deliver .rne (addNum .rne (f.decode c) g.toNum))
    (b, fl ||| g.flags)
  | none => (c, 0)

/-- A T2 element (R81). -/
def t2Weight (bits : Nat) : Int := if bits % 4 = 1 then 1 else if bits % 4 = 3 then -1 else 0

/-- The five trits of a T5 byte, and whether it is an error byte (R82). -/
def t5Decode (b : Nat) : List Int × Bool :=
  if 243 ≤ b then ([0, 0, 0, 0, 0], true)
  else (((List.range 5).map fun i => ((b / 3 ^ i % 3 : Nat) : Int) - 1), false)

end Sys2Proof.Machine
end

