-- ==== Sys2Proof/Machine/Flags.lean ====
section
/-! DEFINITION. The sticky flags of FCSR (R14, R79): set by instructions, cleared only by CSR writes. -/
namespace Sys2Proof.Machine
open Sys2Proof

/-- ORs flags into FCSR. -/
def Csrs.orFlags (c : Csrs) (fl : Word) : Csrs := { c with fcsr := c.fcsr ||| fl }

def Core.orFlags (c : Core) (fl : Word) : Core := { c with csr := c.csr.orFlags fl }

def State.orFlags (s : State) (fl : Word) : State := { s with core := s.core.orFlags fl }

/-- The rounding mode held in FCSR.RM (R14). -/
def Core.rm (c : Core) : Rm := rmOf (bitsOf c.csr.fcsr 2 0)

/-- The sum of flags of several lanes or combs: their OR (R79). -/
def orAll (l : List Word) : Word := l.foldl (· ||| ·) 0

/-- MSTAT's sticky bits (R223): TERR bit 0, SAT bit 1. -/
def msTERR : Word := 1
def msSAT : Word := 2

def Core.orMstat (c : Core) (b : Word) : Core := { c with csr := { c.csr with mstat := c.csr.mstat ||| b } }

end Sys2Proof.Machine
end

