-- ==== Sys2Proof/Machine/Operands.lean ====
section
/-! DEFINITION. Operand forms: guards (R30), immediates (R29), vector lanes, lengths and masks (R89 to R91). -/
namespace Sys2Proof.Machine
open Sys2Proof

/-- The condition of a G field: p[P] xor N (R30). -/
def Core.cond (c : Core) (g : Guard) : Bool := c.rp g.p != g.neg

/-- sext of an immediate field (R29). -/
def imm12 (i : BitVec 12) : Word := i.signExtend 64

/-- xa + sext(imm): the address of the I-format accesses and of JALR and CALLG (R29). -/
def Core.eaI (c : Core) (a : XReg) (imm : BitVec 12) : Word := c.rx a + imm12 imm

/-- xa + sext(offset) * size: the address of ST, LDS and STS (R29). -/
def Core.eaScaled {n : Nat} (c : Core) (a : XReg) (off : BitVec n) (size : Word) : Word :=
  c.rx a + off.signExtend 64 * size

/-- The value LIH and ADDPC place: sext of imm20 * 0x1000 taken to 32 bits (R50). -/
def upper (i : BitVec 20) : Word := (i.zeroExtend 32 <<< 12).signExtend 64

/-- PC + sext(offset) * 2 (R29). -/
def pcRel {n : Nat} (pc : Word) (off : BitVec n) : Word := pc + off.signExtend 64 * 2

/-- Lanes of a format (R89). -/
def lanes (f : Fmt) : Nat := 256 / lanewidth f

/-- Lane i of a register read in lanes of w bits (R89). -/
def getLane (v : BitVec 256) (w i : Nat) : Nat := v.toNat / 2 ^ (w * i) % 2 ^ w

/-- Replaces lane i by the low w bits of a value. -/
def setLane (v : BitVec 256) (w i x : Nat) : BitVec 256 :=
  BitVec.ofNat 256 (v.toNat % 2 ^ (w * i) + x % 2 ^ w * 2 ^ (w * i) + v.toNat / 2 ^ (w * (i + 1)) * 2 ^ (w * (i + 1)))

/-- The effective length min(VL, L(f)) (R90). -/
def Core.effLen (c : Core) (f : Fmt) : Nat := min (c.csr.vl.toNat) (lanes f)

/-- Whether lane i is active below n under mask k (R90). -/
def Core.active (c : Core) (k : KReg) (n i : Nat) : Bool := decide (i < n) && (c.rk k).getLsbD i

/-- Writes the lanes that f answers a value for, and keeps every other bit (R91). -/
def mapLanes (v : BitVec 256) (w count : Nat) (f : Nat → Option Nat) : BitVec 256 :=
  (List.range count).foldl (fun acc i => match f i with | some x => setLane acc w i x | none => acc) v

/-- The value of a VCVT rounding code (R37). -/
def Core.vrnd (c : Core) : VRnd → Rm
  | .rne => .rne | .rtz => .rtz | .rdn => .rdn | .rup => .rup | .rna => .rna | .dyn => c.rm

/-- The four registers of a group (R28). -/
def groupReg (g : VGroup) (q : Fin 4) : VReg := ⟨g.val * 4 + q.val, by omega⟩

/-- The format of a RED (R37). -/
def redFmt : RedFmt → Fmt
  | .fp32 => .fp32 | .fp64 => .fp64 | .i32 => .i32 | .i16 => .i16

/-- Fields of a matrix descriptor (R224). -/
def dStride (d : Word) : Word := sextNat 32 (bitsOf d 63 32)
def dNR (d : Word) : Nat := bitsOf d 29 24
def dNC (d : Word) : Nat := bitsOf d 23 16
def dCol (d : Word) : Nat := bitsOf d 14 8
def dRow (d : Word) : Nat := bitsOf d 6 0
def dAtag (d : Word) : Fmt := if bitOf d 31 then .fp32 else .i32

/-- Fields of a tile shape TCn (R221). -/
def tRows (t : Word) : Nat := bitsOf t 5 0
def tCols (t : Word) : Nat := bitsOf t 15 8
def tScl (t : Word) : Bool := bitOf t 20
def tDseq (t : Word) : Nat := bitsOf t 47 32
def tSseq (t : Word) : Nat := bitsOf t 63 48

end Sys2Proof.Machine
end

