-- ==== Sys2Proof/Machine/Named.lean ====
section
/-! DEFINITION. What the fetch path must know of an instruction before it executes: the registers it names (R139), its
guard (R30) and its profile (R35). -/
namespace Sys2Proof
open Sys2Proof.Machine

/-- The x registers an instruction names. -/
def Instr.xregs : Instr → List XReg
  | .add d a b | .sub d a b | .and d a b | .or d a b | .xor d a b | .sll d a b | .srl d a b | .sra d a b | .slt d a b
  | .sltu d a b | .min d a b | .max d a b | .minu d a b | .maxu d a b | .mul d a b | .mulh d a b | .mulhu d a b
  | .div d a b | .divu d a b | .rem d a b | .remu d a b | .rol d a b | .ror d a b | .sel _ d a b | .lendR d a b
  | .lendRw d a b | .wmkSet d a b => [d, a, b]
  | .clz d a | .ctz d a | .popc d a | .addi d a _ | .andi d a _ | .ori d a _ | .xori d a _ | .slli d a _
  | .srli d a _ | .srai d a _ | .slti d a _ | .sltiu d a _ | .jalr d a _ | .lb d a _ | .lbu d a _ | .lh d a _
  | .lhu d a _ | .lw d a _ | .lwu d a _ | .ld d a _ | .lwS _ d a _ | .ldS _ d a _ | .lwA _ d a _ | .ldA _ d a _
  | .csrw d _ a | .csrs d _ a | .csrc d _ a | .loanq d a | .setvl _ d a | .bteQ d a => [d, a]
  | .lih d _ | .addpc d _ | .movp d _ | .jal d _ | .csrr d _ | .kpop d _ | .kfirst d _ | .tnext _ d _ | .calQry d
  | .hAddi d _ | .hLi d _ | .hSlli d _ | .hSrli d _ | .hSrai d _ => [d]
  | .cmpEq _ a b | .cmpNe _ a b | .cmpLt _ a b | .cmpGe _ a b | .cmpLtu _ a b | .cmpGeu _ a b | .barInit a b
  | .waita a b | .waitaGe a b | .vins _ a b | .vlds _ _ _ a b | .vsts _ _ a b | .tspawn _ a b | .wmkUpd _ a b
  | .protSet a b | .lptSet a b => [a, b]
  | .cmpiEq _ a _ | .cmpiNe _ a _ | .cmpiLt _ a _ | .cmpiGe _ a _ | .cmpiLtu _ a _ | .cmpiGeu _ a _ | .setp _ a
  | .loop a _ | .callg a _ | .recl a | .barArr a | .barWait a | .barSync a | .join a | .vbcast _ _ a | .vld _ _ _ a
  | .vldx _ _ _ a _ | .vldb _ _ _ a | .vst _ _ a | .vstx _ _ a _ | .tcfg _ a | .accfg a | .ctxSave a
  | .ctxLoad a => [a]
  | .pand _ _ _ | .por _ _ _ | .pxor _ _ _ | .pnot _ _ | .pmov _ _ | .br _ _ | .fence _ _ _ | .loopi _ _ | .trap _
  | .brk _ | .mcall _ | .idle | .yield | .tret | .mret | .gate | .retg | .cwait _ _ | .cvyLead | .cvyJoin | .cvyLeave
  | .vadd _ _ _ _ | .vsub _ _ _ _ | .vmul _ _ _ _ | .vfma _ _ _ _ | .vfms _ _ _ _ | .vfnma _ _ _ _ | .vmin _ _ _ _
  | .vmax _ _ _ _ | .vminu _ _ _ _ | .vmaxu _ _ _ _ | .vabs _ _ _ | .vneg _ _ _ | .vand _ _ _ _ | .vor _ _ _ _
  | .vxor _ _ _ _ | .vnot _ _ _ | .vsll _ _ _ _ | .vsrl _ _ _ _ | .vsra _ _ _ _ | .vadds _ _ _ _ | .vsubs _ _ _ _
  | .vdiv _ _ _ _ | .vsqrt _ _ _ | .vcmpEq _ _ _ _ | .vcmpNe _ _ _ _ | .vcmpLt _ _ _ _ | .vcmpGe _ _ _ _
  | .vcmpLtu _ _ _ _ | .vcmpGeu _ _ _ _ | .vsel _ _ _ _ | .vmov _ _ _ | .vperm _ _ _ _ | .viota _ _ | .vredsum _ _ _
  | .vredmin _ _ _ | .vredmax _ _ _ | .vtag _ _ _ | .kand _ _ _ | .kor _ _ _ | .kxor _ _ _ | .knot _ _
  | .vcvt _ _ _ _ _ | .tend | .tpoll | .hVadd _ _ | .hVsub _ _ | .hVmul _ _ | .hVmin _ _ | .hVmax _ _ | .hVminu _ _
  | .hVmaxu _ _ | .hVand _ _ | .hVor _ _ | .hVxor _ _ | .hVsll _ _ | .hVsrl _ _ | .hVsra _ _ | .hVadds _ _
  | .hVsubs _ _ | .hVmov _ _ | .powerOn _ _ | .yieldEnd _ | .idleWake _ | .trapRingResume _ | .gangCommit _ _
  | .svcEndThread _ | .svcSetPageTag _ | .svcWriteReach _ | .svcReadReach _ | .svcUnknown _ | .threadEnd _
  | .convoyRelease _ _ | .joinRecruited _ | .barWaitWake _ | .barTimeout _ | .waitaWake _ | .cwaitWake _
  | .tokenStallRelease _ | .counterRoom _ | .redClose _ _ _ | .redTimeout _ _ _ | .redLateComplete _ _
  | .peerAccessArrival _ _ _ _ _ | .inboundWrite _ _ | .translationWalkDone _ | .translationRetry
  | .stationInvalidate _ _ | .reclFree _ | .matrixQueueRoom _ | .matrixJobStart _ _ | .matrixJobComplete _ _
  | .copySlotFree _ | .copyOpStart _ | .copyComplete _ | .beatLanding _ _ | .beatsRoom _ | .fenceDrain _
  | .bteRequestRefused _ _ _ | .bteRetry _ _ | .bteRequestRoom _ | .bteAccept _ _ | .bteRecordTakeup _
  | .bteRecordLanded _ | .bteRingResume _ | .homeSpawnCount _ | .homeUpdate _ | .homeSet _ | .wmkSetOpen _
  | .wmkPropagate _ _ | .recordMove _ _ _ | .spillReturn _ _ | .tnextWake _ | .slotClose _ | .calRunStart _
  | .calKernelDone _ | .strongLoadTimeout _ | .strongLoadArrive _ | .sliceEvict _ | .sliceResume _ _
  | .sliceMigrate _ _ | .debugRun _ | .debugPlainHalt _ | .debugQuiesceHalt _ | .debugStable _ | .queueEnable _ _
  | .queueDisable _ _ | .qtailWrite _ _ | .registerWrite _ _ | .packetFetch _ | .packetPoll _ | .launch _ | .load _ _
  | .unload _ | .signal _ | .wait _ | .waitSatisfied _ | .qfence _ | .nop _ | .slicePermitReturn _ | .headboxRestart
  | .headboxResume | .notifyWrite _ | .notifyGatedDeliver _ | .securityCoreRequest _ _ | .mappingProposal _
  | .leafActivate _ | .attestRequest _ | .measurementRequest _ | .interfaceLock _ _ | .interfaceStart _
  | .interfaceStop _ | .teardownDrained _ | .scrubUnit | .activateImage _ _ _ _ | .activationCommit | .tamperEvent _
  | .ownerClaim _ | .ownerHeartbeat _ | .ownerRelease _ | .ownerTakeover _ | .linkRekey _ | .sealTagFail _
  | .ucieLinkError _ | .linkRecoveryTimeout _ | .causewayCrcFail _ | .groupForm _ _ _ _ | .memberVerified _ _
  | .memberLost _ _ | .governorSample _ | .moduleReset | .reservedEncoding _ | .instructionFetchFault _ _
  | .followerStallDetach _ | .loggingEnable _ | .alarmLevelConfig _ | .moduleNumberAssign _ _ => []
  | .sb _ b a _ | .sh _ b a _ | .sw _ b a _ | .sd _ b a _ | .swS _ _ b a _ | .sdS _ _ b a _ | .swL _ _ b a _
  | .sdL _ _ b a _ => [b, a]
  | .amoaddW _ _ d b a | .amoandW _ _ d b a | .amoorW _ _ d b a | .amoxorW _ _ d b a | .amominW _ _ d b a
  | .amomaxW _ _ d b a | .amominuW _ _ d b a | .amomaxuW _ _ d b a | .amoswapW _ _ d b a | .casW _ _ d b a
  | .amoaddD _ _ d b a | .amoandD _ _ d b a | .amoorD _ _ d b a | .amoxorD _ _ d b a | .amominD _ _ d b a
  | .amomaxD _ _ d b a | .amominuD _ _ d b a | .amomaxuD _ _ d b a | .amoswapD _ _ d b a
  | .casD _ _ d b a => [d, b, a]
  | .fork d a => [d, a, 10, 11, 12, 13]
  | .redAdd tok _ _ _ _ | .redMin tok _ _ _ _ | .redMax tok _ _ _ _ | .tzero tok _ => [tok]
  | .vextr d _ b | .wmkRd d b _ | .wmkRdS d b _ | .hMov d b | .hAdd d b | .hSub d b | .hAnd d b | .hOr d b
  | .hXor d b | .hLd d b | .hSd d b | .hMul d b | .hNeg d b => [d, b]
  | .vslide _ _ _ b | .hJmp b => [b]
  | .tld tok _ a d | .tst tok _ a d | .tlds tok _ a d | .mtv tok _ a d | .acld tok a d | .acst tok a d => [tok, a, d]
  | .mma tok _ _ a | .mmas tok _ _ a | .accvt tok _ a | .aczero tok a => [tok, a]
  | .cpy tok d a b | .tcpy tok d a b | .cpyf tok d a b | .bteGo tok d a b => [tok, d, a, b]
  | .calRun tok d a => [tok, d, a]

/-- The vector registers an instruction names, the registers of a RED's groups among them. -/
def Instr.vregs : Instr → List VReg
  | .add _ _ _ | .sub _ _ _ | .and _ _ _ | .or _ _ _ | .xor _ _ _ | .sll _ _ _ | .srl _ _ _ | .sra _ _ _ | .slt _ _ _
  | .sltu _ _ _ | .min _ _ _ | .max _ _ _ | .minu _ _ _ | .maxu _ _ _ | .mul _ _ _ | .mulh _ _ _ | .mulhu _ _ _
  | .div _ _ _ | .divu _ _ _ | .rem _ _ _ | .remu _ _ _ | .clz _ _ | .ctz _ _ | .popc _ _ | .rol _ _ _ | .ror _ _ _
  | .addi _ _ _ | .andi _ _ _ | .ori _ _ _ | .xori _ _ _ | .slli _ _ _ | .srli _ _ _ | .srai _ _ _ | .slti _ _ _
  | .sltiu _ _ _ | .lih _ _ | .addpc _ _ | .cmpEq _ _ _ | .cmpNe _ _ _ | .cmpLt _ _ _ | .cmpGe _ _ _ | .cmpLtu _ _ _
  | .cmpGeu _ _ _ | .cmpiEq _ _ _ | .cmpiNe _ _ _ | .cmpiLt _ _ _ | .cmpiGe _ _ _ | .cmpiLtu _ _ _ | .cmpiGeu _ _ _
  | .pand _ _ _ | .por _ _ _ | .pxor _ _ _ | .pnot _ _ | .pmov _ _ | .movp _ _ | .setp _ _ | .sel _ _ _ _ | .br _ _
  | .jal _ _ | .jalr _ _ _ | .lb _ _ _ | .lbu _ _ _ | .lh _ _ _ | .lhu _ _ _ | .lw _ _ _ | .lwu _ _ _ | .ld _ _ _
  | .lwS _ _ _ _ | .ldS _ _ _ _ | .lwA _ _ _ _ | .ldA _ _ _ _ | .sb _ _ _ _ | .sh _ _ _ _ | .sw _ _ _ _ | .sd _ _ _ _
  | .swS _ _ _ _ _ | .sdS _ _ _ _ _ | .swL _ _ _ _ _ | .sdL _ _ _ _ _ | .amoaddW _ _ _ _ _ | .amoandW _ _ _ _ _
  | .amoorW _ _ _ _ _ | .amoxorW _ _ _ _ _ | .amominW _ _ _ _ _ | .amomaxW _ _ _ _ _ | .amominuW _ _ _ _ _
  | .amomaxuW _ _ _ _ _ | .amoswapW _ _ _ _ _ | .casW _ _ _ _ _ | .amoaddD _ _ _ _ _ | .amoandD _ _ _ _ _
  | .amoorD _ _ _ _ _ | .amoxorD _ _ _ _ _ | .amominD _ _ _ _ _ | .amomaxD _ _ _ _ _ | .amominuD _ _ _ _ _
  | .amomaxuD _ _ _ _ _ | .amoswapD _ _ _ _ _ | .casD _ _ _ _ _ | .fence _ _ _ | .csrr _ _ | .csrw _ _ _
  | .csrs _ _ _ | .csrc _ _ _ | .loop _ _ | .loopi _ _ | .trap _ | .brk _ | .mcall _ | .idle | .yield | .tret | .mret
  | .gate | .callg _ _ | .retg | .lendR _ _ _ | .lendRw _ _ _ | .recl _ | .loanq _ _ | .barInit _ _ | .barArr _
  | .barWait _ | .barSync _ | .waita _ _ | .waitaGe _ _ | .cwait _ _ | .fork _ _ | .join _ | .cvyLead | .cvyJoin
  | .cvyLeave | .kand _ _ _ | .kor _ _ _ | .kxor _ _ _ | .knot _ _ | .kpop _ _ | .kfirst _ _ | .setvl _ _ _
  | .tcfg _ _ | .accfg _ | .tld _ _ _ _ | .tst _ _ _ _ | .tlds _ _ _ _ | .tzero _ _ | .mma _ _ _ _ | .mmas _ _ _ _
  | .mtv _ _ _ _ | .acld _ _ _ | .acst _ _ _ | .accvt _ _ _ | .aczero _ _ | .cpy _ _ _ _ | .tcpy _ _ _ _
  | .cpyf _ _ _ _ | .bteGo _ _ _ _ | .bteQ _ _ | .tspawn _ _ _ | .tnext _ _ _ | .tend | .tpoll | .wmkRd _ _ _
  | .wmkRdS _ _ _ | .wmkUpd _ _ _ | .wmkSet _ _ _ | .calRun _ _ _ | .calQry _ | .protSet _ _ | .lptSet _ _
  | .ctxSave _ | .ctxLoad _ | .hMov _ _ | .hAdd _ _ | .hSub _ _ | .hAnd _ _ | .hOr _ _ | .hXor _ _ | .hAddi _ _
  | .hLi _ _ | .hSlli _ _ | .hSrli _ _ | .hSrai _ _ | .hLd _ _ | .hSd _ _ | .hJmp _ | .hMul _ _ | .hNeg _ _
  | .powerOn _ _ | .yieldEnd _ | .idleWake _ | .trapRingResume _ | .gangCommit _ _ | .svcEndThread _
  | .svcSetPageTag _ | .svcWriteReach _ | .svcReadReach _ | .svcUnknown _ | .threadEnd _ | .convoyRelease _ _
  | .joinRecruited _ | .barWaitWake _ | .barTimeout _ | .waitaWake _ | .cwaitWake _ | .tokenStallRelease _
  | .counterRoom _ | .redClose _ _ _ | .redTimeout _ _ _ | .redLateComplete _ _ | .peerAccessArrival _ _ _ _ _
  | .inboundWrite _ _ | .translationWalkDone _ | .translationRetry | .stationInvalidate _ _ | .reclFree _
  | .matrixQueueRoom _ | .matrixJobStart _ _ | .matrixJobComplete _ _ | .copySlotFree _ | .copyOpStart _
  | .copyComplete _ | .beatLanding _ _ | .beatsRoom _ | .fenceDrain _ | .bteRequestRefused _ _ _ | .bteRetry _ _
  | .bteRequestRoom _ | .bteAccept _ _ | .bteRecordTakeup _ | .bteRecordLanded _ | .bteRingResume _
  | .homeSpawnCount _ | .homeUpdate _ | .homeSet _ | .wmkSetOpen _ | .wmkPropagate _ _ | .recordMove _ _ _
  | .spillReturn _ _ | .tnextWake _ | .slotClose _ | .calRunStart _ | .calKernelDone _ | .strongLoadTimeout _
  | .strongLoadArrive _ | .sliceEvict _ | .sliceResume _ _ | .sliceMigrate _ _ | .debugRun _ | .debugPlainHalt _
  | .debugQuiesceHalt _ | .debugStable _ | .queueEnable _ _ | .queueDisable _ _ | .qtailWrite _ _
  | .registerWrite _ _ | .packetFetch _ | .packetPoll _ | .launch _ | .load _ _ | .unload _ | .signal _ | .wait _
  | .waitSatisfied _ | .qfence _ | .nop _ | .slicePermitReturn _ | .headboxRestart | .headboxResume | .notifyWrite _
  | .notifyGatedDeliver _ | .securityCoreRequest _ _ | .mappingProposal _ | .leafActivate _ | .attestRequest _
  | .measurementRequest _ | .interfaceLock _ _ | .interfaceStart _ | .interfaceStop _ | .teardownDrained _
  | .scrubUnit | .activateImage _ _ _ _ | .activationCommit | .tamperEvent _ | .ownerClaim _ | .ownerHeartbeat _
  | .ownerRelease _ | .ownerTakeover _ | .linkRekey _ | .sealTagFail _ | .ucieLinkError _ | .linkRecoveryTimeout _
  | .causewayCrcFail _ | .groupForm _ _ _ _ | .memberVerified _ _ | .memberLost _ _ | .governorSample _
  | .moduleReset | .reservedEncoding _ | .instructionFetchFault _ _ | .followerStallDetach _ | .loggingEnable _
  | .alarmLevelConfig _ | .moduleNumberAssign _ _ => []
  | .redAdd _ _ _ d a | .redMin _ _ _ d a
  | .redMax _ _ _ d a => (List.finRange 4).map (groupReg d) ++ (List.finRange 4).map (groupReg a)
  | .vadd _ d a b | .vsub _ d a b | .vmul _ d a b | .vfma _ d a b | .vfms _ d a b | .vfnma _ d a b | .vmin _ d a b
  | .vmax _ d a b | .vminu _ d a b | .vmaxu _ d a b | .vand _ d a b | .vor _ d a b | .vxor _ d a b | .vsll _ d a b
  | .vsrl _ d a b | .vsra _ d a b | .vadds _ d a b | .vsubs _ d a b | .vdiv _ d a b | .vsel _ d a b
  | .vperm _ d a b => [d, a, b]
  | .vabs _ d a | .vneg _ d a | .vnot _ d a | .vsqrt _ d a | .vmov _ d a | .vslide _ d a _ | .vredsum _ d a
  | .vredmin _ d a | .vredmax _ d a | .vtag _ d a | .vcvt _ _ _ d a => [d, a]
  | .vcmpEq _ _ a b | .vcmpNe _ _ a b | .vcmpLt _ _ a b | .vcmpGe _ _ a b | .vcmpLtu _ _ a b
  | .vcmpGeu _ _ a b => [a, b]
  | .vbcast _ d _ | .vins d _ _ | .viota _ d | .vld _ _ d _ | .vlds _ _ d _ _ | .vldb _ _ d _ | .vst _ d _
  | .vsts _ d _ _ => [d]
  | .vextr _ a _ => [a]
  | .vldx _ _ d _ b | .vstx _ d _ b | .hVadd d b | .hVsub d b | .hVmul d b | .hVmin d b | .hVmax d b | .hVminu d b
  | .hVmaxu d b | .hVand d b | .hVor d b | .hVxor d b | .hVsll d b | .hVsrl d b | .hVsra d b | .hVadds d b
  | .hVsubs d b | .hVmov d b => [d, b]

/-- The guard that decides whether an instruction executes (R30, R178); SEL always executes (R53). -/
def Instr.guard? : Instr → Option Guard
  | .add _ _ _ | .sub _ _ _ | .and _ _ _ | .or _ _ _ | .xor _ _ _ | .sll _ _ _ | .srl _ _ _ | .sra _ _ _ | .slt _ _ _
  | .sltu _ _ _ | .min _ _ _ | .max _ _ _ | .minu _ _ _ | .maxu _ _ _ | .mul _ _ _ | .mulh _ _ _ | .mulhu _ _ _
  | .div _ _ _ | .divu _ _ _ | .rem _ _ _ | .remu _ _ _ | .clz _ _ | .ctz _ _ | .popc _ _ | .rol _ _ _ | .ror _ _ _
  | .addi _ _ _ | .andi _ _ _ | .ori _ _ _ | .xori _ _ _ | .slli _ _ _ | .srli _ _ _ | .srai _ _ _ | .slti _ _ _
  | .sltiu _ _ _ | .lih _ _ | .addpc _ _ | .cmpEq _ _ _ | .cmpNe _ _ _ | .cmpLt _ _ _ | .cmpGe _ _ _ | .cmpLtu _ _ _
  | .cmpGeu _ _ _ | .cmpiEq _ _ _ | .cmpiNe _ _ _ | .cmpiLt _ _ _ | .cmpiGe _ _ _ | .cmpiLtu _ _ _ | .cmpiGeu _ _ _
  | .pand _ _ _ | .por _ _ _ | .pxor _ _ _ | .pnot _ _ | .pmov _ _ | .movp _ _ | .setp _ _ | .sel _ _ _ _ | .jal _ _
  | .jalr _ _ _ | .lb _ _ _ | .lbu _ _ _ | .lh _ _ _ | .lhu _ _ _ | .lw _ _ _ | .lwu _ _ _ | .ld _ _ _ | .lwS _ _ _ _
  | .ldS _ _ _ _ | .lwA _ _ _ _ | .ldA _ _ _ _ | .fence _ _ _ | .csrr _ _ | .csrw _ _ _ | .csrs _ _ _ | .csrc _ _ _
  | .loop _ _ | .loopi _ _ | .trap _ | .brk _ | .mcall _ | .idle | .yield | .tret | .mret | .gate | .callg _ _
  | .retg | .lendR _ _ _ | .lendRw _ _ _ | .recl _ | .loanq _ _ | .barInit _ _ | .barArr _ | .barWait _ | .barSync _
  | .waita _ _ | .waitaGe _ _ | .cwait _ _ | .fork _ _ | .join _ | .cvyLead | .cvyJoin | .cvyLeave
  | .redAdd _ _ _ _ _ | .redMin _ _ _ _ _ | .redMax _ _ _ _ _ | .vadd _ _ _ _ | .vsub _ _ _ _ | .vmul _ _ _ _
  | .vfma _ _ _ _ | .vfms _ _ _ _ | .vfnma _ _ _ _ | .vmin _ _ _ _ | .vmax _ _ _ _ | .vminu _ _ _ _ | .vmaxu _ _ _ _
  | .vabs _ _ _ | .vneg _ _ _ | .vand _ _ _ _ | .vor _ _ _ _ | .vxor _ _ _ _ | .vnot _ _ _ | .vsll _ _ _ _
  | .vsrl _ _ _ _ | .vsra _ _ _ _ | .vadds _ _ _ _ | .vsubs _ _ _ _ | .vdiv _ _ _ _ | .vsqrt _ _ _ | .vcmpEq _ _ _ _
  | .vcmpNe _ _ _ _ | .vcmpLt _ _ _ _ | .vcmpGe _ _ _ _ | .vcmpLtu _ _ _ _ | .vcmpGeu _ _ _ _ | .vsel _ _ _ _
  | .vmov _ _ _ | .vbcast _ _ _ | .vextr _ _ _ | .vins _ _ _ | .vslide _ _ _ _ | .vperm _ _ _ _ | .viota _ _
  | .vredsum _ _ _ | .vredmin _ _ _ | .vredmax _ _ _ | .vtag _ _ _ | .kand _ _ _ | .kor _ _ _ | .kxor _ _ _
  | .knot _ _ | .kpop _ _ | .kfirst _ _ | .vcvt _ _ _ _ _ | .vld _ _ _ _ | .vlds _ _ _ _ _ | .vldx _ _ _ _ _
  | .vldb _ _ _ _ | .vst _ _ _ | .vsts _ _ _ _ | .vstx _ _ _ _ | .setvl _ _ _ | .tcfg _ _ | .accfg _ | .tld _ _ _ _
  | .tst _ _ _ _ | .tlds _ _ _ _ | .tzero _ _ | .mma _ _ _ _ | .mmas _ _ _ _ | .mtv _ _ _ _ | .acld _ _ _
  | .acst _ _ _ | .accvt _ _ _ | .aczero _ _ | .cpy _ _ _ _ | .tcpy _ _ _ _ | .cpyf _ _ _ _ | .bteGo _ _ _ _
  | .bteQ _ _ | .tspawn _ _ _ | .tnext _ _ _ | .tend | .tpoll | .wmkRd _ _ _ | .wmkRdS _ _ _ | .wmkUpd _ _ _
  | .wmkSet _ _ _ | .calRun _ _ _ | .calQry _ | .protSet _ _ | .lptSet _ _ | .ctxSave _ | .ctxLoad _ | .hMov _ _
  | .hAdd _ _ | .hSub _ _ | .hAnd _ _ | .hOr _ _ | .hXor _ _ | .hAddi _ _ | .hLi _ _ | .hSlli _ _ | .hSrli _ _
  | .hSrai _ _ | .hLd _ _ | .hSd _ _ | .hJmp _ | .hMul _ _ | .hNeg _ _ | .hVadd _ _ | .hVsub _ _ | .hVmul _ _
  | .hVmin _ _ | .hVmax _ _ | .hVminu _ _ | .hVmaxu _ _ | .hVand _ _ | .hVor _ _ | .hVxor _ _ | .hVsll _ _
  | .hVsrl _ _ | .hVsra _ _ | .hVadds _ _ | .hVsubs _ _ | .hVmov _ _ | .powerOn _ _ | .yieldEnd _ | .idleWake _
  | .trapRingResume _ | .gangCommit _ _ | .svcEndThread _ | .svcSetPageTag _ | .svcWriteReach _ | .svcReadReach _
  | .svcUnknown _ | .threadEnd _ | .convoyRelease _ _ | .joinRecruited _ | .barWaitWake _ | .barTimeout _
  | .waitaWake _ | .cwaitWake _ | .tokenStallRelease _ | .counterRoom _ | .redClose _ _ _ | .redTimeout _ _ _
  | .redLateComplete _ _ | .peerAccessArrival _ _ _ _ _ | .inboundWrite _ _ | .translationWalkDone _
  | .translationRetry | .stationInvalidate _ _ | .reclFree _ | .matrixQueueRoom _ | .matrixJobStart _ _
  | .matrixJobComplete _ _ | .copySlotFree _ | .copyOpStart _ | .copyComplete _ | .beatLanding _ _ | .beatsRoom _
  | .fenceDrain _ | .bteRequestRefused _ _ _ | .bteRetry _ _ | .bteRequestRoom _ | .bteAccept _ _
  | .bteRecordTakeup _ | .bteRecordLanded _ | .bteRingResume _ | .homeSpawnCount _ | .homeUpdate _ | .homeSet _
  | .wmkSetOpen _ | .wmkPropagate _ _ | .recordMove _ _ _ | .spillReturn _ _ | .tnextWake _ | .slotClose _
  | .calRunStart _ | .calKernelDone _ | .strongLoadTimeout _ | .strongLoadArrive _ | .sliceEvict _ | .sliceResume _ _
  | .sliceMigrate _ _ | .debugRun _ | .debugPlainHalt _ | .debugQuiesceHalt _ | .debugStable _ | .queueEnable _ _
  | .queueDisable _ _ | .qtailWrite _ _ | .registerWrite _ _ | .packetFetch _ | .packetPoll _ | .launch _ | .load _ _
  | .unload _ | .signal _ | .wait _ | .waitSatisfied _ | .qfence _ | .nop _ | .slicePermitReturn _ | .headboxRestart
  | .headboxResume | .notifyWrite _ | .notifyGatedDeliver _ | .securityCoreRequest _ _ | .mappingProposal _
  | .leafActivate _ | .attestRequest _ | .measurementRequest _ | .interfaceLock _ _ | .interfaceStart _
  | .interfaceStop _ | .teardownDrained _ | .scrubUnit | .activateImage _ _ _ _ | .activationCommit | .tamperEvent _
  | .ownerClaim _ | .ownerHeartbeat _ | .ownerRelease _ | .ownerTakeover _ | .linkRekey _ | .sealTagFail _
  | .ucieLinkError _ | .linkRecoveryTimeout _ | .causewayCrcFail _ | .groupForm _ _ _ _ | .memberVerified _ _
  | .memberLost _ _ | .governorSample _ | .moduleReset | .reservedEncoding _ | .instructionFetchFault _ _
  | .followerStallDetach _ | .loggingEnable _ | .alarmLevelConfig _ | .moduleNumberAssign _ _ => none
  | .br g _ | .sb g _ _ _ | .sh g _ _ _ | .sw g _ _ _ | .sd g _ _ _ | .swS g _ _ _ _ | .sdS g _ _ _ _
  | .swL g _ _ _ _ | .sdL g _ _ _ _ => some g
  | .amoaddW p _ _ _ _ | .amoandW p _ _ _ _ | .amoorW p _ _ _ _ | .amoxorW p _ _ _ _ | .amominW p _ _ _ _
  | .amomaxW p _ _ _ _ | .amominuW p _ _ _ _ | .amomaxuW p _ _ _ _ | .amoswapW p _ _ _ _ | .casW p _ _ _ _
  | .amoaddD p _ _ _ _ | .amoandD p _ _ _ _ | .amoorD p _ _ _ _ | .amoxorD p _ _ _ _ | .amominD p _ _ _ _
  | .amomaxD p _ _ _ _ | .amominuD p _ _ _ _ | .amomaxuD p _ _ _ _ | .amoswapD p _ _ _ _
  | .casD p _ _ _ _ => some ⟨false, p⟩

/-- The profile of an instruction, as its bit in PROFILES (R12, R35); MON and MRET belong to none. -/
def Instr.profile : Instr → Option Nat
  | .add _ _ _ | .sub _ _ _ | .and _ _ _ | .or _ _ _ | .xor _ _ _ | .sll _ _ _ | .srl _ _ _ | .sra _ _ _ | .slt _ _ _
  | .sltu _ _ _ | .min _ _ _ | .max _ _ _ | .minu _ _ _ | .maxu _ _ _ | .mul _ _ _ | .mulh _ _ _ | .mulhu _ _ _
  | .div _ _ _ | .divu _ _ _ | .rem _ _ _ | .remu _ _ _ | .clz _ _ | .ctz _ _ | .popc _ _ | .rol _ _ _ | .ror _ _ _
  | .addi _ _ _ | .andi _ _ _ | .ori _ _ _ | .xori _ _ _ | .slli _ _ _ | .srli _ _ _ | .srai _ _ _ | .slti _ _ _
  | .sltiu _ _ _ | .lih _ _ | .addpc _ _ | .cmpEq _ _ _ | .cmpNe _ _ _ | .cmpLt _ _ _ | .cmpGe _ _ _ | .cmpLtu _ _ _
  | .cmpGeu _ _ _ | .cmpiEq _ _ _ | .cmpiNe _ _ _ | .cmpiLt _ _ _ | .cmpiGe _ _ _ | .cmpiLtu _ _ _ | .cmpiGeu _ _ _
  | .pand _ _ _ | .por _ _ _ | .pxor _ _ _ | .pnot _ _ | .pmov _ _ | .movp _ _ | .setp _ _ | .sel _ _ _ _ | .br _ _
  | .jal _ _ | .jalr _ _ _ | .lb _ _ _ | .lbu _ _ _ | .lh _ _ _ | .lhu _ _ _ | .lw _ _ _ | .lwu _ _ _ | .ld _ _ _
  | .lwS _ _ _ _ | .ldS _ _ _ _ | .lwA _ _ _ _ | .ldA _ _ _ _ | .sb _ _ _ _ | .sh _ _ _ _ | .sw _ _ _ _ | .sd _ _ _ _
  | .swS _ _ _ _ _ | .sdS _ _ _ _ _ | .swL _ _ _ _ _ | .sdL _ _ _ _ _ | .amoaddW _ _ _ _ _ | .amoandW _ _ _ _ _
  | .amoorW _ _ _ _ _ | .amoxorW _ _ _ _ _ | .amominW _ _ _ _ _ | .amomaxW _ _ _ _ _ | .amominuW _ _ _ _ _
  | .amomaxuW _ _ _ _ _ | .amoswapW _ _ _ _ _ | .casW _ _ _ _ _ | .amoaddD _ _ _ _ _ | .amoandD _ _ _ _ _
  | .amoorD _ _ _ _ _ | .amoxorD _ _ _ _ _ | .amominD _ _ _ _ _ | .amomaxD _ _ _ _ _ | .amominuD _ _ _ _ _
  | .amomaxuD _ _ _ _ _ | .amoswapD _ _ _ _ _ | .casD _ _ _ _ _ | .fence _ _ _ | .csrr _ _ | .csrw _ _ _
  | .csrs _ _ _ | .csrc _ _ _ | .loop _ _ | .loopi _ _ | .trap _ | .brk _ | .mcall _ | .idle | .yield | .tret | .gate
  | .callg _ _ | .retg | .lendR _ _ _ | .lendRw _ _ _ | .recl _ | .loanq _ _ | .barInit _ _ | .barArr _ | .barWait _
  | .barSync _ | .waita _ _ | .waitaGe _ _ | .cwait _ _ | .fork _ _ | .join _ | .cvyLead | .cvyJoin | .cvyLeave
  | .hMov _ _ | .hAdd _ _ | .hSub _ _ | .hAnd _ _ | .hOr _ _ | .hXor _ _ | .hAddi _ _ | .hLi _ _ | .hSlli _ _
  | .hSrli _ _ | .hSrai _ _ | .hLd _ _ | .hSd _ _ | .hJmp _ | .hMul _ _ | .hNeg _ _ => some 0
  | .mret | .protSet _ _ | .lptSet _ _ | .ctxSave _ | .ctxLoad _ | .powerOn _ _ | .yieldEnd _ | .idleWake _
  | .trapRingResume _ | .gangCommit _ _ | .svcEndThread _ | .svcSetPageTag _ | .svcWriteReach _ | .svcReadReach _
  | .svcUnknown _ | .threadEnd _ | .convoyRelease _ _ | .joinRecruited _ | .barWaitWake _ | .barTimeout _
  | .waitaWake _ | .cwaitWake _ | .tokenStallRelease _ | .counterRoom _ | .redClose _ _ _ | .redTimeout _ _ _
  | .redLateComplete _ _ | .peerAccessArrival _ _ _ _ _ | .inboundWrite _ _ | .translationWalkDone _
  | .translationRetry | .stationInvalidate _ _ | .reclFree _ | .matrixQueueRoom _ | .matrixJobStart _ _
  | .matrixJobComplete _ _ | .copySlotFree _ | .copyOpStart _ | .copyComplete _ | .beatLanding _ _ | .beatsRoom _
  | .fenceDrain _ | .bteRequestRefused _ _ _ | .bteRetry _ _ | .bteRequestRoom _ | .bteAccept _ _
  | .bteRecordTakeup _ | .bteRecordLanded _ | .bteRingResume _ | .homeSpawnCount _ | .homeUpdate _ | .homeSet _
  | .wmkSetOpen _ | .wmkPropagate _ _ | .recordMove _ _ _ | .spillReturn _ _ | .tnextWake _ | .slotClose _
  | .calRunStart _ | .calKernelDone _ | .strongLoadTimeout _ | .strongLoadArrive _ | .sliceEvict _ | .sliceResume _ _
  | .sliceMigrate _ _ | .debugRun _ | .debugPlainHalt _ | .debugQuiesceHalt _ | .debugStable _ | .queueEnable _ _
  | .queueDisable _ _ | .qtailWrite _ _ | .registerWrite _ _ | .packetFetch _ | .packetPoll _ | .launch _ | .load _ _
  | .unload _ | .signal _ | .wait _ | .waitSatisfied _ | .qfence _ | .nop _ | .slicePermitReturn _ | .headboxRestart
  | .headboxResume | .notifyWrite _ | .notifyGatedDeliver _ | .securityCoreRequest _ _ | .mappingProposal _
  | .leafActivate _ | .attestRequest _ | .measurementRequest _ | .interfaceLock _ _ | .interfaceStart _
  | .interfaceStop _ | .teardownDrained _ | .scrubUnit | .activateImage _ _ _ _ | .activationCommit | .tamperEvent _
  | .ownerClaim _ | .ownerHeartbeat _ | .ownerRelease _ | .ownerTakeover _ | .linkRekey _ | .sealTagFail _
  | .ucieLinkError _ | .linkRecoveryTimeout _ | .causewayCrcFail _ | .groupForm _ _ _ _ | .memberVerified _ _
  | .memberLost _ _ | .governorSample _ | .moduleReset | .reservedEncoding _ | .instructionFetchFault _ _
  | .followerStallDetach _ | .loggingEnable _ | .alarmLevelConfig _ | .moduleNumberAssign _ _ => none
  | .redAdd _ _ _ _ _ | .redMin _ _ _ _ _ | .redMax _ _ _ _ _ | .vadd _ _ _ _ | .vsub _ _ _ _ | .vmul _ _ _ _
  | .vfma _ _ _ _ | .vfms _ _ _ _ | .vfnma _ _ _ _ | .vmin _ _ _ _ | .vmax _ _ _ _ | .vminu _ _ _ _ | .vmaxu _ _ _ _
  | .vabs _ _ _ | .vneg _ _ _ | .vand _ _ _ _ | .vor _ _ _ _ | .vxor _ _ _ _ | .vnot _ _ _ | .vsll _ _ _ _
  | .vsrl _ _ _ _ | .vsra _ _ _ _ | .vadds _ _ _ _ | .vsubs _ _ _ _ | .vdiv _ _ _ _ | .vsqrt _ _ _ | .vcmpEq _ _ _ _
  | .vcmpNe _ _ _ _ | .vcmpLt _ _ _ _ | .vcmpGe _ _ _ _ | .vcmpLtu _ _ _ _ | .vcmpGeu _ _ _ _ | .vsel _ _ _ _
  | .vmov _ _ _ | .vbcast _ _ _ | .vextr _ _ _ | .vins _ _ _ | .vslide _ _ _ _ | .vperm _ _ _ _ | .viota _ _
  | .vredsum _ _ _ | .vredmin _ _ _ | .vredmax _ _ _ | .vtag _ _ _ | .kand _ _ _ | .kor _ _ _ | .kxor _ _ _
  | .knot _ _ | .kpop _ _ | .kfirst _ _ | .vcvt _ _ _ _ _ | .vld _ _ _ _ | .vlds _ _ _ _ _ | .vldx _ _ _ _ _
  | .vldb _ _ _ _ | .vst _ _ _ | .vsts _ _ _ _ | .vstx _ _ _ _ | .setvl _ _ _ | .hVadd _ _ | .hVsub _ _ | .hVmul _ _
  | .hVmin _ _ | .hVmax _ _ | .hVminu _ _ | .hVmaxu _ _ | .hVand _ _ | .hVor _ _ | .hVxor _ _ | .hVsll _ _
  | .hVsrl _ _ | .hVsra _ _ | .hVadds _ _ | .hVsubs _ _ | .hVmov _ _ => some 1
  | .tcfg _ _ | .accfg _ | .tld _ _ _ _ | .tst _ _ _ _ | .tlds _ _ _ _ | .tzero _ _ | .mma _ _ _ _ | .mmas _ _ _ _
  | .mtv _ _ _ _ | .acld _ _ _ | .acst _ _ _ | .accvt _ _ _ | .aczero _ _ => some 2
  | .cpy _ _ _ _ | .tcpy _ _ _ _ | .cpyf _ _ _ _ | .bteGo _ _ _ _ | .bteQ _ _ => some 3
  | .tspawn _ _ _ | .tnext _ _ _ | .tend | .tpoll | .wmkRd _ _ _ | .wmkRdS _ _ _ | .wmkUpd _ _ _
  | .wmkSet _ _ _ => some 4
  | .calRun _ _ _ | .calQry _ => some 5

end Sys2Proof
end

