-- ==== Sys2Proof/WellFormed.lean ====
section
/-! DEFINITION. Which terms of the syntax have an encoding: the field values R30, R36, R37 and R42 reserve. -/
namespace Sys2Proof

/-- The guard "never", N = 1 with p0, is reserved (R30). -/
def Guard.wellFormed (g : Guard) : Bool := !(g.neg && g.p == 0)

/-- A FENCE that names no path is reserved (R36). -/
def Paths.any (q : Paths) : Bool := q.c || q.x || q.m || q.b || q.h

/-- The instruction's fields hold no reserved value (R42). -/
def Instr.wellFormed : Instr → Bool
  | .sel g _ _ _ => g.wellFormed
  | .br g _ => g.wellFormed
  | .sb g _ _ _ => g.wellFormed
  | .sh g _ _ _ => g.wellFormed
  | .sw g _ _ _ => g.wellFormed
  | .sd g _ _ _ => g.wellFormed
  | .swS g _ _ _ _ => g.wellFormed
  | .sdS g _ _ _ _ => g.wellFormed
  | .swL g _ _ _ _ => g.wellFormed
  | .sdL g _ _ _ _ => g.wellFormed
  | .fence _ _ paths => paths.any
  | .loop _ e => decide (2 ≤ e.toNat)
  | .loopi _ e => decide (2 ≤ e.toNat)
  | .vld f _ _ _ => f != .none
  | .vlds f _ _ _ _ => f != .none
  | .vldx f _ _ _ _ => f != .none
  | .vldb f _ _ _ => f != .none
  | .setvl f _ _ => f != .none
  | .hVadd d b => !(d == 0 && b == 0)
  | .add _ _ _ | .sub _ _ _ | .and _ _ _ | .or _ _ _ | .xor _ _ _ | .sll _ _ _ | .srl _ _ _ | .sra _ _ _ |
  .slt _ _ _ | .sltu _ _ _ | .min _ _ _ | .max _ _ _ | .minu _ _ _ | .maxu _ _ _ | .mul _ _ _ | .mulh _ _ _ |
  .mulhu _ _ _ | .div _ _ _ | .divu _ _ _ | .rem _ _ _ | .remu _ _ _ | .clz _ _ | .ctz _ _ | .popc _ _ |
  .rol _ _ _ | .ror _ _ _ | .addi _ _ _ | .andi _ _ _ | .ori _ _ _ | .xori _ _ _ | .slli _ _ _ | .srli _ _ _ |
  .srai _ _ _ | .slti _ _ _ | .sltiu _ _ _ | .lih _ _ | .addpc _ _ | .cmpEq _ _ _ | .cmpNe _ _ _ |
  .cmpLt _ _ _ | .cmpGe _ _ _ | .cmpLtu _ _ _ | .cmpGeu _ _ _ | .cmpiEq _ _ _ | .cmpiNe _ _ _ | .cmpiLt _ _ _
  | .cmpiGe _ _ _ | .cmpiLtu _ _ _ | .cmpiGeu _ _ _ | .pand _ _ _ | .por _ _ _ | .pxor _ _ _ | .pnot _ _ |
  .pmov _ _ | .movp _ _ | .setp _ _ | .jal _ _ | .jalr _ _ _ | .lb _ _ _ | .lbu _ _ _ | .lh _ _ _ | .lhu _ _ _
  | .lw _ _ _ | .lwu _ _ _ | .ld _ _ _ | .lwS _ _ _ _ | .ldS _ _ _ _ | .lwA _ _ _ _ | .ldA _ _ _ _ |
  .amoaddW _ _ _ _ _ | .amoandW _ _ _ _ _ | .amoorW _ _ _ _ _ | .amoxorW _ _ _ _ _ | .amominW _ _ _ _ _ |
  .amomaxW _ _ _ _ _ | .amominuW _ _ _ _ _ | .amomaxuW _ _ _ _ _ | .amoswapW _ _ _ _ _ | .casW _ _ _ _ _ |
  .amoaddD _ _ _ _ _ | .amoandD _ _ _ _ _ | .amoorD _ _ _ _ _ | .amoxorD _ _ _ _ _ | .amominD _ _ _ _ _ |
  .amomaxD _ _ _ _ _ | .amominuD _ _ _ _ _ | .amomaxuD _ _ _ _ _ | .amoswapD _ _ _ _ _ | .casD _ _ _ _ _ |
  .csrr _ _ | .csrw _ _ _ | .csrs _ _ _ | .csrc _ _ _ | .trap _ | .brk _ | .mcall _ | .idle | .yield | .tret |
  .mret | .gate | .callg _ _ | .retg | .lendR _ _ _ | .lendRw _ _ _ | .recl _ | .loanq _ _ | .barInit _ _ |
  .barArr _ | .barWait _ | .barSync _ | .waita _ _ | .waitaGe _ _ | .cwait _ _ | .fork _ _ | .join _ |
  .cvyLead | .cvyJoin | .cvyLeave | .redAdd _ _ _ _ _ | .redMin _ _ _ _ _ | .redMax _ _ _ _ _ | .vadd _ _ _ _
  | .vsub _ _ _ _ | .vmul _ _ _ _ | .vfma _ _ _ _ | .vfms _ _ _ _ | .vfnma _ _ _ _ | .vmin _ _ _ _ |
  .vmax _ _ _ _ | .vminu _ _ _ _ | .vmaxu _ _ _ _ | .vabs _ _ _ | .vneg _ _ _ | .vand _ _ _ _ | .vor _ _ _ _ |
  .vxor _ _ _ _ | .vnot _ _ _ | .vsll _ _ _ _ | .vsrl _ _ _ _ | .vsra _ _ _ _ | .vadds _ _ _ _ |
  .vsubs _ _ _ _ | .vdiv _ _ _ _ | .vsqrt _ _ _ | .vcmpEq _ _ _ _ | .vcmpNe _ _ _ _ | .vcmpLt _ _ _ _ |
  .vcmpGe _ _ _ _ | .vcmpLtu _ _ _ _ | .vcmpGeu _ _ _ _ | .vsel _ _ _ _ | .vmov _ _ _ | .vbcast _ _ _ |
  .vextr _ _ _ | .vins _ _ _ | .vslide _ _ _ _ | .vperm _ _ _ _ | .viota _ _ | .vredsum _ _ _ | .vredmin _ _ _
  | .vredmax _ _ _ | .vtag _ _ _ | .kand _ _ _ | .kor _ _ _ | .kxor _ _ _ | .knot _ _ | .kpop _ _ |
  .kfirst _ _ | .vcvt _ _ _ _ _ | .vst _ _ _ | .vsts _ _ _ _ | .vstx _ _ _ _ | .tcfg _ _ | .accfg _ |
  .tld _ _ _ _ | .tst _ _ _ _ | .tlds _ _ _ _ | .tzero _ _ | .mma _ _ _ _ | .mmas _ _ _ _ | .mtv _ _ _ _ |
  .acld _ _ _ | .acst _ _ _ | .accvt _ _ _ | .aczero _ _ | .cpy _ _ _ _ | .tcpy _ _ _ _ | .cpyf _ _ _ _ |
  .bteGo _ _ _ _ | .bteQ _ _ | .tspawn _ _ _ | .tnext _ _ _ | .tend | .tpoll | .wmkRd _ _ _ | .wmkRdS _ _ _ |
  .wmkUpd _ _ _ | .wmkSet _ _ _ | .calRun _ _ _ | .calQry _ | .protSet _ _ | .lptSet _ _ | .ctxSave _ |
  .ctxLoad _ | .hMov _ _ | .hAdd _ _ | .hSub _ _ | .hAnd _ _ | .hOr _ _ | .hXor _ _ | .hAddi _ _ | .hLi _ _ |
  .hSlli _ _ | .hSrli _ _ | .hSrai _ _ | .hLd _ _ | .hSd _ _ | .hJmp _ | .hMul _ _ | .hNeg _ _ | .hVsub _ _ |
  .hVmul _ _ | .hVmin _ _ | .hVmax _ _ | .hVminu _ _ | .hVmaxu _ _ | .hVand _ _ | .hVor _ _ | .hVxor _ _ |
  .hVsll _ _ | .hVsrl _ _ | .hVsra _ _ | .hVadds _ _ | .hVsubs _ _ | .hVmov _ _ | .powerOn _ _ | .yieldEnd _ |
  .idleWake _ | .trapRingResume _ | .gangCommit _ _ | .svcEndThread _ | .svcSetPageTag _ | .svcWriteReach _ |
  .svcReadReach _ | .svcUnknown _ | .threadEnd _ | .convoyRelease _ _ | .joinRecruited _ | .barWaitWake _ |
  .barTimeout _ | .waitaWake _ | .cwaitWake _ | .tokenStallRelease _ | .counterRoom _ | .redClose _ _ _ |
  .redTimeout _ _ _ | .redLateComplete _ _ | .peerAccessArrival _ _ _ _ _ | .inboundWrite _ _ |
  .translationWalkDone _ | .translationRetry | .stationInvalidate _ _ | .reclFree _ | .matrixQueueRoom _ |
  .matrixJobStart _ _ | .matrixJobComplete _ _ | .copySlotFree _ | .copyOpStart _ | .copyComplete _ |
  .beatLanding _ _ | .beatsRoom _ | .fenceDrain _ | .bteRequestRefused _ _ _ | .bteRetry _ _ |
  .bteRequestRoom _ | .bteAccept _ _ | .bteRecordTakeup _ | .bteRecordLanded _ | .bteRingResume _ |
  .homeSpawnCount _ | .homeUpdate _ | .homeSet _ | .wmkSetOpen _ | .wmkPropagate _ _ | .recordMove _ _ _ |
  .spillReturn _ _ | .tnextWake _ | .slotClose _ | .calRunStart _ | .calKernelDone _ | .strongLoadTimeout _ |
  .strongLoadArrive _ | .sliceEvict _ | .sliceResume _ _ | .sliceMigrate _ _ | .debugRun _ | .debugPlainHalt _
  | .debugQuiesceHalt _ | .debugStable _ | .queueEnable _ _ | .queueDisable _ _ | .qtailWrite _ _ |
  .registerWrite _ _ | .packetFetch _ | .packetPoll _ | .launch _ | .load _ _ | .unload _ | .signal _ |
  .wait _ | .waitSatisfied _ | .qfence _ | .nop _ | .slicePermitReturn _ | .headboxRestart | .headboxResume |
  .notifyWrite _ | .notifyGatedDeliver _ | .securityCoreRequest _ _ | .mappingProposal _ | .leafActivate _ |
  .attestRequest _ | .measurementRequest _ | .interfaceLock _ _ | .interfaceStart _ | .interfaceStop _ |
  .teardownDrained _ | .scrubUnit | .activateImage _ _ _ _ | .activationCommit | .tamperEvent _ |
  .ownerClaim _ | .ownerHeartbeat _ | .ownerRelease _ | .ownerTakeover _ | .linkRekey _ | .sealTagFail _ |
  .ucieLinkError _ | .linkRecoveryTimeout _ | .causewayCrcFail _ | .groupForm _ _ _ _ | .memberVerified _ _ |
  .memberLost _ _ | .governorSample _ | .moduleReset | .reservedEncoding _ | .instructionFetchFault _ _ |
  .followerStallDetach _ | .loggingEnable _ | .alarmLevelConfig _ | .moduleNumberAssign _ _ => true

end Sys2Proof
end

