-- ==== Sys2Proof/Decode.lean ====
section
/-! DEFINITION. The decoder of R26 to R42, total on any bytes, and the encoder written from the same tables. -/
namespace Sys2Proof

/-- Why a bit pattern names no instruction (R42). Each is the ILLEGAL of a reserved encoding. -/
inductive DecodeError where
  /-- Fewer bytes than the instruction has. -/
  | truncated
  /-- The halfword 0x0000. -/
  | zeroHalfword
  /-- A major of R35 that is not assigned. -/
  | reservedMajor
  /-- A selector not assigned, or a nonzero field that must be zero. -/
  | reservedCode
  /-- A reserved value in a field of a named instruction. -/
  | reservedValue
  deriving DecidableEq, Repr

def fmtOf : Nat → Option Fmt
  | 0 => some .none | 1 => some .i8 | 2 => some .i16 | 3 => some .i32 | 4 => some .i64
  | 5 => some .fp8e4 | 6 => some .fp8e5 | 7 => some .bf16 | 8 => some .fp16 | 9 => some .fp32
  | 10 => some .fp64 | 11 => some .t2 | 12 => some .t5 | 13 => some .fp8e4s | 14 => some .fp8e5s
  | _ => none

/-- The tag values of R74. -/
def fmtNum : Fmt → Nat
  | .none => 0 | .i8 => 1 | .i16 => 2 | .i32 => 3 | .i64 => 4 | .fp8e4 => 5 | .fp8e5 => 6 | .bf16 => 7
  | .fp16 => 8 | .fp32 => 9 | .fp64 => 10 | .t2 => 11 | .t5 => 12 | .fp8e4s => 13 | .fp8e5s => 14

def guardOf (n : Nat) : Guard := ⟨n / 8 % 2 == 1, Fin.ofNat 8 n⟩
def guardNum (g : Guard) : Nat := g.neg.toNat * 8 + g.p.val

def scopeOf (n : Nat) : Scope :=
  match n % 4 with | 0 => .core | 1 => .team | 2 => .dev | _ => .sys
/-- The scope codes of R33. -/
def scopeNum : Scope → Nat
  | .core => 0 | .team => 1 | .dev => 2 | .sys => 3

def amoOrderOf (n : Nat) : AmoOrder :=
  match n % 8 with
  | 0 => .rlxTeam | 1 => .arTeam | 2 => .rlxDev | 3 => .acqDev | 4 => .relDev | 5 => .arDev
  | 6 => .rlxSys | _ => .arSys
/-- The order-and-scope codes of R32. -/
def amoOrderNum : AmoOrder → Nat
  | .rlxTeam => 0 | .arTeam => 1 | .rlxDev => 2 | .acqDev => 3 | .relDev => 4 | .arDev => 5
  | .rlxSys => 6 | .arSys => 7

def fenceKindOf : Nat → Option FenceKind
  | 0 => some .full | 1 => some .acquire | 2 => some .release | _ => none
def fenceKindNum : FenceKind → Nat
  | .full => 0 | .acquire => 1 | .release => 2

def pathsOf (n : Nat) : Paths :=
  ⟨n % 2 == 1, n / 2 % 2 == 1, n / 4 % 2 == 1, n / 8 % 2 == 1, n / 16 % 2 == 1⟩
def pathsNum (q : Paths) : Nat :=
  q.c.toNat + q.x.toNat * 2 + q.m.toNat * 4 + q.b.toNat * 8 + q.h.toNat * 16

def redFmtOf (n : Nat) : RedFmt :=
  match n % 4 with | 0 => .fp32 | 1 => .fp64 | 2 => .i32 | _ => .i16
def redFmtNum : RedFmt → Nat
  | .fp32 => 0 | .fp64 => 1 | .i32 => 2 | .i16 => 3

def vrndOf : Nat → Option VRnd
  | 0 => some .rne | 1 => some .rtz | 2 => some .rdn | 3 => some .rup | 4 => some .rna | 5 => some .dyn
  | _ => none
def vrndNum : VRnd → Nat
  | .rne => 0 | .rtz => 1 | .rdn => 2 | .rup => 3 | .rna => 4 | .dyn => 5

/-- Major 0x01 (R36 to R38). -/
def decMaj01 (w : Nat) : Except DecodeError Instr :=
  match w / 4194304 with
  | 0 => .ok (.add (Fin.ofNat 32 (w / 128)) (Fin.ofNat 32 (w / 4096)) (Fin.ofNat 32 (w / 131072)))
  | 8 => .ok (.sub (Fin.ofNat 32 (w / 128)) (Fin.ofNat 32 (w / 4096)) (Fin.ofNat 32 (w / 131072)))
  | 16 => .ok (.and (Fin.ofNat 32 (w / 128)) (Fin.ofNat 32 (w / 4096)) (Fin.ofNat 32 (w / 131072)))
  | 24 => .ok (.or (Fin.ofNat 32 (w / 128)) (Fin.ofNat 32 (w / 4096)) (Fin.ofNat 32 (w / 131072)))
  | 32 => .ok (.xor (Fin.ofNat 32 (w / 128)) (Fin.ofNat 32 (w / 4096)) (Fin.ofNat 32 (w / 131072)))
  | 40 => .ok (.sll (Fin.ofNat 32 (w / 128)) (Fin.ofNat 32 (w / 4096)) (Fin.ofNat 32 (w / 131072)))
  | 48 => .ok (.srl (Fin.ofNat 32 (w / 128)) (Fin.ofNat 32 (w / 4096)) (Fin.ofNat 32 (w / 131072)))
  | 56 => .ok (.sra (Fin.ofNat 32 (w / 128)) (Fin.ofNat 32 (w / 4096)) (Fin.ofNat 32 (w / 131072)))
  | 64 => .ok (.slt (Fin.ofNat 32 (w / 128)) (Fin.ofNat 32 (w / 4096)) (Fin.ofNat 32 (w / 131072)))
  | 72 => .ok (.sltu (Fin.ofNat 32 (w / 128)) (Fin.ofNat 32 (w / 4096)) (Fin.ofNat 32 (w / 131072)))
  | 80 => .ok (.min (Fin.ofNat 32 (w / 128)) (Fin.ofNat 32 (w / 4096)) (Fin.ofNat 32 (w / 131072)))
  | 88 => .ok (.max (Fin.ofNat 32 (w / 128)) (Fin.ofNat 32 (w / 4096)) (Fin.ofNat 32 (w / 131072)))
  | 96 => .ok (.minu (Fin.ofNat 32 (w / 128)) (Fin.ofNat 32 (w / 4096)) (Fin.ofNat 32 (w / 131072)))
  | 104 => .ok (.maxu (Fin.ofNat 32 (w / 128)) (Fin.ofNat 32 (w / 4096)) (Fin.ofNat 32 (w / 131072)))
  | 112 => .ok (.mul (Fin.ofNat 32 (w / 128)) (Fin.ofNat 32 (w / 4096)) (Fin.ofNat 32 (w / 131072)))
  | 120 => .ok (.mulh (Fin.ofNat 32 (w / 128)) (Fin.ofNat 32 (w / 4096)) (Fin.ofNat 32 (w / 131072)))
  | 128 => .ok (.mulhu (Fin.ofNat 32 (w / 128)) (Fin.ofNat 32 (w / 4096)) (Fin.ofNat 32 (w / 131072)))
  | 136 => .ok (.div (Fin.ofNat 32 (w / 128)) (Fin.ofNat 32 (w / 4096)) (Fin.ofNat 32 (w / 131072)))
  | 144 => .ok (.divu (Fin.ofNat 32 (w / 128)) (Fin.ofNat 32 (w / 4096)) (Fin.ofNat 32 (w / 131072)))
  | 152 => .ok (.rem (Fin.ofNat 32 (w / 128)) (Fin.ofNat 32 (w / 4096)) (Fin.ofNat 32 (w / 131072)))
  | 160 => .ok (.remu (Fin.ofNat 32 (w / 128)) (Fin.ofNat 32 (w / 4096)) (Fin.ofNat 32 (w / 131072)))
  | 168 =>
    if w / 131072 % 32 = 0 then .ok (.clz (Fin.ofNat 32 (w / 128)) (Fin.ofNat 32 (w / 4096))) else
    .error .reservedCode
  | 176 =>
    if w / 131072 % 32 = 0 then .ok (.ctz (Fin.ofNat 32 (w / 128)) (Fin.ofNat 32 (w / 4096))) else
    .error .reservedCode
  | 184 =>
    if w / 131072 % 32 = 0 then .ok (.popc (Fin.ofNat 32 (w / 128)) (Fin.ofNat 32 (w / 4096))) else
    .error .reservedCode
  | 192 => .ok (.rol (Fin.ofNat 32 (w / 128)) (Fin.ofNat 32 (w / 4096)) (Fin.ofNat 32 (w / 131072)))
  | 200 => .ok (.ror (Fin.ofNat 32 (w / 128)) (Fin.ofNat 32 (w / 4096)) (Fin.ofNat 32 (w / 131072)))
  | _ => .error .reservedCode

/-- Major 0x02 (R36 to R38). -/
def decMaj02 (w : Nat) : Except DecodeError Instr :=
  match w / 131072 % 8 with
  | 0 => .ok (.addi (Fin.ofNat 32 (w / 128)) (Fin.ofNat 32 (w / 4096)) (BitVec.ofNat 12 (w / 1048576)))
  | 1 => .ok (.andi (Fin.ofNat 32 (w / 128)) (Fin.ofNat 32 (w / 4096)) (BitVec.ofNat 12 (w / 1048576)))
  | 2 => .ok (.ori (Fin.ofNat 32 (w / 128)) (Fin.ofNat 32 (w / 4096)) (BitVec.ofNat 12 (w / 1048576)))
  | 3 => .ok (.xori (Fin.ofNat 32 (w / 128)) (Fin.ofNat 32 (w / 4096)) (BitVec.ofNat 12 (w / 1048576)))
  | 4 =>
    if w / 67108864 = 0 then .ok (.slli (Fin.ofNat 32 (w / 128)) (Fin.ofNat 32 (w / 4096)) (BitVec.ofNat 6 (w / 1048576))) else
    if w / 67108864 = 1 then .ok (.srli (Fin.ofNat 32 (w / 128)) (Fin.ofNat 32 (w / 4096)) (BitVec.ofNat 6 (w / 1048576))) else
    if w / 67108864 = 2 then .ok (.srai (Fin.ofNat 32 (w / 128)) (Fin.ofNat 32 (w / 4096)) (BitVec.ofNat 6 (w / 1048576))) else
    .error .reservedCode
  | 5 => .ok (.slti (Fin.ofNat 32 (w / 128)) (Fin.ofNat 32 (w / 4096)) (BitVec.ofNat 12 (w / 1048576)))
  | 6 => .ok (.sltiu (Fin.ofNat 32 (w / 128)) (Fin.ofNat 32 (w / 4096)) (BitVec.ofNat 12 (w / 1048576)))
  | _ => .error .reservedCode

/-- Major 0x03 (R36 to R38). -/
def decMaj03 (w : Nat) : Except DecodeError Instr :=
  .ok (.lih (Fin.ofNat 32 (w / 128)) (BitVec.ofNat 20 (w / 4096)))

/-- Major 0x04 (R36 to R38). -/
def decMaj04 (w : Nat) : Except DecodeError Instr :=
  .ok (.addpc (Fin.ofNat 32 (w / 128)) (BitVec.ofNat 20 (w / 4096)))

/-- Major 0x05 (R36 to R38). -/
def decMaj05 (w : Nat) : Except DecodeError Instr :=
  match w / 4194304 with
  | 0 =>
    if w / 1024 % 4 = 0 then .ok (.cmpEq (Fin.ofNat 8 (w / 128)) (Fin.ofNat 32 (w / 4096)) (Fin.ofNat 32 (w / 131072))) else
    .error .reservedCode
  | 1 =>
    if w / 1024 % 4 = 0 then .ok (.cmpNe (Fin.ofNat 8 (w / 128)) (Fin.ofNat 32 (w / 4096)) (Fin.ofNat 32 (w / 131072))) else
    .error .reservedCode
  | 2 =>
    if w / 1024 % 4 = 0 then .ok (.cmpLt (Fin.ofNat 8 (w / 128)) (Fin.ofNat 32 (w / 4096)) (Fin.ofNat 32 (w / 131072))) else
    .error .reservedCode
  | 3 =>
    if w / 1024 % 4 = 0 then .ok (.cmpGe (Fin.ofNat 8 (w / 128)) (Fin.ofNat 32 (w / 4096)) (Fin.ofNat 32 (w / 131072))) else
    .error .reservedCode
  | 4 =>
    if w / 1024 % 4 = 0 then .ok (.cmpLtu (Fin.ofNat 8 (w / 128)) (Fin.ofNat 32 (w / 4096)) (Fin.ofNat 32 (w / 131072))) else
    .error .reservedCode
  | 5 =>
    if w / 1024 % 4 = 0 then .ok (.cmpGeu (Fin.ofNat 8 (w / 128)) (Fin.ofNat 32 (w / 4096)) (Fin.ofNat 32 (w / 131072))) else
    .error .reservedCode
  | _ => .error .reservedCode

/-- Major 0x06 (R36 to R38). -/
def decMaj06 (w : Nat) : Except DecodeError Instr :=
  match w / 131072 % 8 with
  | 0 =>
    if w / 1024 % 4 = 0 then .ok (.cmpiEq (Fin.ofNat 8 (w / 128)) (Fin.ofNat 32 (w / 4096)) (BitVec.ofNat 12 (w / 1048576))) else
    .error .reservedCode
  | 1 =>
    if w / 1024 % 4 = 0 then .ok (.cmpiNe (Fin.ofNat 8 (w / 128)) (Fin.ofNat 32 (w / 4096)) (BitVec.ofNat 12 (w / 1048576))) else
    .error .reservedCode
  | 2 =>
    if w / 1024 % 4 = 0 then .ok (.cmpiLt (Fin.ofNat 8 (w / 128)) (Fin.ofNat 32 (w / 4096)) (BitVec.ofNat 12 (w / 1048576))) else
    .error .reservedCode
  | 3 =>
    if w / 1024 % 4 = 0 then .ok (.cmpiGe (Fin.ofNat 8 (w / 128)) (Fin.ofNat 32 (w / 4096)) (BitVec.ofNat 12 (w / 1048576))) else
    .error .reservedCode
  | 4 =>
    if w / 1024 % 4 = 0 then .ok (.cmpiLtu (Fin.ofNat 8 (w / 128)) (Fin.ofNat 32 (w / 4096)) (BitVec.ofNat 12 (w / 1048576))) else
    .error .reservedCode
  | 5 =>
    if w / 1024 % 4 = 0 then .ok (.cmpiGeu (Fin.ofNat 8 (w / 128)) (Fin.ofNat 32 (w / 4096)) (BitVec.ofNat 12 (w / 1048576))) else
    .error .reservedCode
  | _ => .error .reservedCode

/-- Major 0x07 (R36 to R38). -/
def decMaj07 (w : Nat) : Except DecodeError Instr :=
  match w / 1048576 with
  | 0 =>
    if w / 32768 % 4 = 0 ∧ w / 1024 % 4 = 0 then .ok (.pand (Fin.ofNat 8 (w / 128)) (Fin.ofNat 8 (w / 4096)) (Fin.ofNat 8 (w / 131072))) else
    .error .reservedCode
  | 32 =>
    if w / 32768 % 4 = 0 ∧ w / 1024 % 4 = 0 then .ok (.por (Fin.ofNat 8 (w / 128)) (Fin.ofNat 8 (w / 4096)) (Fin.ofNat 8 (w / 131072))) else
    .error .reservedCode
  | 64 =>
    if w / 32768 % 4 = 0 ∧ w / 1024 % 4 = 0 then .ok (.pxor (Fin.ofNat 8 (w / 128)) (Fin.ofNat 8 (w / 4096)) (Fin.ofNat 8 (w / 131072))) else
    .error .reservedCode
  | 96 =>
    if w / 32768 % 32 = 0 ∧ w / 1024 % 4 = 0 then .ok (.pnot (Fin.ofNat 8 (w / 128)) (Fin.ofNat 8 (w / 4096))) else
    .error .reservedCode
  | 128 =>
    if w / 32768 % 32 = 0 ∧ w / 1024 % 4 = 0 then .ok (.pmov (Fin.ofNat 8 (w / 128)) (Fin.ofNat 8 (w / 4096))) else
    .error .reservedCode
  | 160 =>
    if w / 32768 % 32 = 0 then .ok (.movp (Fin.ofNat 32 (w / 128)) (Fin.ofNat 8 (w / 4096))) else
    .error .reservedCode
  | 192 =>
    if w / 131072 % 8 = 0 ∧ w / 1024 % 4 = 0 then .ok (.setp (Fin.ofNat 8 (w / 128)) (Fin.ofNat 32 (w / 4096))) else
    .error .reservedCode
  | _ => .error .reservedCode

/-- Major 0x08 (R36 to R38). -/
def decMaj08 (w : Nat) : Except DecodeError Instr :=
  if w / 4194304 % 64 = 0 then .ok (.sel (guardOf (w / 268435456)) (Fin.ofNat 32 (w / 128)) (Fin.ofNat 32 (w / 4096)) (Fin.ofNat 32 (w / 131072))) else
  .error .reservedCode

/-- Major 0x09 (R36 to R38). -/
def decMaj09 (w : Nat) : Except DecodeError Instr :=
  .ok (.br (guardOf (w / 268435456)) (BitVec.ofNat 21 (w / 128)))

/-- Major 0x0A (R36 to R38). -/
def decMaj0A (w : Nat) : Except DecodeError Instr :=
  .ok (.jal (Fin.ofNat 32 (w / 128)) (BitVec.ofNat 20 (w / 4096)))

/-- Major 0x0B (R36 to R38). -/
def decMaj0B (w : Nat) : Except DecodeError Instr :=
  if w / 131072 % 8 = 0 then .ok (.jalr (Fin.ofNat 32 (w / 128)) (Fin.ofNat 32 (w / 4096)) (BitVec.ofNat 12 (w / 1048576))) else
  .error .reservedCode

/-- Major 0x0C (R36 to R38). -/
def decMaj0C (w : Nat) : Except DecodeError Instr :=
  match w / 131072 % 8 with
  | 0 => .ok (.lb (Fin.ofNat 32 (w / 128)) (Fin.ofNat 32 (w / 4096)) (BitVec.ofNat 12 (w / 1048576)))
  | 1 => .ok (.lbu (Fin.ofNat 32 (w / 128)) (Fin.ofNat 32 (w / 4096)) (BitVec.ofNat 12 (w / 1048576)))
  | 2 => .ok (.lh (Fin.ofNat 32 (w / 128)) (Fin.ofNat 32 (w / 4096)) (BitVec.ofNat 12 (w / 1048576)))
  | 3 => .ok (.lhu (Fin.ofNat 32 (w / 128)) (Fin.ofNat 32 (w / 4096)) (BitVec.ofNat 12 (w / 1048576)))
  | 4 => .ok (.lw (Fin.ofNat 32 (w / 128)) (Fin.ofNat 32 (w / 4096)) (BitVec.ofNat 12 (w / 1048576)))
  | 5 => .ok (.lwu (Fin.ofNat 32 (w / 128)) (Fin.ofNat 32 (w / 4096)) (BitVec.ofNat 12 (w / 1048576)))
  | 6 => .ok (.ld (Fin.ofNat 32 (w / 128)) (Fin.ofNat 32 (w / 4096)) (BitVec.ofNat 12 (w / 1048576)))
  | _ => .error .reservedCode

/-- Major 0x0D (R36 to R38). -/
def decMaj0D (w : Nat) : Except DecodeError Instr :=
  match w / 131072 % 8 with
  | 0 => .ok (.lwS (scopeOf (w / 1073741824)) (Fin.ofNat 32 (w / 128)) (Fin.ofNat 32 (w / 4096)) (BitVec.ofNat 10 (w / 1048576)))
  | 1 => .ok (.ldS (scopeOf (w / 1073741824)) (Fin.ofNat 32 (w / 128)) (Fin.ofNat 32 (w / 4096)) (BitVec.ofNat 10 (w / 1048576)))
  | 2 => .ok (.lwA (scopeOf (w / 1073741824)) (Fin.ofNat 32 (w / 128)) (Fin.ofNat 32 (w / 4096)) (BitVec.ofNat 10 (w / 1048576)))
  | 3 => .ok (.ldA (scopeOf (w / 1073741824)) (Fin.ofNat 32 (w / 128)) (Fin.ofNat 32 (w / 4096)) (BitVec.ofNat 10 (w / 1048576)))
  | _ => .error .reservedCode

/-- Major 0x0E (R36 to R38). -/
def decMaj0E (w : Nat) : Except DecodeError Instr :=
  match w / 33554432 % 8 with
  | 0 => .ok (.sb (guardOf (w / 268435456)) (Fin.ofNat 32 (w / 131072)) (Fin.ofNat 32 (w / 4096)) (BitVec.ofNat 8 (w / 4194304 % 8 * 32 + w / 128 % 32)))
  | 1 => .ok (.sh (guardOf (w / 268435456)) (Fin.ofNat 32 (w / 131072)) (Fin.ofNat 32 (w / 4096)) (BitVec.ofNat 8 (w / 4194304 % 8 * 32 + w / 128 % 32)))
  | 2 => .ok (.sw (guardOf (w / 268435456)) (Fin.ofNat 32 (w / 131072)) (Fin.ofNat 32 (w / 4096)) (BitVec.ofNat 8 (w / 4194304 % 8 * 32 + w / 128 % 32)))
  | 3 => .ok (.sd (guardOf (w / 268435456)) (Fin.ofNat 32 (w / 131072)) (Fin.ofNat 32 (w / 4096)) (BitVec.ofNat 8 (w / 4194304 % 8 * 32 + w / 128 % 32)))
  | _ => .error .reservedCode

/-- Major 0x0F (R36 to R38). -/
def decMaj0F (w : Nat) : Except DecodeError Instr :=
  match w / 16777216 % 2 with
  | 0 =>
    if w / 134217728 % 2 = 0 then .ok (.swS (guardOf (w / 268435456)) (scopeOf (w / 33554432)) (Fin.ofNat 32 (w / 131072)) (Fin.ofNat 32 (w / 4096)) (BitVec.ofNat 7 (w / 4194304 % 4 * 32 + w / 128 % 32))) else
    if w / 134217728 % 2 = 1 then .ok (.swL (guardOf (w / 268435456)) (scopeOf (w / 33554432)) (Fin.ofNat 32 (w / 131072)) (Fin.ofNat 32 (w / 4096)) (BitVec.ofNat 7 (w / 4194304 % 4 * 32 + w / 128 % 32))) else
    .error .reservedCode
  | 1 =>
    if w / 134217728 % 2 = 0 then .ok (.sdS (guardOf (w / 268435456)) (scopeOf (w / 33554432)) (Fin.ofNat 32 (w / 131072)) (Fin.ofNat 32 (w / 4096)) (BitVec.ofNat 7 (w / 4194304 % 4 * 32 + w / 128 % 32))) else
    if w / 134217728 % 2 = 1 then .ok (.sdL (guardOf (w / 268435456)) (scopeOf (w / 33554432)) (Fin.ofNat 32 (w / 131072)) (Fin.ofNat 32 (w / 4096)) (BitVec.ofNat 7 (w / 4194304 % 4 * 32 + w / 128 % 32))) else
    .error .reservedCode
  | _ => .error .reservedCode

/-- Major 0x10 (R36 to R38). -/
def decMaj10 (w : Nat) : Except DecodeError Instr :=
  match w / 33554432 % 16 with
  | 0 => .ok (.amoaddW (Fin.ofNat 8 (w / 536870912)) (amoOrderOf (w / 4194304)) (Fin.ofNat 32 (w / 128)) (Fin.ofNat 32 (w / 131072)) (Fin.ofNat 32 (w / 4096)))
  | 1 => .ok (.amoandW (Fin.ofNat 8 (w / 536870912)) (amoOrderOf (w / 4194304)) (Fin.ofNat 32 (w / 128)) (Fin.ofNat 32 (w / 131072)) (Fin.ofNat 32 (w / 4096)))
  | 2 => .ok (.amoorW (Fin.ofNat 8 (w / 536870912)) (amoOrderOf (w / 4194304)) (Fin.ofNat 32 (w / 128)) (Fin.ofNat 32 (w / 131072)) (Fin.ofNat 32 (w / 4096)))
  | 3 => .ok (.amoxorW (Fin.ofNat 8 (w / 536870912)) (amoOrderOf (w / 4194304)) (Fin.ofNat 32 (w / 128)) (Fin.ofNat 32 (w / 131072)) (Fin.ofNat 32 (w / 4096)))
  | 4 => .ok (.amominW (Fin.ofNat 8 (w / 536870912)) (amoOrderOf (w / 4194304)) (Fin.ofNat 32 (w / 128)) (Fin.ofNat 32 (w / 131072)) (Fin.ofNat 32 (w / 4096)))
  | 5 => .ok (.amomaxW (Fin.ofNat 8 (w / 536870912)) (amoOrderOf (w / 4194304)) (Fin.ofNat 32 (w / 128)) (Fin.ofNat 32 (w / 131072)) (Fin.ofNat 32 (w / 4096)))
  | 6 => .ok (.amominuW (Fin.ofNat 8 (w / 536870912)) (amoOrderOf (w / 4194304)) (Fin.ofNat 32 (w / 128)) (Fin.ofNat 32 (w / 131072)) (Fin.ofNat 32 (w / 4096)))
  | 7 => .ok (.amomaxuW (Fin.ofNat 8 (w / 536870912)) (amoOrderOf (w / 4194304)) (Fin.ofNat 32 (w / 128)) (Fin.ofNat 32 (w / 131072)) (Fin.ofNat 32 (w / 4096)))
  | 8 => .ok (.amoswapW (Fin.ofNat 8 (w / 536870912)) (amoOrderOf (w / 4194304)) (Fin.ofNat 32 (w / 128)) (Fin.ofNat 32 (w / 131072)) (Fin.ofNat 32 (w / 4096)))
  | 9 => .ok (.casW (Fin.ofNat 8 (w / 536870912)) (amoOrderOf (w / 4194304)) (Fin.ofNat 32 (w / 128)) (Fin.ofNat 32 (w / 131072)) (Fin.ofNat 32 (w / 4096)))
  | _ => .error .reservedCode

/-- Major 0x11 (R36 to R38). -/
def decMaj11 (w : Nat) : Except DecodeError Instr :=
  match w / 33554432 % 16 with
  | 0 => .ok (.amoaddD (Fin.ofNat 8 (w / 536870912)) (amoOrderOf (w / 4194304)) (Fin.ofNat 32 (w / 128)) (Fin.ofNat 32 (w / 131072)) (Fin.ofNat 32 (w / 4096)))
  | 1 => .ok (.amoandD (Fin.ofNat 8 (w / 536870912)) (amoOrderOf (w / 4194304)) (Fin.ofNat 32 (w / 128)) (Fin.ofNat 32 (w / 131072)) (Fin.ofNat 32 (w / 4096)))
  | 2 => .ok (.amoorD (Fin.ofNat 8 (w / 536870912)) (amoOrderOf (w / 4194304)) (Fin.ofNat 32 (w / 128)) (Fin.ofNat 32 (w / 131072)) (Fin.ofNat 32 (w / 4096)))
  | 3 => .ok (.amoxorD (Fin.ofNat 8 (w / 536870912)) (amoOrderOf (w / 4194304)) (Fin.ofNat 32 (w / 128)) (Fin.ofNat 32 (w / 131072)) (Fin.ofNat 32 (w / 4096)))
  | 4 => .ok (.amominD (Fin.ofNat 8 (w / 536870912)) (amoOrderOf (w / 4194304)) (Fin.ofNat 32 (w / 128)) (Fin.ofNat 32 (w / 131072)) (Fin.ofNat 32 (w / 4096)))
  | 5 => .ok (.amomaxD (Fin.ofNat 8 (w / 536870912)) (amoOrderOf (w / 4194304)) (Fin.ofNat 32 (w / 128)) (Fin.ofNat 32 (w / 131072)) (Fin.ofNat 32 (w / 4096)))
  | 6 => .ok (.amominuD (Fin.ofNat 8 (w / 536870912)) (amoOrderOf (w / 4194304)) (Fin.ofNat 32 (w / 128)) (Fin.ofNat 32 (w / 131072)) (Fin.ofNat 32 (w / 4096)))
  | 7 => .ok (.amomaxuD (Fin.ofNat 8 (w / 536870912)) (amoOrderOf (w / 4194304)) (Fin.ofNat 32 (w / 128)) (Fin.ofNat 32 (w / 131072)) (Fin.ofNat 32 (w / 4096)))
  | 8 => .ok (.amoswapD (Fin.ofNat 8 (w / 536870912)) (amoOrderOf (w / 4194304)) (Fin.ofNat 32 (w / 128)) (Fin.ofNat 32 (w / 131072)) (Fin.ofNat 32 (w / 4096)))
  | 9 => .ok (.casD (Fin.ofNat 8 (w / 536870912)) (amoOrderOf (w / 4194304)) (Fin.ofNat 32 (w / 128)) (Fin.ofNat 32 (w / 131072)) (Fin.ofNat 32 (w / 4096)))
  | _ => .error .reservedCode

/-- Major 0x12 (R36 to R38). -/
def decMaj12 (w : Nat) : Except DecodeError Instr :=
  if w / 536870912 = 0 ∧ w / 128 % 8192 = 0 then (match fenceKindOf (w / 134217728 % 4) with | none => .error .reservedValue | some kind => .ok (.fence kind (scopeOf (w / 33554432)) (pathsOf (w / 1048576)))) else
  .error .reservedCode

/-- Major 0x13 (R36 to R38). -/
def decMaj13 (w : Nat) : Except DecodeError Instr :=
  match w / 131072 % 8 with
  | 0 =>
    if w / 4096 % 32 = 0 then .ok (.csrr (Fin.ofNat 32 (w / 128)) (BitVec.ofNat 12 (w / 1048576))) else
    .error .reservedCode
  | 1 => .ok (.csrw (Fin.ofNat 32 (w / 128)) (BitVec.ofNat 12 (w / 1048576)) (Fin.ofNat 32 (w / 4096)))
  | 2 => .ok (.csrs (Fin.ofNat 32 (w / 128)) (BitVec.ofNat 12 (w / 1048576)) (Fin.ofNat 32 (w / 4096)))
  | 3 => .ok (.csrc (Fin.ofNat 32 (w / 128)) (BitVec.ofNat 12 (w / 1048576)) (Fin.ofNat 32 (w / 4096)))
  | _ => .error .reservedCode

/-- Major 0x14 (R36 to R38). -/
def decMaj14 (w : Nat) : Except DecodeError Instr :=
  match w / 131072 % 8 with
  | 0 =>
    if w / 128 % 32 = 0 then .ok (.loop (Fin.ofNat 32 (w / 4096)) (BitVec.ofNat 12 (w / 1048576))) else
    .error .reservedCode
  | 1 => .ok (.loopi (BitVec.ofNat 12 (w / 1048576)) (BitVec.ofNat 10 (w / 128)))
  | _ => .error .reservedCode

/-- Major 0x15 (R36 to R38). -/
def decMaj15 (w : Nat) : Except DecodeError Instr :=
  match w / 128 % 8192 with
  | 0 => .ok (.trap (BitVec.ofNat 12 (w / 1048576)))
  | 1024 => .ok (.brk (BitVec.ofNat 12 (w / 1048576)))
  | 2048 => .ok (.mcall (BitVec.ofNat 12 (w / 1048576)))
  | 3072 =>
    if w / 1048576 = 0 then .ok (.idle) else
    .error .reservedCode
  | 4096 =>
    if w / 1048576 = 0 then .ok (.yield) else
    .error .reservedCode
  | 5120 =>
    if w / 1048576 = 0 then .ok (.tret) else
    .error .reservedCode
  | 6144 =>
    if w / 1048576 = 0 then .ok (.mret) else
    .error .reservedCode
  | _ => .error .reservedCode

/-- Major 0x16 (R36 to R38). -/
def decMaj16 (w : Nat) : Except DecodeError Instr :=
  match w / 131072 % 8 with
  | 0 =>
    if w / 1048576 = 0 ∧ w / 128 % 1024 = 0 then .ok (.gate) else
    .error .reservedCode
  | 1 =>
    if w / 128 % 32 = 0 then .ok (.callg (Fin.ofNat 32 (w / 4096)) (BitVec.ofNat 12 (w / 1048576))) else
    .error .reservedCode
  | 2 =>
    if w / 1048576 = 0 ∧ w / 128 % 1024 = 0 then .ok (.retg) else
    .error .reservedCode
  | _ => .error .reservedCode

/-- Major 0x17 (R36 to R38). -/
def decMaj17 (w : Nat) : Except DecodeError Instr :=
  match w / 4194304 with
  | 0 => .ok (.lendR (Fin.ofNat 32 (w / 128)) (Fin.ofNat 32 (w / 4096)) (Fin.ofNat 32 (w / 131072)))
  | 1 => .ok (.lendRw (Fin.ofNat 32 (w / 128)) (Fin.ofNat 32 (w / 4096)) (Fin.ofNat 32 (w / 131072)))
  | 8 =>
    if w / 131072 % 32 = 0 ∧ w / 128 % 32 = 0 then .ok (.recl (Fin.ofNat 32 (w / 4096))) else
    .error .reservedCode
  | 16 =>
    if w / 131072 % 32 = 0 then .ok (.loanq (Fin.ofNat 32 (w / 128)) (Fin.ofNat 32 (w / 4096))) else
    .error .reservedCode
  | _ => .error .reservedCode

/-- Major 0x18 (R36 to R38). -/
def decMaj18 (w : Nat) : Except DecodeError Instr :=
  match w / 4194304 with
  | 0 =>
    if w / 128 % 32 = 0 then .ok (.barInit (Fin.ofNat 32 (w / 4096)) (Fin.ofNat 32 (w / 131072))) else
    .error .reservedCode
  | 1 =>
    if w / 131072 % 32 = 0 ∧ w / 128 % 32 = 0 then .ok (.barArr (Fin.ofNat 32 (w / 4096))) else
    .error .reservedCode
  | 2 =>
    if w / 131072 % 32 = 0 ∧ w / 128 % 32 = 0 then .ok (.barWait (Fin.ofNat 32 (w / 4096))) else
    .error .reservedCode
  | 3 =>
    if w / 131072 % 32 = 0 ∧ w / 128 % 32 = 0 then .ok (.barSync (Fin.ofNat 32 (w / 4096))) else
    .error .reservedCode
  | 4 =>
    if w / 128 % 32 = 0 then .ok (.waita (Fin.ofNat 32 (w / 4096)) (Fin.ofNat 32 (w / 131072))) else
    .error .reservedCode
  | 5 =>
    if w / 128 % 32 = 0 then .ok (.waitaGe (Fin.ofNat 32 (w / 4096)) (Fin.ofNat 32 (w / 131072))) else
    .error .reservedCode
  | 6 =>
    if w / 65536 % 2 = 0 ∧ w / 128 % 32 = 0 then .ok (.cwait (Fin.ofNat 16 (w / 4096)) (Fin.ofNat 32 (w / 131072))) else
    .error .reservedCode
  | _ => .error .reservedCode

/-- Major 0x19 (R36 to R38). -/
def decMaj19 (w : Nat) : Except DecodeError Instr :=
  match w / 131072 with
  | 0 => .ok (.fork (Fin.ofNat 32 (w / 128)) (Fin.ofNat 32 (w / 4096)))
  | 32 =>
    if w / 128 % 32 = 0 then .ok (.join (Fin.ofNat 32 (w / 4096))) else
    .error .reservedCode
  | 64 =>
    if w / 128 % 1024 = 0 then .ok (.cvyLead) else
    .error .reservedCode
  | 96 =>
    if w / 128 % 1024 = 0 then .ok (.cvyJoin) else
    .error .reservedCode
  | 128 =>
    if w / 128 % 1024 = 0 then .ok (.cvyLeave) else
    .error .reservedCode
  | _ => .error .reservedCode

/-- Major 0x1A (R36 to R38). -/
def decMaj1A (w : Nat) : Except DecodeError Instr :=
  match w / 33554432 % 4 with
  | 0 =>
    if w / 131072 % 32 = 0 ∧ w / 4096 % 4 = 0 ∧ w / 128 % 4 = 0 then .ok (.redAdd (Fin.ofNat 32 (w / 134217728)) (w / 16777216 % 2 == 1) (redFmtOf (w / 4194304)) (Fin.ofNat 8 (w / 512)) (Fin.ofNat 8 (w / 16384))) else
    .error .reservedCode
  | 1 =>
    if w / 131072 % 32 = 0 ∧ w / 4096 % 4 = 0 ∧ w / 128 % 4 = 0 then .ok (.redMin (Fin.ofNat 32 (w / 134217728)) (w / 16777216 % 2 == 1) (redFmtOf (w / 4194304)) (Fin.ofNat 8 (w / 512)) (Fin.ofNat 8 (w / 16384))) else
    .error .reservedCode
  | 2 =>
    if w / 131072 % 32 = 0 ∧ w / 4096 % 4 = 0 ∧ w / 128 % 4 = 0 then .ok (.redMax (Fin.ofNat 32 (w / 134217728)) (w / 16777216 % 2 == 1) (redFmtOf (w / 4194304)) (Fin.ofNat 8 (w / 512)) (Fin.ofNat 8 (w / 16384))) else
    .error .reservedCode
  | _ => .error .reservedCode

/-- Major 0x20 (R36 to R38). -/
def decMaj20 (w : Nat) : Except DecodeError Instr :=
  match w / 4194304 % 128 with
  | 0 => .ok (.vadd (Fin.ofNat 8 (w / 536870912)) (Fin.ofNat 32 (w / 128)) (Fin.ofNat 32 (w / 4096)) (Fin.ofNat 32 (w / 131072)))
  | 1 => .ok (.vsub (Fin.ofNat 8 (w / 536870912)) (Fin.ofNat 32 (w / 128)) (Fin.ofNat 32 (w / 4096)) (Fin.ofNat 32 (w / 131072)))
  | 2 => .ok (.vmul (Fin.ofNat 8 (w / 536870912)) (Fin.ofNat 32 (w / 128)) (Fin.ofNat 32 (w / 4096)) (Fin.ofNat 32 (w / 131072)))
  | 3 => .ok (.vfma (Fin.ofNat 8 (w / 536870912)) (Fin.ofNat 32 (w / 128)) (Fin.ofNat 32 (w / 4096)) (Fin.ofNat 32 (w / 131072)))
  | 4 => .ok (.vfms (Fin.ofNat 8 (w / 536870912)) (Fin.ofNat 32 (w / 128)) (Fin.ofNat 32 (w / 4096)) (Fin.ofNat 32 (w / 131072)))
  | 5 => .ok (.vfnma (Fin.ofNat 8 (w / 536870912)) (Fin.ofNat 32 (w / 128)) (Fin.ofNat 32 (w / 4096)) (Fin.ofNat 32 (w / 131072)))
  | 6 => .ok (.vmin (Fin.ofNat 8 (w / 536870912)) (Fin.ofNat 32 (w / 128)) (Fin.ofNat 32 (w / 4096)) (Fin.ofNat 32 (w / 131072)))
  | 7 => .ok (.vmax (Fin.ofNat 8 (w / 536870912)) (Fin.ofNat 32 (w / 128)) (Fin.ofNat 32 (w / 4096)) (Fin.ofNat 32 (w / 131072)))
  | 8 => .ok (.vminu (Fin.ofNat 8 (w / 536870912)) (Fin.ofNat 32 (w / 128)) (Fin.ofNat 32 (w / 4096)) (Fin.ofNat 32 (w / 131072)))
  | 9 => .ok (.vmaxu (Fin.ofNat 8 (w / 536870912)) (Fin.ofNat 32 (w / 128)) (Fin.ofNat 32 (w / 4096)) (Fin.ofNat 32 (w / 131072)))
  | 10 =>
    if w / 131072 % 32 = 0 then .ok (.vabs (Fin.ofNat 8 (w / 536870912)) (Fin.ofNat 32 (w / 128)) (Fin.ofNat 32 (w / 4096))) else
    .error .reservedCode
  | 11 =>
    if w / 131072 % 32 = 0 then .ok (.vneg (Fin.ofNat 8 (w / 536870912)) (Fin.ofNat 32 (w / 128)) (Fin.ofNat 32 (w / 4096))) else
    .error .reservedCode
  | 12 => .ok (.vand (Fin.ofNat 8 (w / 536870912)) (Fin.ofNat 32 (w / 128)) (Fin.ofNat 32 (w / 4096)) (Fin.ofNat 32 (w / 131072)))
  | 13 => .ok (.vor (Fin.ofNat 8 (w / 536870912)) (Fin.ofNat 32 (w / 128)) (Fin.ofNat 32 (w / 4096)) (Fin.ofNat 32 (w / 131072)))
  | 14 => .ok (.vxor (Fin.ofNat 8 (w / 536870912)) (Fin.ofNat 32 (w / 128)) (Fin.ofNat 32 (w / 4096)) (Fin.ofNat 32 (w / 131072)))
  | 15 =>
    if w / 131072 % 32 = 0 then .ok (.vnot (Fin.ofNat 8 (w / 536870912)) (Fin.ofNat 32 (w / 128)) (Fin.ofNat 32 (w / 4096))) else
    .error .reservedCode
  | 16 => .ok (.vsll (Fin.ofNat 8 (w / 536870912)) (Fin.ofNat 32 (w / 128)) (Fin.ofNat 32 (w / 4096)) (Fin.ofNat 32 (w / 131072)))
  | 17 => .ok (.vsrl (Fin.ofNat 8 (w / 536870912)) (Fin.ofNat 32 (w / 128)) (Fin.ofNat 32 (w / 4096)) (Fin.ofNat 32 (w / 131072)))
  | 18 => .ok (.vsra (Fin.ofNat 8 (w / 536870912)) (Fin.ofNat 32 (w / 128)) (Fin.ofNat 32 (w / 4096)) (Fin.ofNat 32 (w / 131072)))
  | 19 => .ok (.vadds (Fin.ofNat 8 (w / 536870912)) (Fin.ofNat 32 (w / 128)) (Fin.ofNat 32 (w / 4096)) (Fin.ofNat 32 (w / 131072)))
  | 20 => .ok (.vsubs (Fin.ofNat 8 (w / 536870912)) (Fin.ofNat 32 (w / 128)) (Fin.ofNat 32 (w / 4096)) (Fin.ofNat 32 (w / 131072)))
  | 21 => .ok (.vdiv (Fin.ofNat 8 (w / 536870912)) (Fin.ofNat 32 (w / 128)) (Fin.ofNat 32 (w / 4096)) (Fin.ofNat 32 (w / 131072)))
  | 22 =>
    if w / 131072 % 32 = 0 then .ok (.vsqrt (Fin.ofNat 8 (w / 536870912)) (Fin.ofNat 32 (w / 128)) (Fin.ofNat 32 (w / 4096))) else
    .error .reservedCode
  | _ => .error .reservedCode

/-- Major 0x21 (R36 to R38). -/
def decMaj21 (w : Nat) : Except DecodeError Instr :=
  match w / 4194304 % 128 with
  | 0 =>
    if w / 1024 % 4 = 0 then .ok (.vcmpEq (Fin.ofNat 8 (w / 536870912)) (Fin.ofNat 8 (w / 128)) (Fin.ofNat 32 (w / 4096)) (Fin.ofNat 32 (w / 131072))) else
    .error .reservedCode
  | 1 =>
    if w / 1024 % 4 = 0 then .ok (.vcmpNe (Fin.ofNat 8 (w / 536870912)) (Fin.ofNat 8 (w / 128)) (Fin.ofNat 32 (w / 4096)) (Fin.ofNat 32 (w / 131072))) else
    .error .reservedCode
  | 2 =>
    if w / 1024 % 4 = 0 then .ok (.vcmpLt (Fin.ofNat 8 (w / 536870912)) (Fin.ofNat 8 (w / 128)) (Fin.ofNat 32 (w / 4096)) (Fin.ofNat 32 (w / 131072))) else
    .error .reservedCode
  | 3 =>
    if w / 1024 % 4 = 0 then .ok (.vcmpGe (Fin.ofNat 8 (w / 536870912)) (Fin.ofNat 8 (w / 128)) (Fin.ofNat 32 (w / 4096)) (Fin.ofNat 32 (w / 131072))) else
    .error .reservedCode
  | 4 =>
    if w / 1024 % 4 = 0 then .ok (.vcmpLtu (Fin.ofNat 8 (w / 536870912)) (Fin.ofNat 8 (w / 128)) (Fin.ofNat 32 (w / 4096)) (Fin.ofNat 32 (w / 131072))) else
    .error .reservedCode
  | 5 =>
    if w / 1024 % 4 = 0 then .ok (.vcmpGeu (Fin.ofNat 8 (w / 536870912)) (Fin.ofNat 8 (w / 128)) (Fin.ofNat 32 (w / 4096)) (Fin.ofNat 32 (w / 131072))) else
    .error .reservedCode
  | _ => .error .reservedCode

/-- Major 0x22 (R36 to R38). -/
def decMaj22 (w : Nat) : Except DecodeError Instr :=
  match w / 33554432 % 16 with
  | 0 =>
    if w / 4194304 % 8 = 0 then .ok (.vsel (Fin.ofNat 8 (w / 536870912)) (Fin.ofNat 32 (w / 128)) (Fin.ofNat 32 (w / 4096)) (Fin.ofNat 32 (w / 131072))) else
    if w / 131072 % 256 = 32 then .ok (.vmov (Fin.ofNat 8 (w / 536870912)) (Fin.ofNat 32 (w / 128)) (Fin.ofNat 32 (w / 4096))) else
    if w / 131072 % 256 = 64 then .ok (.vbcast (Fin.ofNat 8 (w / 536870912)) (Fin.ofNat 32 (w / 128)) (Fin.ofNat 32 (w / 4096))) else
    if w / 536870912 = 0 ∧ w / 4194304 % 8 = 3 then .ok (.vextr (Fin.ofNat 32 (w / 128)) (Fin.ofNat 32 (w / 4096)) (Fin.ofNat 32 (w / 131072))) else
    if w / 536870912 = 0 ∧ w / 4194304 % 8 = 4 then .ok (.vins (Fin.ofNat 32 (w / 128)) (Fin.ofNat 32 (w / 4096)) (Fin.ofNat 32 (w / 131072))) else
    if w / 4194304 % 8 = 5 then .ok (.vslide (Fin.ofNat 8 (w / 536870912)) (Fin.ofNat 32 (w / 128)) (Fin.ofNat 32 (w / 4096)) (Fin.ofNat 32 (w / 131072))) else
    if w / 4194304 % 8 = 6 then .ok (.vperm (Fin.ofNat 8 (w / 536870912)) (Fin.ofNat 32 (w / 128)) (Fin.ofNat 32 (w / 4096)) (Fin.ofNat 32 (w / 131072))) else
    if w / 4096 % 8192 = 7168 then .ok (.viota (Fin.ofNat 8 (w / 536870912)) (Fin.ofNat 32 (w / 128))) else
    .error .reservedCode
  | 1 =>
    if w / 131072 % 256 = 0 then .ok (.vredsum (Fin.ofNat 8 (w / 536870912)) (Fin.ofNat 32 (w / 128)) (Fin.ofNat 32 (w / 4096))) else
    if w / 131072 % 256 = 32 then .ok (.vredmin (Fin.ofNat 8 (w / 536870912)) (Fin.ofNat 32 (w / 128)) (Fin.ofNat 32 (w / 4096))) else
    if w / 131072 % 256 = 64 then .ok (.vredmax (Fin.ofNat 8 (w / 536870912)) (Fin.ofNat 32 (w / 128)) (Fin.ofNat 32 (w / 4096))) else
    if w / 536870912 = 0 ∧ w / 2097152 % 16 = 8 then (match fmtOf (w / 131072 % 16) with | none => .error .reservedValue | some f => .ok (.vtag f (Fin.ofNat 32 (w / 128)) (Fin.ofNat 32 (w / 4096)))) else
    .error .reservedCode
  | 2 =>
    if w / 536870912 = 0 ∧ w / 1048576 % 32 = 0 ∧ w / 32768 % 4 = 0 ∧ w / 1024 % 4 = 0 then .ok (.kand (Fin.ofNat 8 (w / 128)) (Fin.ofNat 8 (w / 4096)) (Fin.ofNat 8 (w / 131072))) else
    if w / 536870912 = 0 ∧ w / 1048576 % 32 = 4 ∧ w / 32768 % 4 = 0 ∧ w / 1024 % 4 = 0 then .ok (.kor (Fin.ofNat 8 (w / 128)) (Fin.ofNat 8 (w / 4096)) (Fin.ofNat 8 (w / 131072))) else
    if w / 536870912 = 0 ∧ w / 1048576 % 32 = 8 ∧ w / 32768 % 4 = 0 ∧ w / 1024 % 4 = 0 then .ok (.kxor (Fin.ofNat 8 (w / 128)) (Fin.ofNat 8 (w / 4096)) (Fin.ofNat 8 (w / 131072))) else
    if w / 536870912 = 0 ∧ w / 32768 % 1024 = 384 ∧ w / 1024 % 4 = 0 then .ok (.knot (Fin.ofNat 8 (w / 128)) (Fin.ofNat 8 (w / 4096))) else
    if w / 536870912 = 0 ∧ w / 32768 % 1024 = 512 then .ok (.kpop (Fin.ofNat 32 (w / 128)) (Fin.ofNat 8 (w / 4096))) else
    if w / 536870912 = 0 ∧ w / 32768 % 1024 = 640 then .ok (.kfirst (Fin.ofNat 32 (w / 128)) (Fin.ofNat 8 (w / 4096))) else
    .error .reservedCode
  | 3 =>
    if w / 2097152 % 2 = 0 then (match vrndOf (w / 4194304 % 8) with | none => .error .reservedValue | some r => match fmtOf (w / 131072 % 16) with | none => .error .reservedValue | some f => .ok (.vcvt r f (Fin.ofNat 8 (w / 536870912)) (Fin.ofNat 32 (w / 128)) (Fin.ofNat 32 (w / 4096)))) else
    .error .reservedCode
  | _ => .error .reservedCode

/-- Major 0x23 (R36 to R38). -/
def decMaj23 (w : Nat) : Except DecodeError Instr :=
  match w / 67108864 % 8 with
  | 0 =>
    if w / 131072 % 32 = 0 then (match fmtOf (w / 4194304 % 16) with | none => .error .reservedValue | some f => .ok (.vld f (Fin.ofNat 8 (w / 536870912)) (Fin.ofNat 32 (w / 128)) (Fin.ofNat 32 (w / 4096)))) else
    .error .reservedCode
  | 1 => (match fmtOf (w / 4194304 % 16) with | none => .error .reservedValue | some f => .ok (.vlds f (Fin.ofNat 8 (w / 536870912)) (Fin.ofNat 32 (w / 128)) (Fin.ofNat 32 (w / 4096)) (Fin.ofNat 32 (w / 131072))))
  | 2 => (match fmtOf (w / 4194304 % 16) with | none => .error .reservedValue | some f => .ok (.vldx f (Fin.ofNat 8 (w / 536870912)) (Fin.ofNat 32 (w / 128)) (Fin.ofNat 32 (w / 4096)) (Fin.ofNat 32 (w / 131072))))
  | 3 =>
    if w / 131072 % 32 = 0 then (match fmtOf (w / 4194304 % 16) with | none => .error .reservedValue | some f => .ok (.vldb f (Fin.ofNat 8 (w / 536870912)) (Fin.ofNat 32 (w / 128)) (Fin.ofNat 32 (w / 4096)))) else
    .error .reservedCode
  | _ => .error .reservedCode

/-- Major 0x24 (R36 to R38). -/
def decMaj24 (w : Nat) : Except DecodeError Instr :=
  match w / 4194304 % 128 with
  | 0 =>
    if w / 131072 % 32 = 0 then .ok (.vst (Fin.ofNat 8 (w / 536870912)) (Fin.ofNat 32 (w / 128)) (Fin.ofNat 32 (w / 4096))) else
    .error .reservedCode
  | 16 => .ok (.vsts (Fin.ofNat 8 (w / 536870912)) (Fin.ofNat 32 (w / 128)) (Fin.ofNat 32 (w / 4096)) (Fin.ofNat 32 (w / 131072)))
  | 32 => .ok (.vstx (Fin.ofNat 8 (w / 536870912)) (Fin.ofNat 32 (w / 128)) (Fin.ofNat 32 (w / 4096)) (Fin.ofNat 32 (w / 131072)))
  | _ => .error .reservedCode

/-- Major 0x25 (R36 to R38). -/
def decMaj25 (w : Nat) : Except DecodeError Instr :=
  if w / 16777216 = 0 ∧ w / 131072 % 8 = 0 then (match fmtOf (w / 1048576 % 16) with | none => .error .reservedValue | some f => .ok (.setvl f (Fin.ofNat 32 (w / 128)) (Fin.ofNat 32 (w / 4096)))) else
  .error .reservedCode

/-- Major 0x28 (R36 to R38). -/
def decMaj28 (w : Nat) : Except DecodeError Instr :=
  match w / 8388608 with
  | 0 =>
    if w / 131072 % 8 = 0 ∧ w / 128 % 32 = 0 then .ok (.tcfg (Fin.ofNat 8 (w / 1048576)) (Fin.ofNat 32 (w / 4096))) else
    .error .reservedCode
  | 1 =>
    if w / 131072 % 64 = 0 ∧ w / 128 % 32 = 0 then .ok (.accfg (Fin.ofNat 32 (w / 4096))) else
    .error .reservedCode
  | _ => .error .reservedCode

/-- Major 0x29 (R36 to R38). -/
def decMaj29 (w : Nat) : Except DecodeError Instr :=
  match w / 8388608 % 16 with
  | 0 =>
    if w / 131072 % 8 = 0 then .ok (.tld (Fin.ofNat 32 (w / 134217728)) (Fin.ofNat 8 (w / 1048576)) (Fin.ofNat 32 (w / 4096)) (Fin.ofNat 32 (w / 128))) else
    .error .reservedCode
  | 1 =>
    if w / 131072 % 8 = 0 then .ok (.tst (Fin.ofNat 32 (w / 134217728)) (Fin.ofNat 8 (w / 1048576)) (Fin.ofNat 32 (w / 4096)) (Fin.ofNat 32 (w / 128))) else
    .error .reservedCode
  | 2 =>
    if w / 131072 % 8 = 0 then .ok (.tlds (Fin.ofNat 32 (w / 134217728)) (Fin.ofNat 8 (w / 1048576)) (Fin.ofNat 32 (w / 4096)) (Fin.ofNat 32 (w / 128))) else
    .error .reservedCode
  | 3 =>
    if w / 128 % 8192 = 0 then .ok (.tzero (Fin.ofNat 32 (w / 134217728)) (Fin.ofNat 8 (w / 1048576))) else
    .error .reservedCode
  | _ => .error .reservedCode

/-- Major 0x2A (R36 to R38). -/
def decMaj2A (w : Nat) : Except DecodeError Instr :=
  match w / 8388608 % 16 with
  | 0 =>
    if w / 128 % 32 = 0 then .ok (.mma (Fin.ofNat 32 (w / 134217728)) (Fin.ofNat 8 (w / 1048576)) (Fin.ofNat 8 (w / 131072)) (Fin.ofNat 32 (w / 4096))) else
    .error .reservedCode
  | 1 =>
    if w / 128 % 32 = 0 then .ok (.mmas (Fin.ofNat 32 (w / 134217728)) (Fin.ofNat 8 (w / 1048576)) (Fin.ofNat 8 (w / 131072)) (Fin.ofNat 32 (w / 4096))) else
    .error .reservedCode
  | 2 =>
    if w / 131072 % 8 = 0 then .ok (.mtv (Fin.ofNat 32 (w / 134217728)) (Fin.ofNat 8 (w / 1048576)) (Fin.ofNat 32 (w / 4096)) (Fin.ofNat 32 (w / 128))) else
    .error .reservedCode
  | _ => .error .reservedCode

/-- Major 0x2B (R36 to R38). -/
def decMaj2B (w : Nat) : Except DecodeError Instr :=
  match w / 8388608 % 16 with
  | 0 =>
    if w / 131072 % 64 = 0 then .ok (.acld (Fin.ofNat 32 (w / 134217728)) (Fin.ofNat 32 (w / 4096)) (Fin.ofNat 32 (w / 128))) else
    .error .reservedCode
  | 1 =>
    if w / 131072 % 64 = 0 then .ok (.acst (Fin.ofNat 32 (w / 134217728)) (Fin.ofNat 32 (w / 4096)) (Fin.ofNat 32 (w / 128))) else
    .error .reservedCode
  | 2 =>
    if w / 131072 % 8 = 0 ∧ w / 128 % 32 = 0 then .ok (.accvt (Fin.ofNat 32 (w / 134217728)) (Fin.ofNat 8 (w / 1048576)) (Fin.ofNat 32 (w / 4096))) else
    .error .reservedCode
  | 3 =>
    if w / 131072 % 64 = 0 ∧ w / 128 % 32 = 0 then .ok (.aczero (Fin.ofNat 32 (w / 134217728)) (Fin.ofNat 32 (w / 4096))) else
    .error .reservedCode
  | _ => .error .reservedCode

/-- Major 0x2C (R36 to R38). -/
def decMaj2C (w : Nat) : Except DecodeError Instr :=
  match w / 4194304 % 32 with
  | 0 => .ok (.cpy (Fin.ofNat 32 (w / 134217728)) (Fin.ofNat 32 (w / 128)) (Fin.ofNat 32 (w / 4096)) (Fin.ofNat 32 (w / 131072)))
  | 1 => .ok (.tcpy (Fin.ofNat 32 (w / 134217728)) (Fin.ofNat 32 (w / 128)) (Fin.ofNat 32 (w / 4096)) (Fin.ofNat 32 (w / 131072)))
  | 2 => .ok (.cpyf (Fin.ofNat 32 (w / 134217728)) (Fin.ofNat 32 (w / 128)) (Fin.ofNat 32 (w / 4096)) (Fin.ofNat 32 (w / 131072)))
  | _ => .error .reservedCode

/-- Major 0x2D (R36 to R38). -/
def decMaj2D (w : Nat) : Except DecodeError Instr :=
  match w / 4194304 % 32 with
  | 0 => .ok (.bteGo (Fin.ofNat 32 (w / 134217728)) (Fin.ofNat 32 (w / 128)) (Fin.ofNat 32 (w / 4096)) (Fin.ofNat 32 (w / 131072)))
  | 1 =>
    if w / 134217728 = 0 ∧ w / 131072 % 32 = 0 then .ok (.bteQ (Fin.ofNat 32 (w / 128)) (Fin.ofNat 32 (w / 4096))) else
    .error .reservedCode
  | _ => .error .reservedCode

/-- Major 0x2E (R36 to R38). -/
def decMaj2E (w : Nat) : Except DecodeError Instr :=
  match w / 4194304 with
  | 0 =>
    if w / 2048 % 2 = 0 then .ok (.tspawn (Fin.ofNat 16 (w / 128)) (Fin.ofNat 32 (w / 4096)) (Fin.ofNat 32 (w / 131072))) else
    .error .reservedCode
  | 1 =>
    if w / 1048576 % 4 = 0 ∧ w / 65536 % 2 = 0 then .ok (.tnext (Fin.ofNat 8 (w / 131072)) (Fin.ofNat 32 (w / 128)) (Fin.ofNat 16 (w / 4096))) else
    .error .reservedCode
  | 2 =>
    if w / 128 % 32768 = 0 then .ok (.tend) else
    .error .reservedCode
  | 3 =>
    if w / 128 % 32768 = 0 then .ok (.tpoll) else
    .error .reservedCode
  | 4 =>
    if w / 65536 % 2 = 0 then .ok (.wmkRd (Fin.ofNat 32 (w / 128)) (Fin.ofNat 32 (w / 131072)) (Fin.ofNat 16 (w / 4096))) else
    .error .reservedCode
  | 5 =>
    if w / 65536 % 2 = 0 then .ok (.wmkRdS (Fin.ofNat 32 (w / 128)) (Fin.ofNat 32 (w / 131072)) (Fin.ofNat 16 (w / 4096))) else
    .error .reservedCode
  | 6 =>
    if w / 1024 % 4 = 0 then .ok (.wmkUpd (Fin.ofNat 8 (w / 128)) (Fin.ofNat 32 (w / 4096)) (Fin.ofNat 32 (w / 131072))) else
    .error .reservedCode
  | 7 => .ok (.wmkSet (Fin.ofNat 32 (w / 128)) (Fin.ofNat 32 (w / 4096)) (Fin.ofNat 32 (w / 131072)))
  | _ => .error .reservedCode

/-- Major 0x2F (R36 to R38). -/
def decMaj2F (w : Nat) : Except DecodeError Instr :=
  match w / 131072 % 1024 with
  | 0 => .ok (.calRun (Fin.ofNat 32 (w / 134217728)) (Fin.ofNat 32 (w / 128)) (Fin.ofNat 32 (w / 4096)))
  | 32 =>
    if w / 134217728 = 0 ∧ w / 4096 % 32 = 0 then .ok (.calQry (Fin.ofNat 32 (w / 128))) else
    .error .reservedCode
  | _ => .error .reservedCode

/-- Major 0x30 (R36 to R38). -/
def decMaj30 (w : Nat) : Except DecodeError Instr :=
  match w / 4194304 with
  | 0 =>
    if w / 128 % 32 = 0 then .ok (.protSet (Fin.ofNat 32 (w / 4096)) (Fin.ofNat 32 (w / 131072))) else
    .error .reservedCode
  | 8 =>
    if w / 128 % 32 = 0 then .ok (.lptSet (Fin.ofNat 32 (w / 4096)) (Fin.ofNat 32 (w / 131072))) else
    .error .reservedCode
  | 16 =>
    if w / 131072 % 32 = 0 ∧ w / 128 % 32 = 0 then .ok (.ctxSave (Fin.ofNat 32 (w / 4096))) else
    .error .reservedCode
  | 24 =>
    if w / 131072 % 32 = 0 ∧ w / 128 % 32 = 0 then .ok (.ctxLoad (Fin.ofNat 32 (w / 4096))) else
    .error .reservedCode
  | _ => .error .reservedCode

/-- The halfwords with S = 1 (R40). -/
def decHalf1 (w : Nat) : Except DecodeError Instr :=
  match w / 2 % 16 with
  | 0 => .ok (.hMov (Fin.ofNat 32 (w / 32)) (Fin.ofNat 32 (w / 1024)))
  | 1 => .ok (.hAdd (Fin.ofNat 32 (w / 32)) (Fin.ofNat 32 (w / 1024)))
  | 2 => .ok (.hSub (Fin.ofNat 32 (w / 32)) (Fin.ofNat 32 (w / 1024)))
  | 3 => .ok (.hAnd (Fin.ofNat 32 (w / 32)) (Fin.ofNat 32 (w / 1024)))
  | 4 => .ok (.hOr (Fin.ofNat 32 (w / 32)) (Fin.ofNat 32 (w / 1024)))
  | 5 => .ok (.hXor (Fin.ofNat 32 (w / 32)) (Fin.ofNat 32 (w / 1024)))
  | 6 => .ok (.hAddi (Fin.ofNat 32 (w / 32)) (BitVec.ofNat 5 (w / 1024)))
  | 7 => .ok (.hLi (Fin.ofNat 32 (w / 32)) (BitVec.ofNat 5 (w / 1024)))
  | 8 => .ok (.hSlli (Fin.ofNat 32 (w / 32)) (BitVec.ofNat 5 (w / 1024)))
  | 9 => .ok (.hSrli (Fin.ofNat 32 (w / 32)) (BitVec.ofNat 5 (w / 1024)))
  | 10 => .ok (.hSrai (Fin.ofNat 32 (w / 32)) (BitVec.ofNat 5 (w / 1024)))
  | 11 => .ok (.hLd (Fin.ofNat 32 (w / 32)) (Fin.ofNat 32 (w / 1024)))
  | 12 => .ok (.hSd (Fin.ofNat 32 (w / 32)) (Fin.ofNat 32 (w / 1024)))
  | 13 =>
    if w / 32 % 32 = 0 then .ok (.hJmp (Fin.ofNat 32 (w / 1024))) else
    .error .reservedCode
  | 14 => .ok (.hMul (Fin.ofNat 32 (w / 32)) (Fin.ofNat 32 (w / 1024)))
  | 15 => .ok (.hNeg (Fin.ofNat 32 (w / 32)) (Fin.ofNat 32 (w / 1024)))
  | _ => .error .reservedCode

/-- The halfwords with S = 0 (R41). -/
def decHalf0 (w : Nat) : Except DecodeError Instr :=
  match w / 2 % 16 with
  | 0 => .ok (.hVadd (Fin.ofNat 32 (w / 32)) (Fin.ofNat 32 (w / 1024)))
  | 1 => .ok (.hVsub (Fin.ofNat 32 (w / 32)) (Fin.ofNat 32 (w / 1024)))
  | 2 => .ok (.hVmul (Fin.ofNat 32 (w / 32)) (Fin.ofNat 32 (w / 1024)))
  | 3 => .ok (.hVmin (Fin.ofNat 32 (w / 32)) (Fin.ofNat 32 (w / 1024)))
  | 4 => .ok (.hVmax (Fin.ofNat 32 (w / 32)) (Fin.ofNat 32 (w / 1024)))
  | 5 => .ok (.hVminu (Fin.ofNat 32 (w / 32)) (Fin.ofNat 32 (w / 1024)))
  | 6 => .ok (.hVmaxu (Fin.ofNat 32 (w / 32)) (Fin.ofNat 32 (w / 1024)))
  | 7 => .ok (.hVand (Fin.ofNat 32 (w / 32)) (Fin.ofNat 32 (w / 1024)))
  | 8 => .ok (.hVor (Fin.ofNat 32 (w / 32)) (Fin.ofNat 32 (w / 1024)))
  | 9 => .ok (.hVxor (Fin.ofNat 32 (w / 32)) (Fin.ofNat 32 (w / 1024)))
  | 10 => .ok (.hVsll (Fin.ofNat 32 (w / 32)) (Fin.ofNat 32 (w / 1024)))
  | 11 => .ok (.hVsrl (Fin.ofNat 32 (w / 32)) (Fin.ofNat 32 (w / 1024)))
  | 12 => .ok (.hVsra (Fin.ofNat 32 (w / 32)) (Fin.ofNat 32 (w / 1024)))
  | 13 => .ok (.hVadds (Fin.ofNat 32 (w / 32)) (Fin.ofNat 32 (w / 1024)))
  | 14 => .ok (.hVsubs (Fin.ofNat 32 (w / 32)) (Fin.ofNat 32 (w / 1024)))
  | 15 => .ok (.hVmov (Fin.ofNat 32 (w / 32)) (Fin.ofNat 32 (w / 1024)))
  | _ => .error .reservedCode

/-- The instruction of a 32-bit word, its major in bits [6:1] (R27, R35). -/
def decode32 (w : Nat) : Except DecodeError Instr :=
  match w / 2 % 64 with
  | 1 => decMaj01 w
  | 2 => decMaj02 w
  | 3 => decMaj03 w
  | 4 => decMaj04 w
  | 5 => decMaj05 w
  | 6 => decMaj06 w
  | 7 => decMaj07 w
  | 8 => decMaj08 w
  | 9 => decMaj09 w
  | 10 => decMaj0A w
  | 11 => decMaj0B w
  | 12 => decMaj0C w
  | 13 => decMaj0D w
  | 14 => decMaj0E w
  | 15 => decMaj0F w
  | 16 => decMaj10 w
  | 17 => decMaj11 w
  | 18 => decMaj12 w
  | 19 => decMaj13 w
  | 20 => decMaj14 w
  | 21 => decMaj15 w
  | 22 => decMaj16 w
  | 23 => decMaj17 w
  | 24 => decMaj18 w
  | 25 => decMaj19 w
  | 26 => decMaj1A w
  | 32 => decMaj20 w
  | 33 => decMaj21 w
  | 34 => decMaj22 w
  | 35 => decMaj23 w
  | 36 => decMaj24 w
  | 37 => decMaj25 w
  | 40 => decMaj28 w
  | 41 => decMaj29 w
  | 42 => decMaj2A w
  | 43 => decMaj2B w
  | 44 => decMaj2C w
  | 45 => decMaj2D w
  | 46 => decMaj2E w
  | 47 => decMaj2F w
  | 48 => decMaj30 w
  | _ => .error .reservedMajor

/-- A 16-bit instruction: S in bit 15, OP4 in bits [4:1] (R39); the halfword 0x0000 is reserved (R42). -/
def decode16 (w : Nat) : Except DecodeError Instr :=
  if w = 0 then .error .zeroHalfword
  else if w / 32768 % 2 = 1 then decHalf1 w else decHalf0 w

/-- Refuses the terms whose fields hold a reserved value (R42). -/
def onlyWellFormed : Except DecodeError Instr → Except DecodeError Instr
  | .error e => .error e
  | .ok i => if i.wellFormed then .ok i else .error .reservedValue

/-- The instruction of the word formed by its halfwords as fetched, framed by bit 0 (R26). -/
def decodeWord (w : Nat) : Except DecodeError Instr :=
  onlyWellFormed (if w % 2 = 1 then decode32 w else decode16 (w % 65536))

/-- How many bytes the instruction at these bytes has (R26). -/
def lengthAt (b0 : Byte) : Nat := if b0.toNat % 2 = 1 then 4 else 2

/-- The first instruction of a byte stream and its length, little-endian (R3, R26). -/
def decodeBytes : List Byte → Except DecodeError (Instr × Nat)
  | b0 :: b1 :: rest =>
    if b0.toNat % 2 = 1 then
      match rest with
      | b2 :: b3 :: _ =>
        match decodeWord (b0.toNat + b1.toNat * 256 + b2.toNat * 65536 + b3.toNat * 16777216) with
        | .ok i => .ok (i, 4)
        | .error e => .error e
      | _ => .error .truncated
    else
      match decodeWord (b0.toNat + b1.toNat * 256) with
      | .ok i => .ok (i, 2)
      | .error e => .error e
  | _ => .error .truncated

/-- The bytes of a word laid out little-endian. -/
def leBytes : Nat → Nat → List Byte
  | 0, _ => []
  | n + 1, v => BitVec.ofNat 8 v :: leBytes n (v / 256)

/-- What the decoder reads from an instruction whose bits are w, numbered as the opcode table numbers them. -/
def decodeTableWord (nbits w : Nat) : Option Instr :=
  match decodeBytes (leBytes 4 (w % 2 ^ nbits)) with
  | .ok (i, _) => some i
  | .error _ => none

/-- The word or halfword of an instruction, from the encoding tables (R36 to R41); an event has none, and its
value here, the halfword 0x0000, names no instruction (R42). -/
def encode : Instr → Nat
  | .add d a b => 3 + d.val * 128 + a.val * 4096 + b.val * 131072
  | .sub d a b => 33554435 + d.val * 128 + a.val * 4096 + b.val * 131072
  | .and d a b => 67108867 + d.val * 128 + a.val * 4096 + b.val * 131072
  | .or d a b => 100663299 + d.val * 128 + a.val * 4096 + b.val * 131072
  | .xor d a b => 134217731 + d.val * 128 + a.val * 4096 + b.val * 131072
  | .sll d a b => 167772163 + d.val * 128 + a.val * 4096 + b.val * 131072
  | .srl d a b => 201326595 + d.val * 128 + a.val * 4096 + b.val * 131072
  | .sra d a b => 234881027 + d.val * 128 + a.val * 4096 + b.val * 131072
  | .slt d a b => 268435459 + d.val * 128 + a.val * 4096 + b.val * 131072
  | .sltu d a b => 301989891 + d.val * 128 + a.val * 4096 + b.val * 131072
  | .min d a b => 335544323 + d.val * 128 + a.val * 4096 + b.val * 131072
  | .max d a b => 369098755 + d.val * 128 + a.val * 4096 + b.val * 131072
  | .minu d a b => 402653187 + d.val * 128 + a.val * 4096 + b.val * 131072
  | .maxu d a b => 436207619 + d.val * 128 + a.val * 4096 + b.val * 131072
  | .mul d a b => 469762051 + d.val * 128 + a.val * 4096 + b.val * 131072
  | .mulh d a b => 503316483 + d.val * 128 + a.val * 4096 + b.val * 131072
  | .mulhu d a b => 536870915 + d.val * 128 + a.val * 4096 + b.val * 131072
  | .div d a b => 570425347 + d.val * 128 + a.val * 4096 + b.val * 131072
  | .divu d a b => 603979779 + d.val * 128 + a.val * 4096 + b.val * 131072
  | .rem d a b => 637534211 + d.val * 128 + a.val * 4096 + b.val * 131072
  | .remu d a b => 671088643 + d.val * 128 + a.val * 4096 + b.val * 131072
  | .clz d a => 704643075 + d.val * 128 + a.val * 4096
  | .ctz d a => 738197507 + d.val * 128 + a.val * 4096
  | .popc d a => 771751939 + d.val * 128 + a.val * 4096
  | .rol d a b => 805306371 + d.val * 128 + a.val * 4096 + b.val * 131072
  | .ror d a b => 838860803 + d.val * 128 + a.val * 4096 + b.val * 131072
  | .addi d a imm => 5 + d.val * 128 + a.val * 4096 + imm.toNat * 1048576
  | .andi d a imm => 131077 + d.val * 128 + a.val * 4096 + imm.toNat * 1048576
  | .ori d a imm => 262149 + d.val * 128 + a.val * 4096 + imm.toNat * 1048576
  | .xori d a imm => 393221 + d.val * 128 + a.val * 4096 + imm.toNat * 1048576
  | .slli d a sh => 524293 + d.val * 128 + a.val * 4096 + sh.toNat * 1048576
  | .srli d a sh => 67633157 + d.val * 128 + a.val * 4096 + sh.toNat * 1048576
  | .srai d a sh => 134742021 + d.val * 128 + a.val * 4096 + sh.toNat * 1048576
  | .slti d a imm => 655365 + d.val * 128 + a.val * 4096 + imm.toNat * 1048576
  | .sltiu d a imm => 786437 + d.val * 128 + a.val * 4096 + imm.toNat * 1048576
  | .lih d imm => 7 + d.val * 128 + imm.toNat * 4096
  | .addpc d imm => 9 + d.val * 128 + imm.toNat * 4096
  | .cmpEq p a b => 11 + p.val * 128 + a.val * 4096 + b.val * 131072
  | .cmpNe p a b => 4194315 + p.val * 128 + a.val * 4096 + b.val * 131072
  | .cmpLt p a b => 8388619 + p.val * 128 + a.val * 4096 + b.val * 131072
  | .cmpGe p a b => 12582923 + p.val * 128 + a.val * 4096 + b.val * 131072
  | .cmpLtu p a b => 16777227 + p.val * 128 + a.val * 4096 + b.val * 131072
  | .cmpGeu p a b => 20971531 + p.val * 128 + a.val * 4096 + b.val * 131072
  | .cmpiEq p a imm => 13 + p.val * 128 + a.val * 4096 + imm.toNat * 1048576
  | .cmpiNe p a imm => 131085 + p.val * 128 + a.val * 4096 + imm.toNat * 1048576
  | .cmpiLt p a imm => 262157 + p.val * 128 + a.val * 4096 + imm.toNat * 1048576
  | .cmpiGe p a imm => 393229 + p.val * 128 + a.val * 4096 + imm.toNat * 1048576
  | .cmpiLtu p a imm => 524301 + p.val * 128 + a.val * 4096 + imm.toNat * 1048576
  | .cmpiGeu p a imm => 655373 + p.val * 128 + a.val * 4096 + imm.toNat * 1048576
  | .pand d a b => 15 + d.val * 128 + a.val * 4096 + b.val * 131072
  | .por d a b => 33554447 + d.val * 128 + a.val * 4096 + b.val * 131072
  | .pxor d a b => 67108879 + d.val * 128 + a.val * 4096 + b.val * 131072
  | .pnot d a => 100663311 + d.val * 128 + a.val * 4096
  | .pmov d a => 134217743 + d.val * 128 + a.val * 4096
  | .movp d a => 167772175 + d.val * 128 + a.val * 4096
  | .setp d a => 201326607 + d.val * 128 + a.val * 4096
  | .sel g d a b => 17 + guardNum g * 268435456 + d.val * 128 + a.val * 4096 + b.val * 131072
  | .br g off => 19 + guardNum g * 268435456 + off.toNat * 128
  | .jal d off => 21 + d.val * 128 + off.toNat * 4096
  | .jalr d a imm => 23 + d.val * 128 + a.val * 4096 + imm.toNat * 1048576
  | .lb d a imm => 25 + d.val * 128 + a.val * 4096 + imm.toNat * 1048576
  | .lbu d a imm => 131097 + d.val * 128 + a.val * 4096 + imm.toNat * 1048576
  | .lh d a imm => 262169 + d.val * 128 + a.val * 4096 + imm.toNat * 1048576
  | .lhu d a imm => 393241 + d.val * 128 + a.val * 4096 + imm.toNat * 1048576
  | .lw d a imm => 524313 + d.val * 128 + a.val * 4096 + imm.toNat * 1048576
  | .lwu d a imm => 655385 + d.val * 128 + a.val * 4096 + imm.toNat * 1048576
  | .ld d a imm => 786457 + d.val * 128 + a.val * 4096 + imm.toNat * 1048576
  | .lwS sc d a off => 27 + scopeNum sc * 1073741824 + d.val * 128 + a.val * 4096 + off.toNat * 1048576
  | .ldS sc d a off => 131099 + scopeNum sc * 1073741824 + d.val * 128 + a.val * 4096 + off.toNat * 1048576
  | .lwA sc d a off => 262171 + scopeNum sc * 1073741824 + d.val * 128 + a.val * 4096 + off.toNat * 1048576
  | .ldA sc d a off => 393243 + scopeNum sc * 1073741824 + d.val * 128 + a.val * 4096 + off.toNat * 1048576
  | .sb g b a off => 29 + guardNum g * 268435456 + b.val * 131072 + a.val * 4096 + off.toNat / 32 * 4194304 + off.toNat % 32 * 128
  | .sh g b a off => 33554461 + guardNum g * 268435456 + b.val * 131072 + a.val * 4096 + off.toNat / 32 * 4194304 + off.toNat % 32 * 128
  | .sw g b a off => 67108893 + guardNum g * 268435456 + b.val * 131072 + a.val * 4096 + off.toNat / 32 * 4194304 + off.toNat % 32 * 128
  | .sd g b a off => 100663325 + guardNum g * 268435456 + b.val * 131072 + a.val * 4096 + off.toNat / 32 * 4194304 + off.toNat % 32 * 128
  | .swS g sc b a off => 31 + guardNum g * 268435456 + scopeNum sc * 33554432 + b.val * 131072 + a.val * 4096 + off.toNat / 32 * 4194304 + off.toNat % 32 * 128
  | .sdS g sc b a off => 16777247 + guardNum g * 268435456 + scopeNum sc * 33554432 + b.val * 131072 + a.val * 4096 + off.toNat / 32 * 4194304 + off.toNat % 32 * 128
  | .swL g sc b a off => 134217759 + guardNum g * 268435456 + scopeNum sc * 33554432 + b.val * 131072 + a.val * 4096 + off.toNat / 32 * 4194304 + off.toNat % 32 * 128
  | .sdL g sc b a off => 150994975 + guardNum g * 268435456 + scopeNum sc * 33554432 + b.val * 131072 + a.val * 4096 + off.toNat / 32 * 4194304 + off.toNat % 32 * 128
  | .amoaddW p os d b a => 33 + p.val * 536870912 + amoOrderNum os * 4194304 + d.val * 128 + b.val * 131072 + a.val * 4096
  | .amoandW p os d b a => 33554465 + p.val * 536870912 + amoOrderNum os * 4194304 + d.val * 128 + b.val * 131072 + a.val * 4096
  | .amoorW p os d b a => 67108897 + p.val * 536870912 + amoOrderNum os * 4194304 + d.val * 128 + b.val * 131072 + a.val * 4096
  | .amoxorW p os d b a => 100663329 + p.val * 536870912 + amoOrderNum os * 4194304 + d.val * 128 + b.val * 131072 + a.val * 4096
  | .amominW p os d b a => 134217761 + p.val * 536870912 + amoOrderNum os * 4194304 + d.val * 128 + b.val * 131072 + a.val * 4096
  | .amomaxW p os d b a => 167772193 + p.val * 536870912 + amoOrderNum os * 4194304 + d.val * 128 + b.val * 131072 + a.val * 4096
  | .amominuW p os d b a => 201326625 + p.val * 536870912 + amoOrderNum os * 4194304 + d.val * 128 + b.val * 131072 + a.val * 4096
  | .amomaxuW p os d b a => 234881057 + p.val * 536870912 + amoOrderNum os * 4194304 + d.val * 128 + b.val * 131072 + a.val * 4096
  | .amoswapW p os d b a => 268435489 + p.val * 536870912 + amoOrderNum os * 4194304 + d.val * 128 + b.val * 131072 + a.val * 4096
  | .casW p os d b a => 301989921 + p.val * 536870912 + amoOrderNum os * 4194304 + d.val * 128 + b.val * 131072 + a.val * 4096
  | .amoaddD p os d b a => 35 + p.val * 536870912 + amoOrderNum os * 4194304 + d.val * 128 + b.val * 131072 + a.val * 4096
  | .amoandD p os d b a => 33554467 + p.val * 536870912 + amoOrderNum os * 4194304 + d.val * 128 + b.val * 131072 + a.val * 4096
  | .amoorD p os d b a => 67108899 + p.val * 536870912 + amoOrderNum os * 4194304 + d.val * 128 + b.val * 131072 + a.val * 4096
  | .amoxorD p os d b a => 100663331 + p.val * 536870912 + amoOrderNum os * 4194304 + d.val * 128 + b.val * 131072 + a.val * 4096
  | .amominD p os d b a => 134217763 + p.val * 536870912 + amoOrderNum os * 4194304 + d.val * 128 + b.val * 131072 + a.val * 4096
  | .amomaxD p os d b a => 167772195 + p.val * 536870912 + amoOrderNum os * 4194304 + d.val * 128 + b.val * 131072 + a.val * 4096
  | .amominuD p os d b a => 201326627 + p.val * 536870912 + amoOrderNum os * 4194304 + d.val * 128 + b.val * 131072 + a.val * 4096
  | .amomaxuD p os d b a => 234881059 + p.val * 536870912 + amoOrderNum os * 4194304 + d.val * 128 + b.val * 131072 + a.val * 4096
  | .amoswapD p os d b a => 268435491 + p.val * 536870912 + amoOrderNum os * 4194304 + d.val * 128 + b.val * 131072 + a.val * 4096
  | .casD p os d b a => 301989923 + p.val * 536870912 + amoOrderNum os * 4194304 + d.val * 128 + b.val * 131072 + a.val * 4096
  | .fence kind sc paths => 37 + fenceKindNum kind * 134217728 + scopeNum sc * 33554432 + pathsNum paths * 1048576
  | .csrr d n => 39 + d.val * 128 + n.toNat * 1048576
  | .csrw d n a => 131111 + d.val * 128 + n.toNat * 1048576 + a.val * 4096
  | .csrs d n a => 262183 + d.val * 128 + n.toNat * 1048576 + a.val * 4096
  | .csrc d n a => 393255 + d.val * 128 + n.toNat * 1048576 + a.val * 4096
  | .loop a e => 41 + a.val * 4096 + e.toNat * 1048576
  | .loopi c e => 131113 + c.toNat * 1048576 + e.toNat * 128
  | .trap imm => 43 + imm.toNat * 1048576
  | .brk imm => 131115 + imm.toNat * 1048576
  | .mcall imm => 262187 + imm.toNat * 1048576
  | .idle => 393259
  | .yield => 524331
  | .tret => 655403
  | .mret => 786475
  | .gate => 45
  | .callg a imm => 131117 + a.val * 4096 + imm.toNat * 1048576
  | .retg => 262189
  | .lendR d a b => 47 + d.val * 128 + a.val * 4096 + b.val * 131072
  | .lendRw d a b => 4194351 + d.val * 128 + a.val * 4096 + b.val * 131072
  | .recl a => 33554479 + a.val * 4096
  | .loanq d a => 67108911 + d.val * 128 + a.val * 4096
  | .barInit a b => 49 + a.val * 4096 + b.val * 131072
  | .barArr a => 4194353 + a.val * 4096
  | .barWait a => 8388657 + a.val * 4096
  | .barSync a => 12582961 + a.val * 4096
  | .waita a b => 16777265 + a.val * 4096 + b.val * 131072
  | .waitaGe a b => 20971569 + a.val * 4096 + b.val * 131072
  | .cwait c n => 25165873 + c.val * 4096 + n.val * 131072
  | .fork d a => 51 + d.val * 128 + a.val * 4096
  | .join a => 4194355 + a.val * 4096
  | .cvyLead => 8388659
  | .cvyJoin => 12582963
  | .cvyLeave => 16777267
  | .redAdd tok tree f d a => 53 + tok.val * 134217728 + tree.toNat * 16777216 + redFmtNum f * 4194304 + d.val * 512 + a.val * 16384
  | .redMin tok tree f d a => 33554485 + tok.val * 134217728 + tree.toNat * 16777216 + redFmtNum f * 4194304 + d.val * 512 + a.val * 16384
  | .redMax tok tree f d a => 67108917 + tok.val * 134217728 + tree.toNat * 16777216 + redFmtNum f * 4194304 + d.val * 512 + a.val * 16384
  | .vadd k d a b => 65 + k.val * 536870912 + d.val * 128 + a.val * 4096 + b.val * 131072
  | .vsub k d a b => 4194369 + k.val * 536870912 + d.val * 128 + a.val * 4096 + b.val * 131072
  | .vmul k d a b => 8388673 + k.val * 536870912 + d.val * 128 + a.val * 4096 + b.val * 131072
  | .vfma k d a b => 12582977 + k.val * 536870912 + d.val * 128 + a.val * 4096 + b.val * 131072
  | .vfms k d a b => 16777281 + k.val * 536870912 + d.val * 128 + a.val * 4096 + b.val * 131072
  | .vfnma k d a b => 20971585 + k.val * 536870912 + d.val * 128 + a.val * 4096 + b.val * 131072
  | .vmin k d a b => 25165889 + k.val * 536870912 + d.val * 128 + a.val * 4096 + b.val * 131072
  | .vmax k d a b => 29360193 + k.val * 536870912 + d.val * 128 + a.val * 4096 + b.val * 131072
  | .vminu k d a b => 33554497 + k.val * 536870912 + d.val * 128 + a.val * 4096 + b.val * 131072
  | .vmaxu k d a b => 37748801 + k.val * 536870912 + d.val * 128 + a.val * 4096 + b.val * 131072
  | .vabs k d a => 41943105 + k.val * 536870912 + d.val * 128 + a.val * 4096
  | .vneg k d a => 46137409 + k.val * 536870912 + d.val * 128 + a.val * 4096
  | .vand k d a b => 50331713 + k.val * 536870912 + d.val * 128 + a.val * 4096 + b.val * 131072
  | .vor k d a b => 54526017 + k.val * 536870912 + d.val * 128 + a.val * 4096 + b.val * 131072
  | .vxor k d a b => 58720321 + k.val * 536870912 + d.val * 128 + a.val * 4096 + b.val * 131072
  | .vnot k d a => 62914625 + k.val * 536870912 + d.val * 128 + a.val * 4096
  | .vsll k d a b => 67108929 + k.val * 536870912 + d.val * 128 + a.val * 4096 + b.val * 131072
  | .vsrl k d a b => 71303233 + k.val * 536870912 + d.val * 128 + a.val * 4096 + b.val * 131072
  | .vsra k d a b => 75497537 + k.val * 536870912 + d.val * 128 + a.val * 4096 + b.val * 131072
  | .vadds k d a b => 79691841 + k.val * 536870912 + d.val * 128 + a.val * 4096 + b.val * 131072
  | .vsubs k d a b => 83886145 + k.val * 536870912 + d.val * 128 + a.val * 4096 + b.val * 131072
  | .vdiv k d a b => 88080449 + k.val * 536870912 + d.val * 128 + a.val * 4096 + b.val * 131072
  | .vsqrt k d a => 92274753 + k.val * 536870912 + d.val * 128 + a.val * 4096
  | .vcmpEq k d a b => 67 + k.val * 536870912 + d.val * 128 + a.val * 4096 + b.val * 131072
  | .vcmpNe k d a b => 4194371 + k.val * 536870912 + d.val * 128 + a.val * 4096 + b.val * 131072
  | .vcmpLt k d a b => 8388675 + k.val * 536870912 + d.val * 128 + a.val * 4096 + b.val * 131072
  | .vcmpGe k d a b => 12582979 + k.val * 536870912 + d.val * 128 + a.val * 4096 + b.val * 131072
  | .vcmpLtu k d a b => 16777283 + k.val * 536870912 + d.val * 128 + a.val * 4096 + b.val * 131072
  | .vcmpGeu k d a b => 20971587 + k.val * 536870912 + d.val * 128 + a.val * 4096 + b.val * 131072
  | .vsel k d a b => 69 + k.val * 536870912 + d.val * 128 + a.val * 4096 + b.val * 131072
  | .vmov k d a => 4194373 + k.val * 536870912 + d.val * 128 + a.val * 4096
  | .vbcast k d a => 8388677 + k.val * 536870912 + d.val * 128 + a.val * 4096
  | .vextr d a b => 12582981 + d.val * 128 + a.val * 4096 + b.val * 131072
  | .vins d a b => 16777285 + d.val * 128 + a.val * 4096 + b.val * 131072
  | .vslide k d a b => 20971589 + k.val * 536870912 + d.val * 128 + a.val * 4096 + b.val * 131072
  | .vperm k d a b => 25165893 + k.val * 536870912 + d.val * 128 + a.val * 4096 + b.val * 131072
  | .viota k d => 29360197 + k.val * 536870912 + d.val * 128
  | .vredsum k d a => 33554501 + k.val * 536870912 + d.val * 128 + a.val * 4096
  | .vredmin k d a => 37748805 + k.val * 536870912 + d.val * 128 + a.val * 4096
  | .vredmax k d a => 41943109 + k.val * 536870912 + d.val * 128 + a.val * 4096
  | .vtag f d a => 50331717 + fmtNum f * 131072 + d.val * 128 + a.val * 4096
  | .kand d a b => 67108933 + d.val * 128 + a.val * 4096 + b.val * 131072
  | .kor d a b => 71303237 + d.val * 128 + a.val * 4096 + b.val * 131072
  | .kxor d a b => 75497541 + d.val * 128 + a.val * 4096 + b.val * 131072
  | .knot d a => 79691845 + d.val * 128 + a.val * 4096
  | .kpop d a => 83886149 + d.val * 128 + a.val * 4096
  | .kfirst d a => 88080453 + d.val * 128 + a.val * 4096
  | .vcvt r f k d a => 100663365 + vrndNum r * 4194304 + fmtNum f * 131072 + k.val * 536870912 + d.val * 128 + a.val * 4096
  | .vld f k d a => 71 + fmtNum f * 4194304 + k.val * 536870912 + d.val * 128 + a.val * 4096
  | .vlds f k d a b => 67108935 + fmtNum f * 4194304 + k.val * 536870912 + d.val * 128 + a.val * 4096 + b.val * 131072
  | .vldx f k d a b => 134217799 + fmtNum f * 4194304 + k.val * 536870912 + d.val * 128 + a.val * 4096 + b.val * 131072
  | .vldb f k d a => 201326663 + fmtNum f * 4194304 + k.val * 536870912 + d.val * 128 + a.val * 4096
  | .vst k d a => 73 + k.val * 536870912 + d.val * 128 + a.val * 4096
  | .vsts k d a b => 67108937 + k.val * 536870912 + d.val * 128 + a.val * 4096 + b.val * 131072
  | .vstx k d a b => 134217801 + k.val * 536870912 + d.val * 128 + a.val * 4096 + b.val * 131072
  | .setvl f d a => 75 + fmtNum f * 1048576 + d.val * 128 + a.val * 4096
  | .tcfg tc a => 81 + tc.val * 1048576 + a.val * 4096
  | .accfg a => 8388689 + a.val * 4096
  | .tld tok tc a d => 83 + tok.val * 134217728 + tc.val * 1048576 + a.val * 4096 + d.val * 128
  | .tst tok tc a d => 8388691 + tok.val * 134217728 + tc.val * 1048576 + a.val * 4096 + d.val * 128
  | .tlds tok tc a d => 16777299 + tok.val * 134217728 + tc.val * 1048576 + a.val * 4096 + d.val * 128
  | .tzero tok tc => 25165907 + tok.val * 134217728 + tc.val * 1048576
  | .mma tok tc tb a => 85 + tok.val * 134217728 + tc.val * 1048576 + tb.val * 131072 + a.val * 4096
  | .mmas tok tc tb a => 8388693 + tok.val * 134217728 + tc.val * 1048576 + tb.val * 131072 + a.val * 4096
  | .mtv tok tc a d => 16777301 + tok.val * 134217728 + tc.val * 1048576 + a.val * 4096 + d.val * 128
  | .acld tok a d => 87 + tok.val * 134217728 + a.val * 4096 + d.val * 128
  | .acst tok a d => 8388695 + tok.val * 134217728 + a.val * 4096 + d.val * 128
  | .accvt tok tc a => 16777303 + tok.val * 134217728 + tc.val * 1048576 + a.val * 4096
  | .aczero tok a => 25165911 + tok.val * 134217728 + a.val * 4096
  | .cpy tok d a b => 89 + tok.val * 134217728 + d.val * 128 + a.val * 4096 + b.val * 131072
  | .tcpy tok d a b => 4194393 + tok.val * 134217728 + d.val * 128 + a.val * 4096 + b.val * 131072
  | .cpyf tok d a b => 8388697 + tok.val * 134217728 + d.val * 128 + a.val * 4096 + b.val * 131072
  | .bteGo tok d a b => 91 + tok.val * 134217728 + d.val * 128 + a.val * 4096 + b.val * 131072
  | .bteQ d a => 4194395 + d.val * 128 + a.val * 4096
  | .tspawn sl a b => 93 + sl.val * 128 + a.val * 4096 + b.val * 131072
  | .tnext pd d sl => 4194397 + pd.val * 131072 + d.val * 128 + sl.val * 4096
  | .tend => 8388701
  | .tpoll => 12583005
  | .wmkRd d b sl => 16777309 + d.val * 128 + b.val * 131072 + sl.val * 4096
  | .wmkRdS d b sl => 20971613 + d.val * 128 + b.val * 131072 + sl.val * 4096
  | .wmkUpd pd a b => 25165917 + pd.val * 128 + a.val * 4096 + b.val * 131072
  | .wmkSet d a b => 29360221 + d.val * 128 + a.val * 4096 + b.val * 131072
  | .calRun tok d a => 95 + tok.val * 134217728 + d.val * 128 + a.val * 4096
  | .calQry d => 4194399 + d.val * 128
  | .protSet a b => 97 + a.val * 4096 + b.val * 131072
  | .lptSet a b => 33554529 + a.val * 4096 + b.val * 131072
  | .ctxSave a => 67108961 + a.val * 4096
  | .ctxLoad a => 100663393 + a.val * 4096
  | .hMov d b => 32768 + d.val * 32 + b.val * 1024
  | .hAdd d b => 32770 + d.val * 32 + b.val * 1024
  | .hSub d b => 32772 + d.val * 32 + b.val * 1024
  | .hAnd d b => 32774 + d.val * 32 + b.val * 1024
  | .hOr d b => 32776 + d.val * 32 + b.val * 1024
  | .hXor d b => 32778 + d.val * 32 + b.val * 1024
  | .hAddi d imm => 32780 + d.val * 32 + imm.toNat * 1024
  | .hLi d imm => 32782 + d.val * 32 + imm.toNat * 1024
  | .hSlli d sh => 32784 + d.val * 32 + sh.toNat * 1024
  | .hSrli d sh => 32786 + d.val * 32 + sh.toNat * 1024
  | .hSrai d sh => 32788 + d.val * 32 + sh.toNat * 1024
  | .hLd d b => 32790 + d.val * 32 + b.val * 1024
  | .hSd d b => 32792 + d.val * 32 + b.val * 1024
  | .hJmp b => 32794 + b.val * 1024
  | .hMul d b => 32796 + d.val * 32 + b.val * 1024
  | .hNeg d b => 32798 + d.val * 32 + b.val * 1024
  | .hVadd d b => 0 + d.val * 32 + b.val * 1024
  | .hVsub d b => 2 + d.val * 32 + b.val * 1024
  | .hVmul d b => 4 + d.val * 32 + b.val * 1024
  | .hVmin d b => 6 + d.val * 32 + b.val * 1024
  | .hVmax d b => 8 + d.val * 32 + b.val * 1024
  | .hVminu d b => 10 + d.val * 32 + b.val * 1024
  | .hVmaxu d b => 12 + d.val * 32 + b.val * 1024
  | .hVand d b => 14 + d.val * 32 + b.val * 1024
  | .hVor d b => 16 + d.val * 32 + b.val * 1024
  | .hVxor d b => 18 + d.val * 32 + b.val * 1024
  | .hVsll d b => 20 + d.val * 32 + b.val * 1024
  | .hVsrl d b => 22 + d.val * 32 + b.val * 1024
  | .hVsra d b => 24 + d.val * 32 + b.val * 1024
  | .hVadds d b => 26 + d.val * 32 + b.val * 1024
  | .hVsubs d b => 28 + d.val * 32 + b.val * 1024
  | .hVmov d b => 30 + d.val * 32 + b.val * 1024
  | .powerOn _ _ | .yieldEnd _ | .idleWake _ | .trapRingResume _ | .gangCommit _ _ | .svcEndThread _ |
  .svcSetPageTag _ | .svcWriteReach _ | .svcReadReach _ | .svcUnknown _ | .threadEnd _ | .convoyRelease _ _ |
  .joinRecruited _ | .barWaitWake _ | .barTimeout _ | .waitaWake _ | .cwaitWake _ | .tokenStallRelease _ |
  .counterRoom _ | .redClose _ _ _ | .redTimeout _ _ _ | .redLateComplete _ _ | .peerAccessArrival _ _ _ _ _ |
  .inboundWrite _ _ | .translationWalkDone _ | .translationRetry | .stationInvalidate _ _ | .reclFree _ |
  .matrixQueueRoom _ | .matrixJobStart _ _ | .matrixJobComplete _ _ | .copySlotFree _ | .copyOpStart _ |
  .copyComplete _ | .beatLanding _ _ | .beatsRoom _ | .fenceDrain _ | .bteRequestRefused _ _ _ | .bteRetry _ _
  | .bteRequestRoom _ | .bteAccept _ _ | .bteRecordTakeup _ | .bteRecordLanded _ | .bteRingResume _ |
  .homeSpawnCount _ | .homeUpdate _ | .homeSet _ | .wmkSetOpen _ | .wmkPropagate _ _ | .recordMove _ _ _ |
  .spillReturn _ _ | .tnextWake _ | .slotClose _ | .calRunStart _ | .calKernelDone _ | .strongLoadTimeout _ |
  .strongLoadArrive _ | .sliceEvict _ | .sliceResume _ _ | .sliceMigrate _ _ | .debugRun _ | .debugPlainHalt _
  | .debugQuiesceHalt _ | .debugStable _ | .queueEnable _ _ | .queueDisable _ _ | .qtailWrite _ _ |
  .registerWrite _ _ | .packetFetch _ | .packetPoll _ | .launch _ | .load _ _ | .unload _ | .signal _ |
  .wait _ | .waitSatisfied _ | .qfence _ | .nop _ | .slicePermitReturn _ | .headboxRestart | .headboxResume |
  .notifyWrite _ | .notifyGatedDeliver _ | .securityCoreRequest _ _ | .mappingProposal _ | .leafActivate _ |
  .attestRequest _ | .measurementRequest _ | .interfaceLock _ _ | .interfaceStart _ | .interfaceStop _ |
  .teardownDrained _ | .scrubUnit | .activateImage _ _ _ _ | .activationCommit | .tamperEvent _ |
  .ownerClaim _ | .ownerHeartbeat _ | .ownerRelease _ | .ownerTakeover _ | .linkRekey _ | .sealTagFail _ |
  .ucieLinkError _ | .linkRecoveryTimeout _ | .causewayCrcFail _ | .groupForm _ _ _ _ | .memberVerified _ _ |
  .memberLost _ _ | .governorSample _ | .moduleReset | .reservedEncoding _ | .instructionFetchFault _ _ |
  .followerStallDetach _ | .loggingEnable _ | .alarmLevelConfig _ | .moduleNumberAssign _ _ => 0

/-- The rows of the opcode table that are steps of the module and have no encoding. -/
def Instr.isEvent : Instr → Bool
  | .powerOn _ _ | .yieldEnd _ | .idleWake _ | .trapRingResume _ | .gangCommit _ _ | .svcEndThread _ |
  .svcSetPageTag _ | .svcWriteReach _ | .svcReadReach _ | .svcUnknown _ | .threadEnd _ | .convoyRelease _ _ |
  .joinRecruited _ | .barWaitWake _ | .barTimeout _ | .waitaWake _ | .cwaitWake _ | .tokenStallRelease _ |
  .counterRoom _ | .redClose _ _ _ | .redTimeout _ _ _ | .redLateComplete _ _ | .peerAccessArrival _ _ _ _ _ |
  .inboundWrite _ _ | .translationWalkDone _ | .translationRetry | .stationInvalidate _ _ | .reclFree _ |
  .matrixQueueRoom _ | .matrixJobStart _ _ | .matrixJobComplete _ _ | .copySlotFree _ | .copyOpStart _ |
  .copyComplete _ | .beatLanding _ _ | .beatsRoom _ | .fenceDrain _ | .bteRequestRefused _ _ _ | .bteRetry _ _
  | .bteRequestRoom _ | .bteAccept _ _ | .bteRecordTakeup _ | .bteRecordLanded _ | .bteRingResume _ |
  .homeSpawnCount _ | .homeUpdate _ | .homeSet _ | .wmkSetOpen _ | .wmkPropagate _ _ | .recordMove _ _ _ |
  .spillReturn _ _ | .tnextWake _ | .slotClose _ | .calRunStart _ | .calKernelDone _ | .strongLoadTimeout _ |
  .strongLoadArrive _ | .sliceEvict _ | .sliceResume _ _ | .sliceMigrate _ _ | .debugRun _ | .debugPlainHalt _
  | .debugQuiesceHalt _ | .debugStable _ | .queueEnable _ _ | .queueDisable _ _ | .qtailWrite _ _ |
  .registerWrite _ _ | .packetFetch _ | .packetPoll _ | .launch _ | .load _ _ | .unload _ | .signal _ |
  .wait _ | .waitSatisfied _ | .qfence _ | .nop _ | .slicePermitReturn _ | .headboxRestart | .headboxResume |
  .notifyWrite _ | .notifyGatedDeliver _ | .securityCoreRequest _ _ | .mappingProposal _ | .leafActivate _ |
  .attestRequest _ | .measurementRequest _ | .interfaceLock _ _ | .interfaceStart _ | .interfaceStop _ |
  .teardownDrained _ | .scrubUnit | .activateImage _ _ _ _ | .activationCommit | .tamperEvent _ |
  .ownerClaim _ | .ownerHeartbeat _ | .ownerRelease _ | .ownerTakeover _ | .linkRekey _ | .sealTagFail _ |
  .ucieLinkError _ | .linkRecoveryTimeout _ | .causewayCrcFail _ | .groupForm _ _ _ _ | .memberVerified _ _ |
  .memberLost _ _ | .governorSample _ | .moduleReset | .reservedEncoding _ | .instructionFetchFault _ _ |
  .followerStallDetach _ | .loggingEnable _ | .alarmLevelConfig _ | .moduleNumberAssign _ _ => true
  | .add _ _ _ | .sub _ _ _ | .and _ _ _ | .or _ _ _ | .xor _ _ _ | .sll _ _ _ | .srl _ _ _ | .sra _ _ _ |
  .slt _ _ _ | .sltu _ _ _ | .min _ _ _ | .max _ _ _ | .minu _ _ _ | .maxu _ _ _ | .mul _ _ _ | .mulh _ _ _ |
  .mulhu _ _ _ | .div _ _ _ | .divu _ _ _ | .rem _ _ _ | .remu _ _ _ | .clz _ _ | .ctz _ _ | .popc _ _ |
  .rol _ _ _ | .ror _ _ _ | .addi _ _ _ | .andi _ _ _ | .ori _ _ _ | .xori _ _ _ | .slli _ _ _ | .srli _ _ _ |
  .srai _ _ _ | .slti _ _ _ | .sltiu _ _ _ | .lih _ _ | .addpc _ _ | .cmpEq _ _ _ | .cmpNe _ _ _ |
  .cmpLt _ _ _ | .cmpGe _ _ _ | .cmpLtu _ _ _ | .cmpGeu _ _ _ | .cmpiEq _ _ _ | .cmpiNe _ _ _ | .cmpiLt _ _ _
  | .cmpiGe _ _ _ | .cmpiLtu _ _ _ | .cmpiGeu _ _ _ | .pand _ _ _ | .por _ _ _ | .pxor _ _ _ | .pnot _ _ |
  .pmov _ _ | .movp _ _ | .setp _ _ | .sel _ _ _ _ | .br _ _ | .jal _ _ | .jalr _ _ _ | .lb _ _ _ | .lbu _ _ _
  | .lh _ _ _ | .lhu _ _ _ | .lw _ _ _ | .lwu _ _ _ | .ld _ _ _ | .lwS _ _ _ _ | .ldS _ _ _ _ | .lwA _ _ _ _ |
  .ldA _ _ _ _ | .sb _ _ _ _ | .sh _ _ _ _ | .sw _ _ _ _ | .sd _ _ _ _ | .swS _ _ _ _ _ | .sdS _ _ _ _ _ |
  .swL _ _ _ _ _ | .sdL _ _ _ _ _ | .amoaddW _ _ _ _ _ | .amoandW _ _ _ _ _ | .amoorW _ _ _ _ _ |
  .amoxorW _ _ _ _ _ | .amominW _ _ _ _ _ | .amomaxW _ _ _ _ _ | .amominuW _ _ _ _ _ | .amomaxuW _ _ _ _ _ |
  .amoswapW _ _ _ _ _ | .casW _ _ _ _ _ | .amoaddD _ _ _ _ _ | .amoandD _ _ _ _ _ | .amoorD _ _ _ _ _ |
  .amoxorD _ _ _ _ _ | .amominD _ _ _ _ _ | .amomaxD _ _ _ _ _ | .amominuD _ _ _ _ _ | .amomaxuD _ _ _ _ _ |
  .amoswapD _ _ _ _ _ | .casD _ _ _ _ _ | .fence _ _ _ | .csrr _ _ | .csrw _ _ _ | .csrs _ _ _ | .csrc _ _ _ |
  .loop _ _ | .loopi _ _ | .trap _ | .brk _ | .mcall _ | .idle | .yield | .tret | .mret | .gate | .callg _ _ |
  .retg | .lendR _ _ _ | .lendRw _ _ _ | .recl _ | .loanq _ _ | .barInit _ _ | .barArr _ | .barWait _ |
  .barSync _ | .waita _ _ | .waitaGe _ _ | .cwait _ _ | .fork _ _ | .join _ | .cvyLead | .cvyJoin | .cvyLeave
  | .redAdd _ _ _ _ _ | .redMin _ _ _ _ _ | .redMax _ _ _ _ _ | .vadd _ _ _ _ | .vsub _ _ _ _ | .vmul _ _ _ _
  | .vfma _ _ _ _ | .vfms _ _ _ _ | .vfnma _ _ _ _ | .vmin _ _ _ _ | .vmax _ _ _ _ | .vminu _ _ _ _ |
  .vmaxu _ _ _ _ | .vabs _ _ _ | .vneg _ _ _ | .vand _ _ _ _ | .vor _ _ _ _ | .vxor _ _ _ _ | .vnot _ _ _ |
  .vsll _ _ _ _ | .vsrl _ _ _ _ | .vsra _ _ _ _ | .vadds _ _ _ _ | .vsubs _ _ _ _ | .vdiv _ _ _ _ |
  .vsqrt _ _ _ | .vcmpEq _ _ _ _ | .vcmpNe _ _ _ _ | .vcmpLt _ _ _ _ | .vcmpGe _ _ _ _ | .vcmpLtu _ _ _ _ |
  .vcmpGeu _ _ _ _ | .vsel _ _ _ _ | .vmov _ _ _ | .vbcast _ _ _ | .vextr _ _ _ | .vins _ _ _ |
  .vslide _ _ _ _ | .vperm _ _ _ _ | .viota _ _ | .vredsum _ _ _ | .vredmin _ _ _ | .vredmax _ _ _ |
  .vtag _ _ _ | .kand _ _ _ | .kor _ _ _ | .kxor _ _ _ | .knot _ _ | .kpop _ _ | .kfirst _ _ | .vcvt _ _ _ _ _
  | .vld _ _ _ _ | .vlds _ _ _ _ _ | .vldx _ _ _ _ _ | .vldb _ _ _ _ | .vst _ _ _ | .vsts _ _ _ _ |
  .vstx _ _ _ _ | .setvl _ _ _ | .tcfg _ _ | .accfg _ | .tld _ _ _ _ | .tst _ _ _ _ | .tlds _ _ _ _ |
  .tzero _ _ | .mma _ _ _ _ | .mmas _ _ _ _ | .mtv _ _ _ _ | .acld _ _ _ | .acst _ _ _ | .accvt _ _ _ |
  .aczero _ _ | .cpy _ _ _ _ | .tcpy _ _ _ _ | .cpyf _ _ _ _ | .bteGo _ _ _ _ | .bteQ _ _ | .tspawn _ _ _ |
  .tnext _ _ _ | .tend | .tpoll | .wmkRd _ _ _ | .wmkRdS _ _ _ | .wmkUpd _ _ _ | .wmkSet _ _ _ | .calRun _ _ _
  | .calQry _ | .protSet _ _ | .lptSet _ _ | .ctxSave _ | .ctxLoad _ | .hMov _ _ | .hAdd _ _ | .hSub _ _ |
  .hAnd _ _ | .hOr _ _ | .hXor _ _ | .hAddi _ _ | .hLi _ _ | .hSlli _ _ | .hSrli _ _ | .hSrai _ _ | .hLd _ _ |
  .hSd _ _ | .hJmp _ | .hMul _ _ | .hNeg _ _ | .hVadd _ _ | .hVsub _ _ | .hVmul _ _ | .hVmin _ _ | .hVmax _ _
  | .hVminu _ _ | .hVmaxu _ _ | .hVand _ _ | .hVor _ _ | .hVxor _ _ | .hVsll _ _ | .hVsrl _ _ | .hVsra _ _ |
  .hVadds _ _ | .hVsubs _ _ | .hVmov _ _ => false

/-- Bytes the instruction occupies (R26); an event occupies none. -/
def Instr.length : Instr → Nat
  | .hMov _ _ | .hAdd _ _ | .hSub _ _ | .hAnd _ _ | .hOr _ _ | .hXor _ _ | .hAddi _ _ | .hLi _ _ | .hSlli _ _
  | .hSrli _ _ | .hSrai _ _ | .hLd _ _ | .hSd _ _ | .hJmp _ | .hMul _ _ | .hNeg _ _ | .hVadd _ _ | .hVsub _ _
  | .hVmul _ _ | .hVmin _ _ | .hVmax _ _ | .hVminu _ _ | .hVmaxu _ _ | .hVand _ _ | .hVor _ _ | .hVxor _ _ |
  .hVsll _ _ | .hVsrl _ _ | .hVsra _ _ | .hVadds _ _ | .hVsubs _ _ | .hVmov _ _ => 2
  | .add _ _ _ | .sub _ _ _ | .and _ _ _ | .or _ _ _ | .xor _ _ _ | .sll _ _ _ | .srl _ _ _ | .sra _ _ _ |
  .slt _ _ _ | .sltu _ _ _ | .min _ _ _ | .max _ _ _ | .minu _ _ _ | .maxu _ _ _ | .mul _ _ _ | .mulh _ _ _ |
  .mulhu _ _ _ | .div _ _ _ | .divu _ _ _ | .rem _ _ _ | .remu _ _ _ | .clz _ _ | .ctz _ _ | .popc _ _ |
  .rol _ _ _ | .ror _ _ _ | .addi _ _ _ | .andi _ _ _ | .ori _ _ _ | .xori _ _ _ | .slli _ _ _ | .srli _ _ _ |
  .srai _ _ _ | .slti _ _ _ | .sltiu _ _ _ | .lih _ _ | .addpc _ _ | .cmpEq _ _ _ | .cmpNe _ _ _ |
  .cmpLt _ _ _ | .cmpGe _ _ _ | .cmpLtu _ _ _ | .cmpGeu _ _ _ | .cmpiEq _ _ _ | .cmpiNe _ _ _ | .cmpiLt _ _ _
  | .cmpiGe _ _ _ | .cmpiLtu _ _ _ | .cmpiGeu _ _ _ | .pand _ _ _ | .por _ _ _ | .pxor _ _ _ | .pnot _ _ |
  .pmov _ _ | .movp _ _ | .setp _ _ | .sel _ _ _ _ | .br _ _ | .jal _ _ | .jalr _ _ _ | .lb _ _ _ | .lbu _ _ _
  | .lh _ _ _ | .lhu _ _ _ | .lw _ _ _ | .lwu _ _ _ | .ld _ _ _ | .lwS _ _ _ _ | .ldS _ _ _ _ | .lwA _ _ _ _ |
  .ldA _ _ _ _ | .sb _ _ _ _ | .sh _ _ _ _ | .sw _ _ _ _ | .sd _ _ _ _ | .swS _ _ _ _ _ | .sdS _ _ _ _ _ |
  .swL _ _ _ _ _ | .sdL _ _ _ _ _ | .amoaddW _ _ _ _ _ | .amoandW _ _ _ _ _ | .amoorW _ _ _ _ _ |
  .amoxorW _ _ _ _ _ | .amominW _ _ _ _ _ | .amomaxW _ _ _ _ _ | .amominuW _ _ _ _ _ | .amomaxuW _ _ _ _ _ |
  .amoswapW _ _ _ _ _ | .casW _ _ _ _ _ | .amoaddD _ _ _ _ _ | .amoandD _ _ _ _ _ | .amoorD _ _ _ _ _ |
  .amoxorD _ _ _ _ _ | .amominD _ _ _ _ _ | .amomaxD _ _ _ _ _ | .amominuD _ _ _ _ _ | .amomaxuD _ _ _ _ _ |
  .amoswapD _ _ _ _ _ | .casD _ _ _ _ _ | .fence _ _ _ | .csrr _ _ | .csrw _ _ _ | .csrs _ _ _ | .csrc _ _ _ |
  .loop _ _ | .loopi _ _ | .trap _ | .brk _ | .mcall _ | .idle | .yield | .tret | .mret | .gate | .callg _ _ |
  .retg | .lendR _ _ _ | .lendRw _ _ _ | .recl _ | .loanq _ _ | .barInit _ _ | .barArr _ | .barWait _ |
  .barSync _ | .waita _ _ | .waitaGe _ _ | .cwait _ _ | .fork _ _ | .join _ | .cvyLead | .cvyJoin | .cvyLeave
  | .redAdd _ _ _ _ _ | .redMin _ _ _ _ _ | .redMax _ _ _ _ _ | .vadd _ _ _ _ | .vsub _ _ _ _ | .vmul _ _ _ _
  | .vfma _ _ _ _ | .vfms _ _ _ _ | .vfnma _ _ _ _ | .vmin _ _ _ _ | .vmax _ _ _ _ | .vminu _ _ _ _ |
  .vmaxu _ _ _ _ | .vabs _ _ _ | .vneg _ _ _ | .vand _ _ _ _ | .vor _ _ _ _ | .vxor _ _ _ _ | .vnot _ _ _ |
  .vsll _ _ _ _ | .vsrl _ _ _ _ | .vsra _ _ _ _ | .vadds _ _ _ _ | .vsubs _ _ _ _ | .vdiv _ _ _ _ |
  .vsqrt _ _ _ | .vcmpEq _ _ _ _ | .vcmpNe _ _ _ _ | .vcmpLt _ _ _ _ | .vcmpGe _ _ _ _ | .vcmpLtu _ _ _ _ |
  .vcmpGeu _ _ _ _ | .vsel _ _ _ _ | .vmov _ _ _ | .vbcast _ _ _ | .vextr _ _ _ | .vins _ _ _ |
  .vslide _ _ _ _ | .vperm _ _ _ _ | .viota _ _ | .vredsum _ _ _ | .vredmin _ _ _ | .vredmax _ _ _ |
  .vtag _ _ _ | .kand _ _ _ | .kor _ _ _ | .kxor _ _ _ | .knot _ _ | .kpop _ _ | .kfirst _ _ | .vcvt _ _ _ _ _
  | .vld _ _ _ _ | .vlds _ _ _ _ _ | .vldx _ _ _ _ _ | .vldb _ _ _ _ | .vst _ _ _ | .vsts _ _ _ _ |
  .vstx _ _ _ _ | .setvl _ _ _ | .tcfg _ _ | .accfg _ | .tld _ _ _ _ | .tst _ _ _ _ | .tlds _ _ _ _ |
  .tzero _ _ | .mma _ _ _ _ | .mmas _ _ _ _ | .mtv _ _ _ _ | .acld _ _ _ | .acst _ _ _ | .accvt _ _ _ |
  .aczero _ _ | .cpy _ _ _ _ | .tcpy _ _ _ _ | .cpyf _ _ _ _ | .bteGo _ _ _ _ | .bteQ _ _ | .tspawn _ _ _ |
  .tnext _ _ _ | .tend | .tpoll | .wmkRd _ _ _ | .wmkRdS _ _ _ | .wmkUpd _ _ _ | .wmkSet _ _ _ | .calRun _ _ _
  | .calQry _ | .protSet _ _ | .lptSet _ _ | .ctxSave _ | .ctxLoad _ => 4
  | .powerOn _ _ | .yieldEnd _ | .idleWake _ | .trapRingResume _ | .gangCommit _ _ | .svcEndThread _ |
  .svcSetPageTag _ | .svcWriteReach _ | .svcReadReach _ | .svcUnknown _ | .threadEnd _ | .convoyRelease _ _ |
  .joinRecruited _ | .barWaitWake _ | .barTimeout _ | .waitaWake _ | .cwaitWake _ | .tokenStallRelease _ |
  .counterRoom _ | .redClose _ _ _ | .redTimeout _ _ _ | .redLateComplete _ _ | .peerAccessArrival _ _ _ _ _ |
  .inboundWrite _ _ | .translationWalkDone _ | .translationRetry | .stationInvalidate _ _ | .reclFree _ |
  .matrixQueueRoom _ | .matrixJobStart _ _ | .matrixJobComplete _ _ | .copySlotFree _ | .copyOpStart _ |
  .copyComplete _ | .beatLanding _ _ | .beatsRoom _ | .fenceDrain _ | .bteRequestRefused _ _ _ | .bteRetry _ _
  | .bteRequestRoom _ | .bteAccept _ _ | .bteRecordTakeup _ | .bteRecordLanded _ | .bteRingResume _ |
  .homeSpawnCount _ | .homeUpdate _ | .homeSet _ | .wmkSetOpen _ | .wmkPropagate _ _ | .recordMove _ _ _ |
  .spillReturn _ _ | .tnextWake _ | .slotClose _ | .calRunStart _ | .calKernelDone _ | .strongLoadTimeout _ |
  .strongLoadArrive _ | .sliceEvict _ | .sliceResume _ _ | .sliceMigrate _ _ | .debugRun _ | .debugPlainHalt _
  | .debugQuiesceHalt _ | .debugStable _ | .queueEnable _ _ | .queueDisable _ _ | .qtailWrite _ _ |
  .registerWrite _ _ | .packetFetch _ | .packetPoll _ | .launch _ | .load _ _ | .unload _ | .signal _ |
  .wait _ | .waitSatisfied _ | .qfence _ | .nop _ | .slicePermitReturn _ | .headboxRestart | .headboxResume |
  .notifyWrite _ | .notifyGatedDeliver _ | .securityCoreRequest _ _ | .mappingProposal _ | .leafActivate _ |
  .attestRequest _ | .measurementRequest _ | .interfaceLock _ _ | .interfaceStart _ | .interfaceStop _ |
  .teardownDrained _ | .scrubUnit | .activateImage _ _ _ _ | .activationCommit | .tamperEvent _ |
  .ownerClaim _ | .ownerHeartbeat _ | .ownerRelease _ | .ownerTakeover _ | .linkRekey _ | .sealTagFail _ |
  .ucieLinkError _ | .linkRecoveryTimeout _ | .causewayCrcFail _ | .groupForm _ _ _ _ | .memberVerified _ _ |
  .memberLost _ _ | .governorSample _ | .moduleReset | .reservedEncoding _ | .instructionFetchFault _ _ |
  .followerStallDetach _ | .loggingEnable _ | .alarmLevelConfig _ | .moduleNumberAssign _ _ => 0

end Sys2Proof
end

