-- ==== Sys2Proof/Machine/Translate.lean ====
section
/-! DEFINITION. From an address to the byte it names: regions (R20), local page tags (R166), protection entries
(R351), reach and loans (R203, R204), page tables (R167 to R174). -/
namespace Sys2Proof.Machine
open Sys2Proof

/-- Where an address falls (R20, R130). -/
inductive Region where
  | own (off : Nat)
  | peer (rank off : Nat)
  | hole
  | global
  deriving DecidableEq, Repr

/-- The region of an address (R20). -/
def regionOf (a : Nat) : Region :=
  if a < 0x30000 then .own a
  else if a < 0x100000000 then .hole
  else if a < 0x110000000 then
    let off := a % 2 ^ 18
    if 0x30000 ≤ off then .hole else .peer (a / 2 ^ 18 % 1024) off
  else .global

/-- The loader's default reach table (R203): domain 255 reaches every tag, the others what hardware forces. -/
def defaultReach : Memory := (List.range 64).map fun i => (64 * 255 + i, 0xFF)

/-- A context of which the security core records nothing but what the loader writes; no policy of it permits debugging (R350, R357). -/
def Context.fresh (cid : Nat) : Context where
  cid := cid
  root := none
  keySlot := none
  reach := defaultReach
  protect := false
  iface := .unlocked
  policy := ⟨[], false, []⟩
  ending := false
  drained := false
  halted := false
  logging := false

def State.ctx (s : State) (cid : Nat) : Context :=
  (s.sec.contexts.find? fun c => c.cid == cid).getD (Context.fresh cid)

def State.modCtx (s : State) (cid : Nat) (f : Context → Context) : State :=
  { s with sec := { s.sec with contexts := f (s.ctx cid) :: s.sec.contexts.filter fun c => c.cid != cid } }

/-- Appends an event that reaches a core from outside to the replay log, if its context is logged (R322). What: 1 an
access's value, 2 a write to the own local store, 3 a completion word, 4 a wake, 5 a recruitment, 6 a dispatch, 7 a kill,
8 a read of CYCLE or TIME, 9 the fall of a counter, 10 a reduce result, 11 what a home, a channel or a calender answers. -/
def State.logFrom (s : State) (c : Core) (source : Origin) (what : Nat) (value : Word)
    (cells : List Host.Cell) : State :=
  if (s.ctx c.cid).logging then
    { s with replayLog := s.replayLog ++ [⟨c.num, source, c.csr.instret, what, value, cells⟩] }
  else s

/-- An event that writes no byte of the own local store. -/
def State.logExt (s : State) (c : Core) (source : Origin) (what : Nat) (value : Word) : State :=
  s.logFrom c source what value []

/-- What answers the core in focus, as the log holds it. -/
def State.logAnswer (s : State) (source : Origin) (value : Word) : State := s.logExt s.core source 11 value

/-- Whether management logs any context. -/
def State.logs (s : State) : Bool := s.sec.contexts.any (·.logging)

def State.thread? (s : State) (tid : Nat) : Option Thread := s.threads.find? fun t => t.tid == tid

/-- The core whose local store is the owner's own: a launched thread's region moves with it (R319). -/
def State.homeOf (s : State) : Owner → Nat
  | .bare c => c
  | .saved k => (k - 2 ^ 52) / 2 ^ 18
  | .thread t => ((s.thread? t).map (·.home)).getD 0

/-- The placement map: the core of a live member of a team (R129, R130). DESIGN CHOICE: a WEAK member that has not started
(R135) has no region yet. -/
def State.memberHome (s : State) (team rank : Nat) : Option Nat :=
  (s.threads.find? fun t => t.team == team && t.rank == rank && !t.ended && !t.unstarted).map (·.home)

/-- The entries in force for code: ACTIVE with GDEPTH above their depth (R210). -/
def Core.inForce (c : Core) : List (Fin 8) :=
  (List.finRange 8).filter fun i =>
    (c.loans.get i).state == .active && decide ((c.loans.get i).depth < c.gdepth)

def Core.owner (c : Core) : Owner :=
  match c.tid with
  | some t => .thread t
  | none => .bare c.num

/-- The rights the code running on a core carries (R24, R204); in monitor mode those of R347. -/
def State.rightsOf (s : State) (c : Core) : Rights where
  owner := c.owner
  cid := c.cid
  domain := c.domain
  loans := c.loans
  inForce := c.inForce
  team := c.tid.bind fun t => (s.thread? t).map (·.team)
  rank := bitsOf c.csr.rank 9 0
  teamsz := bitsOf c.csr.teamsz 10 0
  monitor := c.mode == .monitor

/-- The rights of a context's runtime domain (R308, R330, R349), in the address space of an owner. -/
def Rights.runtime (r : Rights) : Rights := { r with domain := 255, inForce := [], monitor := false }

/-- Bit u of a domain's reach (R203): a few bits are 1 whatever the table holds. -/
def Context.reaches (x : Context) (write : Bool) (d u : Byte) : Bool :=
  d == u || (!write && u == 0) ||
    (d != 0 && (x.reach.get (64 * d.toNat + (if write then 32 else 0) + u.toNat / 8)).getLsbD (u.toNat % 8))

def needReads : Need → Bool
  | .load | .atomic => true
  | _ => false
def needWrites : Need → Bool
  | .store | .atomic => true
  | _ => false

/-- tag in reach_need(D) (R204). -/
def Context.reachNeed (x : Context) (need : Need) (d u : Byte) : Bool :=
  (!(needReads need) || x.reaches false d u) && (!(needWrites need) || x.reaches true d u)

/-- covers(L, b, need) of R204, along at most n parents. -/
def coversVia (x : Context) (loans : Vector Loan 8) (need : Need) (a : Nat) (tag : Byte) : Nat → Fin 8 → Bool
  | 0, _ => false
  | n + 1, i =>
    let l := loans.get i
    decide (l.base.toNat ≤ a ∧ a < l.base.toNat + l.len) && (!(needWrites need) || l.rw) &&
      (x.reachNeed need l.lender tag ||
        match l.parent with
        | some p => coversVia x loans need a tag n p
        | none => false)

/-- allowed(b, need) of R204 for a byte at address a on a page with this tag; a fetch needs a nonzero tag (R166). -/
def State.allowed (s : State) (r : Rights) (need : Need) (a : Nat) (tag : Byte) : Bool :=
  if need = .fetch then tag != 0
  else
    let x := s.ctx r.cid
    x.reachNeed need r.domain tag || r.inForce.any fun i => coversVia x r.loans need a tag 8 i

/-- A protection entry's fields (R351). -/
def peCid (w : Word) : Nat := bitsOf w 63 52
def peKind (w : Word) : Nat := bitsOf w 17 16
def peLast (w : Word) : Nat := bitsOf w 13 8
def peFirst (w : Word) : Nat := bitsOf w 5 0

/-- Whether a local page lies in a KIND 1 entry of the context (R351); page 47 never does. -/
def Core.peAllows (c : Core) (cid page : Nat) : Bool :=
  page != 47 && c.pe.toList.any fun w =>
    peKind w == 1 && peCid w == cid && decide (peFirst w ≤ page ∧ page ≤ peLast w)

/-- The LPT tag of a local page (R166). -/
def Core.pageTag (c : Core) (page : Nat) : Byte := (c.lpt.toList)[page]?.getD 0

/-- Why a byte is refused; a value of its own where the cause does not report the address (R368). -/
abbrev Fail := Cause × Option Word

/-- A byte of a local store, checked at its home: protection entries first, then tags (R351, R166). -/
def State.resolveLocal (s : State) (r : Rights) (need : Need) (home off a : Nat) : Except Fail Nat :=
  let c := s.getCore home
  if !c.peAllows r.cid (off / 4096) then .error (.rights, none)
  else if !s.allowed r need a (c.pageTag (off / 4096)) then .error (.rights, none)
  else .ok (localKey home off)

/-- HBM of this module (R171). -/
def inHbm (pa : Nat) : Bool := decide (pa < 0x6000000000)
/-- The module register window (R171). -/
def inRegs (pa : Nat) : Bool := decide (0x10000000000 ≤ pa ∧ pa < 0x10100000000)
/-- Host memory over CXL.io (R171). -/
def inCxlIo (pa : Nat) : Bool := decide (0x8000000000000 ≤ pa ∧ pa < 0xC000000000000)
/-- Some window of R171 holds the address. -/
def populated (pa : Nat) : Bool := inHbm pa || inRegs pa || decide (0x4000000000000 ≤ pa ∧ pa < 0x10000000000000)

/-- The bits of V, R, W, X and the TAG and KIND of a leaf (R169). -/
def leafTag (e : Word) : Byte := BitVec.ofNat 8 (bitsOf e 13 6)
def leafKind (e : Word) : Nat := bitsOf e 5 4
def isPointer (e : Word) : Bool := bitsOf e 3 0 == 1 && bitsOf e 15 14 == 3

/-- The 2 MiB of a slot's spill area hold a byte (R340). -/
def State.inSpill (s : State) (pa : Nat) : Bool :=
  s.slots.toList.any fun w => match w.area with | some b => decide (b ≤ pa ∧ pa < b + 2097152) | none => false

/-- Where a physical address lies of this module: a peer window of the module's own number shows its own windows (R171, R366).
DEDUCED (log 132): R171 gives the peer window to any module number. -/
def State.ownWindow (s : State) (pa : Nat) : Nat :=
  if 0xC000000000000 ≤ pa ∧ pa < 2 ^ 52 ∧ pa / 2 ^ 42 % 256 = s.moduleNumber then pa % 2 ^ 42 else pa

/-- Whether traffic to a physical address has a way: to another module, a route of the table (R366). DESIGN CHOICE (log 132):
without one the address is as unpopulated. -/
def State.routed (s : State) (pa : Nat) : Bool :=
  !(decide (0xC000000000000 ≤ pa ∧ pa < 2 ^ 52)) || s.routes.any fun r => r.dest == pa / 2 ^ 42 % 256

/-- A register of the module's window, or of a peer's (R171). -/
def anyRegs (pa : Nat) : Bool := inRegs pa || (decide (0xC000000000000 ≤ pa ∧ pa < 2 ^ 52) && inRegs (pa % 2 ^ 42))

/-- Whether some of n bytes of HBM are the monitor's: of a spill area (R340) or of the monitor area (R345, R347). -/
def State.monitorBytes (s : State) (pa n : Nat) : Bool :=
  (s.slots.toList.any fun w => match w.area with | some b => decide (b < pa + n ∧ pa < b + 2097152) | none => false) ||
    match s.sec.area with
    | some (b, m) => decide (b < pa + n ∧ pa < b + m)
    | none => false

/-- Whether a granule of HBM is ASSIGNED to a context (R353). -/
def State.holdsGranule (s : State) (cid pa : Nat) : Bool :=
  s.sec.owned.any fun e => e.1 == .granule (pa / 65536) && match e.2 with | .assigned l => l.contains cid | _ => false

/-- Whether a context may reach a byte through a leaf that the security core has not checked. DEDUCED from R329, R345, R350,
R353 and R354 (log 116): no register window, and of HBM the granules alone that a checked mapping has given the context; and through no
leaf the bytes of a spill area, which are the monitor's (R340). -/
def State.openTo (s : State) (cid pa : Nat) (checked : Bool) : Bool :=
  (checked || (!anyRegs pa && (!inHbm pa || s.holdsGranule cid pa))) && !s.inSpill pa

/-- Whether an entry read for a context at a level whose leaves map 2^bits bytes (0: no leaf) is a leaf of it (R168, R170). A leaf
with OWN set is one that the security core has activated for the context as it stands (R345, R354). -/
def State.leafOk (s : State) (cid : Nat) (e : Word) (at_ : Nat) (bits size : Nat) : Bool :=
  bits != 0 && bitOf e 0 && bitsOf e 15 14 == size && leafKind e != 3 && bitsOf e 61 52 == 0 &&
    bitsOf e 51 16 * 65536 % 2 ^ bits == 0 && (!inRegs (bitsOf e 51 16 * 65536) || leafKind e == 0) &&
    (!bitOf e 63 || s.sec.activated.contains (at_, cid, e))

/-- The walk of R168: the levels' index places, the bits their leaves map and the SIZE those carry. -/
def walkLevels : List (Nat × Nat × Nat × Nat) := [(43, 13, 0, 3), (30, 13, 30, 2), (21, 9, 21, 1), (16, 5, 16, 0)]

/-- Walks the levels left from a table of a context: the leaf and its page bits, or why there is none (R168, R170). An entry is
read by a strong load, which uncorrectable data makes fail (R165). -/
def State.walkFrom (s : State) (cid va : Nat) : List (Nat × Nat × Nat × Nat) → Nat → Cause ⊕ (Word × Nat)
  | [], _ => .inl .xlate
  | (lo, n, bits, size) :: rest, table =>
    let at_ := table + 8 * (va / 2 ^ lo % 2 ^ n)
    if !inHbm at_ then .inl .xlate
    else if s.poisoned at_ 8 then .inl .poison
    else
      let e := wordOfBytes (s.readMem at_ 8)
      if isPointer e then
        if bitsOf e 63 52 ≠ 0 ∨ bitsOf e 13 4 ≠ 0 then .inl .xlate
        else s.walkFrom cid va rest (bitsOf e 51 16 * 65536)
      else if s.leafOk cid e at_ bits size then .inr (e, bits)
      else .inl .xlate

/-- The station a request goes to: VA[18:16] of the requester's own stack (R172). -/
def stationOf (core va : Nat) : Nat := core / 32768 * 8 + va / 65536 % 8

/-- A walk of a context's page table. -/
def State.walk (s : State) (cid va : Nat) : Cause ⊕ (Word × Nat) :=
  match (s.ctx cid).root with
  | none => .inl .xlate
  | some root => s.walkFrom cid va walkLevels root

/-- The addresses of the entries that a walk reads. -/
def State.entriesFrom (s : State) (va : Nat) : List (Nat × Nat × Nat × Nat) → Nat → List Nat
  | [], _ => []
  | (lo, n, _, _) :: rest, table =>
    let at_ := table + 8 * (va / 2 ^ lo % 2 ^ n)
    if !inHbm at_ ∨ s.poisoned at_ 8 then []
    else
      let e := wordOfBytes (s.readMem at_ 8)
      at_ :: if isPointer e then s.entriesFrom va rest (bitsOf e 51 16 * 65536) else []

/-- The bytes that a walk of a context's page table reads. -/
def State.walkKeys (s : State) (cid va : Nat) : List Nat :=
  match (s.ctx cid).root with
  | none => []
  | some root => ((s.entriesFrom va walkLevels root).map fun a => (List.range 8).map (a + ·)).flatten

/-- A walk in flight at a station for a page of a context (R172). DESIGN CHOICE (log 130): before the leaf is known the page of a
miss is the span of 64 KiB around it. -/
def State.inFlight (s : State) (core cid va : Nat) : Option Miss :=
  s.misses.find? fun m => m.station == stationOf core va && m.cid == cid && m.page == va / 65536

/-- The leaf that maps a virtual address: a cached leaf until it is invalidated, else the result of the walk in flight, else
of a walk (R172, R173). -/
def State.leafFor (s : State) (core cid va : Nat) : Except Cause (Word × Nat) :=
  match s.leaves.find? fun l =>
    l.station == stationOf core va && l.cid == cid && l.page == va / 2 ^ l.bits with
  | some l => .ok (l.entry, l.bits)
  | none =>
    match (match s.inFlight core cid va with | some m => m.found | none => s.walk cid va) with
    | .inl c => .error c
    | .inr r => .ok r

/-- The collective group in which a module is LOST (R368); DEDUCED: nor is the window to a member that attests, in no group
ACTIVE, usable (R367). -/
def State.lostGroup (s : State) (module : Nat) : Option Nat :=
  (s.groups.find? fun g => g.members.any fun m => m.1 == module && m.2 == .lost).or
    (if s.groups.any fun g => g.members.any fun m => m.1 == module && m.2 == .active then none
      else s.groups.find? fun g => g.members.any fun m => m.1 == module) |>.map (·.g)

/-- The member lost to an access of a byte: its group (R368). -/
def State.lostAt (s : State) (pa : Nat) : Option Nat :=
  if 0xC000000000000 ≤ pa ∧ pa < 2 ^ 52 then s.lostGroup (pa / 2 ^ 42 % 256) else none

/-- A byte of the global space (R174 steps 1 to 3; R368). -/
def State.resolveGlobal (s : State) (r : Rights) (need : Need) (a : Nat) : Except Fail Nat :=
  if 2 ^ 56 ≤ a then .error (.xlate, none)
  else
    match s.leafFor (s.homeOf r.owner) r.cid a with
    | .error c => .error (c, none)
    | .ok (e, bits) =>
      let pa := s.ownWindow (bitsOf e 51 16 * 65536 + a % 2 ^ bits)
      if !populated pa ∨ !s.routed pa ∨ !s.openTo r.cid pa (bitOf e 63) then .error (.xlate, none)
      else if (needReads need && !bitOf e 1) || (needWrites need && !bitOf e 2) || (need == .fetch && !bitOf e 3) then
        .error (.rights, none)
      else if !s.allowed r need a (leafTag e) then .error (.rights, none)
      else if bitOf e 62 then .error (.poison, none)
      else
        match s.lostAt pa with
        | some g => .error (.peerlost, some (BitVec.ofNat 64 g))
        | none => .ok pa

/-- The key of the byte at address a, or why the access is refused: LOCAL, then the later layers' checks (R60). -/
def State.resolve (s : State) (r : Rights) (need : Need) (a : Nat) : Except Fail Nat :=
  match regionOf a with
  | .hole => .error (.loc, none)
  | .own off =>
    if r.monitor then .ok (localKey (s.homeOf r.owner) off)
    else s.resolveLocal r need (s.homeOf r.owner) off a
  | .peer rank off =>
    if need = .fetch ∨ r.teamsz ≤ rank then .error (.loc, none)
    else
      match r.team.bind fun t => s.memberHome t rank with
      | none => .error (.rights, none)
      | some home => if r.monitor then .ok (localKey home off) else s.resolveLocal r need home off a
  | .global =>
    if r.monitor then
      match s.sec.area with
      | some (base, len) => if base ≤ a ∧ a < base + len ∧ inHbm a then .ok a else .error (.xlate, none)
      | none => .error (.xlate, none)
    else s.resolveGlobal r need a

/-- Checks n bytes in increasing order: their keys, or the first failing byte's cause and reported value (R204). -/
def State.resolveAll (s : State) (r : Rights) (need : Need) (a : Word) : Nat → Except (Cause × Word) (List Nat)
  | 0 => .ok []
  | n + 1 =>
    match s.resolve r need a.toNat with
    | .error (c, v) => .error (c, v.getD a)
    | .ok k =>
      match s.resolveAll r need (a + 1) n with
      | .error e => .error e
      | .ok ks => .ok (k :: ks)

/-- The place of a check of an address (R60, R174; R368). -/
def stepOf : Cause → Nat
  | .loc => 0
  | .xlate => 1
  | .rights => 2
  | .poison => 3
  | _ => 4

/-- Checks the n bytes of one access of a core: each step of R174 for all of them before the next, and within a step the first
failing byte decides. -/
def State.resolveSteps (s : State) (r : Rights) (need : Need) (a : Word) (n : Nat) : Except (Cause × Word) (List Nat) :=
  match s.resolveAll r need a n with
  | .ok ks => .ok ks
  | .error e =>
    .error ((List.range n).foldl (fun best i =>
      let b := a + BitVec.ofNat 64 i
      match s.resolve r need b.toNat with
      | .error (c, v) => if stepOf c < stepOf best.1 then (c, v.getD b) else best
      | .ok _ => best) e)

/-- The tag of the page a fetch address lies on, after the fetch checks of R21, R166 and R174. -/
def State.fetchTag (s : State) (r : Rights) (a : Word) : Except Fail Byte :=
  match s.resolve r .fetch a.toNat with
  | .error e => .error e
  | .ok _ =>
    match regionOf a.toNat with
    | .own off => .ok ((s.getCore (s.homeOf r.owner)).pageTag (off / 4096))
    | _ =>
      if r.monitor then .ok r.domain
      else
        match s.leafFor (s.homeOf r.owner) r.cid a.toNat with
        | .ok (e, _) => .ok (leafTag e)
        | .error c => .error (c, none)

/-- An event of management's log: 1 a core stopped (R346), 2 a failed access of the Headbox, of queue `core` (R375), 3 a
tamper event (R360), 4 an asynchronous record discarded for want of a valid ring (R310), 5 a deferred error of a code line
(R323), 6 a refused image (R359), 7 a corrected single-bit error (R165). -/
def State.logEvent (s : State) (core what : Nat) (value : Word) : State :=
  { s with sec := { s.sec with events := s.sec.events ++ [⟨core, what, value⟩] } }

/-- A read of some bytes corrects the single-bit errors in their units, which are logged for management (R165). -/
def State.correct (s : State) (ks : List Nat) : State :=
  let hit := s.singles.filter fun u => ks.any fun k => hostKey k / 8 == u
  if hit.isEmpty then s
  else
    hit.foldl (fun (u : State) a => u.logEvent s.core.num 7 (BitVec.ofNat 64 (8 * a)))
      { s with singles := s.singles.filter fun u => !hit.contains u }

/-- The walk of a request made now. -/
def State.walkNow (s : State) (m : Miss) : Miss := { m with found := s.walk m.cid (m.page * 65536) }

/-- A context's walks in flight deliver what stands in its tables now (R173). -/
def State.rewalk (s : State) (cid : Nat) : State :=
  let l := s.misses.filter fun m => m.cid == cid
  { s with misses := modWhere (fun m : Miss => m.cid == cid) s.walkNow s.misses }.correct
    ((l.map fun (m : Miss) => s.walkKeys cid (m.page * 65536)).flatten)

/-- Records that a station misses on a page: a walk joins one in flight or starts, which corrects the entries it reads (R165), and a
request beyond 512 is held (R172). -/
def State.noteMiss (s : State) (core cid va : Nat) : State :=
  let st := stationOf core va
  if s.leaves.any fun l => l.station == st && l.cid == cid && l.page == va / 2 ^ l.bits then s
  else if (s.inFlight core cid va).isSome then s
  else
    let m : Miss := ⟨st, cid, va / 65536, s.walk cid va⟩
    if (s.misses.filter fun m => m.station == st).length < 512 then
      { s with misses := s.misses ++ [m] }.correct (s.walkKeys cid va)
    else { s with heldMisses := s.heldMisses ++ [m] }

/-- The misses of an engine's range of n bytes: one for each of its pages, up to k of them (R172). -/
def State.noteRange (s : State) (core cid a n : Nat) : Nat → State
  | 0 => s
  | k + 1 =>
    if n = 0 then s
    else
      let s1 := if regionOf a == .global then s.noteMiss core cid a else s
      let next := (a / 65536 + 1) * 65536
      if next < a + n then s1.noteRange core cid next (a + n - next) k else s1

end Sys2Proof.Machine
end

