-- ==== Sys2Proof/Machine/SaveArea.lean ====
section
/-! DEFINITION. The save area of a thread (R313, R315, R316): its bytes from a core's state, and back. Also where
engine results go: to the resident thread, or into the save area of an evicted one. -/
namespace Sys2Proof.Machine
open Sys2Proof

def zeros (n : Nat) : List Byte := List.replicate n 0

/-- Bytes filled up with zeros to n. -/
def padTo (n : Nat) (l : List Byte) : List Byte := l ++ zeros (n - l.length)

/-- VTAGS0 and VTAGS1 (R94): the tags of sixteen registers, four bits each. -/
def Core.vtags (c : Core) (hi : Bool) : Word :=
  BitVec.ofNat 64 ((List.range 16).foldl (fun a i =>
    a + fmtNum ((c.v.toList)[i + (if hi then 16 else 0)]?.getD ⟨0, .none⟩).tag * 16 ^ i) 0)

/-- The LOANQ word of an entry (R214). -/
def Loan.word (l : Loan) : Word :=
  BitVec.ofNat 64 ((match l.state with | .free => 0 | .active => 1 | .ended => 2)
    + l.rw.toNat * 8 + l.lender.toNat * 2 ^ 8 + l.depth * 2 ^ 16
    + (match l.parent with | some p => p.val | none => 15) * 2 ^ 32 + l.holds * 2 ^ 48)

/-- A loan entry in 32 bytes (R315 fixes the size; DESIGN CHOICE: base, length, the LOANQ word, zero). -/
def Loan.bytes (l : Loan) : List Byte := bytesOfWord l.base ++ bytesOfNat 8 l.len ++ bytesOfWord l.word ++ zeros 8

/-- The entry that 32 bytes hold; one that is FREE holds its reset value (R210, R265). -/
def Loan.ofBytes (b : List Byte) : Loan :=
  let w : Word := BitVec.ofNat 64 (fieldAt b 16 8)
  if bitsOf w 1 0 = 0 ∨ bitsOf w 1 0 = 3 then Loan.empty
  else
  { state := if bitsOf w 1 0 = 1 then .active else .ended
    base := BitVec.ofNat 64 (fieldAt b 0 8)
    len := fieldAt b 8 8
    rw := bitOf w 3
    lender := BitVec.ofNat 8 (bitsOf w 15 8)
    depth := bitsOf w 24 16
    parent := if h : bitsOf w 35 32 < 8 then some ⟨bitsOf w 35 32, h⟩ else none
    holds := bitsOf w 63 48 }

/-- A gate frame in 16 bytes (R209). -/
def Frame.bytes (f : Frame) : List Byte := bytesOfWord f.ret ++ [f.caller] ++ zeros 7

/-- The frame that 16 bytes hold; bit 0 of an address is not stored (R11). -/
def Frame.ofBytes (b : List Byte) : Frame := ⟨BitVec.ofNat 64 (fieldAt b 0 8) &&& ~~~1, BitVec.ofNat 8 (fieldAt b 8 1)⟩

/-- The 50 CSRs of the image, in increasing number order (R315). -/
def Core.csrImage (c : Core) : List Word :=
  let k := c.csr
  [k.fcsr, k.vl, k.ccsel, k.lpc0, k.lps0, k.lpe0, k.lpc1, k.lps1, k.lpe1, k.tkmode, k.tbnd] ++ k.tc.toList ++
    [k.redmask, k.redtmo, k.mstat, k.xbar] ++ k.tkillv.toList ++
    [k.bargen, k.baradr, k.ttask, c.domain.zeroExtend 64, BitVec.ofNat 64 c.gdepth,
      k.tvec, k.tcause, k.tpc, k.tval, k.tring, k.tflags]

/-- The stored bits of TCn (R221). -/
def tcMask : Word := 0xFFFFFFFF001FFF3F

/-- A TCn as loaded: no tile holds the tag 15 (R74), which becomes NONE. -/
def tcStored (w : Word) : Word := if bitsOf w 19 16 = 15 then w &&& ~~~0xF0000 else w

/-- The stored bits of the 50 CSRs of the image: reserved ones read 0 (R9, R12). -/
def imageMasks : List Word :=
  let all : Word := BitVec.allOnes 64
  [0x1FF, all, 0x1F, 0xFFFFFFFF, ~~~1, ~~~1, 0xFFFFFFFF, ~~~1, ~~~1, 3, all] ++ List.replicate 8 tcMask ++
    [0xFFFFFFFF, 0xFFFFF, 7, ~~~0xE] ++ List.replicate 16 (~~~1) ++
    [0x1FFFFFFFF, all, 0xFFFFFFFF0000001F, 0xFF, 0x1FF, all, 0xFF, all, all, all, 0xFF03]

/-- The wake record of a wait (R313). -/
def wakeRecord (c : Core) : List Byte :=
  let rec_ (kind reg : Nat) (adr val : Word) : List Byte :=
    padTo 64 (bytesOfNat 1 kind ++ bytesOfNat 1 reg ++ zeros 6 ++ bytesOfWord adr ++ bytesOfWord val)
  match c.wait with
  | some .idle => rec_ 1 0 0 0
  | some (.barrier a _ _) => rec_ 2 0 a (BitVec.ofNat 64 (bitsOf c.csr.bargen 31 0))
  | some (.waita ge a v) => rec_ 3 ge.toNat a v
  | some .parked => rec_ 4 0 0 0
  | some .cvyJoin => rec_ 5 0 0 0
  | some (.tnext _ _ sl) => rec_ 6 0 0 (BitVec.ofNat 64 sl.val)
  | some (.cal b) => rec_ 7 0 b 0
  | some (.strongLoad _ d a) => rec_ 8 d.val a 0
  | _ => zeros 64

/-- An entry of the pending table: register, DONE, counter plus one, delivered word (R316). -/
structure Pend where
  reg : Nat
  done : Bool
  ctr : Nat
  word : Word
  deriving DecidableEq, Repr

def Pend.bytes (p : Pend) : List Byte :=
  bytesOfNat 1 p.reg ++ bytesOfNat 1 p.done.toNat ++ bytesOfNat 1 p.ctr ++ zeros 5 ++ bytesOfWord p.word

/-- The register an operation writes at its completion: its token, or a strong load's destination. -/
def Op.target (o : Op) : XReg :=
  match o.body with
  | .strong d _ _ _ _ _ => d
  | _ => o.tok

/-- Whether an operation's register is pending until it completes; a calender run's token is not (R295). -/
def Op.pends (o : Op) : Bool :=
  decide (o.target ≠ 0) && !o.discard && match o.body with | .cal _ => false | _ => true

/-- The pending table of an owner (R316): what has been delivered, then what is still to come. -/
def pendTable (c : Core) (ops : List Op) : List Pend :=
  (c.delivered.map fun e => ⟨e.1.val, true, 0, e.2⟩) ++
    ((ops.filter Op.pends).map fun o =>
      ⟨o.target.val, false, (match o.ctr with | some i => i.val + 1 | none => 0), 0⟩)

def convoyCode : Convoy → Nat
  | .left => 3
  | _ => 0

/-- The 12 KiB of a save area (R315). -/
def saveBytes (c : Core) (ops : List Op) : List Byte :=
  ((List.finRange 32).map fun r => bytesOfWord (c.rx r)).flatten ++ bytesOfWord c.pc ++
    bytesOfNat 8 ((List.finRange 8).foldl (fun a i => a + (c.rp i).toNat * 2 ^ i.val) 0
      + convoyCode c.convoy * 256 + c.wake.toNat * 65536) ++
    ((List.finRange 8).map fun r => bytesOfNat 4 (c.rk r).toNat).flatten ++
    bytesOfWord (c.vtags false) ++ bytesOfWord (c.vtags true) ++
    (c.v.toList.map fun r => bytesOfNat 32 r.bits.toNat).flatten ++
    padTo 512 ((c.csrImage.map bytesOfWord).flatten) ++
    padTo 256 ((c.gateHw.map Frame.bytes).flatten) ++
    ((c.loans.toList.map Loan.bytes).flatten) ++
    padTo 512 ((((pendTable c ops).take 32).map Pend.bytes).flatten) ++
    wakeRecord c ++
    (c.csr.cnt.toList.map fun n => bytesOfNat 8 n).flatten ++
    c.scales.read 0 512 ++ zeros 512 ++ c.tiles.read 0 8192

def vec8 {α : Type} (d : α) (l : List α) : Vector α 8 := Vector.ofFn fun i => l[i.val]?.getD d
def vec16 {α : Type} (d : α) (l : List α) : Vector α 16 := Vector.ofFn fun i => l[i.val]?.getD d
def vec32 {α : Type} (d : α) (l : List α) : Vector α 32 := Vector.ofFn fun i => l[i.val]?.getD d

/-- n consecutive fields of k bytes. -/
def fieldsAt (b : List Byte) (off k n : Nat) : List Nat := (List.range n).map fun i => fieldAt b (off + k * i) k

/-- The wait a resumed thread is still in (R313, R317): a parked member stays parked and a member of a calender run stays
in it; every other blocking instruction executes again. -/
def waitOfRecord (b : List Byte) : Option Wait :=
  match fieldAt b 0 1 with
  | 4 => some .parked
  | 7 => some (.cal (BitVec.ofNat 64 (fieldAt b 8 8)))
  | _ => none

/-- Exactly n frames of a spill area. -/
def framesOf (l : List Frame) (n : Nat) : List Frame := l.take n ++ List.replicate (n - l.length) ⟨0, 0⟩

/-- The program-mode state a save area's bytes hold, over a core whose spilled frames are the thread's, with the delivered words
of the pending table still beside the registers (R209, R315, R316). Of the bytes only stored bits are taken (R9, R11). DESIGN
CHOICE, where the bytes are none that a save wrote (log 46): a VL above 32 is 32 (R90), a GDEPTH above 256 is 256, a tag of 15 is
NONE (R74), and FCSR with RM 5 to 7 or TKMODE with 2 or 3 is taken as it stands; such an RM rounds as RNE does. -/
def areaCore (c : Core) (b : List Byte) : Core :=
  let csr := ((fieldsAt b 0x540 8 50).zip imageMasks).map fun e => (BitVec.ofNat 64 e.1 : Word) &&& e.2
  let g (i : Nat) : Word := csr[i]?.getD 0
  let flags := fieldAt b 0x108 8
  let tag (i : Nat) : Fmt := (fmtOf (fieldAt b 0x130 16 / 16 ^ i % 16)).getD .none
  let pend := (List.range 32).map fun i => ((b.drop (0x940 + 16 * i)).take 16)
  let done := pend.filter fun e => fieldAt e 0 1 != 0 && fieldAt e 1 1 % 2 == 1
  let open_ := pend.filter fun e => fieldAt e 0 1 != 0 && fieldAt e 1 1 % 2 == 0
  let depth := min (g 43).toNat 256
  let x0 : Vector Word 32 := vec32 0 ((fieldsAt b 0 8 32).map fun n => (BitVec.ofNat 64 n : Word))
  { c with
    x := x0
    pc := BitVec.ofNat 64 (fieldAt b 0x100 8) &&& ~~~1
    p := vec8 false ((List.range 8).map fun i => flags / 2 ^ i % 2 == 1)
    convoy := if flags / 256 % 4 = 3 then .left else .alone
    wake := flags / 65536 % 2 == 1
    k := vec8 0 ((fieldsAt b 0x110 4 8).map fun n => BitVec.ofNat 32 n)
    v := vec32 ⟨0, .none⟩ ((List.range 32).map fun i => ⟨BitVec.ofNat 256 (fieldAt b (0x140 + 32 * i) 32), tag i⟩)
    csr := { c.csr with
      fcsr := g 0, vl := if (g 1).toNat < 32 then g 1 else 32, ccsel := g 2, lpc0 := g 3, lps0 := g 4, lpe0 := g 5, lpc1 := g 6, lps1 := g 7
      lpe1 := g 8, tkmode := g 9, tbnd := g 10
      tc := vec8 0 (((csr.drop 11).take 8).map tcStored)
      redmask := g 19, redtmo := g 20, mstat := g 21, xbar := g 22
      tkillv := vec16 0 ((csr.drop 23).take 16)
      bargen := g 39, baradr := g 40, ttask := g 41
      tvec := g 44, tcause := g 45, tpc := g 46, tval := g 47, tring := g 48, tflags := g 49
      cnt := vec16 0 ((fieldsAt b 0xB80 8 16).map (· % 64)) }
    domain := BitVec.ofNat 8 (g 42).toNat
    gateHw := ((List.range 16).map fun i => Frame.ofBytes ((b.drop (0x740 + 16 * i)).take 16)).take depth
    gateSpill := framesOf c.gateSpill (depth - 16)
    loans := vec8 Loan.empty ((List.range 8).map fun i => Loan.ofBytes ((b.drop (0x840 + 32 * i)).take 32))
    scales := Memory.write [] 0 ((b.drop 0xC00).take 512)
    tiles := Memory.write [] 0 ((b.drop 0x1000).take 8192)
    pendX := open_.foldl (fun a e => a ||| (1#32 <<< fieldAt e 0 1)) 0
    delivered := done.map fun e => (Fin.ofNat 32 (fieldAt e 0 1), BitVec.ofNat 64 (fieldAt e 8 8)) }

/-- What has been delivered goes into the registers (R316). -/
def Core.takeDelivered (c : Core) : Core :=
  c.delivered.foldl (fun c e => c.wx e.1 e.2) { c with delivered := [] }

/-- The program-mode state that CTX.LOAD and a resume load (R316, R317, R352). -/
def loadBytes (c : Core) (b : List Byte) : Core := (areaCore c b).takeDelivered

/-- Whether data in a save area of 12 KiB is uncorrectable (R165). -/
def State.savePoisoned (s : State) (key : Nat) : Bool := s.poisoned key 12288

/-- The read of a save area corrects its single-bit errors (R165). -/
def State.correctArea (s : State) (key : Nat) : State := s.correct ((List.range 12288).map (key + ·))

/-- First page of the save area, as Deckle records it in DKCTX (R347). -/
def Core.saveBase (c : Core) : Nat := bitsOf c.csr.dkctx 5 0 * 4096

def State.opsOf (s : State) (o : Owner) : List Op := s.ops.filter fun p => p.owner == o

/-- Whose operations belong to the context of a save area: those of the core it has been loaded on, else of an owner. -/
def State.areaOwner (s : State) (key : Nat) (o : Owner) : Owner :=
  match (s.core :: s.others).find? fun k => k.inArea == some key with
  | some k => k.owner
  | none => o

/-- Writes a save area: its bytes, with the pending entries of the context's operations, and beside them the spilled frames that
Deckle keeps (R209, R315, R316). -/
def State.writeArea (s : State) (key : Nat) (c : Core) (o : Owner) : State :=
  { s.overwrite key (saveBytes c ((s.opsOf (s.areaOwner key o)).filter fun p => !p.apart)) with
    gateSpills := (key, c.gateSpill) :: s.gateSpills.filter fun e => e.1 != key }

/-- The spilled frames kept beside a save area. -/
def State.spilledAt (s : State) (key : Nat) : List Frame := ((s.gateSpills.find? fun e => e.1 == key).map (·.2)).getD []

/-- Writes an evicted thread's save area anew from its saved core. -/
def State.writeSaved (s : State) (t : Thread) (c : Core) : State :=
  s.writeArea (localKey t.home c.saveBase) c (.thread t.tid)

/-- The core state that a save area holds, over the core whose store it lies in. -/
def State.savedCore (s : State) (key : Nat) : Core :=
  areaCore { s.getCore (s.homeOf (.saved key)) with gateSpill := s.spilledAt key } (s.readMem key 12288)

/-- The evicted thread whose save area has this key. -/
def State.areaThread (s : State) (key : Nat) : Option (Thread × Core) :=
  s.threads.findSome? fun t =>
    match t.evicted with
    | some k => if !t.ended && !t.unstarted && localKey t.home k.saveBase == key then some (t, k) else none
    | none => none

/-- Whose operations belong to the context that lies in a save area while no core holds it. -/
def State.areaHolder (s : State) (key : Nat) : Owner :=
  match s.areaThread key with
  | some (t, _) => .thread t.tid
  | none => .saved key

/-- Replaces the saved core of an evicted thread. -/
def State.setSaved (s : State) (tid : Nat) (k : Core) : State :=
  { s with threads := modWhere (fun u => u.tid == tid) (fun u => { u with evicted := some k }) s.threads }

/-- Applies f to the context in a save area of the owner's operations; no area lies below the local stores. -/
def State.deliverArea (s : State) (key : Nat) (o : Owner) (f : Core → Core) : State :=
  if key < 2 ^ 52 then s
  else
    match s.areaThread key with
    | some (t, k) => (s.writeArea key (f k) o).setSaved t.tid (f k)
    | none => s.writeArea key (f (s.savedCore key)) o

/-- Applies f to the context on a core, and to its save area while that holds the same (R352). -/
def State.deliverCore (s : State) (c : Nat) (o : Owner) (f : Core → Core) : State :=
  let s1 := s.modCore c f
  match (s.getCore c).inArea with
  | some key => s1.deliverArea key o f
  | none => s1

/-- Applies f to the core state of an owner: on its core, or in its save area when it is evicted (R316). -/
def State.deliver (s : State) (o : Owner) (f : Core → Core) : State :=
  match o with
  | .bare c => s.deliverCore c o f
  | .saved key => s.deliverArea key o f
  | .thread tid =>
    match s.thread? tid with
    | none => s
    | some t =>
      if t.ended then s
      else
        match t.evicted with
        | none => s.deliverCore t.home o f
        | some img => (s.writeSaved t (f img)).setSaved tid (f img)

/-- The core that holds an owner's context. -/
def State.residence (s : State) : Owner → Option Nat
  | .bare c => some c
  | .saved _ => none
  | .thread tid => (s.thread? tid).bind fun t => if t.ended || t.evicted.isSome then none else some t.home

/-- Applies f for an operation: one that is no part of the context put away on its core reaches the core alone (R352). -/
def State.deliverOp (s : State) (o : Op) (f : Core → Core) : State :=
  match o.apart, s.residence o.owner with
  | true, some c => s.modCore c f
  | _, _ => s.deliver o.owner f

/-- Whether the owner is away from its core. -/
def State.isEvicted (s : State) : Owner → Bool
  | .bare _ => false
  | .saved _ => true
  | .thread tid => ((s.thread? tid).bind (·.evicted)).isSome

/-- The state of an owner's core, resident or saved. -/
def State.ownerCore (s : State) (o : Owner) : Core :=
  match o with
  | .bare c => s.getCore c
  | .saved key => s.savedCore key
  | .thread tid =>
    match s.thread? tid with
    | none => Core.reset 0
    | some t => t.evicted.getD (s.getCore t.home)

/-- A wake event at a core (R72, R318): every thread it holds, resident or saved, gets its latch set. -/
def State.setWake (s : State) (by_ : Origin) (c : Nat) : State :=
  let s1 := (s.modCore c fun k => { k with wake := true }).logExt (s.getCore c) by_ 4 0
  (s1.threads.filter fun t => t.home == c && t.evicted.isSome && !t.ended && !t.unstarted).foldl
    (fun u t => (u.deliver (.thread t.tid) fun k => { k with wake := true }).logExt (u.ownerCore (.thread t.tid)) by_ 4 0) s1

end Sys2Proof.Machine
end

