-- ==== Sys2Proof/Machine/Order.lean ====
section
/-! DEFINITION. The consistency model (R182 to R192): the writes performed and what each party may still miss of them.
Each write is performed at its home in one step and takes its place in the coherence order of its bytes; a weak load,
or an engine's access, may be performed before a write that nothing orders before it. -/
namespace Sys2Proof.Machine
open Sys2Proof

/-! ### Views -/

def View.at_ (v : View) (k : Nat) : Nat := lookupD v.locs k 0

/-- The higher stamp under each key of two lists. -/
def joinStamps (m l : List (Nat × Nat)) : List (Nat × Nat) :=
  l.foldl (fun m e => if lookupD m e.1 0 < e.2 then assign m e.1 e.2 else m) m

/-- Orders the bytes with these keys up to their stamps. -/
def View.add (v : View) (l : List (Nat × Nat)) : View := { v with locs := joinStamps v.locs l }

def View.join (a b : View) : View :=
  ⟨max a.base b.base, max a.level b.level, max a.all b.all, joinStamps a.locs b.locs, joinStamps a.land b.land⟩

/-- Whether a view orders a write before an access of the byte at k. -/
def View.covers (v : View) (e : Write) (k : Nat) : Bool :=
  decide (e.stamp ≤ v.all) || (e.src.route == .core && decide (e.stamp ≤ v.base)) || decide (e.stamp ≤ v.at_ k) ||
    (match e.vis with | some n => decide (n ≤ v.level) | none => false)

/-- A view that orders nothing. -/
def View.trivial (v : View) : Bool :=
  v.base == 0 && v.level == 0 && v.all == 0 && v.locs.isEmpty && v.land.isEmpty

/-- The bytes of a list that a write touched. -/
def Write.touched (e : Write) (ks : List Nat) : List Nat := ks.filter fun k => e.cells.any fun c => c.1 == k

/-- The writes to some of the bytes, latest first. -/
def State.writesTo (s : State) (ks : List Nat) : List Write := s.hist.filter fun e => !(e.touched ks).isEmpty

/-- A byte as it was before the listed writes, latest first. -/
def before (l : List Write) (now : Byte) (k : Nat) : Byte :=
  l.foldl (fun b e => ((e.cells.find? fun c => c.1 == k).map (·.2)).getD b) now

/-- The parties a scope reaches from one party (R187): of the parties inside the module. -/
def State.inScope (s : State) (sc : Scope) (a b : Owner) : Bool :=
  let team : Owner → Option Nat
    | .thread t => (s.thread? t).map (·.team)
    | _ => none
  match sc with
  | .core => a == b
  | .team => a == b || (team a != none && team a == team b)
  | .dev | .sys => true

/-- Whether an acquire of a party at a scope synchronises with a release that it reads (R188). -/
def State.takes (s : State) (sc : Scope) (me : Owner) (r : Release) : Bool :=
  s.inScope r.scope r.who me && s.inScope sc r.who me

/-- What an acquire of a party at a scope takes from the releases it reads (R188). -/
def State.acquired (s : State) (sc : Scope) (me : Owner) (msg : List Release) : View :=
  (msg.filter (s.takes sc me)).foldl (fun v r => v.join r.view) View.empty

/-! ### Performing a write -/

/-- Performs a write to plain memory at its home: it is now the last write of its bytes. -/
def State.perform (s : State) (src : Source) (ks : List Nat) (data : List Byte) : State :=
  { s with
    mem := (ks.zip data).foldl (fun m e => m.set e.1 e.2) s.mem
    hist := ⟨s.stamp + 1, s.clock, src, if src.strong then some (s.stamp + 1) else none, ks.map fun k => (k, s.mem.get k)⟩ :: s.hist
    stamp := s.stamp + 1 }

/-- Inserts a write of one byte beneath the first n writes to it, which keep their values. -/
def insertUnder : List Write → Nat → Nat → Byte → List Write
  | [], _, _, _ => []
  | e :: t, 0, _, _ => e :: t
  | e :: t, n + 1, k, b =>
    if e.cells.any fun c => c.1 == k then
      if n = 0 then { e with cells := e.cells.map fun c => if c.1 == k then (k, b) else c } :: t
      else e :: insertUnder t n k b
    else e :: insertUnder t (n + 1) k b

/-- Where in the list the writes begin that come before the first n of those that touch the bytes. -/
def placeUnder (ks : List Nat) : List Write → Nat → Nat
  | _, 0 => 0
  | [], _ => 0
  | e :: t, n + 1 => 1 + placeUnder ks t (if (e.touched ks).isEmpty then n + 1 else n)

/-- Performs a write in coherence order before the first n of the writes that touch its bytes (R192): a byte that one of
them wrote too keeps its value, another takes the new one. -/
def State.performUnder (s : State) (src : Source) (n : Nat) (l : List (Nat × Byte)) : State :=
  let ks := l.map (·.1)
  let newer := (s.writesTo ks).take n
  let depth (k : Nat) : Nat := (newer.filter fun e => !(e.touched [k]).isEmpty).length
  let old (k : Nat) : Byte := before newer (s.mem.get k) k
  let hist := l.foldl (fun h e => insertUnder h (depth e.1) e.1 e.2) s.hist
  let at_ := placeUnder ks s.hist n
  { s with
    mem := l.foldl (fun m e => if depth e.1 = 0 then m.set e.1 e.2 else m) s.mem
    hist := hist.take at_ ++ ⟨s.stamp + 1, s.clock, src, none, ks.map fun k => (k, old k)⟩ :: hist.drop at_
    stamp := s.stamp + 1 }

/-! ### Engine accesses (R184, R191, R192) -/

/-- The path of an engine operation. -/
def Op.route (o : Op) : Route :=
  match o.body with
  | .matrix _ _ _ _ => .matrix
  | .bte _ _ _ _ _ => .bte
  | _ => .copy

def Op.source (o : Op) : Source := ⟨o.route, some o.owner, o.id, [], false⟩

/-- Whether a write is one that the operation's engine has performed before it: its own, or of an earlier matrix job of its
core (R217). -/
def Op.follows (o : Op) (e : Write) : Bool :=
  e.src.route == o.route && (e.src.num == o.id || (o.route == .matrix && e.src.who == some o.owner))

/-- Whether an operation may be performed before a write: nothing in its engine, and no view, orders it before one of the
bytes. -/
def Op.misses (o : Op) (v : View) (ks : List Nat) (e : Write) : Bool :=
  !o.follows e && (e.touched ks).all fun k => !v.covers e k

/-- Draws how many of n writes, the latest first, an access is performed before. -/
def State.choose (s : State) (n : Nat) : State × Nat :=
  if n = 0 then (s, 0)
  else
    let (s1, i) := s.draw
    (s1, Config.freeNat i % (n + 1))

/-- The aligned 8-byte units of a list of keys (R192). -/
def unitsOf (ks : List Nat) : List Nat := (ks.map (· / 8)).eraseDups

/-- Whether some write to one of the units of the bytes is one that the operation may be performed before. -/
def State.unseen (s : State) (o : Op) (v : View) (ks : List Nat) : Bool :=
  s.hist.any fun e => (unitsOf ks).any fun q =>
    let us := ks.filter fun k => k / 8 == q
    !(e.touched us).isEmpty && o.misses v us e

/-- The last of the given writes to each of the bytes. -/
def lastWrites (l : List Write) (ks : List Nat) : List (Nat × Write) :=
  ks.filterMap fun k => (l.find? fun e => !(e.touched [k]).isEmpty).map fun e => (k, e)

/-- The issuer's resident core notes what its operation has read: the last of the given writes to each byte (R181). A thread that is
away comes after every write when it resumes. -/
def State.noteEngineRead (s : State) (o : Op) (l : List Write) (ks : List Nat) : State :=
  let new := (lastWrites l ks).map fun e => (o.route, e.2.src.route, e.1, e.2.stamp)
  let add (k : Core) : Core := { k with views := { k.views with reads := new ++ k.views.reads.filter fun e => !new.contains e } }
  if new.isEmpty then s
  else
    match o.owner with
    | .bare c => s.modCore c add
    | .thread t =>
      match s.thread? t with
      | some t => if t.evicted.isSome || t.ended then s else s.modCore t.home add
      | none => s
    | .saved _ => s

/-- The bytes of plain memory an engine reads: in each unit, those of a state before some of the writes that nothing
orders before the operation. -/
def State.engineBytes (s : State) (o : Op) (ks : List Nat) : State × List Byte :=
  if !s.unseen o o.fenced.rd ks then (s.noteEngineRead o (s.writesTo ks) ks, ks.map s.mem.get)
  else
    let (s1, l) := (unitsOf ks).foldl (fun (acc : State × List (Nat × List Write)) q =>
      let us := ks.filter fun k => k / 8 == q
      let w := acc.1.writesTo us
      let (u, n) := acc.1.choose (w.takeWhile (o.misses o.fenced.rd us)).length
      (u.noteEngineRead o (w.drop n) us, acc.2 ++ [(q, w.take n)])) (s, [])
    (s1, ks.map fun k => before (((l.find? fun e => e.1 == k / 8).map (·.2)).getD []) (s.mem.get k) k)

/-- What an operation's writes follow: what is ordered before them, and the writes of operations whose completion comes before
its issue (R192). -/
def Fenced.landing (f : Fenced) : View := f.wr.add f.wr.land

/-- An engine's write to plain memory: in each unit it takes its place among the writes that nothing orders (R192). -/
def State.landPlain (s : State) (o : Op) (ks : List Nat) (data : List Byte) : State :=
  let v := o.fenced.landing
  if !s.unseen o v ks then s.perform o.source ks data
  else
    (unitsOf ks).foldl (fun (u : State) q =>
      let l := (ks.zip data).filter fun e => e.1 / 8 == q
      let us := l.map (·.1)
      let (u1, n) := u.choose ((u.writesTo us).takeWhile (o.misses v us)).length
      u1.performUnder o.source n l) s

/-- An operation whose accesses in the given ranges, with their keys, are at hand: those on an SO page are performed at their home,
after every write performed there (R183, R185). -/
def State.homeFor (s : State) (o : Op) (rs : List (Word × Nat)) (kss : List (List Nat)) : Op :=
  let so (a : Word) : Bool := regionOf a.toNat == .global && !o.rights.monitor &&
    match s.leafFor (s.homeOf o.owner) o.rights.cid a.toNat with
    | .ok (e, _) => leafKind e == 0
    | .error _ => false
  let home := ((rs.zip kss).map fun e => (e.2.zipIdx.filter fun k => so (e.1.1 + BitVec.ofNat 64 k.2)).map fun k => (hostKey k.1, s.stamp)).flatten
  if home.isEmpty then o else { o with fenced := ⟨o.fenced.rd.add home, o.fenced.wr.add home⟩ }

/-- The writes an operation has performed, as its issuer comes to know them (R191). -/
def State.writesOf (s : State) (o : Op) : List (Route × Nat × Nat) :=
  ((s.hist.filter fun e => e.src.route == o.route && e.src.num == o.id).map fun e =>
    e.cells.map fun c => (o.route, c.1, e.stamp)).flatten

/-! ### A core's accesses on path C (R184, R185, R188, R190) -/

/-- Whether the core in focus may perform a weak load before a write: on a UN page any that is not ordered before the
load, on the others one of an engine or from outside that the core has not seen either. -/
def Core.misses (c : Core) (un : Bool) (ks : List Nat) (e : Write) : Bool :=
  (un || e.src.route != .core) &&
    (e.touched ks).all fun k =>
      !c.views.ordered.covers e k && !(c.views.own.any fun w => w.2.1 == k && e.stamp ≤ w.2.2 && w.1 == e.src.route) &&
        (un || !c.views.seen.covers e k)

/-- How many of the latest writes to the bytes a weak load is performed before. -/
def State.chooseLoad (s : State) (un : Bool) (ks : List Nat) : State × Nat :=
  s.choose ((s.writesTo ks).takeWhile (s.core.misses un ks)).length

/-- A read by a party makes the weak stores of others that it read visible to all from now on (R189). -/
def State.reveal (s : State) (me : Owner) (l : List Write) (ks : List Nat) : State :=
  let hidden (e : Write) : Bool := e.src.route == .core && e.vis.isNone && e.src.who != some me
  let read := ((lastWrites l ks).filter fun e => hidden e.2).map fun e => e.2.stamp
  if read.isEmpty then s
  else { s with hist := s.hist.map fun e => if read.contains e.stamp then { e with vis := some s.stamp } else e }

/-- Notes what a load has read, n writes having been performed: the last of the given writes to each of its bytes, the instant
at which it was visible to all, of every source from outside the latest, and the releases among them. -/
def Core.noteRead (c : Core) (un : Bool) (l : List Write) (ks : List Nat) (msg : List Release) (n : Nat) : Core :=
  let read := lastWrites l ks
  let last := read.filter fun e => un || l.any fun w => w.src.route != .core && !(w.touched [e.1]).isEmpty
  let level := (read.filter fun e => e.2.src.route == .core).foldl (fun m e =>
    match e.2.vis with
    | some i => max m i
    | none => if e.2.src.who == some c.owner then m else n) 0
  if read.isEmpty && msg.isEmpty then c
  else
    let ins := (l.filter fun e => e.src.route == .inbound).map fun e => (e.src.num, e.stamp)
    { c with views := { c.views with
      seen := { c.views.seen.add (last.map fun e => (e.1, e.2.stamp)) with level := max c.views.seen.level level }
      acq := msg ++ c.views.acq
      inbound := joinStamps c.views.inbound ins } }

/-- A strong access, or a FENCE on path C, orders the core's earlier accesses before its later ones (R190). -/
def Core.orderSeen (c : Core) : Core :=
  if c.views.seen.trivial && c.views.late.isEmpty then c
  else { c with views := { c.views with ordered := c.views.ordered.join c.views.seen, seen := View.empty, late := [] } }

def Core.orderView (c : Core) (v : View) : Core :=
  if v.trivial then c else { c with views := { c.views with ordered := c.views.ordered.join v } }

/-- All that a core has read, written or acquired: what its releases carry (R188). -/
def Core.view (c : Core) : View := c.views.ordered.join c.views.seen

/-- What a release of the core carries (R188). -/
def Core.releases (c : Core) (sc : Scope) : List Release :=
  let v := c.view
  if v.trivial then c.views.rel else ⟨v, sc, c.owner⟩ :: c.views.rel

/-- Adds a release to a list of them: the one of its party and scope grows. -/
def addRelease (r : Release) (l : List Release) : List Release :=
  match l.find? fun q => q.scope == r.scope && q.who == r.who with
  | some q => { r with view := q.view.join r.view } :: l.erase q
  | none => r :: l

/-- The releases a write carries when it follows others in an unbroken run of atomics (R188): its own, and all that the writes
before it carry. -/
def State.chained (s : State) (ks : List Nat) (msg : List Release) : List Release :=
  (((s.writesTo ks).head?.map (·.src.msg)).getD []).foldl (fun l r => addRelease r l) msg

/-- The core's earlier loads have their values for good: a step that others' accesses follow (R146, R161, R284). -/
def Core.settleLoads (c : Core) : Core :=
  if c.views.late.isEmpty then c else { c with views := { c.views with late := [] } }

def Fenced.join (f : Fenced) (v : View) : Fenced := ⟨f.rd.join v, f.wr.join v⟩

/-- Orders a view before the later accesses of the core and of the operations it issues, on every path (R291, R301). -/
def Core.orderPaths (c : Core) (v : View) : Core :=
  let k := c.orderSeen
  { k with views := { k.views with
    ordered := k.views.ordered.join v
    copy := k.views.copy.join v, matrix := k.views.matrix.join v, bte := k.views.bte.join v } }

/-! ### Completion and FENCE (R181, R191) -/

/-- A completed operation is observed by a read of its token, or by CWAIT: its writes are visible to the issuer. -/
def Core.observe (c : Core) (p : XReg × Option (Fin 16) × List (Route × Nat × Nat) → Bool) : Core :=
  let l := ((c.views.fresh.filter p).map (·.2.2)).flatten
  if c.views.fresh.any p then
    { c with views := { c.views with
      own := l ++ c.views.own
      ordered := { c.views.ordered with land := joinStamps c.views.ordered.land (l.map (·.2)) }
      fresh := c.views.fresh.filter fun e => !p e } }
  else c

/-- The writes of the core's completed operations are ordered before its later accesses, as if each completion had been
observed (R213). -/
def State.observeDone (s : State) : State :=
  let mine := s.hist.filter fun e =>
    e.src.route != .core && e.src.who == some s.core.owner && !s.ops.any fun o => o.id == e.src.num
  let l := (mine.map fun e => e.cells.map fun x => (x.1, e.stamp)).flatten
  let c := (s.core.observe fun _ => true).orderSeen
  { s with core := if l.isEmpty then c else c.orderView (View.empty.add l) }

/-- Notes an operation that completes, until its completion is observed. -/
def Core.noteDone (c : Core) (tok : XReg) (ctr : Option (Fin 16)) (l : List (Route × Nat × Nat)) : Core :=
  if l.isEmpty then c else { c with views := { c.views with fresh := c.views.fresh ++ [(tok, ctr, l)] } }

def namesRoute (q : Paths) : Route → Bool
  | .core => q.c
  | .copy => q.x
  | .matrix => q.m
  | .bte => q.b
  | .inbound => q.h

/-- The writes a FENCE finds performed on the engine paths it names, of the core's own operations, and the inbound ones
the core has observed on path H, with those of their source before them (R181, R191). -/
def State.fenceWrites (s : State) (q : Paths) : List (Route × Nat × Nat) :=
  let c := s.core
  ((s.hist.filter fun e =>
    match e.src.route with
    | .core => false
    | .inbound => q.h && decide (e.stamp ≤ lookupD c.views.inbound e.src.num 0)
    | r => namesRoute q r && e.src.who == some c.owner).map fun e => e.cells.map fun x => (e.src.route, x.1, e.stamp)).flatten

/-- What the core's operations on the engine paths a FENCE names have read: of the last write read at each byte its path, key and
stamp (R181, R191). -/
def Core.fenceReads (c : Core) (q : Paths) : List (Route × Nat × Nat) :=
  (c.views.reads.filter fun e => namesRoute q e.1).map (·.2)

/-- What a FENCE that retires orders (R180, R181, R185): writes, and what loads of the engine paths have read. What it orders of the
other paths is for the parties of its scope: the core itself sees it, and a release hands it on at that scope alone (R187). A release
that a load has read and whose party its scope leaves out waits for a later FENCE. -/
def State.fenceViews (s : State) (kind : FenceKind) (sc : Scope) (q : Paths) : State :=
  let reads := s.core.fenceReads q
  let all := s.fenceWrites q ++ reads
  let l := all.map (·.2)
  let c0 := if q.c then s.core.orderSeen else s.core
  let v0 := c0.views
  let loads := if kind = .acquire then (s.fenceWrites q).filter (fun e => e.1 == .inbound) ++ reads else all
  let ordered := if q.c ∧ kind ≠ .release then v0.ordered.join (s.acquired sc c0.owner v0.acq) else v0.ordered
  let out : View := if kind = .acquire then View.empty.add (loads.map (·.2)) else v0.ordered.add l
  let eng (f : Fenced) : Fenced :=
    let v : View := if q.c then { v0.ordered.add l with base := s.stamp } else View.empty.add l
    match kind with
    | .release => ⟨f.rd, f.wr.join v⟩
    | _ => f.join v
  { s with core := { c0 with views := { v0 with
    ordered := ordered
    own := if q.c ∧ kind ≠ .release then loads ++ v0.own else v0.own
    rel := if q.c ∧ !out.trivial then addRelease ⟨out, sc, c0.owner⟩ v0.rel else v0.rel
    acq := if q.c ∧ kind ≠ .release then v0.acq.filter (fun r => !s.takes sc c0.owner r) else v0.acq
    copy := if q.x then eng v0.copy else v0.copy
    matrix := if q.m then eng v0.matrix else v0.matrix
    bte := if q.b then eng v0.bte else v0.bte } } }

/-- What an operation issued now follows on its path: the last FENCE on it, and the operations whose completion the core
has observed (R191, R192). -/
def Core.fencedFor (c : Core) (cls : Nat) : Fenced :=
  let f : Fenced := match cls with
    | 1 => c.views.matrix
    | 2 => c.views.copy
    | 3 => c.views.bte
    | _ => ⟨View.empty, View.empty⟩
  let own := c.views.own.map fun e => (e.2.1, e.2.2)
  let land := c.views.ordered.land
  if own.isEmpty && land.isEmpty then f
  else ⟨f.rd.add own, { f.wr.add own with land := joinStamps f.wr.land land }⟩

end Sys2Proof.Machine
end

