-- ==== Sys2Proof/Machine/RegWindow.lean ====
section
/-! DEFINITION. The module register window (R171): queue blocks (R329, R330, R337), the notify aperture (R342), debug
blocks (R350), SCRUBPROG (R363) and GOVSTAT (R371); and one byte read or written wherever it lies. -/
namespace Sys2Proof.Machine
open Sys2Proof

/-- A queue block after reset (R329). -/
def Queue.reset (q : Nat) : Queue := ⟨q, 0, 0, 0, 0, 0, 0, 0, 0, 0, false, [], [], none⟩

def State.queue (s : State) (q : Nat) : Queue := (s.queues.find? fun k => k.q == q).getD (Queue.reset q)

def State.putQueue (s : State) (k : Queue) : State :=
  { s with queues := k :: s.queues.filter fun j => j.q != k.q }

def State.modQueue (s : State) (q : Nat) (f : Queue → Queue) : State := s.putQueue (f (s.queue q))

def Queue.enabled (k : Queue) : Bool := bitOf k.ctl 0
def Queue.cid (k : Queue) : Nat := bitsOf k.ctl 63 52
def Queue.log2n (k : Queue) : Nat := bitsOf k.ctl 43 40
def Queue.ahead? (k : Queue) : Bool := bitsOf k.ctl 2 1 == 1

/-- The rights of the Headbox's accesses: domain 255 of the context, in the global space only (R330). -/
def headboxRights (cid : Nat) : Rights :=
  ⟨.bare 0, cid, 255, Vector.replicate 8 Loan.empty, [], none, 0, 0, false⟩

/-- Checks a Headbox access of n bytes (R330, R375): an address below the global space fails as LOCAL. -/
def State.headboxKeys (s : State) (cid : Nat) (need : Need) (a : Word) (n : Nat) : Except (Cause × Word) (List Nat) :=
  if a.toNat < 0x110000000 then .error (.loc, a)
  else
    match s.resolveAll (headboxRights cid) need a n with
    | .error e => .error e
    | .ok ks => if needReads need && ks.any fun k => s.poisoned k 1 then .error (.poison, a) else .ok ks

/-- Adds to a list of overwritten code bytes what the listed keys hold, unless an older byte is known there. DESIGN CHOICE (logs
27, 28): of several stores to a byte with no emptying event between, 'old' is the byte before the first of them; R22 and R23 do not
say whether one in between may be fetched. -/
def keepOld (m : Memory) (ks : List Nat) (old : List Host.Cell) : List Host.Cell :=
  (ks.filter fun k => !old.any fun e => e.1 == k).map (fun k => (k, m.get k)) ++ old

/-- Before global bytes change: a core may go on fetching each as it was (R23). -/
def State.keepCode (s : State) (ks : List Nat) : State :=
  let glob := ks.filter fun k => decide (k < 2 ^ 52)
  if glob = [] then s
  else
    { s with
      core := { s.core with icache := keepOld s.mem glob s.core.icache }
      others := s.others.map fun c => { c with icache := keepOld s.mem glob c.icache } }

/-- Who writes, as the replay log names it (R322). -/
def State.originOf (s : State) (src : Source) : Origin :=
  match src.route, src.who with
  | .core, some o => .core (s.homeOf o)
  | .core, none => .module
  | .inbound, _ => .inbound src.num
  | r, _ => .engine r src.num

/-- Logs a write by another party to the own local store of each core whose context is logged (R322). -/
def State.logStores (s : State) (src : Source) (l : List Host.Cell) : State :=
  if !s.logs then s
  else
    let homes := ((l.filter fun e => decide (2 ^ 52 ≤ e.1)).map fun e => (e.1 - 2 ^ 52) / 2 ^ 18).eraseDups
    homes.foldl (fun (u : State) c =>
      if s.originOf src = .core c then u
      else
        u.logFrom (s.getCore c) (s.originOf src) 2 0
          (l.filter fun e => decide (2 ^ 52 ≤ e.1) && (e.1 - 2 ^ 52) / 2 ^ 18 == c)) s

/-- Writes bytes to plain memory at their keys. -/
def State.storeKeys (s : State) (src : Source) (l : List Nat) (data : List Byte) : State :=
  let ks := l.map hostKey
  ((s.logStores src (ks.zip data)).keepCode ks).perform src ks data

/-- An engine operation writes bytes to plain memory at their keys. -/
def State.landKeys (s : State) (o : Op) (l : List Nat) (data : List Byte) : State :=
  let ks := l.map hostKey
  ((s.logStores o.source (ks.zip data)).keepCode ks).landPlain o ks data

/-- The source of a write of the module itself: a page-table entry, a record, a word of the Headbox. -/
def Source.module : Source := ⟨.core, none, 0, [], true⟩

/-- The module as a party of releases: no core has this number. -/
def Owner.module : Owner := .bare numCores

/-- The source of a write of the module that is a strong release at a scope (R308, R336, R337, R339): it hands on every write
performed on path C. -/
def State.moduleRelease (s : State) (sc : Scope) : Source :=
  { Source.module with msg := [⟨{ View.empty with base := s.stamp, level := s.stamp }, sc, Owner.module⟩] }

/-- Some bytes become free values. -/
def State.freeBytes (s : State) (l : List Nat) : State :=
  { s with
    freeCount := s.freeCount + l.length
    mem := l.zipIdx.foldl (fun m e => m.set e.1 (BitVec.ofNat 8 (Config.freeWord (s.freeCount + e.2)).toNat)) s.mem }

/-- The listed bytes whose addresses p picks become free values: what memory shows without its key slot (R355), and after a
module reset (R373). -/
def State.scramble (s : State) (p : Nat → Bool) : State := s.freeBytes ((s.mem.filter fun e => p e.1).map (·.1))

/-- Puts a queue in ERROR (R332, R375). -/
def State.queueError (s : State) (q reason : Nat) : State :=
  s.modQueue q fun k => { k with state := 3, reason := reason }

/-- The fields of QCTL that a write sets; PRIV is the security core's (R330). -/
def qctlMask (k : Queue) (v : Word) : Word :=
  (v &&& 0xFFF00F0000000007) ||| (if k.priv then 8 else 0)

/-- Clearing EN: the fetcher takes no more packets; the queue is OFF (R330, R337). -/
def State.queueDisable (s : State) (q : Nat) (v : Word) : State :=
  s.modQueue q fun k => { k with ctl := qctlMask k v, state := 0, ahead := [] }

/-- Setting EN (R330), but for the first write of DONE: refused with REASON 1 on a bad LOG2N or MODE, else counts restart.
Packets taken before run on outside the new count; one whose access failed goes no further. -/
def State.queueStart (s : State) (q : Nat) (v : Word) : State :=
  let k := s.queue q
  let c := qctlMask k v
  if bitsOf c 43 40 < 2 ∨ bitsOf c 2 1 > 1 ∨ (bitsOf c 2 1 = 1 ∧ !k.priv) then
    s.putQueue { k with state := 0, reason := 1 }
  else
    s.putQueue { k with
      ctl := c, head := 0, tail := 0, done := (k.seq + 2 ^ 32 - 1) % 2 ^ 32, state := 1, reason := 0
      ahead := [], latch := none
      taken := (k.taken.filter fun p => !p.failed).map fun p => { p with counted := false } }

/-- A write to QCTL (R330); en sets EN. -/
def State.qctlWrite (en : State → Nat → Word → State) (s : State) (q : Nat) (v : Word) : State :=
  let k := s.queue q
  if k.enabled then (if bitOf v 0 then s else s.queueDisable q v)
  else if bitOf v 0 then en s q v
  else s.putQueue { k with ctl := qctlMask k v }

/-- An image other than Deckle's is being exchanged: its parts stall, and tail writes latch (R358). -/
def State.exchanging (s : State) : Bool := match s.sec.window with | some (p, _) => p != .deckle | none => false

/-- A write to QTAIL (R329, R330, R341, R358): dropped while EN is 0, latched during a restart or an exchange. -/
def State.qtailWrite (s : State) (q : Nat) (v : Word) : State :=
  s.modQueue q fun k =>
    if !k.enabled then k
    else if s.restarting || s.exchanging then { k with latch := some (bitsOf v 31 0) }
    else { k with tail := bitsOf v 31 0 }

/-- The latched tails take effect: after a restart, and as an exchange of images ends (R341, R358). -/
def State.releaseLatches (s : State) : State :=
  { s with queues := s.queues.map fun k =>
      match k.latch with
      | some t => { k with tail := t, latch := none }
      | none => k }

/-- A write to a register of a queue block (R329, R330). -/
def State.queueWrite (en : State → Nat → Word → State) (s : State) (q off : Nat) (v : Word) : State :=
  match off with
  | 0 => s.modQueue q fun k => if k.enabled then k else { k with base := v &&& 0xFFFFFFFFFFFFFF80 }
  | 8 => s.qctlWrite en q v
  | 16 => s.modQueue q fun k => if k.enabled then k else { k with seq := bitsOf v 31 0 }
  | 24 => s.qtailWrite q v
  | 40 => s.modQueue q fun k => if k.enabled then k else { k with donea := v }
  | _ => s

/-- A read of a register of a queue block (R329). -/
def Queue.readReg (k : Queue) (off : Nat) : Word :=
  match off with
  | 0 => k.base
  | 8 => k.ctl
  | 16 => BitVec.ofNat 64 k.seq
  | 32 => BitVec.ofNat 64 k.head
  | 40 => k.donea
  | 48 => BitVec.ofNat 64 (k.done * 2 ^ 32 + k.reason * 256 + k.state)
  | _ => 0

/-- Whether the core's debug block answers: the policies of the protected contexts of which it holds a thread, resident or
saved, must permit debugging (R350). -/
def State.debugAllowed (s : State) (c : Nat) : Bool :=
  ((s.getCore c).cid :: (s.threads.filter fun t => t.home == c && !t.ended).map (·.cid)).all fun x =>
    !(s.ctx x).protect || (s.ctx x).policy.debug

/-- Resumes a halted core; WHIT still tells of its last halt (R350). -/
def State.debugRun (s : State) (c : Nat) : State :=
  s.modCore c fun k => { k with dbg := { k.dbg with dctl := 0, halted := false, stable := false } }

/-- Whether the core's current instruction has done part of its work and has not retired: it waits, or its home has its request. -/
def Core.midway (k : Core) : Bool := k.wait.isSome || k.request.isSome

/-- Halts a core after its current instruction (R321): a plain halt is stable once that has retired. -/
def State.debugHalt (s : State) (c : Nat) (quiesce : Bool) : State :=
  s.modCore c fun k =>
    { k with dbg := { k.dbg with
      dctl := if quiesce then 2 else 1, halted := true, stable := !quiesce && !k.midway, whit := false } }

/-- A write to a debug block (R350). -/
def State.debugWrite (s : State) (c off : Nat) (v : Word) : State :=
  if !s.debugAllowed c then s
  else if off = 0 then
    match bitsOf v 1 0 with
    | 0 => s.debugRun c
    | 1 => s.debugHalt c false
    | 2 => s.debugHalt c true
    | _ => s
  else if 32 ≤ off ∧ off < 96 then
    let w : Fin 4 := Fin.ofNat 4 ((off - 32) / 16)
    s.modCore c fun k =>
      if off % 16 = 0 then { k with dbg := { k.dbg with wbase := k.dbg.wbase.set w v } }
      else { k with dbg := { k.dbg with wctl := k.dbg.wctl.set w (v &&& 0xFFF000000000933F) } }
  else s

/-- A read of a debug block (R350). -/
def State.debugRead (s : State) (c off : Nat) : Word :=
  let k := s.getCore c
  let d := k.dbg
  if !s.debugAllowed c then 0
  else if off = 0 then d.dctl
  else if off = 8 then
    BitVec.ofNat 64 (d.halted.toNat + d.stable.toNat * 2 + d.whit.toNat * 4 + d.wnum.val * 16)
  else if off = 16 then (if d.halted then k.pc else 0)
  else if 32 ≤ off ∧ off < 96 then
    let w : Fin 4 := Fin.ofNat 4 ((off - 32) / 16)
    if off % 16 = 0 then d.wbase.get w else d.wctl.get w
  else 0

/-- A write to a core's notify word (R342): to the always-on latch while its field is gated. -/
def State.notify (s : State) (by_ : Origin) (c : Nat) : State :=
  if s.gated.contains (fieldOf c) then
    { s with gatedWrites := if s.gatedWrites.contains c then s.gatedWrites else s.gatedWrites ++ [c] }
  else s.setWake by_ c

/-- SCRUBPROG (R363). -/
def Security.scrubprog (x : Security) : Word :=
  BitVec.ofNat 64 (x.scrubTotal * 2 ^ 36 + x.scrubDone * 2 ^ 8 + x.scrubActive.toNat)

/-- GOVSTAT (R371): class n at bits [4n+3:4n]. -/
def State.govstat (s : State) : Word :=
  BitVec.ofNat 64 (s.throttle.toList.foldr (fun t a => t.val + 16 * a) 0)

/-- An 8-byte register of the window read at its offset. -/
def State.regRead (s : State) (off : Nat) : Word :=
  if off < 0x10000 then (s.queue (off / 64)).readReg (off % 64)
  else if off = 0x800000 then s.sec.scrubprog
  else if off = 0x800008 then s.govstat
  else if 0x10000000 ≤ off ∧ off < 0x10800000 then 0
  else if 0x20000000 ≤ off ∧ off < 0x28000000 then s.debugRead ((off - 0x20000000) / 128) (off % 128)
  else Config.unassignedRegister off

/-- An 8-byte register of the window written at its offset (R329, R342, R350); RO registers drop the write (R9). -/
def State.regWriteBy (en : State → Nat → Word → State) (by_ : Origin) (s : State) (off : Nat) (v : Word) : State :=
  if off < 0x10000 then s.queueWrite en (off / 64) (off % 64) v
  else if 0x10000000 ≤ off ∧ off < 0x10800000 then s.notify by_ ((off - 0x10000000) / 8)
  else if 0x20000000 ≤ off ∧ off < 0x28000000 then s.debugWrite ((off - 0x20000000) / 128) (off % 128) v
  else s

/-- The byte at a key, of memory or of a register. -/
def State.readKey (s : State) (k : Nat) : Byte :=
  if inRegs k then
    let off := k - 0x10000000000
    BitVec.ofNat 8 ((s.regRead (off / 8 * 8)).toNat / 256 ^ (off % 8))
  else s.mem.get (hostKey k)

def State.readKeys (s : State) (ks : List Nat) : List Byte := ks.map s.readKey

/-- Writes one register of the window from the bytes a list of keys gives it, its other bytes kept. -/
def State.writeRegister (en : State → Nat → Word → State) (by_ : Origin) (s : State) (l : List (Nat × Byte)) (reg : Nat) : State :=
  let old := bytesOfWord (s.regRead reg)
  let byte (i : Nat) : Byte :=
    match l.find? fun e => e.1 == 0x10000000000 + reg + i with
    | some e => e.2
    | none => old[i]?.getD 0
  s.regWriteBy en by_ reg (wordOfBytes ((List.range 8).map byte))

/-- Writes bytes at their keys: put writes those of plain memory; each register they touch is written once. -/
def State.writeKeysWith (en : State → Nat → Word → State) (by_ : Origin) (put : State → List Nat → List Byte → State) (s : State)
    (ks : List Nat) (data : List Byte) : State :=
  if ks.all fun k => !inRegs k then put s ks data
  else
    let l := ks.zip data
    let regs := l.filter fun e => inRegs e.1
    let mem := l.filter fun e => !inRegs e.1
    let offs := (regs.map fun e => (e.1 - 0x10000000000) / 8 * 8).eraseDups
    offs.foldl (fun u reg => u.writeRegister en by_ regs reg) (put s (mem.map (·.1)) (mem.map (·.2)))

/-- Writes DONE to QDONEA in a context's space (R337); a failure puts the queue in ERROR with REASON 4 (R375). A queue that such
a write itself enables starts without its own first write of DONE. -/
def State.writeDone (s : State) (q cid : Nat) : State :=
  let k := s.queue q
  if k.donea = 0 then s
  else
    match s.headboxKeys cid .store k.donea 8 with
    | .error e => (s.logEvent q 2 e.2).queueError q 4
    | .ok ks => s.writeKeysWith State.queueStart .module (fun u => u.storeKeys (u.moduleRelease .sys)) ks (bytesOfNat 8 k.done)

/-- Setting EN, with the first write of DONE (R330). -/
def State.queueEnable (s : State) (q : Nat) (v : Word) : State :=
  let s1 := s.queueStart q v
  if (s1.queue q).state = 1 then s1.writeDone q (s1.queue q).cid else s1

def State.regWrite (s : State) (by_ : Origin) (off : Nat) (v : Word) : State := s.regWriteBy State.queueEnable by_ off v

/-- A write by a party: to memory, and as one write of each register it touches. -/
def State.writeKeysAs (s : State) (src : Source) (ks : List Nat) (data : List Byte) : State :=
  s.writeKeysWith State.queueEnable (s.originOf src) (fun u => u.storeKeys src) ks data

/-- A write of the module itself. -/
def State.writeKeys (s : State) (ks : List Nat) (data : List Byte) : State := s.writeKeysAs Source.module ks data

/-- A write of the module itself that is a strong release. -/
def State.writeReleased (s : State) (sc : Scope) (ks : List Nat) (data : List Byte) : State :=
  s.writeKeysAs (s.moduleRelease sc) ks data

/-- A write of an engine operation (R192). -/
def State.engineWrite (s : State) (o : Op) (ks : List Nat) (data : List Byte) : State :=
  s.writeKeysWith State.queueEnable (s.originOf o.source) (fun u => u.landKeys o) ks data

/-- A read of an engine operation (R184, R191); registers of the window are read once each. -/
def State.engineRead (s : State) (o : Op) (ks : List Nat) : State × List Byte :=
  if ks.any inRegs then (s, s.readKeys ks) else (s.correct ks).engineBytes o (ks.map hostKey)

/-- A read for an engine operation, or for the module itself. -/
def State.readFor (s : State) (o : Option Op) (ks : List Nat) : State × List Byte :=
  match o with
  | some o => s.engineRead o ks
  | none => (s, s.readKeys ks)

/-- A write for an engine operation, or for the module itself. -/
def State.writeFor (s : State) (o : Option Op) (ks : List Nat) (data : List Byte) : State :=
  match o with
  | some o => s.engineWrite o ks data
  | none => s.writeKeys ks data

end Sys2Proof.Machine
end

