-- ==== Sys2Proof/Machine/Barrier.lean ====
section
/-! DEFINITION. Barrier records in memory (R147, R149, R151) and the beats that engine operations add to them. -/
namespace Sys2Proof.Machine
open Sys2Proof

/-- A barrier record (R147); high holds word 1 from bit 35 up. -/
structure BarRec where
  gen : Nat
  expect : Nat
  arrived : Nat
  beats : Nat
  scope : Nat
  stray : Bool
  high : Nat
  deriving DecidableEq, Repr

def BarRec.ofBytes (l : List Byte) : BarRec where
  gen := fieldAt l 0 4
  expect := fieldAt l 4 2
  arrived := fieldAt l 6 2
  beats := fieldAt l 8 4
  scope := fieldAt l 12 1 % 4
  stray := fieldAt l 12 1 / 4 % 2 == 1
  high := fieldAt l 12 4 / 8

def BarRec.bytes (r : BarRec) : List Byte :=
  bytesOfNat 4 r.gen ++ bytesOfNat 2 r.expect ++ bytesOfNat 2 r.arrived ++ bytesOfNat 4 r.beats ++
    bytesOfNat 4 (r.scope + r.stray.toNat * 4 + r.high * 8)

/-- TMO in microseconds (R147). -/
def BarRec.tmo (r : BarRec) : Nat := r.high / 32

/-- An arrival (R149): it releases the generation when enough have come and every beat has landed. -/
def BarRec.arrive (r : BarRec) : BarRec :=
  let c := (r.arrived + 1) % 2 ^ 16
  if r.expect ≤ c ∧ r.beats = 0 then { r with gen := (r.gen + 1) % 2 ^ 32, arrived := c - r.expect }
  else { r with arrived := c }

/-- BAR.INIT's update (R149). -/
def BarRec.init (r : BarRec) (v : Word) : BarRec where
  gen := (r.gen + 1) % 2 ^ 32
  expect := bitsOf v 15 0
  arrived := 0
  beats := 0
  scope := bitsOf v 33 32
  stray := false
  high := bitsOf v 63 40 * 32

/-- Whether n more beats fit (R151). -/
def BarRec.hasRoom (r : BarRec) (n : Nat) : Bool := decide (r.beats + n < 2 ^ 32)

/-- n landed beats are subtracted (R151). -/
def BarRec.land (r : BarRec) (n : Nat) : BarRec :=
  let r1 : BarRec := if r.beats < n then { r with beats := 0, stray := true } else { r with beats := r.beats - n }
  if r1.beats = 0 ∧ r1.expect ≤ r1.arrived then
    { r1 with gen := (r1.gen + 1) % 2 ^ 32, arrived := r1.arrived - r1.expect }
  else r1

def State.barAt (s : State) (ks : List Nat) : BarRec := BarRec.ofBytes (s.readKeys ks)

/-- The barrier record an operation names (R241). -/
def Op.bar (o : Op) : Option Word :=
  match o.body with
  | .cpy _ _ _ b | .cpyf _ _ _ b | .tcpy _ _ _ b => b
  | _ => none

/-- The scope a record orders at (R147). -/
def BarRec.order (r : BarRec) : Scope := if r.scope = 2 then .dev else if r.scope = 3 then .sys else .team

/-- The writes of an operation that have landed, which its beats release (R151, R191). -/
def State.landedView (s : State) (o : Op) : View := View.empty.add ((s.writesOf o).map (·.2))

/-- What a chain releases (R256): its writes, and what it has acquired or followed. -/
def State.chainView (s : State) (o : Op) : View := o.fenced.wr.add ((s.writesOf o).map (·.2))

/-- Updates the record at an address for an operation, with its rights, which were checked before it. The update carries on
the releases before it, and releases a view. -/
def State.modBar (s : State) (o : Op) (v : View) (a : Word) (f : BarRec → BarRec) : State :=
  match s.resolveAll o.rights .atomic a 16 with
  | .ok ks =>
    let r := s.barAt ks
    let msg := if v.trivial then [] else [(⟨v, r.order, o.owner⟩ : Release)]
    (s.correct ks).writeKeysAs ⟨.core, some o.owner, 0, s.chained (ks.map hostKey) msg, true⟩ ks (f r).bytes
  | .error _ => s

/-- Whether n more beats fit in the record at an address (R151). -/
def State.barRoom (s : State) (r : Rights) (a : Word) (n : Nat) : Bool :=
  match s.resolveAll r .atomic a 16 with
  | .ok ks => (s.barAt ks).hasRoom n
  | .error _ => true

/-- n beats are added (R151). -/
def BarRec.addBeats (r : BarRec) (n : Nat) : BarRec := { r with beats := r.beats + n }

/-- Subtracts beats an operation has still outstanding (R151, R249). -/
def State.landBeats (s : State) (o : Op) (n : Nat) : State :=
  match o.bar with
  | some a => if n = 0 then s else s.modBar o (s.landedView o) a (BarRec.land · n)
  | none => s

end Sys2Proof.Machine
end

