-- ==== Sys2Proof/Machine/Ops.lean ====
section
/-! DEFINITION. What every family shares: retirement with the back-edge (R65), kills (R280), taking an exception (R304,
R305) and entering monitor mode (R346), trap records (R308 to R310), issue and completion of engine operations (R138,
R139, R215), blocking points, convoys (R141), and the checked path-C access (R60, R174). -/
namespace Sys2Proof.Machine
open Sys2Proof

/-- What every meaning answers. -/
abbrev Out := Host.Outcome State Fault Refusal

/-- The code of a cause (R303). -/
def causeCode : Cause → Nat
  | .ok => 0x00 | .illegal => 0x01 | .profile => 0x02 | .format => 0x03 | .align => 0x04 | .loc => 0x05
  | .rights => 0x06 | .gate => 0x07 | .xlate => 0x08 | .poison => 0x09 | .loopst => 0x0A | .seq => 0x0B
  | .timeout => 0x0C | .noatomic => 0x0D | .gstack => 0x0E | .calexit => 0x0F | .brk => 0x10 | .trapi => 0x11
  | .mcall => 0x12 | .peerlost => 0x13 | .watch => 0x14

/-- The cause of a code (R303). -/
def causeOf (n : Nat) : Cause :=
  match n with
  | 0x01 => .illegal | 0x02 => .profile | 0x03 => .format | 0x04 => .align | 0x05 => .loc | 0x06 => .rights
  | 0x07 => .gate | 0x08 => .xlate | 0x09 => .poison | 0x0A => .loopst | 0x0B => .seq | 0x0C => .timeout
  | 0x0D => .noatomic | 0x0E => .gstack | 0x0F => .calexit | 0x10 => .brk | 0x11 => .trapi | 0x12 => .mcall
  | 0x13 => .peerlost | 0x14 => .watch | _ => .ok

/-- The 8-byte value stored to bytes, for register fields of a word. -/
def nat64 (n : Nat) : Word := BitVec.ofNat 64 n

def State.modTeam (s : State) (id : Nat) (f : Team → Team) : State :=
  { s with teams := modWhere (fun t => t.id == id) f s.teams }

def State.team? (s : State) (id : Nat) : Option Team := s.teams.find? fun t => t.id == id

/-- The launched thread a core holds. -/
def State.coreThread (s : State) (c : Core) : Option Thread := c.tid.bind s.thread?

/-! ### Watermark copies and kills (R269, R270, R280) -/

/-- (W, P) lower in the order of R268: by W, then by P. -/
def lowerThan (w : Int) (p : Nat) (w' : Int) (p' : Nat) : Bool := decide (w < w') || (w == w' && decide (p < p'))

/-- The lower of two copies (R270). -/
def SlotCopy.lower (a b : SlotCopy) : SlotCopy := if lowerThan b.w b.p a.w a.p then b else a

/-- A holder's copy of a slot (R270). -/
def WSlot.copy (w : WSlot) (h : CopyHolder) : SlotCopy := ((w.copies.find? fun e => e.1 == h).map (·.2)).getD w.base

def WSlot.setCopy (w : WSlot) (h : CopyHolder) (c : SlotCopy) : WSlot :=
  { w with copies := (h, c) :: w.copies.filter fun e => e.1 != h }

/-- The slot's own state as an answer of its home. -/
def WSlot.home (w : WSlot) : SlotCopy := ⟨w.w, w.p, w.seq, w.g, w.phase⟩

def State.modSlot (s : State) (sl : Slot) (f : WSlot → WSlot) : State :=
  { s with slots := s.slots.set sl (f (s.slots.get sl)) }

/-- A bound fails against a copy (R269). -/
def fails (bound : Int) (c : SlotCopy) : Bool := decide (bound ≥ c.w - c.g)

/-- TTASK's fields (R274). -/
def Csrs.taskValid (c : Csrs) : Bool := bitOf c.ttask 4
def Csrs.taskSlot (c : Csrs) : Slot := Fin.ofNat 16 (bitsOf c.ttask 3 0)
def Csrs.taskSeq (c : Csrs) : Nat := bitsOf c.ttask 63 32

/-- Whether the running task's bound fails against the copy the core with this number holds (R280). -/
def State.taskFailsAt (s : State) (c : Core) (num : Nat) : Bool :=
  c.mode == .program && c.csr.taskValid && fails c.csr.tbnd.toInt ((s.slots.get c.csr.taskSlot).copy (.core num))

/-- The home closes an OPEN slot at the instant no task is queued or running, if one was spawned (R275). -/
def WSlot.settle (w : WSlot) : WSlot :=
  if w.phase = 2 ∧ w.spawned ∧ w.queued = 0 ∧ w.running = 0 then { w with phase := 0 } else w

/-- A task of a slot ends: it counts no longer, and what its thread did is released (R279, R280, R284). One that ran when
a loss closed the slot was counted out then (R368). -/
def WSlot.taskEnds (w : WSlot) (seq : Nat) (view : View) : WSlot :=
  if w.orphans.contains seq then { w with orphans := w.orphans.erase seq }
  else { w with running := w.running - 1, ends := w.ends.join view }.settle

/-- A core's running task no longer counts at home. -/
def State.taskLeaves (s : State) (c : Core) : State :=
  if c.csr.taskValid then s.modSlot c.csr.taskSlot fun w => w.taskEnds c.csr.taskSeq c.view else s

/-- TTASK.VALID 0. -/
def Core.clearTask (c : Core) : Core := { c with csr := { c.csr with ttask := c.csr.ttask &&& ~~~16 } }

/-! ### Loans held by operations (R215) -/

/-- An entry and its chain of parents, at most n of them. -/
def parentChain (loans : Vector Loan 8) : Nat → Fin 8 → List (Fin 8)
  | 0, _ => []
  | n + 1, i => i :: (match (loans.get i).parent with | some p => parentChain loans n p | none => [])

/-- The entries an operation holds: each entry in force, with its chain of parents, once each (R210, R215). -/
def heldEntries (r : Rights) : List (Fin 8) := ((r.inForce.map (parentChain r.loans 8)).flatten).eraseDups

/-- Changes the hold count of the listed entries. -/
def modHolds (f : Nat → Nat) (l : List (Fin 8)) (loans : Vector Loan 8) : Vector Loan 8 :=
  Vector.ofFn fun i => if l.contains i then { loans.get i with holds := f (loans.get i).holds } else loans.get i

def Core.addHolds (c : Core) (l : List (Fin 8)) : Core := { c with loans := modHolds (· + 1) l c.loans }

def Core.dropHolds (c : Core) (l : List (Fin 8)) : Core := { c with loans := modHolds (· - 1) l c.loans }

/-! ### Trap records (R308 to R310) -/

/-- What becomes of a record. -/
inductive RingResult where
  | written
  | full
  | invalid
  deriving DecidableEq, Repr

/-- The 64 bytes of a record (R308). -/
def recordBytes (cause cls flags : Nat) (dom : Byte) (c : Core) (pc val time word : Word) (seq : Nat) : List Byte :=
  bytesOfNat 1 cause ++ bytesOfNat 1 cls ++ bytesOfNat 1 flags ++ [dom] ++ bytesOfNat 2 (bitsOf c.csr.rank 9 0) ++
    zeros 2 ++ bytesOfWord pc ++ bytesOfWord val ++ bytesOfNat 4 c.num ++ bytesOfNat 4 (bitsOf c.csr.gangid 31 0) ++
    bytesOfWord time ++ bytesOfWord word ++ bytesOfNat 4 seq ++ zeros 12

/-- Whether a ring header's fields are in range (R308, R310). -/
def ringHeaderOk (h : List Byte) : Bool :=
  fieldAt h 0 8 % 64 == 0 && decide (1 ≤ fieldAt h 8 1 ∧ fieldAt h 8 1 ≤ 16) && fieldAt h 9 7 == 0 &&
    fieldAt h 20 4 == 0 && decide (fieldAt h 28 4 < 2) && fieldAt h 32 32 == 0

/-- A record without a valid ring (R310): an asynchronous one is discarded and logged for management; a synchronous trap
behaves as on a full ring, and sets LOST where the header can be written. -/
def State.noRing (s : State) (c : Core) (flags : Nat) (pc : Word) (lost : State) : State × RingResult :=
  (if flags % 2 = 1 then s.logEvent c.num 4 pc else lost, .invalid)

/-- Writes a record to the ring of a core's context under domain 255 (R308): PROD advances after the record; a full
ring sets LOST and leaves the other flags (R310). PROD is a strong release at DEV scope. A header with uncorrectable data fails its
check as well, and a single-bit error in it is corrected (R165). -/
def State.writeRecord (s : State) (c : Core) (cause cls flags : Nat) (dom : Byte) (pc val word : Word) :
    State × RingResult :=
  let r := (s.rightsOf c).runtime
  let ring := c.csr.tring
  if ring = 0 ∨ ring.toNat % 64 ≠ 0 then s.noRing c flags pc s
  else
    match s.resolveAll r .atomic ring 64 with
    | .error _ => s.noRing c flags pc s
    | .ok ks =>
      let s := s.correct ks
      let h := s.readKeys ks
      let lost := s.writeKeys ((ks.drop 28).take 1) [BitVec.ofNat 8 (fieldAt h 28 1) ||| 1]
      if ks.any fun k => s.poisoned k 1 then s.noRing c flags pc s
      else if !ringHeaderOk h then s.noRing c flags pc lost
      else
        let n := 2 ^ fieldAt h 8 1
        let prod := fieldAt h 16 4
        let cons := fieldAt h 24 4
        if (prod + 2 ^ 32 - cons) % 2 ^ 32 = n then (lost, .full)
        else
          let at_ : Word := nat64 (fieldAt h 0 8 + 64 * (prod % n))
          match s.resolveAll r .store at_ 64 with
          | .error _ => s.noRing c flags pc lost
          | .ok es =>
            let s1 := s.writeKeys es (recordBytes cause cls flags dom c pc val s.time word prod)
            (s1.writeReleased .dev ((ks.drop 16).take 4) (bytesOfNat 4 (prod + 1)), .written)

/-! ### Completion of operations (R138, R139, R215, R309) -/

/-- The completion word (R138). -/
def completionWord (status : Cause) (cls count : Nat) : Word := nat64 (count * 65536 + cls * 256 + causeCode status)

def State.dropOp (s : State) (id : Nat) : State := { s with ops := s.ops.filter fun o => o.id != id }

def State.op? (s : State) (id : Nat) : Option Op := s.ops.find? fun o => o.id == id

def State.modOp (s : State) (id : Nat) (f : Op → Op) : State := { s with ops := modWhere (fun o => o.id == id) f s.ops }

/-- Whether a core has r pending (R139). -/
def Core.isPending (c : Core) (r : XReg) : Bool := c.pendX.getLsbD r.val

def Core.setPending (c : Core) (r : XReg) (b : Bool) : Core :=
  if r = 0 then c
  else { c with pendX := if b then c.pendX ||| (1#32 <<< r.val) else c.pendX &&& ~~~(1#32 <<< r.val) }

/-- The delivery of a word into a register that was pending: at once, or at resume when the thread is away (R316). -/
def Core.deliverWord (c : Core) (away : Bool) (r : XReg) (w : Word) : Core :=
  if r = 0 then c
  else if away then { (c.setPending r false) with delivered := c.delivered ++ [(r, w)] }
  else (c.setPending r false).wx r w

/-- The fall of the counter chosen at issue (R139). -/
def Core.decCounter (c : Core) : Option (Fin 16) → Core
  | none => c
  | some i => { c with csr := { c.csr with cnt := c.csr.cnt.set i (c.csr.cnt.get i - 1) } }

/-- Logs a completion word and the fall of its counter, with the engine they come from (R322). -/
def State.logDone (s : State) (c : Core) (o : Op) (w : Word) : State :=
  let s1 := s.logExt c (.engine o.route o.id) 3 w
  match o.ctr with
  | some i => s1.logExt c (.engine o.route o.id) 9 (nat64 i.val)
  | none => s1

/-- An operation completes as one event: its remaining beats are subtracted (R249), and it writes what else it writes
in its core, its completion word, its counter and its holds (R139, R215, R240). A discarded one writes nothing in its
core and drops its holds (R349). -/
def State.finishOp (s : State) (o : Op) (status : Cause) (count : Nat) (extra : Core → Core) : State :=
  let away := s.isEvicted o.owner
  let f (c : Core) : Core :=
    if o.discard then c.dropHolds o.holds
    else
      ((((extra c).deliverWord away o.tok (completionWord status o.cls count)).decCounter o.ctr).dropHolds
        o.holds).noteDone o.tok o.ctr (s.writesOf o)
  let s1 := ((s.landBeats o o.beats).dropOp o.id).deliverOp o f
  if o.discard then s1 else s1.logDone (s.ownerCore o.owner) o (completionWord status o.cls count)

/-- Completes an operation; a failure with token x0 first writes its asynchronous record (R309), also when its thread ends
(R349), and waits for room while the ring is full (R310). -/
def State.completeOp (s : State) (o : Op) (status : Cause) (count : Nat) (fa : Word) (extra : Core → Core) : State :=
  if status = .ok ∨ o.tok ≠ 0 then s.finishOp o status count extra
  else
    let (s1, res) := s.writeRecord { s.ownerCore o.owner with cid := o.rights.cid } (causeCode status) o.cls 1 o.rights.domain o.pc fa
      (completionWord status o.cls count)
    match res with
    | .full =>
      { (s1.modOp o.id fun p => { p with phase := .moved status count fa }) with
        asyncWaiting := s1.asyncWaiting ++ [(o.id, status, nat64 count, fa)] }
    | _ => s1.finishOp o status count extra

/-- Once the operation of a chain that is at its end has completed, its channel is idle and shows how it ended (R256, R259). -/
def State.chainDone (s : State) (o : Op) (status : Cause) : State :=
  if (s.op? o.id).isSome then s
  else
    { s with
      channels := modWhere (fun c => c.op == some o.id && c.phase == 5) (fun c => { c with phase := 0, last := status }) s.channels }

/-! ### Calender runs that end early (R296) -/

/-- The result word of CAL.RUN (R295). -/
def calResult (exit rung iters : Nat) : Word := nat64 (exit + rung * 256 + iters % 2 ^ 32 * 65536)

/-- A run all of whose members are done is over: the team is IDLE (R294). -/
def Team.calIdle (t : Team) : Team :=
  if t.cal.state = 6 ∧ t.cal.members.all CalMember.done then
    { t with cal := { t.cal with state := 0, members := [], ending := none, trapExit := false } }
  else t

/-- A team's run takes an early end, while it gathers as well (R294); an end already taken stands. -/
def State.calEnd (s : State) (team : Nat) (exit : Nat) (status : Cause) (fa : Word) : State :=
  s.modTeam team fun t =>
    if t.cal.state = 0 ∨ t.cal.state = 6 then t
    else { t with cal := { t.cal with ending := some (t.cal.ending.getD (exit, status, fa)) } }

/-- The member of a run that a thread is, if its part is not done. -/
def Team.calMember (t : Team) (rank : Nat) : Option CalMember := t.cal.members.find? fun m => m.rank == rank && !m.done

def State.calMemberDone (s : State) (team rank : Nat) : State :=
  s.modTeam team fun t =>
    ({ t with cal := { t.cal with
      members := t.cal.members.map fun m => if m.rank == rank then { m with done := true } else m } } : Team).calIdle

/-- A fault of a thread whose team's run is active ends the run with FAULT; the token of a member whose kernel faults gets the
cause, also when its run is over already (R294, R296). -/
def State.calFault (s : State) (c : Core) (cause : Cause) (val : Word) : State :=
  match s.coreThread c with
  | none => s
  | some t =>
    match s.team? t.team with
    | none => s
    | some tm =>
      match tm.calMember t.rank with
      | none => s.calEnd t.team 4 .ok 0
      | some m =>
        let s1 := (s.calEnd t.team 4 .ok 0).calMemberDone t.team t.rank
        match s1.op? m.opId with
        | some o => s1.completeOp o cause tm.cal.iters val id
        | none => s1

/-- A thread that is killed, or ends, ends its team's active run with ABORT; nothing goes to its token or xd (R294, R296). -/
def State.calKill (s : State) (c : Core) : State :=
  match s.coreThread c with
  | none => s
  | some t =>
    match s.team? t.team with
    | none => s
    | some tm =>
      match tm.calMember t.rank with
      | none => s.calEnd t.team 5 .ok 0
      | some m =>
        let s1 := (s.calEnd t.team 5 .ok 0).calMemberDone t.team t.rank
        match s1.op? m.opId with
        | some o =>
          let s2 := s1.dropOp o.id
          if t.evicted.isSome then s2
          else s2.modCore t.home fun k => ((k.setPending o.tok false).decCounter o.ctr).dropHolds o.holds
        | none => s1

/-! ### Convoys (R140, R141) -/

/-- The cores of a core's cluster group that hold live members of its team (R129, R140). -/
def State.groupCores (s : State) (c : Core) : List Nat :=
  match s.coreThread c with
  | none => [c.num]
  | some t =>
    (s.threads.filter fun u => u.team == t.team && u.rank / 8 == t.rank / 8 && !u.ended && u.evicted.isNone).map (·.home)

def Core.setConvoy (c : Core) (v : Convoy) : Core := { c with convoy := v, trail := [] }

/-- Every ATTACHED follower of the group becomes ALONE (R141). -/
def State.freeFollowers (s : State) : State :=
  (s.groupCores s.core).foldl (fun u n =>
    u.modCore n fun k => if k.convoy = .attached then k.setConvoy .alone else k) s

/-- The core in focus detaches (R141): a follower alone, a leader with all its followers. -/
def State.detach (s : State) : State :=
  match s.core.convoy with
  | .attached => { s with core := s.core.setConvoy .alone }
  | .leader => let s1 := s.freeFollowers; { s1 with core := s1.core.setConvoy .alone }
  | _ => s

/-- The stream after a retirement: a leader's step goes to its followers; a follower whose step differs is ALONE. -/
def State.convoyStep (s : State) (next : Word) (cond : Bool) : State :=
  if s.core.mode = .monitor then s else
  match s.core.convoy with
  | .leader =>
    (s.groupCores s.core).foldl (fun u n =>
      u.modCore n fun k => if k.convoy = .attached then { k with trail := k.trail ++ [⟨next, cond⟩] } else k) s
  | .attached =>
    match s.core.trail with
    | [] => s
    | t :: rest =>
      if t.next = next ∧ t.cond = cond then { s with core := { s.core with trail := rest } } else s.detach
  | _ => s

/-! ### Retirement (R17, R65, R280) -/

/-- The back-edge rule of R65: the loop state, the next pc, and whether a back-edge was taken. -/
def backEdge (c : Csrs) (a next : Word) (taken : Bool) : Csrs × Word × Bool :=
  let outer (c : Csrs) : Csrs × Word × Bool :=
    if c.lpc0 ≠ 0 ∧ c.lpe0 = a then
      let c' := { c with lpc0 := c.lpc0 - 1 }
      if taken then (c', next, false)
      else if c'.lpc0 ≠ 0 then (c', c'.lps0, true) else (c', next, false)
    else (c, next, false)
  if c.lpc1 ≠ 0 then
    if c.lpe1 = a then
      let c' := { c with lpc1 := c.lpc1 - 1 }
      if taken then (c', next, false)
      else if c'.lpc1 ≠ 0 then (c', c'.lps1, true) else outer c'
    else (c, next, false)
  else outer c

/-- A kill of the task running on the core in focus (R280): the task leaves, a run of the team aborts, and control
goes to TKILLV as a taken transfer. -/
def State.killTask (s : State) : State :=
  let c := s.core
  let v := c.csr.tkillv.get c.csr.taskSlot
  let s1 := ((s.taskLeaves c).calKill c).logExt c (.slot c.csr.taskSlot) 7 v
  { s1 with core := { s1.core.clearTask.settleLoads with
      passer := c.pc, pc := v, pfb := [], wait := none, stall := none, request := none, reply := none, recruit := none } }

/-- The core in focus right after the back-edge test, before its convoy and a kill see the retirement. -/
def Core.retired (c : Core) (next : Word) (taken : Bool) : Core :=
  let b := backEdge c.csr c.pc next taken
  { c with
    csr := if c.mode = .program then { b.1 with instret := b.1.instret + 1 } else b.1
    pc := b.2.1, passer := c.pc, pfb := if taken || b.2.2 then [] else c.pfb
    wait := none, stall := none, request := none, reply := none }

/-- Whether this retirement is a kill point of TKMODE EAGER: a transfer taken to its own address or below, or a back-edge
(R280). -/
def Core.eagerPoint (c : Core) (next : Word) (taken : Bool) : Bool :=
  bitsOf c.csr.tkmode 1 0 == 1 &&
    ((taken && decide (next.toNat ≤ c.pc.toNat)) || (backEdge c.csr c.pc next taken).2.2)

/-- The kill check of a retirement (R280): at an eager kill point a task that fails replaces the next pc. -/
def State.eagerKill (s : State) (kills : Bool) (from_ : Word) : State :=
  if kills && s.taskFailsAt s.core s.core.num then
    let s1 := s.killTask
    { s1 with core := { s1.core with passer := from_ } }
  else s

/-- Retires the instruction at pc, which would pass to next; cond is how its guard decided, and kills whether it is a kill
point. The convoy sees the next pc that a kill leaves (R141). -/
def State.retireAs (s : State) (next : Word) (taken cond kills : Bool) : State :=
  let s1 := ({ s with core := s.core.retired next taken } : State).eagerKill kills s.core.pc
  s1.convoyStep s1.core.pc cond

/-- The kill points of a retirement are the eager ones (R280). -/
def State.retireWith (s : State) (next : Word) (taken cond : Bool) : State :=
  s.retireAs next taken cond (s.core.eagerPoint next taken)

/-- Retires an instruction of n bytes that falls through. -/
def State.retire (s : State) (n : Word) : State := s.retireWith (s.core.pc + n) false true

/-- Retires an instruction whose guard condition is false: nothing else changes (R30). -/
def State.skip (s : State) : State := s.retireWith (s.core.pc + 4) false false

/-- Retires a taken transfer (R54). -/
def State.jump (s : State) (target : Word) : State := s.retireWith target true true

/-- Retires a taken gate transfer, or a return from a trap: it is neither a branch nor a jump, so no eager kill point, and takes no
back-edge (R65, R280). -/
def State.gateJump (s : State) (target : Word) : State := s.retireAs target true true false

/-- The next address of a fall-through retirement, after back-edge and kill (R70): where a requested trap returns. -/
def State.next4 (s : State) : Out := .next (s.retire 4)

/-! ### Monitor entry and stopping (R346) -/

/-- A fault in monitor mode stops the core; every interface whose context holds the core moves to ERROR: those of protected
contexts, which alone have one (R357). -/
def State.stopCore (s : State) : State :=
  let c := s.core
  let holders := ((s.sec.owned.filter fun e => e.1 == .core c.num).map fun e =>
    match e.2 with | .assigned l => l | _ => []).flatten
  let s1 := s.logEvent c.num 1 c.pc
  { s1 with
    core := { s1.core with stopped := true, wait := none, stall := none }
    sec := { s1.sec with
      contexts := s1.sec.contexts.map fun x =>
        if x.protect && holders.contains x.cid then { x with iface := .error, halted := true } else x } }

/-- A core that enters monitor mode installs a live Deckle image it does not run yet (R358). -/
def State.installDeckle (s : State) : State :=
  let c := s.core
  if c.deckle = s.sec.deckle.1 then s
  else { s.overwrite (localKey c.num 0x2F000) s.sec.deckle.2 with core := { c with deckle := s.sec.deckle.1 } }

/-- Enters monitor mode on an event (R346): DKENTRY, DKDATA, DKRESUME, the mode, and the entry point. -/
def State.enterMonitor (s0 : State) (event : Nat) (cause : Cause) (value resume : Word) : State :=
  let s := s0.installDeckle
  let c := s.core
  let count := (bitsOf c.csr.dkentry 31 0 + 1) % 2 ^ 32
  { s with core := { c with
    mode := .monitor
    csr := { c.csr with
      dkentry := nat64 (event * 2 ^ 40 + causeCode cause * 2 ^ 32 + count)
      dkdata := value
      dkresume := if event = 0 then 0 else (resume &&& ~~~1) ||| 1 }
    pc := nat64 (0x2F000 + 0x80 * event), passer := c.pc
    wait := none, stall := none, request := none, reply := none } }

/-! ### Taking an exception (R304, R305) -/

/-- The Headbox ends the threads of failed gangs in a field, while its command link has a permit left (R328, R339). -/
def State.endFailed (s : State) (f : Nat) : State :=
  let mine (u : Thread) : Bool := fieldOf u.home == f && !u.ended && !u.ending &&
    s.gangs.any fun g => g.id == u.gang && g.state == .failed
  if s.threads.any mine ∧ lookupD s.permits f 0 < 8 ∧ !s.exchanging then
    { s with
      permits := assign s.permits f (lookupD s.permits f 0 + 1)
      threads := modWhere mine (fun u => { u with ending := true }) s.threads }
  else s

/-- A thread's double trap makes its gang FAILED: Deckle ends it, and the Headbox the gang's other threads (R305, R339). -/
def State.failGang (s : State) (c : Core) (cause : Cause) : State :=
  match s.coreThread c with
  | none => s
  | some t =>
    let s1 : State := { s with
      gangs := modWhere (fun g => g.id == t.gang && g.state == .running)
        (fun g => { g with state := .failed, cause := cause }) s.gangs
      threads := modWhere (fun u => u.tid == t.tid && !u.ended) (fun u => { u with ending := true }) s.threads }
    (((s.threads.filter fun u => u.gang == t.gang).map fun u => fieldOf u.home).eraseDups).foldl State.endFailed s1

/-- The bytes at TVEC that trap entry reads (R305). -/
def State.tvecKeys (s : State) (c : Core) : List Nat :=
  match s.resolveAll (s.rightsOf c) .fetch c.csr.tvec 4 with
  | .ok ks => ks
  | .error _ => []

/-- Whether the word at TVEC is the GATE word on a page tagged 255, with the fetch checks (R305). -/
def State.tvecOk (s : State) (c : Core) : Bool :=
  let r := s.rightsOf c
  let v := c.csr.tvec
  match s.fetchTag r v, s.fetchTag r (v + 2), s.resolveAll r .fetch v 4 with
  | .ok t, .ok t', .ok ks =>
    v.toNat % 2 == 0 && t == 255 && t' == 255 && natOfBytes (s.readKeys ks) == 0x2D && !ks.any fun k => s.poisoned k 1
  | _, _, _ => false

/-- Trap entry (R304) on the core in focus with the pc at the trap and the reported value, after the record, which the core
sees; a double trap passes the thread to Deckle (R305); in monitor mode the core stops (R346). -/
def State.trapEntry (s : State) (cause : Cause) (pcAt val : Word) : State :=
  let s := s.detach
  let c := s.core
  if c.mode = .monitor then s.stopCore
  else
  let s := s.correct (s.tvecKeys c)
  if bitOf c.csr.tflags 0 || !s.tvecOk c then
    let (s1, _) := s.writeRecord c (causeCode cause) 0 4 c.domain pcAt val 0
    (s1.failGang c cause).enterMonitor 2 cause val pcAt
  else
    let (s1, res) := s.writeRecord c (causeCode cause) 0 2 c.domain pcAt val 0
    let norec : Word := if res = .written then 0 else 2
    let k := if res = .written then s1.core.orderView { View.empty with level := s1.stamp } else s1.core
    { s1 with core := { k with
      csr := { k.csr with
        tcause := nat64 (causeCode cause), tpc := pcAt, tval := val
        tflags := nat64 (c.domain.toNat * 256) ||| norec ||| 1 }
      pc := c.csr.tvec, domain := 255, passer := pcAt, pfb := []
      wait := none, stall := none, request := none, reply := none } }

/-- A fault of the instruction at pc: nothing of it stands (R6); it ends the team's calender run (R296). -/
def State.trap (s : State) (cause : Cause) (val : Word) : State :=
  if s.core.mode = .monitor then s.stopCore
  else
    let pc := s.core.pc
    (s.calFault s.core cause val).trapEntry cause pc val

/-- A fault as a meaning's answer. -/
def State.fault (s : State) (cause : Cause) (val : Word) : Out := .next (s.trap cause val)

/-! ### Waiting (R137, R139, R280) -/

/-- The instruction stalls: it executes again later, and nothing of it has happened yet. -/
def State.stallOn (s : State) (on : StallOn) : State :=
  match s.core.stall with
  | some st => if st.on = on then s else { s with core := { s.core with stall := some ⟨on, s.clock⟩ } }
  | none => { s with core := { s.core with stall := some ⟨on, s.clock⟩ } }

/-- A blocking point begins to wait. It is a kill point (R280), unless it is TNEXT's or the yielding of YIELD. -/
def State.block (s : State) (w : Wait) (kills : Bool) : State :=
  let s := if w = .cvyJoin ∧ s.core.convoy = .attached then s else s.detach
  if kills && s.taskFailsAt s.core s.core.num then
    (if w = .cvyJoin then { s with core := s.core.setConvoy .left } else s).killTask
  else { s with core := { s.core with wait := some w, stall := none } }

/-! ### Issue (R139, R215) -/

/-- Whether the counter CCSEL selects stands at 63, so that an issue stalls (R139). -/
def Core.counterFull (c : Core) : Bool :=
  bitOf c.csr.ccsel 4 && decide (63 ≤ c.csr.cnt.get (Fin.ofNat 16 (bitsOf c.csr.ccsel 3 0)))

/-- What an operation in flight does to its core: its holds, its register that is pending, its counter (R139, R215). -/
def Core.takeOp (c : Core) (o : Op) : Core :=
  let k := (c.addHolds o.holds).setPending o.target true
  match o.ctr with
  | some i => { k with csr := { k.csr with cnt := k.csr.cnt.set i (k.csr.cnt.get i + 1) } }
  | none => k

/-- Issues an operation: it captures its rights and holds, counts on CCSEL's counter, and its token is pending. -/
def State.issue (s : State) (cls : Nat) (tok : XReg) (body : Body) (beats : Nat) : State × Op :=
  let c := s.core
  let r := s.rightsOf c
  let holds := heldEntries r
  let ctr : Option (Fin 16) := if bitOf c.csr.ccsel 4 then some (Fin.ofNat 16 (bitsOf c.csr.ccsel 3 0)) else none
  let (s1, id) := s.fresh
  let o : Op := ⟨id, c.owner, cls, tok, ctr, c.pc, r, holds, body, .issued, beats, false, c.fencedFor cls, c.inArea.isSome⟩
  ({ s1 with core := c.takeOp o, ops := s1.ops ++ [o] }, o)

/-! ### The checked access of path C (R60, R174, R350) -/

/-- What the checks of a path-C access answer. -/
inductive Acc where
  | ok (keys : List Nat)
  | fault (cause : Cause) (val : Word)
  /-- A watchpoint whose action is halt. -/
  | halt (w : Fin 4)
  deriving DecidableEq, Repr

/-- The first watchpoint that matches an access of program mode (R350). -/
def Core.watchHit (c : Core) (need : Need) (a : Word) (n : Nat) : Option (Fin 4) :=
  if c.mode = .monitor then none
  else
    (List.finRange 4).find? fun w =>
      let k := c.dbg.wctl.get w
      let b := (c.dbg.wbase.get w).toNat
      let len := 2 ^ bitsOf k 5 0
      bitOf k 15 && bitsOf k 63 52 == c.cid && decide (bitsOf k 5 0 ≤ 32) && b % len == 0 &&
        ((bitOf k 8 && needReads need) || (bitOf k 9 && needWrites need)) &&
        decide (b < a.toNat + n ∧ a.toNat < b + len)

/-- The checks of an access of n bytes at a before its data: ALIGN, LOCAL, the later layers in order (R60, R174 steps 1
to 4), then watchpoints, which stop it before it is performed (R321). -/
def State.checkAs (s : State) (r : Rights) (need : Need) (a : Word) (n align : Nat) : Acc :=
  if a.toNat % align ≠ 0 then .fault .align a
  else
    match s.resolveSteps r need a n with
    | .error (c, v) => .fault c v
    | .ok ks =>
      match s.core.watchHit need a n with
      | some w => if bitOf (s.core.dbg.wctl.get w) 12 then .halt w else .fault .watch a
      | none => .ok ks

/-- The data of a checked access: uncorrectable data faults where it is read (R165, R174 step 5). -/
def State.consume (s : State) (need : Need) (a : Word) : Acc → Acc
  | .ok ks => if needReads need && ks.any fun k => s.poisoned k 1 then .fault .poison a else .ok ks
  | r => r

/-- All the checks of an access of n bytes at a. -/
def State.accessAs (s : State) (r : Rights) (need : Need) (a : Word) (n align : Nat) : Acc :=
  s.consume need a (s.checkAs r need a n align)

def State.access (s : State) (need : Need) (a : Word) (n : Nat) : Acc := s.accessAs (s.rightsOf s.core) need a n n

/-- A watchpoint halts the core before the access (R321, R350); of an instruction that waits already the halt is stable once it has
retired. -/
def State.watchHalt (s : State) (w : Fin 4) : State :=
  { s with core := { s.core with dbg := { s.core.dbg with
    dctl := 1, halted := true, stable := !s.core.midway, whit := true, wnum := w } } }

/-- Notes an access: the station's miss if it has one (R172), and, of a load, an atomic or a strong access that leaves the
own local store, its value in the replay log (R322). -/
def State.noteAccess (s : State) (a : Word) (logs : Bool) (value : Word) : State :=
  let c := s.core
  let s1 := if c.mode = .program && regionOf a.toNat == .global then s.noteMiss c.num c.cid a.toNat else s
  match regionOf a.toNat with
  | .own _ => s1
  | _ => if logs then s1.logExt c (.core c.num) 1 value else s1

/-- A core's own store over bytes of the 16 that follow it: until an emptying event they may be fetched as they were
(R22). -/
def State.noteCode (s : State) (ks : List Nat) : State :=
  let c := s.core
  let next := localKey c.num c.pc.toNat
  { s with core := { c with pfb := keepOld s.mem (ks.filter fun k => decide (next ≤ k ∧ k < next + 20)) c.pfb } }

/-- Whether the page of an address is of a kind, in the leaf's coding (R169, R175); a local page is of none. -/
def State.pageKindIs (s : State) (kind : Nat) (a : Word) : Bool :=
  match regionOf a.toNat with
  | .global =>
    s.core.mode == .program &&
      match s.leafFor s.core.num s.core.cid a.toNat with
      | .ok (e, _) => leafKind e == kind
      | .error _ => false
  | _ => false

/-- Whether the page of an address is UN (R175). -/
def State.unordered (s : State) (a : Word) : Bool := s.pageKindIs 2 a

/-- How an access is ordered (R183, R190): weak; or strong, with its scope and whether it is a release or an acquire. -/
inductive Ordering where
  | weak
  | strong (sync : Bool) (sc : Scope)
  deriving DecidableEq, Repr

/-- Every access to an SO page is strong, at SYS scope (R175, R185). -/
def State.orderAt (s : State) (o : Ordering) (a : Word) : Ordering :=
  if o = .weak ∧ s.pageKindIs 0 a then .strong false .sys else o

/-- The releases that the last of the given writes to each byte carry (R188). -/
def messages (l : List Write) (ks : List Nat) : List Release :=
  (ks.filterMap fun k => (l.find? fun e => !(e.touched [k]).isEmpty).map (·.src.msg)).flatten

/-- The core in focus has read the last of the given writes to the bytes, and releases with them. -/
def State.saw (s : State) (un : Bool) (l : List Write) (ks : List Nat) (msg : List Release) : State :=
  { (s.reveal s.core.owner l ks).correct ks with core := s.core.noteRead un l ks msg s.stamp }

/-- What a weak load of a page, UN or not, reads: the bytes of a state before some of the latest writes to them that nothing orders
before it (R184, R185, R191). -/
def State.weakReadKeys (s : State) (un : Bool) (ks : List Nat) : State × Nat :=
  let hs := ks.map hostKey
  let w := s.writesTo hs
  let (s1, n) := s.chooseLoad un hs
  let v := natOfBytes (ks.map fun k => before (w.take n) (s.readKey k) (hostKey k))
  (s1.saw un (w.drop n) hs (messages (w.drop n) hs), v)

def State.weakRead (s : State) (a : Word) (ks : List Nat) : State × Nat := s.weakReadKeys (s.unordered a) ks

/-- Reads bytes as they are at their home (R183); the releases read wait for an acquire fence (R190). -/
def State.homeRead (s : State) (a : Word) (ks : List Nat) : State × Nat :=
  let hs := ks.map hostKey
  let l := s.writesTo hs
  (s.saw (s.unordered a) l hs (messages l hs), natOfBytes (s.readKeys ks))

/-- What a strong load reads: the bytes as they are at their home. It orders the core's earlier accesses before its later
ones, and an acquire takes what the releases it reads carry (R188, R190). -/
def State.strongRead (s : State) (acquire : Bool) (sc : Scope) (a : Word) (ks : List Nat) : State × Nat :=
  let hs := ks.map hostKey
  let v := if acquire then s.acquired sc s.core.owner (messages (s.writesTo hs) hs) else View.empty
  let (s1, n) := s.homeRead a ks
  ({ s1 with core := s1.core.orderSeen.orderView v }, n)

/-- A lane's value (R110, R186): on an SO page it is read at its home, and orders other accesses only if the whole access lies on
such pages. -/
def State.readLane (s : State) (whole : Bool) (a : Word) (ks : List Nat) : State × Nat :=
  if s.pageKindIs 0 a then (if whole then s.strongRead false .sys a ks else s.homeRead a ks) else s.weakRead a ks

/-- A load's value, by its ordering. -/
def State.readAs (s : State) (o : Ordering) (a : Word) (ks : List Nat) : State × Nat :=
  match s.orderAt o a with
  | .weak => s.weakRead a ks
  | .strong acq sc => s.strongRead acq sc a ks

/-- The weak loads of some bytes through RC pages have their values for good: a later access of the core to one of the bytes
follows (R185, R190). -/
def Core.settleBytes (c : Core) (ks : List Nat) : Core :=
  { c with views := { c.views with late := c.views.late.filter fun l => l.un || !l.keys.any ks.contains } }

/-- A weak load may be performed once more until its destination is used or a later access of the core follows it (R184, R185,
R191). -/
def State.noteLate (s : State) (dest : LateDest) (a : Word) (n : Nat) : State :=
  match s.access .load a n with
  | .ok ks =>
    let hs := ks.map hostKey
    let un := s.unordered a
    let c := if un then s.core else s.core.settleBytes hs
    { s with core := { c with views := { c.views with late := ⟨dest, a, n, hs, un, s.stamp⟩ :: c.views.late } } }
  | _ => s

/-- Notes a store of the core, for what is ordered after it (R182: the bytes may be mapped UN as well). -/
def Core.noteWrite (c : Core) (un : Bool) (ks : List Nat) (stamp : Nat) : Core :=
  let k := if un then c else c.settleBytes ks
  { k with views := { k.views with
    seen := { k.views.seen.add (ks.map fun k => (k, stamp)) with level := max k.views.seen.level stamp } } }

/-- A store of the core in focus, by its ordering: performed at its home (R185, R189); a strong one orders the core's
earlier accesses before its later ones, and a release carries what the core has seen (R188, R190). -/
def State.writeAs (s : State) (o : Ordering) (a : Word) (ks : List Nat) (data : List Byte) : State :=
  let c := s.core
  let un := s.unordered a
  let hs := ks.map hostKey
  match s.orderAt o a with
  | .weak =>
    let s1 := s.writeKeysAs ⟨.core, some c.owner, 0, c.views.rel, false⟩ ks data
    { s1 with core := s1.core.noteWrite un hs s1.stamp }
  | .strong rel sc =>
    let s1 := s.writeKeysAs ⟨.core, some c.owner, 0, if rel then c.releases sc else c.views.rel, true⟩ ks data
    { s1 with core := (s1.core.noteWrite un hs s1.stamp).orderSeen }

/-- A lane's store (R110, R186). -/
def State.writeLane (s : State) (whole : Bool) (a : Word) (ks : List Nat) (data : List Byte) : State :=
  if s.pageKindIs 0 a ∧ !whole then
    let s1 := s.writeKeysAs ⟨.core, some s.core.owner, 0, s.core.views.rel, true⟩ ks data
    { s1 with core := s1.core.noteWrite false (ks.map hostKey) s1.stamp }
  else s.writeAs .weak a ks data

/-- The write of an atomic, or of a record update: it carries on the releases of the atomics before it (R188). -/
def State.writeAtomic (s : State) (release : Bool) (sc : Scope) (a : Word) (ks : List Nat) (data : List Byte) : State :=
  let c := s.core
  let hs := ks.map hostKey
  let msg := s.chained hs (if release then c.releases sc else c.views.rel)
  let s1 := s.writeKeysAs ⟨.core, some c.owner, 0, msg, true⟩ ks data
  { s1 with core := (s1.core.noteWrite (s.unordered a) hs s1.stamp).orderSeen }

/-- A checked load of n bytes: f takes the bytes as a number. -/
def State.loadThen (s : State) (o : Ordering) (a : Word) (n : Nat) (f : State → Nat → State) : Out :=
  match s.access .load a n with
  | .fault c v => s.fault c v
  | .halt w => .next (s.watchHalt w)
  | .ok ks =>
    let (s1, v) := s.readAs o a ks
    .next (f (s1.noteAccess a true (nat64 v)) v)

/-- A checked store of the n low bytes of v; f takes the state after it. -/
def State.storeThen (s : State) (o : Ordering) (a : Word) (n : Nat) (v : Word) (f : State → State) : Out :=
  match s.access .store a n with
  | .fault c w => s.fault c w
  | .halt w => .next (s.watchHalt w)
  | .ok ks =>
    let s1 := (s.noteAccess a (s.orderAt o a != .weak) v).noteCode ks
    .next (f (s1.writeAs o a ks (bytesOfNat n v.toNat)))

end Sys2Proof.Machine
end

