-- ==== Sys2Proof/Machine/Fetch.lean ====
section
/-! DEFINITION. Instruction fetch and the checks before execution (R21 to R26, R43, R67, R139, R166, R206, R323). -/
namespace Sys2Proof.Machine
open Sys2Proof

/-- The instructions of the MON major and MRET (R10). -/
def monOnly : Instr → Bool
  | .mret | .protSet _ _ | .lptSet _ _ | .ctxSave _ | .ctxLoad _ => true
  | _ => false

/-- A halfword as fetched: where bytes under it changed, the old or the new value (R22, R23). -/
def State.halfword (s : State) (ks : List Nat) : State × Nat :=
  let old := s.core.pfb ++ s.core.icache
  let before (k : Nat) : Option Byte := (old.find? fun e => e.1 == hostKey k).map (·.2)
  if ks.all fun k => (before k).isNone then (s, natOfBytes (s.readKeys ks))
  else
    let (s1, n) := s.draw
    if Config.freeBit n then (s1, natOfBytes (ks.map fun k => (before k).getD (s.readKey k)))
    else (s1, natOfBytes (s.readKeys ks))

/-- Fetches the halfword at a: the state, the halfword and its page's tag, or a fault and its value. -/
def State.fetchHalf (s : State) (a : Word) : Except (Cause × Word) (State × Nat × Byte) :=
  let r := s.rightsOf s.core
  match s.fetchTag r a with
  | .error (c, v) => .error (c, v.getD a)
  | .ok tag =>
    match s.resolveAll r .fetch a 2 with
    | .error e => .error e
    | .ok ks =>
      if ks.any fun k => s.poisoned k 1 then .error (.poison, a)
      else
        let (s1, h) := (s.correct ks).halfword ks
        let c := s.core
        .ok (if c.mode == .program && regionOf a.toNat == .global then s1.noteMiss c.num c.cid a.toNat else s1, h, tag)

/-- The aligned 16-byte code line at an address, as far as it may be fetched. -/
def State.lineKeys (s : State) (a : Word) : List Nat :=
  (List.range 16).filterMap fun i =>
    match s.resolve (s.rightsOf s.core) .fetch ((a &&& ~~~15).toNat + i) with
    | .ok k => some k
    | .error _ => none

/-- A code line that the core enters is fetched whole: single-bit errors in it are corrected (R165), and an uncorrectable one, in a part
that is not executed now, is logged for management as deferred (R323). DESIGN CHOICE: a line is an aligned block of 16 bytes, as the prefetch buffer holds. -/
def State.noteLine (s : State) : State :=
  let c := s.core
  if c.passer &&& ~~~15 = c.pc &&& ~~~15 then s
  else
    let s1 := s.correct (s.lineKeys c.pc)
    if !s.poison.isEmpty && (s.lineKeys c.pc).any fun k => s.poisoned k 1 then s1.logEvent c.num 5 c.pc else s1

/-- Fetches the instruction at pc (R26), with the page rule and the entry rule of R206 in program mode. DESIGN CHOICE (log 129): a
fault of the second halfword, or its page, is reported before an entry to a page of another domain. -/
def State.fetch (s : State) : Except (Cause × Word) (State × Nat) :=
  let pc := s.core.pc
  let program := s.core.mode == .program
  match s.fetchHalf pc with
  | .error e => .error e
  | .ok (s1, h0, t0) =>
    if h0 % 2 = 0 then
      if program && t0 != s.core.domain then .error (.gate, s.core.passer) else .ok (s1.noteLine, h0)
    else
      match s1.fetchHalf (pc + 2) with
      | .error e => .error e
      | .ok (s2, h1, t1) =>
        if program && t1 != t0 then .error (.gate, pc + 2)
        else if program && t0 != s.core.domain then .error (.gate, s.core.passer)
        else .ok (s2.noteLine, h1 * 65536 + h0)

/-- The LPE of the innermost active level (R63). -/
def Csrs.innerEnd (c : Csrs) : Option Word :=
  if c.lpc1 ≠ 0 then some c.lpe1 else if c.lpc0 ≠ 0 then some c.lpe0 else none

/-- Whether n bytes at pc straddle that LPE (R67). -/
def straddles (c : Csrs) (pc : Word) (n : Nat) : Option Word :=
  match c.innerEnd with
  | some e => if pc.toNat < e.toNat ∧ e.toNat < pc.toNat + n then some e else none
  | none => none

/-- The checks of R43 between decoding and the guard: the fault, and its value. -/
def Core.precheck (c : Core) (i : Instr) (w : Nat) : Option (Cause × Word) :=
  if c.mode == .program && monOnly i then some (.illegal, nat64 w)
  else if (match i.profile with | some b => !c.declared.getLsbD b | none => false) then
    some (.profile, nat64 w)
  else
    match straddles c.csr c.pc i.length with
    | some e => some (.loopst, e)
    | none => none

/-- Whether an instruction's guard lets it execute (R30). -/
def Core.executes (c : Core) (i : Instr) : Bool := match i.guard? with | some g => c.cond g | none => true

/-- Whether an instruction that executes names a pending register (R139). -/
def Core.namesPending (c : Core) (i : Instr) : Bool :=
  c.executes i &&
    (i.xregs.any (fun r => c.pendX.getLsbD r.val) || i.vregs.any fun r => c.pendV.getLsbD r.val)

/-- What the core in focus does next. -/
inductive Admitted where
  | run (i : Instr)
  | reserved (w : BitVec 32)
  | fetchFault (cause : Cause) (val : Word)
  | decodeFault (cause : Cause) (val : Word)
  | stall
  deriving DecidableEq, Repr

/-- Whether a later write touches the bytes of a weak load: any on a UN page, on another one of an engine or from outside. -/
def State.overtaken (s : State) (l : LateLoad) : Bool :=
  s.hist.any fun e => decide (l.asOf < e.stamp) && (l.un || e.src.route != .core) && !(e.touched l.keys).isEmpty

/-- The value of a load that is performed once more. -/
def State.rebind (s : State) (l : LateLoad) (v : Nat) : State :=
  match l.dest with
  | .scalar d sext => s.wx d (if sext then sextNat (8 * l.size) v else nat64 v)
  | .lanes d is => s.wv d { s.rv d with bits := is.foldl (fun b i => setLane b (8 * l.size) i v) (s.rv d).bits }

/-- A weak load whose destination the next instruction names has its last performance now: its value is that of the first or,
where a write has overtaken it, of this one (R184, R185, R191), which the replay log holds too (R322). It is performed on the bytes
it was checked for. -/
def State.bindLate (s : State) (l : LateLoad) : State :=
  let s0 : State := { s with core := { s.core with views := { s.core.views with
    late := s.core.views.late.filter fun e => e != l } } }
  if !s0.overtaken l then s0
  else
    let (s1, n) := s0.draw
    if !Config.freeBit n then s1
    else if l.keys.any fun k => s1.poisoned k 1 then s1
    else
      let (s2, v) := s1.weakReadKeys l.un l.keys
      (s2.rebind l v).noteAccess l.adr true (nat64 v)

/-- Whether the destination of a load is among some registers. -/
def LateLoad.into (l : LateLoad) (xs : List XReg) (vs : List VReg) : Bool :=
  match l.dest with
  | .scalar d _ => xs.contains d
  | .lanes d _ => vs.contains d

/-- Before code that names registers: the loads into them are bound, and the operations whose tokens they are count as observed
(R139, R191). -/
def State.useNamed (s : State) (xs : List XReg) (vs : List VReg) : State :=
  let s1 := (s.core.views.late.filter fun l => l.into xs vs).foldl State.bindLate s
  { s1 with core := s1.core.observe fun e => e.1 != 0 && xs.contains e.1 }

/-- Before an instruction that executes: it uses the registers it names. -/
def State.useRegs (s : State) (i : Instr) : State := if s.core.executes i then s.useNamed i.xregs i.vregs else s

/-- Fetch and decode at pc (R43). -/
def State.decodeNext (s : State) : State × Admitted :=
  match s.fetch with
  | .error (c, v) => (s, .fetchFault c v)
  | .ok (s1, w) =>
    match decodeWord w with
    | .error _ => (s1, .reserved (BitVec.ofNat 32 w))
    | .ok i =>
      match s1.core.precheck i w with
      | some (c, v) => (s1, .decodeFault c v)
      | none => if s1.core.namesPending i then (s1, .stall) else (s1.useRegs i, .run i)

/-- Whether a core waits in CAL.RUN for the team's last run to be over, and it is (R289): it executes CAL.RUN again. DEDUCED: a
CAL.RUN that comes while that run still completes, or ends, waits at the blocking point for the start of its own. -/
def State.calWaits (s : State) (c : Core) : Bool :=
  match (s.coreThread c).bind fun t => (s.team? t.team).map fun tm => (t, tm) with
  | some (t, tm) => (tm.calMember t.rank).isNone && tm.cal.state < 2 && tm.cal.ending.isNone
  | none => false

/-- Whether the core in focus issues: it has been released from reset (R25), it is not stopped, nor halted but for an instruction
whose home has its request already (R321), nor is its context halted (R357), its thread is not being ended, it does not wait for another's step, and as a follower it has a step of its leader to execute (R140). -/
def State.issues (s : State) : Bool :=
  let c := s.core
  !c.held && !c.stopped && !(c.dbg.halted && c.request.isNone) && !(match s.coreThread c with | some t => t.ending || t.ended | none => false) &&
    !(c.mode == .program && (s.ctx c.cid).halted) &&
    !(c.mode == .program && c.convoy == .attached && c.trail == []) &&
    (match c.wait with
    | none => true
    | some (.cal _) => s.calWaits c
    | some _ => false)

end Sys2Proof.Machine
end

