-- ==== Sys2Proof/Machine/Control.lean ====
section
/-! DEFINITION. Control transfer, hardware loops, gates and the system instructions (R54 to R57, R63 to R73, R205 to
R209, R307), with the two faults that fetch itself raises. -/
namespace Sys2Proof.Machine
open Sys2Proof

/-- A fetched word that names no instruction (R42). -/
def execReservedEncoding (w : BitVec 32) (s : State) : Out := s.fault .illegal (w.zeroExtend 64)

/-- A fetch that fails (R21, R26, R206): the trap's pc is the instruction's address. -/
def execInstructionFetchFault (cause : Cause) (val : Word) (s : State) : Out := s.fault cause val

def execBr (g : Guard) (off : BitVec 21) (s : State) : Out :=
  .next (if s.core.cond g then s.jump (pcRel s.core.pc off) else s.retire 4)

def execJal (d : XReg) (off : BitVec 20) (s : State) : Out :=
  .next ((s.wx d (s.core.pc + 4)).jump (pcRel s.core.pc off))

/-- JALR and h.jmp, of n bytes (R56). -/
def State.jumpReg (s : State) (n : Word) (d : XReg) (t : Word) : Out :=
  if t.getLsbD 0 then s.fault .align t else .next ((s.wx d (s.core.pc + n)).jump t)

def execJalr (d a : XReg) (imm : BitVec 12) (s : State) : Out := s.jumpReg 4 d (s.core.eaI a imm)
def execHJmp (b : XReg) (s : State) : Out := s.jumpReg 2 0 (s.rx b)

/-- LOOP and LOOPI with their count and the body's end (R64). -/
def State.startLoop (s : State) (count : Word) (tooMany : Bool) (e : Word) : Out :=
  let c := s.core.csr
  if c.lpc1 ≠ 0 ∨ tooMany ∨ (c.lpc0 ≠ 0 ∧ c.lpe0.toNat < e.toNat) then s.fault .loopst 0
  else if count = 0 then
    match s.fetchHalf e with
    | .error (f, _) => s.fault f e
    | .ok (s1, h, _) => .next (s1.retireWith (e + (if h % 2 = 1 then 4 else 2)) false true)
  else
    let start := s.core.pc + 4
    let c' : Csrs :=
      if c.lpc0 = 0 then { c with lpc0 := count, lps0 := start, lpe0 := e }
      else { c with lpc1 := count, lps1 := start, lpe1 := e }
    .next ((s.setCsr c').retire 4)

def execLoop (a : XReg) (e : BitVec 12) (s : State) : Out :=
  s.startLoop (s.rx a) (decide (2 ^ 32 ≤ (s.rx a).toNat)) (s.core.pc + e.zeroExtend 64 * 2)

def execLoopi (c : BitVec 12) (e : BitVec 10) (s : State) : Out :=
  s.startLoop (c.zeroExtend 64) false (s.core.pc + e.zeroExtend 64 * 2)

/-- TRAP and BRK: the instruction retires, then the trap is taken at the address that would come next (R70). -/
def State.request (s : State) (cause : Cause) (val : Word) : Out :=
  if s.core.mode = .monitor then s.fault .illegal val
  else
    let s1 := s.retire 4
    .next (s1.trapEntry cause s1.core.pc val)

def execTrap (imm : BitVec 12) (s : State) : Out := s.request .trapi (imm.zeroExtend 64)
def execBrk (imm : BitVec 12) (s : State) : Out := s.request .brk (imm.zeroExtend 64)

/-- MCALL retires and enters monitor mode (R71, R346). -/
def execMcall (imm : BitVec 12) (s : State) : Out :=
  if s.core.mode = .monitor then s.fault .illegal (imm.zeroExtend 64)
  else
    let s1 := s.retire 4
    .next (s1.enterMonitor 1 .mcall (imm.zeroExtend 64) s1.core.pc)

/-- IDLE with the latch set clears it and retires (R72). -/
def State.idleOut (s : State) : State := { s with core := { s.core with wake := false } }.retire 4

def execIdle (s : State) : Out := .next (if s.core.wake then s.idleOut else s.block .idle true)

/-- A wake event at a core, if one is sent: by the slice controller, or for a trap that must be delivered (R72); then a core in
IDLE whose latch is set goes on. -/
def execIdleWake (w : WakeAt) (s : State) : Out :=
  let s := if w.sent then s.setWake .module w.core else s
  .next (s.onCore w.core fun s => if s.core.wait = some .idle ∧ s.core.wake then s.idleOut else s)

def execYield (s : State) : Out := .next { s with core := { s.core with wait := some (.yield s.clock) } }

/-- The end of YIELD's 16 cycles (R73). -/
def execYieldEnd (c : Nat) (s : State) : Out :=
  .next (s.onCore c fun s =>
    match s.core.wait with
    | some (.yield since) => if since + 16 ≤ s.clock then s.retire 4 else s
    | _ => s)

/-- Checks the fetch of a transfer's target and that its page has a tag (R208, R307): the cause, or none. -/
def State.entryFault (s : State) (t : Word) (tag : Byte) : Option Cause :=
  match s.fetchTag (s.rightsOf s.core) t with
  | .error (c, _) => some c
  | .ok u => if u = tag then none else some .gate

/-- Retires a transfer into a domain. -/
def State.enterDomain (s : State) (t : Word) (d : Byte) : State :=
  let s1 := s.gateJump t
  { s1 with core := { s1.core with domain := d } }

def execTret (s : State) : Out :=
  let k := s.core.csr
  let pdom : Byte := BitVec.ofNat 8 (bitsOf k.tflags 15 8)
  if s.core.domain ≠ 255 then s.fault .rights k.tpc
  else if k.tpc.getLsbD 0 then s.fault .align k.tpc
  else
    match s.entryFault k.tpc pdom with
    | some c => s.fault c k.tpc
    | none => .next ((s.setCsr { k with tflags := k.tflags &&& ~~~1 }).enterDomain k.tpc pdom)

def execGate (s : State) : Out := .next (s.retire 4)

/-- Pushes a gate frame; the 16 most recent stay in the core (R209). -/
def Core.pushFrame (c : Core) (f : Frame) : Core :=
  let all := f :: c.gateHw
  { c with gateHw := all.take 16, gateSpill := all.drop 16 ++ c.gateSpill }

/-- Pops the top frame. -/
def Core.popFrame (c : Core) : Core :=
  { c with gateHw := c.gateHw.drop 1 ++ c.gateSpill.take 1, gateSpill := c.gateSpill.drop 1 }

/-- The two halfwords at t and the tag of its page, under the fetch checks (R207). -/
def State.fetchWordAt (s : State) (t : Word) : Except Cause (State × Nat × Byte) :=
  match s.fetchHalf t with
  | .error (c, _) => .error c
  | .ok (s1, h0, tag) =>
    match s1.fetchHalf (t + 2) with
    | .error (c, _) => .error c
    | .ok (s2, h1, _) => .ok (s2, h1 * 65536 + h0, tag)

/-- CALLG (R207). -/
def execCallg (a : XReg) (imm : BitVec 12) (s : State) : Out :=
  let t := s.core.eaI a imm
  if t.getLsbD 0 then s.fault .align t
  else
    match s.fetchWordAt t with
    | .error c => s.fault c t
    | .ok (s1, w, tag) =>
      if w ≠ 0x2D then s1.fault .gate t
      else if s1.core.gdepth = 256 then s1.fault .gstack 256
      else
        let s2 : State := { s1 with core := s1.core.pushFrame ⟨s1.core.pc + 4, s1.core.domain⟩ }
        .next (s2.enterDomain t tag)

/-- The loans that end when the gate depth falls to n (R208). -/
def Core.endLoans (c : Core) (n : Nat) : Core :=
  { c with loans := c.loans.map fun l => if l.state = .active ∧ n ≤ l.depth then { l with state := .ended } else l }

def execRetg (s : State) : Out :=
  match s.core.gateHw with
  | [] => s.fault .gstack 0
  | f :: _ =>
    match s.entryFault f.ret f.caller with
    | some c => s.fault c f.ret
    | none =>
      let k := s.core.popFrame
      let s1 : State := { s with core := k.endLoans k.gdepth }
      .next (s1.enterDomain f.ret f.caller)

end Sys2Proof.Machine
end

