-- ==== Sys2Proof/Machine/CsrOps.lean ====
section
/-! DEFINITION. The control and status registers (R12 to R17, R61, R62, R66, R90, R94, R148, R223, R229, R241, R274,
R306, R347) and the CSR instructions. -/
namespace Sys2Proof.Machine
open Sys2Proof

/-- The most elements a row of a tile of this format holds (R222). -/
def maxCols : Fmt → Nat
  | .i8 | .fp8e4 | .fp8e5 | .fp8e4s | .fp8e5s => 32
  | .bf16 | .fp16 => 16
  | .fp32 => 8
  | .t2 => 128
  | .t5 => 160
  | _ => 0

/-- TAG of a tile shape (R221); the value 15 names no format. -/
def tTag (t : Word) : Option Fmt := fmtOf (bitsOf t 19 16)

/-- Whether bits [20:0] of a shape are valid (R222). -/
def shapeValid (t : Word) : Bool :=
  let scl := tScl t
  (tRows t == 0 && tCols t == 0 && bitsOf t 19 16 == 0 && !scl) ||
    (decide (1 ≤ tRows t ∧ tRows t ≤ 32) &&
      match tTag t with
      | some f => decide (1 ≤ tCols t ∧ tCols t ≤ maxCols f) && scl == (f == .fp8e4s || f == .fp8e5s)
      | none => false)

/-- The value of a CSR; none for an unassigned number (R12, R13). -/
def State.csrRead (s : State) (n : Nat) : Option Word :=
  let c := s.core
  let k := c.csr
  if 0x20 ≤ n ∧ n < 0x28 then some (k.tc.get (Fin.ofNat 8 (n - 0x20)))
  else if 0x40 ≤ n ∧ n < 0x50 then some (k.tkillv.get (Fin.ofNat 16 (n - 0x40)))
  else if 0x140 ≤ n ∧ n < 0x150 then some (nat64 (k.cnt.get (Fin.ofNat 16 (n - 0x140))))
  else
    match n with
    | 0x000 => some k.fcsr | 0x001 => some k.vl | 0x002 => some k.ccsel
    | 0x003 => some k.lpc0 | 0x004 => some k.lps0 | 0x005 => some k.lpe0
    | 0x006 => some k.lpc1 | 0x007 => some k.lps1 | 0x008 => some k.lpe1
    | 0x010 => some k.tkmode | 0x011 => some k.tbnd
    | 0x030 => some k.redmask | 0x031 => some k.redtmo | 0x032 => some k.mstat | 0x033 => some k.xbar
    | 0x100 => some (nat64 (s.clock - c.resetAt)) | 0x101 => some s.time | 0x102 => some k.instret
    | 0x110 => some k.rank | 0x111 => some k.teamsz | 0x112 => some k.stage | 0x113 => some k.gangid
    | 0x114 => some (nat64 c.num)
    | 0x120 => some 32 | 0x121 => some 32 | 0x122 => some 1024 | 0x123 => some 0x3F
    | 0x124 => some (c.vtags false) | 0x125 => some (c.vtags true)
    | 0x126 => some k.bargen | 0x127 => some k.baradr | 0x128 => some k.ttask
    | 0x130 => some (c.domain.zeroExtend 64) | 0x131 => some (nat64 c.gdepth)
    | 0x132 => some k.accbase | 0x133 => some k.acclim
    | 0x200 => some k.tvec | 0x201 => some k.tcause | 0x202 => some k.tpc | 0x203 => some k.tval
    | 0x204 => some k.tring | 0x205 => some k.tflags
    | 0x300 => some k.dkentry | 0x301 => some k.dkresume | 0x302 => some k.dkdata | 0x303 => some k.dkctx
    | 0x304 => some (k.dkwork.get 0) | 0x305 => some (k.dkwork.get 1)
    | 0x306 => some (k.dkwork.get 2) | 0x307 => some (k.dkwork.get 3)
    | _ => none

/-- The loop CSRs, whose written value replaces what the instruction's own back-edge leaves (R66). -/
def isLoopCsr (n : Nat) : Bool := decide (3 ≤ n ∧ n ≤ 8)

/-- The fault a written value makes (R14, R229, R274). -/
def csrRefuses (n : Nat) (v : Word) : Bool :=
  (n == 0 && decide (5 ≤ bitsOf v 2 0)) || (n == 0x10 && decide (2 ≤ bitsOf v 1 0)) ||
    (decide (0x20 ≤ n ∧ n < 0x28) && !shapeValid v)

/-- Stores a value into a CSR: its fields only; a read-only CSR drops the write (R9, R12). -/
def Csrs.store (k : Csrs) (n : Nat) (v : Word) : Csrs :=
  if 0x20 ≤ n ∧ n < 0x28 then { k with tc := k.tc.set (Fin.ofNat 8 (n - 0x20)) (v &&& tcMask) }
  else if 0x40 ≤ n ∧ n < 0x50 then { k with tkillv := k.tkillv.set (Fin.ofNat 16 (n - 0x40)) (v &&& ~~~1) }
  else
    match n with
    | 0x000 => { k with fcsr := v &&& 0x1FF }
    | 0x001 => { k with vl := if v.toNat < 32 then v else 32 }
    | 0x002 => { k with ccsel := v &&& 0x1F }
    | 0x003 => { k with lpc0 := v &&& 0xFFFFFFFF }
    | 0x004 => { k with lps0 := v &&& ~~~1 }
    | 0x005 => { k with lpe0 := v &&& ~~~1 }
    | 0x006 => { k with lpc1 := v &&& 0xFFFFFFFF }
    | 0x007 => { k with lps1 := v &&& ~~~1 }
    | 0x008 => { k with lpe1 := v &&& ~~~1 }
    | 0x010 => { k with tkmode := v &&& 3 }
    | 0x011 => { k with tbnd := v }
    | 0x030 => { k with redmask := v &&& 0xFFFFFFFF }
    | 0x031 => { k with redtmo := v &&& 0xFFFFF }
    | 0x032 => { k with mstat := (v &&& 3) ||| (k.mstat &&& 4) }
    | 0x033 => { k with xbar := v &&& ~~~0xE }
    | 0x200 => { k with tvec := v }
    | 0x201 => { k with tcause := v &&& 0xFF }
    | 0x202 => { k with tpc := v }
    | 0x203 => { k with tval := v }
    | 0x204 => { k with tring := v }
    | 0x205 => { k with tflags := v &&& 0xFF03 }
    | 0x301 => { k with dkresume := v }
    | 0x302 => { k with dkdata := v }
    | 0x303 => { k with dkctx := v &&& 0xFFF000000000003F }
    | 0x304 => { k with dkwork := k.dkwork.set 0 v }
    | 0x305 => { k with dkwork := k.dkwork.set 1 v }
    | 0x306 => { k with dkwork := k.dkwork.set 2 v }
    | 0x307 => { k with dkwork := k.dkwork.set 3 v }
    | _ => k

def State.csrStore (s : State) (n : Nat) (v : Word) : State := s.setCsr (s.core.csr.store n v)

/-- The access rules of R13, with the CSR number as the reported value. -/
def State.csrFault (s : State) (n : Nat) : Option Cause :=
  if (s.csrRead n).isNone then some .illegal
  else if s.core.mode = .monitor then none
  else if 0x300 ≤ n then some .illegal
  else if 0x200 ≤ n ∧ n ≤ 0x205 ∧ s.core.domain ≠ 255 then some .rights
  else none

/-- A CSR instruction (R61): the old value goes to xd; f gives the new one, if it writes. -/
def State.csrOp (s : State) (d : XReg) (n : Nat) (f : Word → Option Word) : Out :=
  match s.csrFault n with
  | some c => s.fault c (nat64 n)
  | none =>
    let old := (s.csrRead n).getD 0
    let s := if n = 0x100 ∨ n = 0x101 then s.logExt s.core (.core s.core.num) 8 old else s
    match f old with
    | none => .next ((s.wx d old).retire 4)
    | some v =>
      if csrRefuses n v then s.fault .illegal v
      else if isLoopCsr n then .next (((s.wx d old).retire 4).csrStore n v)
      else .next (((s.csrStore n v).wx d old).retire 4)

def execCsrr (d : XReg) (n : BitVec 12) (s : State) : Out := s.csrOp d n.toNat fun _ => none
def execCsrw (d : XReg) (n : BitVec 12) (a : XReg) (s : State) : Out := s.csrOp d n.toNat fun _ => some (s.rx a)
def execCsrs (d : XReg) (n : BitVec 12) (a : XReg) (s : State) : Out :=
  s.csrOp d n.toNat fun old => some (old ||| s.rx a)
def execCsrc (d : XReg) (n : BitVec 12) (a : XReg) (s : State) : Out :=
  s.csrOp d n.toNat fun old => some (old &&& ~~~(s.rx a))

end Sys2Proof.Machine
end

