-- ==== Sys2Proof/Machine/LoadStore.lean ====
section
/-! DEFINITION. Scalar loads and stores (R58 to R60), strong loads and stores (R176, R177, R312), atomics (R178, R179),
fences (R180, R181), accesses that arrive from peers (R166) and inbound accesses (R191, R193). -/
namespace Sys2Proof.Machine
open Sys2Proof

/-- The value of a load: sext or zext of its n bytes (R58). -/
def loaded (sext : Bool) (n v : Nat) : Word := if sext then sextNat (8 * n) v else nat64 v

/-- A weak load of n bytes (R58); its destination may get the value of a later performance, but on an SO page. -/
def State.load (s : State) (len : Word) (d : XReg) (a : Word) (n : Nat) (sext : Bool) : Out :=
  s.loadThen .weak a n fun s1 v =>
    let s2 := s1.wx d (loaded sext n v)
    (if d = 0 ∨ s.pageKindIs 0 a then s2 else s2.noteLate (.scalar d sext) a n).retire len

def execLb (d a : XReg) (imm : BitVec 12) (s : State) : Out := s.load 4 d (s.core.eaI a imm) 1 true
def execLbu (d a : XReg) (imm : BitVec 12) (s : State) : Out := s.load 4 d (s.core.eaI a imm) 1 false
def execLh (d a : XReg) (imm : BitVec 12) (s : State) : Out := s.load 4 d (s.core.eaI a imm) 2 true
def execLhu (d a : XReg) (imm : BitVec 12) (s : State) : Out := s.load 4 d (s.core.eaI a imm) 2 false
def execLw (d a : XReg) (imm : BitVec 12) (s : State) : Out := s.load 4 d (s.core.eaI a imm) 4 true
def execLwu (d a : XReg) (imm : BitVec 12) (s : State) : Out := s.load 4 d (s.core.eaI a imm) 4 false
def execLd (d a : XReg) (imm : BitVec 12) (s : State) : Out := s.load 4 d (s.core.eaI a imm) 8 false
def execHLd (d b : XReg) (s : State) : Out := s.load 2 d (s.rx b) 8 false

/-- A guarded store of n bytes of xb (R59, R177). -/
def State.store (s : State) (len : Word) (o : Ordering) (go : Bool) (b : XReg) (a : Word) (n : Nat) : Out :=
  if go then s.storeThen o a n (s.rx b) fun s1 => s1.retire len else .next s.skip

def execSb (g : Guard) (b a : XReg) (off : BitVec 8) (s : State) : Out :=
  s.store 4 .weak (s.core.cond g) b (s.core.eaScaled a off 1) 1
def execSh (g : Guard) (b a : XReg) (off : BitVec 8) (s : State) : Out :=
  s.store 4 .weak (s.core.cond g) b (s.core.eaScaled a off 2) 2
def execSw (g : Guard) (b a : XReg) (off : BitVec 8) (s : State) : Out :=
  s.store 4 .weak (s.core.cond g) b (s.core.eaScaled a off 4) 4
def execSd (g : Guard) (b a : XReg) (off : BitVec 8) (s : State) : Out :=
  s.store 4 .weak (s.core.cond g) b (s.core.eaScaled a off 8) 8
def execHSd (d b : XReg) (s : State) : Out := s.store 2 .weak true b (s.rx d) 8

def execSwS (g : Guard) (sc : Scope) (b a : XReg) (off : BitVec 7) (s : State) : Out :=
  s.store 4 (.strong false sc) (s.core.cond g) b (s.core.eaScaled a off 4) 4
def execSdS (g : Guard) (sc : Scope) (b a : XReg) (off : BitVec 7) (s : State) : Out :=
  s.store 4 (.strong false sc) (s.core.cond g) b (s.core.eaScaled a off 8) 8
def execSwL (g : Guard) (sc : Scope) (b a : XReg) (off : BitVec 7) (s : State) : Out :=
  s.store 4 (.strong true sc) (s.core.cond g) b (s.core.eaScaled a off 4) 4
def execSdL (g : Guard) (sc : Scope) (b a : XReg) (off : BitVec 7) (s : State) : Out :=
  s.store 4 (.strong true sc) (s.core.cond g) b (s.core.eaScaled a off 8) 8

/-- A strong load whose value returns within 1 µs (R176). -/
def State.strongLoad (s : State) (acquire : Bool) (sc : Scope) (d : XReg) (a : Word) (n : Nat) : Out :=
  s.loadThen (.strong acquire sc) a n fun s1 v => (s1.wx d (loaded true n v)).retire 4

def execLwS (sc : Scope) (d a : XReg) (off : BitVec 10) (s : State) : Out :=
  s.strongLoad false sc d (s.core.eaScaled a off 4) 4
def execLdS (sc : Scope) (d a : XReg) (off : BitVec 10) (s : State) : Out :=
  s.strongLoad false sc d (s.core.eaScaled a off 8) 8
def execLwA (sc : Scope) (d a : XReg) (off : BitVec 10) (s : State) : Out :=
  s.strongLoad true sc d (s.core.eaScaled a off 4) 4
def execLdA (sc : Scope) (d a : XReg) (off : BitVec 10) (s : State) : Out :=
  s.strongLoad true sc d (s.core.eaScaled a off 8) 8

/-- A scalar load: its destination, address and size, whether it sign-extends, and its ordering by itself. -/
def scalarLoadOf (c : Core) : Instr → Option (XReg × Word × Nat × Bool × Ordering)
  | .lwS sc d a off => some (d, c.eaScaled a off 4, 4, true, .strong false sc)
  | .lwA sc d a off => some (d, c.eaScaled a off 4, 4, true, .strong true sc)
  | .ldS sc d a off => some (d, c.eaScaled a off 8, 8, true, .strong false sc)
  | .ldA sc d a off => some (d, c.eaScaled a off 8, 8, true, .strong true sc)
  | .lb d a imm => some (d, c.eaI a imm, 1, true, .weak)
  | .lbu d a imm => some (d, c.eaI a imm, 1, false, .weak)
  | .lh d a imm => some (d, c.eaI a imm, 2, true, .weak)
  | .lhu d a imm => some (d, c.eaI a imm, 2, false, .weak)
  | .lw d a imm => some (d, c.eaI a imm, 4, true, .weak)
  | .lwu d a imm => some (d, c.eaI a imm, 4, false, .weak)
  | .ld d a imm => some (d, c.eaI a imm, 8, false, .weak)
  | .hLd d b => some (d, c.rx b, 8, false, .weak)
  | _ => none

/-- The scope of an acquire. -/
def Ordering.acquires : Ordering → Option Scope
  | .strong true sc => some sc
  | _ => none

/-- The length of the instruction at pc (R26). -/
def State.lenHere (s : State) : Word :=
  match s.fetch with
  | .ok (_, w) => if w % 2 = 1 then 4 else 2
  | .error _ => 4

/-- A strong load that has passed its checks leaves the core and has not returned: it becomes a blocking point, its
destination pending, holding the loans it carries (R213, R312). -/
def State.delayLoad (s : State) (d : XReg) (a : Word) (n : Nat) (sext : Bool) (ks : List Nat) (acq : Option Scope) : State :=
  let c := s.core
  let r := s.rightsOf c
  let (s1, id) := s.fresh
  let o : Op := ⟨id, c.owner, 0, 0, none, c.pc, r, heldEntries r, .strong d a n sext ks acq, .started, 0, false,
    ⟨View.empty, View.empty⟩, c.inArea.isSome⟩
  let s2 : State := { s1 with core := c.takeOp o, ops := s1.ops ++ [o] }
  s2.block (.strongLoad id d a) true

/-- A strong load at the pc of core c, to host memory or a peer module, is not answered within 1 µs (R312); every load from
an SO page is strong (R175, R185). -/
def execStrongLoadTimeout (c : Nat) (s : State) : Out :=
  .next (s.onCore c fun s =>
    if !s.issues || s.core.wait.isSome then s
    else
      match s.decodeNext with
      | (s1, .run i) =>
        match scalarLoadOf s1.core i with
        | some (d, a, n, sext, ord) =>
          match s1.access .load a n with
          | .ok ks =>
            if s1.orderAt ord a != .weak && ks.all fun k => decide (2 ^ 50 ≤ k ∧ k < 2 ^ 52) then
              s1.delayLoad d a n sext ks ord.acquires
            else s
          | _ => s
        | none => s
      | _ => s)

/-- What a delayed strong load to bytes with these keys finds: its value, or the fault of step 5 or of a peer that was lost since it
was sent, also if that is a member again; its other checks were made when it was sent (R311, R368). -/
def State.arrival (s : State) (o : Op) (ks : List Nat) (a : Word) (n : Nat) (sext : Bool) : Except (Cause × Word) Word :=
  match o.phase, ks.findSome? s.lostAt with
  | .moved f _ v, _ => .error (f, v)
  | _, some g => .error (.peerlost, nat64 g)
  | _, none =>
    if ks.any fun k => s.poisoned k 1 then .error (.poison, a) else .ok (loaded sext n (natOfBytes (s.readKeys ks)))

/-- A delayed load leaves: its holds, and its value into xd or the save area, with what it has read and, if it acquires, what its
code's scope takes (R176, R188). One that its thread still waits for and that fails delivers nothing but its fault; one that a kill
has abandoned and that fails leaves a free value. -/
def State.arrive (s : State) (o : Op) (d : XReg) (ks : List Nat) (acq : Option Scope) (v : Option Word)
    (fault : Option (Cause × Word)) : State :=
  let away := s.isEvicted o.owner
  let hs := ks.map hostKey
  let l := s.writesTo hs
  let msg := messages l hs
  let view := match acq with | some sc => s.acquired sc o.owner msg | none => View.empty
  ((((s.reveal o.owner l hs).correct ks).dropOp o.id).deliverOp o fun k =>
    let k := k.dropHolds o.holds
    match v with
    | some w => (((k.noteRead true l hs msg s.stamp).orderSeen).orderView view).deliverWord away d w
    | none => { k.setPending d false with loadFault := fault }).logExt (s.ownerCore o.owner) (.core (s.homeOf o.owner)) 1 (v.getD 0)

/-- Core c's oldest delayed strong load arrives (R312, R316): it retires if the thread still waits for it on its core; a
fault is taken there, or, of an evicted thread, at its resumption. -/
def execStrongLoadArrive (c : Nat) (s : State) : Out :=
  .next (
    match s.ops.find? fun o => s.homeOf o.owner == c && (match o.body with | .strong _ _ _ _ _ _ => true | _ => false) with
    | none => s
    | some o =>
      match o.body with
      | .strong d a n sext ks acq =>
        let waits := (s.ownerCore o.owner).wait == some (.strongLoad o.id d a)
        let away := s.isEvicted o.owner
        let here := waits && !away
        match s.arrival o ks a n sext with
        | .ok v =>
          let s1 := s.arrive o d ks acq (some v) none
          if here then s1.onCore c fun s => s.retire s.lenHere else s1
        | .error (f, v) =>
          let (s1, free) := s.draw
          let s2 := s1.arrive o d [] acq (if waits then none else some (Config.freeWord free))
            (if waits ∧ away then some (f, v) else none)
          if here then s2.onCore c fun s => s.trap f v else s2
      | _ => s)

/-- The operation of an atomic (R178). -/
inductive Amo where
  | add | and | or | xor | min | max | minu | maxu | swap | cas
  deriving DecidableEq, Repr

/-- The new value at width n bytes; none where a CAS does not write (R178). -/
def amoNew (f : Amo) (n old b expect : Nat) : Option Nat :=
  let w := 8 * n
  match f with
  | .add => some ((old + b) % 2 ^ w)
  | .and => some (old &&& b)
  | .or => some (old ||| b)
  | .xor => some (old ^^^ b)
  | .min => some (if signedOf w b < signedOf w old then b else old)
  | .max => some (if signedOf w old < signedOf w b then b else old)
  | .minu => some (if b < old then b else old)
  | .maxu => some (if old < b then b else old)
  | .swap => some b
  | .cas => if old = expect then some b else none

/-- Whether the window of a byte admits an atomic (R171, R179); whether the host completes AtomicOps is its own
capability (R369). -/
def amoAdmitted (f : Amo) (key : Nat) : Bool :=
  if inRegs key then false
  else if inCxlIo key then (f == .add || f == .swap || f == .cas) && Config.hostAtomicOps
  else true

/-- Whether an order code acquires, whether it releases, and its scope (R32). -/
def amoOrder : AmoOrder → Bool × Bool × Scope
  | .rlxTeam => (false, false, .team)
  | .arTeam => (true, true, .team)
  | .rlxDev => (false, false, .dev)
  | .acqDev => (true, false, .dev)
  | .relDev => (false, true, .dev)
  | .arDev => (true, true, .dev)
  | .rlxSys => (false, false, .sys)
  | .arSys => (true, true, .sys)

/-- The checks of an atomic of n bytes, those of R174: NOATOMIC comes before uncorrectable data. -/
def State.accessAtomic (s : State) (f : Amo) (adr : Word) (n : Nat) : Acc :=
  let r := s.rightsOf s.core
  if adr.toNat % n ≠ 0 then .fault .align adr
  else
    match s.resolveSteps r .atomic adr n with
    | .error (c, v) => .fault c v
    | .ok ks => if !(ks.all (amoAdmitted f)) then .fault .noatomic adr else s.access .atomic adr n

/-- An atomic of n bytes at xa (R178): one indivisible step at the home. -/
def State.atomic (s : State) (f : Amo) (n : Nat) (os : AmoOrder) (p : PReg) (d b a : XReg) : Out :=
  if !s.rp p then .next s.skip
  else
    let adr := s.rx a
    let (acq, rel, sc) := amoOrder os
    match s.accessAtomic f adr n with
    | .fault c v => s.fault c v
    | .halt w => .next (s.watchHalt w)
    | .ok ks =>
      let (s0, old) := s.strongRead acq sc adr ks
      let s1 := s0.noteAccess adr true (nat64 old)
      let s2 := match amoNew f n old ((s.rx b).toNat % 2 ^ (8 * n)) ((s.rx d).toNat % 2 ^ (8 * n)) with
        | some v => (s1.noteCode ks).writeAtomic rel sc adr ks (bytesOfNat n v)
        | none => s1
      .next ((s2.wx d (loaded true n old)).retire 4)

def execAmoaddW (p : PReg) (os : AmoOrder) (d b a : XReg) (s : State) : Out := s.atomic .add 4 os p d b a
def execAmoandW (p : PReg) (os : AmoOrder) (d b a : XReg) (s : State) : Out := s.atomic .and 4 os p d b a
def execAmoorW (p : PReg) (os : AmoOrder) (d b a : XReg) (s : State) : Out := s.atomic .or 4 os p d b a
def execAmoxorW (p : PReg) (os : AmoOrder) (d b a : XReg) (s : State) : Out := s.atomic .xor 4 os p d b a
def execAmominW (p : PReg) (os : AmoOrder) (d b a : XReg) (s : State) : Out := s.atomic .min 4 os p d b a
def execAmomaxW (p : PReg) (os : AmoOrder) (d b a : XReg) (s : State) : Out := s.atomic .max 4 os p d b a
def execAmominuW (p : PReg) (os : AmoOrder) (d b a : XReg) (s : State) : Out := s.atomic .minu 4 os p d b a
def execAmomaxuW (p : PReg) (os : AmoOrder) (d b a : XReg) (s : State) : Out := s.atomic .maxu 4 os p d b a
def execAmoswapW (p : PReg) (os : AmoOrder) (d b a : XReg) (s : State) : Out := s.atomic .swap 4 os p d b a
def execCasW (p : PReg) (os : AmoOrder) (d b a : XReg) (s : State) : Out := s.atomic .cas 4 os p d b a
def execAmoaddD (p : PReg) (os : AmoOrder) (d b a : XReg) (s : State) : Out := s.atomic .add 8 os p d b a
def execAmoandD (p : PReg) (os : AmoOrder) (d b a : XReg) (s : State) : Out := s.atomic .and 8 os p d b a
def execAmoorD (p : PReg) (os : AmoOrder) (d b a : XReg) (s : State) : Out := s.atomic .or 8 os p d b a
def execAmoxorD (p : PReg) (os : AmoOrder) (d b a : XReg) (s : State) : Out := s.atomic .xor 8 os p d b a
def execAmominD (p : PReg) (os : AmoOrder) (d b a : XReg) (s : State) : Out := s.atomic .min 8 os p d b a
def execAmomaxD (p : PReg) (os : AmoOrder) (d b a : XReg) (s : State) : Out := s.atomic .max 8 os p d b a
def execAmominuD (p : PReg) (os : AmoOrder) (d b a : XReg) (s : State) : Out := s.atomic .minu 8 os p d b a
def execAmomaxuD (p : PReg) (os : AmoOrder) (d b a : XReg) (s : State) : Out := s.atomic .maxu 8 os p d b a
def execAmoswapD (p : PReg) (os : AmoOrder) (d b a : XReg) (s : State) : Out := s.atomic .swap 8 os p d b a
def execCasD (p : PReg) (os : AmoOrder) (d b a : XReg) (s : State) : Out := s.atomic .cas 8 os p d b a

/-- Whether an operation's accesses lie on a path a FENCE names and are still to be performed (R181). -/
def Op.onPath (o : Op) (q : Paths) : Bool :=
  (match o.body with
    | .matrix _ _ _ _ => q.m
    | .cpy _ _ _ _ | .cpyf _ _ _ _ | .tcpy _ _ _ _ => q.x
    | .bte _ _ _ _ _ => q.b
    | _ => false) &&
    (match o.phase with | .moved _ _ _ | .fetched _ _ => false | _ => true)

/-- A FENCE retires once the core's earlier operations on the engine paths it names have performed their accesses. -/
def State.fence (s : State) (kind : FenceKind) (sc : Scope) (q : Paths) : State :=
  if (s.opsOf s.core.owner).any fun o => o.onPath q then s.stallOn .fence else (s.fenceViews kind sc q).retire 4

def execFence (kind : FenceKind) (sc : Scope) (paths : Paths) (s : State) : Out := .next (s.fence kind sc paths)

/-- Runs f on the instruction at pc of core c while it stalls there on the given thing. -/
def State.whileStalled (s : State) (c : Nat) (on : StallOn) (f : Instr → State → State) : State :=
  s.onCore c fun s =>
    match s.core.stall with
    | some st =>
      if st.on = on ∧ s.issues then
        match s.decodeNext with
        | (s1, .run i) => f i s1
        | _ => s
      else s
    | none => s

def execFenceDrain (c : Nat) (s : State) : Out :=
  .next (s.whileStalled c .fence fun i s =>
    match i with
    | .fence k sc q => s.fence k sc q
    | _ => s)

/-- A peer access of core c's thread arrives at a home core and is checked there against its LPT with the rights the
issuer carries (R130, R166): a load or an atomic reads, a store writes; a refused one is performed nowhere. -/
def execPeerAccessArrival (c home off : Nat) (need : Need) (data : List Byte) (s : State) : Out :=
  .next (
    let k := s.getCore c
    let r := s.rightsOf k
    let t := s.coreThread k
    let live := s.threads.any fun u => some u.team == t.map (·.team) && u.home == home && !u.ended
    if need = .fetch ∨ r.monitor ∨ !live then s
    else
      let rank := ((s.threads.find? fun u => some u.team == t.map (·.team) && u.home == home).map (·.rank)).getD 0
      match s.resolveAll r need (nat64 (0x100000000 + rank * 2 ^ 18 + off)) data.length with
      | .error _ => s
      | .ok ks =>
        if needWrites need then
          s.storeKeys ⟨.core, some k.owner, 0, [], false⟩ ks data
        else (s.correct ks).logExt k (.core home) 1 (wordOfBytes (s.readKeys ks)))

/-- Host memory, through either window (R171). -/
def inHost (k : Nat) : Bool := decide (2 ^ 50 ≤ k ∧ k < 3 * 2 ^ 50)

/-- What an access from outside may name: HBM but for the spill areas, which no access of program mode reaches (R271); for a
peer's core, through a checked mapping, a register of the window (R329, R350; a host's register write is an event of its own, which
names the host, R361); and for the host itself (sources 0 and 1) its own memory (R191, R193, R369). -/
def State.inboundOk (s : State) (at_ : InboundAt) (n : Nat) : Bool :=
  let k := at_.loc
  (inHbm k && inHbm (k + n - 1) && !s.monitorBytes k n) ||
    (decide (2 ≤ at_.src) && at_.checked && inRegs k && k % 8 == 0 && n == 8 && at_.op == .store) ||
    (decide (at_.src < 2) && inHost k && inHost (k + n - 1))

/-- Whether a byte of HBM is sealed under the key slot of a protected context (R355). -/
def State.sealedAt (s : State) (k : Nat) : Bool :=
  inHbm k && s.sec.contexts.any fun x => x.keySlot.isSome && s.holdsGranule x.cid k

/-- The bytes an access from outside leaves, given those it finds; none where it writes nothing (R193). -/
def inboundNew (op : InboundOp) (old data : List Byte) : Option (List Byte) :=
  let n := data.length
  match op with
  | .store => some data
  | .add => some (bytesOfNat n (natOfBytes old + natOfBytes data))
  | .swap => some data
  | .cas e => if natOfBytes old = e then some data else none

/-- Performs an access from outside to bytes that are not sealed (R191, R193). -/
def State.inboundAt (s : State) (at_ : InboundAt) (ks : List Nat) (data : List Byte) : State :=
  match inboundNew at_.op (s.readKeys ks) data with
  | some d => (s.correct ks).writeKeysAs ⟨.inbound, none, at_.src, [], false⟩ ks d
  | none => s.correct ks

/-- Performs an access from outside to lines some of which are sealed: it has no key slot of this module, so what it finds and
what it leaves in such a line shows no plaintext of the context's; whether a CAS writes is open (R355). -/
def State.inboundSealed (s : State) (at_ : InboundAt) (ks : List Nat) (data : List Byte) : State :=
  let lines := ((ks.filter s.sealedAt).map (· / 64)).eraseDups
  let (s1, n) := s.draw
  let writes : Bool := match at_.op with | .cas _ => Config.freeBit n | _ => true
  if writes then
    (s1.writeKeysAs ⟨.inbound, none, at_.src, [], false⟩ ks data).freeBytes
      ((lines.map fun q => (List.range 64).map (64 * q + ·)).flatten)
  else s1

/-- An access of the host or of a peer module arrives from its source (0 the host over CXL.io, 1 the host over CXL.mem or to
its own coherent memory, 2 + m sending core m over Causeway) and is performed at its home as one step (R191, R193, R369).
An atomic has 4 or 8 bytes. DEDUCED (log 133): neither the host nor a peer's core holds a key slot of this module. -/
def execInboundWrite (loc : InboundAt) (data : List Byte) (s : State) : Out :=
  let ks := (List.range data.length).map (loc.loc + ·)
  .next (
    if data = [] ∨ !s.inboundOk loc data.length ∨ (loc.op ≠ .store ∧ data.length ≠ 4 ∧ data.length ≠ 8) then s
    else if ks.any s.sealedAt then s.inboundSealed loc ks data
    else s.inboundAt loc ks data)

/-- An instruction stalled on a pending register goes on once the completion word is written (R139). -/
def execTokenStallRelease (c : Nat) (s : State) : Out :=
  .next (s.whileStalled c .register fun _ s => { s with core := { s.core with stall := none } })

/-- An issue stalled on a counter at 63 goes on once it has fallen (R139). -/
def execCounterRoom (c : Nat) (s : State) : Out :=
  .next (s.whileStalled c .counter fun _ s =>
    if s.core.counterFull then s else { s with core := { s.core with stall := none } })

end Sys2Proof.Machine
end

