-- ==== Sys2Proof/Machine/Domain.lean ====
section
/-! DEFINITION. Loans (R210 to R214). -/
namespace Sys2Proof.Machine
open Sys2Proof

/-- Whether [base, base + len) lies in one region a loan may name (R212). -/
def oneRegion (base len : Nat) : Bool :=
  let e := base + len
  decide (e ≤ 0x30000) ||
    (decide (0x100000000 ≤ base ∧ base < 0x110000000) && decide (base % 2 ^ 18 + len ≤ 0x30000)) ||
    decide (0x110000000 ≤ base ∧ e ≤ 2 ^ 56)

/-- The loan in force with the greatest depth, lowest number first, that covers a range with the rights asked for. -/
def parentFor (c : Core) (base len : Nat) (rw : Bool) : Option (Fin 8) :=
  let fits (i : Fin 8) : Bool :=
    let l := c.loans.get i
    decide (l.base.toNat ≤ base ∧ base + len ≤ l.base.toNat + l.len) && (!rw || l.rw)
  (c.inForce.filter fits).foldl (fun best i =>
    match best with
    | none => some i
    | some b => if (c.loans.get b).depth < (c.loans.get i).depth then some i else best) none

/-- LEND (R212). -/
def State.lend (s : State) (rw : Bool) (d a b : XReg) : Out :=
  let c := s.core
  let base := s.rx a
  let len := (s.rx b).toNat
  if len = 0 ∨ 2 ^ 32 < len then s.fault .illegal (s.rx b)
  else if !oneRegion base.toNat len then s.fault .rights base
  else
    match (List.finRange 8).find? fun i => (c.loans.get i).state == .free with
    | none => .next ((s.wx d (BitVec.allOnes 64)).retire 4)
    | some e =>
      let l : Loan := ⟨.active, base, len, rw, c.domain, c.gdepth, parentFor c base.toNat len rw, 0⟩
      let s1 : State := { s with core := { c with loans := c.loans.set e l } }
      .next ((s1.wx d (nat64 e.val)).retire 4)

def execLendR (d a b : XReg) (s : State) : Out := s.lend false d a b
def execLendRw (d a b : XReg) (s : State) : Out := s.lend true d a b

/-- Frees an entry and every entry whose parent chain reaches it (R213). -/
def Core.freeLoan (c : Core) (e : Fin 8) : Core :=
  { c with loans := Vector.ofFn fun i => if (parentChain c.loans 8 i).contains e then Loan.empty else c.loans.get i }

/-- A run of the calender makes no access any more under an entry that its owner has freed (R264). -/
def State.dropLent (s : State) (o : Owner) (e : Fin 8) : State :=
  let f (r : Rights) : Rights :=
    if r.owner = o then { r with inForce := r.inForce.filter fun i => !(parentChain r.loans 8 i).contains e } else r
  { s with teams := s.teams.map fun t => { t with cal := { t.cal with rights := t.cal.rights.map f } } }

/-- RECL of an entry number (R213): it ends for code at once, and the entry is freed once nothing holds it; the writes made
under the loan are then ordered before the lender's later accesses. -/
def State.recl (s : State) (e : Fin 8) : State :=
  let l := s.core.loans.get e
  let s1 : State := { s with core := { s.core with loans := s.core.loans.set e { l with state := .ended } } }
  if l.holds = 0 then (({ s1 with core := s1.core.freeLoan e } : State).dropLent s.core.owner e).observeDone.retire 4
  else s1.stallOn .recl

def execRecl (a : XReg) (s : State) : Out :=
  let v := s.rx a
  if h : v.toNat < 8 then
    let e : Fin 8 := ⟨v.toNat, h⟩
    let l := s.core.loans.get e
    if l.state = .free then .next (s.retire 4)
    else if l.lender ≠ s.core.domain then s.fault .rights v
    else .next (s.recl e)
  else s.fault .illegal v

/-- A stalled RECL frees its entry once its holds are gone (R213). -/
def execReclFree (c : Nat) (s : State) : Out :=
  .next (s.whileStalled c .recl fun i s =>
    match i with
    | .recl a => if h : (s.rx a).toNat < 8 then s.recl ⟨(s.rx a).toNat, h⟩ else s
    | _ => s)

def execLoanq (d a : XReg) (s : State) : Out :=
  let v := s.rx a
  .next ((s.wx d (if h : v.toNat < 8 then (s.core.loans.get ⟨v.toNat, h⟩).word else 0)).retire 4)

end Sys2Proof.Machine
end

