-- ==== Sys2Proof/Machine/Sync.lean ====
section
/-! DEFINITION. Barriers in memory (R147 to R152), WAITA (R153, R154) and CWAIT (R155). -/
namespace Sys2Proof.Machine
open Sys2Proof

/-- The checked access to the record at xa: f takes its keys and the record. The read of its arrivals and waits acquires
at the record's scope (R152). -/
def State.barThen (s : State) (need : Need) (a : Word) (f : State → List Nat → BarRec → State) : Out :=
  match s.access need a 16 with
  | .fault c v => s.fault c v
  | .halt w => .next (s.watchHalt w)
  | .ok ks =>
    let r := s.barAt ks
    .next (f ((s.correct ks).noteAccess a true (nat64 r.gen)) ks r)

def execBarInit (a b : XReg) (s : State) : Out :=
  let v := s.rx b
  if bitsOf v 15 0 = 0 then s.fault .illegal v
  else
    s.barThen .atomic (s.rx a) fun s ks r =>
      ((s.noteCode ks).writeAtomic false r.order (s.rx a) ks (r.init v).bytes).retire 4

/-- An arrival at the record, noted in BARGEN and BARADR (R148, R149): a release at the record's scope (R152). -/
def State.barArrive (s : State) (a : Word) (ks : List Nat) : State :=
  let r := s.barAt ks
  let s1 := (s.noteCode ks).writeAtomic true r.order a ks r.arrive.bytes
  s1.setCsr { s1.core.csr with bargen := nat64 (2 ^ 32 + r.gen), baradr := a }

/-- Whether the core's pending arrival is at this record (R149). -/
def Csrs.arrivedAt (c : Csrs) (a : Word) : Bool := bitOf c.bargen 32 && c.baradr == a

/-- The end of a wait: the generation has moved (R149). It acquires at the record's scope (R152); the read that ends a wait already
begun is logged as one of its own (R322). -/
def State.barDone (s : State) (a : Word) (ks : List Nat) : State :=
  let s0 := (s.strongRead true (s.barAt ks).order a ks).1
  let s1 := if s.core.wait.isSome then s0.noteAccess a true (wordOfBytes ((s.readKeys ks).take 8)) else s0
  (s1.setCsr { s1.core.csr with bargen := s1.core.csr.bargen &&& 0xFFFFFFFF }).retire 4

/-- Whether a wait that began at a cycle has lasted its TMO microseconds (R150): two cycles are a nanosecond. -/
def timedOut (since tmo clock : Nat) : Bool := tmo != 0 && decide (since + 2000 * tmo ≤ clock)

/-- Whether the generation of the record at the keys had moved from the core's before a wait that began at a cycle had
lasted its TMO (R150). -/
def State.barMoved (s : State) (ks : List Nat) (since tmo : Nat) : Bool :=
  let late := (s.writesTo (ks.map hostKey)).filter fun e => timedOut since tmo e.clock
  let gen := natOfBytes ((ks.take 4).map fun k => before late (s.readKey k) (hostKey k))
  gen != bitsOf s.core.csr.bargen 31 0

/-- A wait at the record that began at a cycle (R149, R150): it ends when the generation has moved in time, and faults when
it has lasted its TMO. -/
def State.barTry (s : State) (a : Word) (ks : List Nat) (since tmo : Nat) (wait : State → State) : State :=
  if s.barMoved ks since tmo then s.barDone a ks
  else if timedOut since tmo s.clock then s.trap .timeout a
  else wait s

/-- BAR.WAIT (R149): a wait already begun goes on with the TMO it began with. -/
def State.barWait (s : State) (a : Word) (ks : List Nat) : State :=
  if !s.core.csr.arrivedAt a then s.retire 4
  else
    let (since, tmo) := match s.core.wait with
      | some (.barrier _ since tmo) => (since, tmo)
      | _ => (s.clock, (s.barAt ks).tmo)
    s.barTry a ks since tmo fun u => u.block (.barrier a since tmo) true

def execBarArr (a : XReg) (s : State) : Out :=
  s.barThen .atomic (s.rx a) fun s1 ks _ => (s1.barArrive (s.rx a) ks).retire 4

def execBarWait (a : XReg) (s : State) : Out := s.barThen .load (s.rx a) fun s1 ks _ => s1.barWait (s.rx a) ks

def execBarSync (a : XReg) (s : State) : Out :=
  s.barThen .atomic (s.rx a) fun s1 ks _ =>
    let s2 := if s1.core.csr.arrivedAt (s.rx a) then s1 else s1.barArrive (s.rx a) ks
    s2.barWait (s.rx a) ks

/-- A core that waits at a record whose generation has moved goes on (R149), unless its wait has lasted TMO (R150). DESIGN CHOICE
(log 140): a record that can be read no more faults there, and, as R150 says of TIMEOUT, the arrival stays counted, with BARGEN and
BARADR as they are. -/
def execBarWaitWake (c : Nat) (s : State) : Out :=
  .next (s.onCore c fun s =>
    match s.core.wait with
    | some (.barrier a since tmo) =>
      match s.access .load a 16 with
      | .ok ks => (s.correct ks).barTry a ks since tmo id
      | .fault f v => if timedOut since tmo s.clock then s.trap .timeout a else s.trap f v
      | .halt w => s.watchHalt w
    | _ => s)

/-- A wait that has lasted TMO microseconds faults; the arrival stays counted (R150). -/
def execBarTimeout (c : Nat) (s : State) : Out :=
  .next (s.onCore c fun s =>
    match s.core.wait with
    | some (.barrier a since tmo) =>
      if timedOut since tmo s.clock then
        match s.access .load a 16 with
        | .ok ks => (s.correct ks).barTry a ks since tmo id
        | _ => s.trap .timeout a
      else s
    | _ => s)

/-- The compare of WAITA and WAITA.GE (R153). -/
def waitaHolds (ge : Bool) (m v : Word) : Bool := if ge then decide (0 ≤ (m - v).toInt) else m != v

/-- WAITA (R153): it reads the word and retires when its compare holds. -/
def State.waita (s : State) (ge : Bool) (a v : Word) : Out :=
  match s.access .load a 8 with
  | .fault c w => s.fault c w
  | .halt w => .next (s.watchHalt w)
  | .ok ks =>
    let (s0, n) := s.strongRead true .sys a ks
    let m := nat64 n
    let s1 := s0.noteAccess a true m
    .next (if waitaHolds ge m v then s1.retire 4 else s1.block (.waita ge a v) true)

def execWaita (a b : XReg) (s : State) : Out := s.waita false (s.rx a) (s.rx b)
def execWaitaGe (a b : XReg) (s : State) : Out := s.waita true (s.rx a) (s.rx b)

/-- A waiting WAITA reads its word again and retires once its compare holds (R154); a read that fails faults. -/
def execWaitaWake (c : Nat) (s : State) : Out :=
  .next (s.onCore c fun s =>
    match s.core.wait with
    | some (.waita ge a v) =>
      match s.access .load a 8 with
      | .ok ks =>
        let (s0, n) := s.strongRead true .sys a ks
        let m := nat64 n
        if waitaHolds ge m v then (s0.noteAccess a true m).retire 4 else s.correct ks
      | .fault f v => s.trap f v
      | .halt w => s.watchHalt w
    | _ => s)

/-- CWAIT (R155). -/
def State.cwait (s : State) (c : Fin 16) (n : Fin 32) : State :=
  if s.core.csr.cnt.get c ≤ n.val then
    ({ s with core := s.core.observe fun e => e.2.1 == some c } : State).retire 4
  else s.stallOn .cwait

def execCwait (c : Fin 16) (n : Fin 32) (s : State) : Out := .next (s.cwait c n)

def execCwaitWake (c : Nat) (s : State) : Out :=
  .next (s.whileStalled c .cwait fun i s =>
    match i with
    | .cwait k n => s.cwait k n
    | _ => s)

end Sys2Proof.Machine
end

