-- ==== Sys2Proof/Machine/Team.lean ====
section
/-! DEFINITION. FORK and JOIN (R143 to R146), the end of a team (R133), and convoys (R140 to R142). -/
namespace Sys2Proof.Machine
open Sys2Proof

/-- Whether a thread is parked in JOIN and not recruited. -/
def State.isParked (s : State) (t : Thread) : Bool :=
  let c := s.ownerCore (.thread t.tid)
  !t.ended && !t.ending && c.wait == some .parked && c.recruit.isNone

/-- The parked members of a core's team that FORK may recruit, by increasing rank (R144, R206). -/
def State.recruitable (s : State) (c : Core) : List Thread :=
  match s.coreThread c with
  | none => []
  | some t =>
    let l := s.threads.filter fun u =>
      u.team == t.team && s.isParked u && (s.ownerCore (.thread u.tid)).domain == c.domain
    l.mergeSort fun a b => decide (a.rank ≤ b.rank)

/-- The subrange of worker j of w over n iterations (R144). -/
def forkRange (n w j : Nat) : Nat × Nat :=
  let lo := j * (n / w) + min j (n % w)
  (lo, lo + n / w + (if j < n % w then 1 else 0))

/-- x10 to x13 of a worker (R144). -/
def Core.setWorker (c : Core) (r : Recruit) : Core := (((c.wx 10 r.lo).wx 11 r.hi).wx 12 r.arg).wx 13 r.cell

/-- A worker that FORK recruits waits no longer: it has its subrange and the address it starts at (R144). DESIGN CHOICE (log 122): where
its entry faults with GATE, the instruction that passed control to BODY is its JOIN; R206 does not say whether that, or the FORK. -/
def Core.recruited (c : Core) (r : Recruit) : Core :=
  { c.setWorker r with passer := c.pc, pc := r.body, pfb := [], recruit := some r }

/-- FORK with its record read (R144). -/
def State.forkWith (s : State) (d : XReg) (xa : Word) (rec_ : List Byte) (cell : List Nat) : State :=
  let c := s.core
  let n := fieldAt rec_ 8 4
  let g := max (fieldAt rec_ 12 4) 1
  let ps := s.recruitable c
  let w := max 1 (min (ps.length + 1) ((n + g - 1) / g))
  let adr : Word :=
    if xa.toNat < 0x30000 then nat64 (0x100000000 + bitsOf c.csr.rank 9 0 * 0x40000 + xa.toNat + 24) else xa + 24
  let part (j : Nat) : Recruit :=
    let (lo, hi) := forkRange n w j
    ⟨nat64 lo, nat64 hi, nat64 (fieldAt rec_ 16 8), adr, nat64 (fieldAt rec_ 0 8), c.view⟩
  let s1 := (s.noteCode cell).writeAs .weak (xa + 24) cell (bytesOfNat 8 w)
  let s2 := (ps.take (w - 1)).zipIdx.foldl (fun (u : State) (e : Thread × Nat) =>
    let r := part (e.2 + 1)
    (u.deliver (.thread e.1.tid) fun k => k.recruited r).logExt (u.ownerCore (.thread e.1.tid)) (.core c.num) 5 r.lo) s1
  { s2 with core := (s2.core.settleLoads.setWorker (part 0)).wx d (nat64 w) }.retire 4

/-- FORK's record as read, word by word: each follows its own page's kind, and the read as a whole the weaker kind where two meet
(R143, R175, R186); the replay log holds the words (R322). -/
def State.readRecord (s : State) (xa : Word) (ks : List Nat) : State × List Byte :=
  let whole := s.pageKindIs 0 xa && s.pageKindIs 0 (xa + 31)
  [0, 8, 16, 24].foldl (fun (u : State × List Byte) i =>
    let a := xa + nat64 i
    let (s1, n) := u.1.readLane whole a ((ks.drop i).take 8)
    (s1.noteAccess a true (nat64 n), u.2 ++ bytesOfNat 8 n)) (s, [])

def execFork (d a : XReg) (s : State) : Out :=
  let xa := s.rx a
  match s.accessAs (s.rightsOf s.core) .load xa 32 8 with
  | .fault c v => s.fault c v
  | .halt w => .next (s.watchHalt w)
  | .ok ks =>
    match s.access .store (xa + 24) 8 with
    | .fault c v => s.fault c v
    | .halt w => .next (s.watchHalt w)
    | .ok cell =>
      let (s0, rec_) := s.readRecord xa ks
      let body : Word := nat64 (fieldAt rec_ 0 8)
      if body.getLsbD 0 then s.fault .align body
      else
        match s.fetchTag (s.rightsOf s.core) body with
        | .error (c, _) => s.fault c body
        | .ok t =>
          if t ≠ s.core.domain then s.fault .gate body
          else .next (s0.forkWith d xa rec_ cell)

/-- A team all of whose members have ended or are parked ends: its parked members end (R133, R145). -/
def State.teamCheck (s : State) (team : Nat) : State :=
  let l := s.threads.filter fun t => t.team == team
  if l.all fun t => t.ended || s.isParked t then
    { s with
      threads := s.threads.map fun t =>
        if t.team == team && !t.ended && s.isParked t then { t with ending := true } else t }
  else s

/-- Parking in JOIN (R145): the member leaves its convoy and waits to be recruited. -/
def State.park (s : State) : State :=
  let s1 := s.block .parked true
  match s1.core.wait, s1.coreThread s1.core with
  | some .parked, some t => s1.teamCheck t.team
  | _, _ => s1

def execJoin (a : XReg) (s : State) : Out :=
  if a = 0 then .next s.park
  else
    let xa := s.rx a
    match s.accessAtomic .add xa 8 with
    | .fault c v => s.fault c v
    | .halt w => .next (s.watchHalt w)
    | .ok ks =>
      let (s0, n) := s.strongRead true .team xa ks
      let v : Word := nat64 n - 1
      let s1 := ((s0.noteAccess xa true (v + 1)).noteCode ks).writeAtomic true .team xa ks (bytesOfWord v)
      .next (if v = 0 then s1.retire 4 else s1.park)

/-- A recruited member starts at BODY with its subrange; the rest of its state is as when it parked (R144), and what the
forker did is ordered before its accesses (R146). DESIGN CHOICE (log 122): its JOIN has not retired and does not count in INSTRET,
and x10 to x13 are written at once, at FORK and for good here, also one that is a pending token register (R139). -/
def execJoinRecruited (c : Nat) (s : State) : Out :=
  .next (s.onCore c fun s =>
    match s.core.wait, s.core.recruit with
    | some .parked, some r =>
      { s with core := { (s.core.setWorker r).orderSeen.orderView r.view with
          pc := r.body, pfb := [], wait := none, recruit := none } }
    | _, _ => s)

/-! ### Convoys -/

/-- The live threads of a team's cluster group. DESIGN CHOICE: one that has not started yet (R135) is a convoy member as well, for
which CVY.JOIN waits; R140 is silent on it (log 125). -/
def State.groupThreads (s : State) (team group : Nat) : List Thread :=
  s.threads.filter fun t => t.team == team && t.rank / 8 == group && !t.ended

/-- The convoy members of a group: neither LEFT nor parked nor ending (R140). -/
def State.convoyMembers (s : State) (team group : Nat) : List Thread :=
  (s.groupThreads team group).filter fun t =>
    let c := s.ownerCore (.thread t.tid)
    !t.ending && c.convoy != .left && c.wait != some .parked

/-- Whether every convoy member of the group waits at a CVY.JOIN on its core. -/
def State.convoyArrived (s : State) (team group : Nat) : Bool :=
  let l := s.convoyMembers team group
  !l.isEmpty && l.all fun t => t.evicted.isNone && (s.getCore t.home).wait == some .cvyJoin

/-- The leader of a release: the nominee if it has arrived, else the lowest rank (R140). -/
def State.convoyLeader (s : State) (team group : Nat) (l : List Thread) : Option Thread :=
  let nominee := (s.team? team).bind fun t => (t.nominees.find? fun e => e.1 == group).map (·.2)
  match l.find? fun t => some t.rank == nominee with
  | some t => some t
  | none => l.foldl (fun (b : Option Thread) t =>
      match b with
      | none => some t
      | some u => if t.rank < u.rank then some t else b) none

/-- The release of a CVY.JOIN (R140): the leader first, then the others, each past its own CVY.JOIN. -/
def State.convoyRelease (s : State) (team group : Nat) : State :=
  let l := s.convoyMembers team group
  match s.convoyLeader team group l with
  | none => s
  | some ld =>
    let at_ := (s.getCore ld.home).pc
    let s1 := l.foldl (fun (u : State) t =>
      u.modCore t.home fun k =>
        k.setConvoy (if t.tid = ld.tid then .leader else if k.pc = at_ then .attached else .alone)) s
    let s2 := s1.onCore ld.home fun u => u.retire 4
    (l.filter fun t => t.tid != ld.tid).foldl (fun (u : State) t => u.onCore t.home fun v => v.retire 4) s2

def execConvoyRelease (team group : Nat) (s : State) : Out :=
  .next (if s.convoyArrived team group then s.convoyRelease team group else s)

/-- CVY.JOIN (R140, R142): it arrives, and goes on at once when it is the last to arrive; only where it waits is it a blocking
point and a kill point (R137, R280). -/
def execCvyJoin (s : State) : Out :=
  let s0 : State := if s.core.convoy = .left then { s with core := s.core.setConvoy .alone } else s
  let s1 := s0.block .cvyJoin false
  .next (match s1.coreThread s1.core with
    | some t =>
      if s1.convoyArrived t.team (t.rank / 8) then s1.convoyRelease t.team (t.rank / 8) else s1.block .cvyJoin true
    | none => { s1 with core := s1.core.setConvoy .leader }.retire 4)

def execCvyLead (s : State) : Out :=
  let s1 : State := if s.core.convoy = .attached then { s with core := s.core.setConvoy .alone } else s
  let s2 := match s1.coreThread s1.core with
    | none => s1
    | some t => s1.modTeam t.team fun m =>
        { m with nominees := (t.rank / 8, t.rank) :: m.nominees.filter fun e => e.1 != t.rank / 8 }
  .next (s2.retire 4)

def execCvyLeave (s : State) : Out :=
  let s1 := if s.core.convoy = .leader then s.freeFollowers else s
  .next ({ s1 with core := s1.core.setConvoy .left }.retire 4)

/-- A follower that has stalled more than 64 cycles on a token, counter or register is ALONE (R141). -/
def execFollowerStallDetach (c : Nat) (s : State) : Out :=
  .next (s.onCore c fun s =>
    match s.core.convoy, s.core.stall with
    | .attached, some st =>
      if (st.on = .register ∨ st.on = .counter ∨ st.on = .cwait) ∧ st.since + 64 < s.clock then s.detach else s
    | _, _ => s)

end Sys2Proof.Machine
end

