-- ==== Sys2Proof/Machine/Reduce.lean ====
section
/-! DEFINITION. Combining reductions (R156 to R163). -/
namespace Sys2Proof.Machine
open Sys2Proof

/-- A team's reduction number n on a tree, if any packet has come. -/
def Team.reduction (t : Team) (tree : Bool) (n : Nat) : Option Reduction :=
  t.reds.find? fun r => r.tree == tree && r.n == n

def Team.putReduction (t : Team) (r : Reduction) : Team :=
  { t with reds := r :: t.reds.filter fun q => !(q.tree == r.tree && q.n == r.n) }

/-- comb of one lane (R159): the bits and the flags. -/
def redComb (op : Nat) (f : Fmt) (a c : Nat) : Nat × Word :=
  match fpFmt f with
  | some g =>
    match op with
    | 0 => g.deliver .rne (addNum .rne (g.decode a) (g.decode c))
    | 1 => g.minMax false a c
    | _ => g.minMax true a c
  | none =>
    let w := lanewidth f
    match op with
    | 0 => ((a + c) % 2 ^ w, 0)
    | 1 => (if signedOf w c < signedOf w a then c else a, 0)
    | _ => (if signedOf w a < signedOf w c then c else a, 0)

/-- comb of whole packets, lane by lane. -/
def packetComb (op : Nat) (f : Fmt) (a c : List Byte) : List Byte × Word :=
  let n := lanewidth f / 8
  (List.range (128 / n)).foldl (fun (acc : List Byte × Word) i =>
    let (v, fl) := redComb op f (fieldAt a (n * i) n) (fieldAt c (n * i) n)
    (acc.1 ++ bytesOfNat n v, acc.2 ||| fl)) ([], 0)

/-- The smallest m with N ≤ 2^m, looked for among k. -/
def log2Up (n : Nat) : Nat → Nat
  | 0 => 0
  | k + 1 =>
    let m := log2Up n k
    if n ≤ 2 ^ m then m else m + 1

/-- One level of the combine of R159: over the ranks whose bit b and earlier bits are 0. -/
def redLevel (op : Nat) (f : Fmt) (b : Nat) (done : List Nat) (acc : List (Nat × List Byte) × Word) :
    List (Nat × List Byte) × Word :=
  let get (l : List (Nat × List Byte)) (r : Nat) : Option (List Byte) := (l.find? fun e => e.1 == r).map (·.2)
  let keep := acc.1.map (fun e => if e.1 / 2 ^ b % 2 = 1 then e.1 - 2 ^ b else e.1)
  (keep.eraseDups).foldl (fun (out : List (Nat × List Byte) × Word) r =>
    if done.any fun d => r / 2 ^ d % 2 == 1 then out
    else
      match get acc.1 r, get acc.1 (r + 2 ^ b) with
      | some x, some y => let (z, fl) := packetComb op f x y; (out.1 ++ [(r, z)], out.2 ||| fl)
      | some x, none => (out.1 ++ [(r, x)], out.2)
      | none, some y => (out.1 ++ [(r, y)], out.2)
      | none, none => out) ([], acc.2)

/-- The result of R159 over the packets that came, and the flags of every comb. -/
def redResult (tree : Bool) (op : Nat) (f : Fmt) (n : Nat) (ps : List (Nat × List Byte)) : List Byte × Word :=
  let m := log2Up n 11
  let order := (List.range m).map fun l => if tree then m - 1 - l else l
  let (l, fl, _) := order.foldl (fun (acc : List (Nat × List Byte) × Word × List Nat) b =>
    let (x, g) := redLevel op f b acc.2.2 (acc.1, acc.2.1)
    (x, g, b :: acc.2.2)) (ps, 0, [])
  (((l.find? fun e => e.1 == 0).map (·.2)).getD [], fl)

/-- REDMASK (R160). -/
def redMaskOf (n : Nat) (ranks : List Nat) : Word :=
  let g := (n + 31) / 32
  nat64 ((List.range 32).foldl (fun a i =>
    if i * g < n ∧ (List.range (min g (n - i * g))).all (fun j => ranks.contains (i * g + j)) then a + 2 ^ i else a) 0)

/-- How a reduction closes with the packets it has (R158, R160). -/
def Reduction.close (r : Reduction) (n : Nat) : RedOutcome :=
  let ranks := r.packets.map (·.rank)
  let view := r.packets.foldl (fun v p => v.join p.view) View.empty
  match r.packets with
  | [] => ⟨.timeout, [], 0, 0, .fp32, View.empty⟩
  | p :: rest =>
    if rest.any fun q => q.op != p.op || q.fmt != p.fmt then ⟨.format, [], redMaskOf n ranks, 0, p.fmt, view⟩
    else
      let (res, fl) := redResult r.tree p.op (redFmt p.fmt) n (r.packets.map fun q => (q.rank, q.data))
      ⟨if ranks.length < n then .timeout else .ok, res, redMaskOf n ranks, fl, p.fmt, view⟩

/-- What a completion writes in the member's core (R161); what the contributors did is ordered from then on. DESIGN CHOICE:
a late member's group is tagged with the format of the closed reduction, also where its own RED names another (R163). -/
def redWrites (vd : VGroup) (status : Cause) (o : RedOutcome) (c : Core) : Core :=
  let c1 : Core := { c with
    csr := { c.csr with redmask := o.mask }
    pendV := (List.finRange 4).foldl (fun a q => a &&& ~~~(1#32 <<< (groupReg vd q).val)) c.pendV }
  if status = .format then c1.orderView o.view
  else
    ((List.finRange 4).foldl (fun k q =>
      k.wv (groupReg vd q) ⟨BitVec.ofNat 256 (fieldAt o.result (32 * q.val) 32), redFmt o.fmt⟩) c1).orFlags o.flags |>.orderView o.view

/-- The outcome of a RED operation whose reduction has closed. -/
def State.redOutcome (s : State) (o : Op) : Option (VGroup × RedOutcome) :=
  match o.body with
  | .red team tree n vd => ((s.team? team).bind fun t => (t.reduction tree n).bind (·.closed)).map fun r => (vd, r)
  | _ => none

/-- Logs the result that a member's RED has brought into its registers, unless it brought none (R161, R322) or its completion
still waits (R310). -/
def State.logReduce (s : State) (o : Op) (status : Cause) (r : RedOutcome) : State :=
  if status = .format ∨ o.discard ∨ (s.op? o.id).isSome then s
  else s.logFrom (s.ownerCore o.owner) (match o.body with | .red t _ _ _ => .team t | _ => .module) 10 0 ((List.range r.result.length).zip r.result)

/-- Completes a member's RED with a status and an outcome (R161). -/
def State.redFinish (s : State) (o : Op) (status : Cause) (vd : VGroup) (r : RedOutcome) : State :=
  (s.completeOp o status (if status = .format then 0 else 128) 0 (redWrites vd status r)).logReduce o status r

/-- Completes a member's RED with a status. -/
def State.redComplete (s : State) (o : Op) (status : Cause) : State :=
  match s.redOutcome o with
  | some (vd, r) => s.redFinish o status vd r
  | none => s

/-- Closes a reduction and completes every member whose packet it has. DESIGN CHOICE (log 139): all of them in this step, their records
of an x0 token in the order of the packets; R163 lets each completion come at any instant up to 800 ns after the close. -/
def State.redClose (s : State) (team : Nat) (tree : Bool) (n : Nat) : State :=
  match s.team? team with
  | none => s
  | some t =>
    match t.reduction tree n with
    | none => s
    | some r =>
      let oc := r.close t.size
      let s1 := s.modTeam team fun t => t.putReduction { r with closed := some oc }
      r.packets.foldl (fun (u : State) p =>
        match u.op? p.opId with
        | some o => u.redComplete o oc.status
        | none => u) s1

/-- Whether some packet of an open reduction has waited its REDTMO (R160). -/
def Reduction.expired (r : Reduction) (clock : Nat) : Bool :=
  r.closed.isNone && r.packets.any fun p => decide (p.since + 2000 * p.tmo ≤ clock)

/-- Closes a reduction of which a packet has waited its REDTMO (R160). -/
def State.redExpire (s : State) (team : Nat) (tree : Bool) (n : Nat) : State :=
  match (s.team? team).bind fun t => t.reduction tree n with
  | some r => if r.expired s.clock then s.redClose team tree n else s
  | none => s

/-- RED (R156, R157): a packet issued after its reduction has timed out finds it closed (R160). The loads before it have their
values for good: the members' accesses after their completion words come after it (R161). -/
def State.red (s : State) (op : Nat) (tok : XReg) (tree : Bool) (f : RedFmt) (vd va : VGroup) : Out :=
  let c := s.core
  let bad := (List.finRange 4).find? fun q => (c.rv (groupReg va q)).tag != redFmt f
  match bad with
  | some q => s.fault .format (nat64 (fmtNum (c.rv (groupReg va q)).tag))
  | none =>
    let busy := (s.opsOf c.owner).any fun o => match o.body with | .red _ t _ _ => t == tree | _ => false
    if busy then .next (s.stallOn .reduction)
    else if c.counterFull then .next (s.stallOn .counter)
    else
      let data := ((List.finRange 4).map fun q => bytesOfNat 32 (c.rv (groupReg va q)).bits.toNat).flatten
      let n := if tree then c.red1 else c.red0
      let team := ((s.coreThread c).map (·.team)).getD 0
      let s0 := if (s.coreThread c).isSome then s.redExpire team tree n else s
      let (s1, o) := s0.issue 5 tok (.red team tree n vd) 0
      let k : Core := { s1.core.settleLoads with
        red0 := if tree then s1.core.red0 else s1.core.red0 + 1
        red1 := if tree then s1.core.red1 + 1 else s1.core.red1
        pendV := (List.finRange 4).foldl (fun a q => a ||| (1#32 <<< (groupReg vd q).val)) s1.core.pendV }
      let s2 := { s1 with core := k }.retire 4
      match s.coreThread c with
      | none =>
        -- A core without a team is a team of one, which completes with its own packet (R161).
        .next (s2.redFinish o .ok vd ⟨.ok, data, 1, 0, f, View.empty⟩)
      | some t =>
        let p : Packet := ⟨t.rank, op, f, data, s.clock, max (bitsOf c.csr.redtmo 19 0) 1, o.id, c.view⟩
        .next (s2.modTeam team fun m =>
          match m.reduction tree n with
          | none => m.putReduction ⟨tree, n, [p], none⟩
          | some r => if r.closed.isSome then m else m.putReduction { r with packets := r.packets ++ [p] })

def execRedAdd (tok : XReg) (tree : Bool) (f : RedFmt) (d a : VGroup) (s : State) : Out := s.red 0 tok tree f d a
def execRedMin (tok : XReg) (tree : Bool) (f : RedFmt) (d a : VGroup) (s : State) : Out := s.red 1 tok tree f d a
def execRedMax (tok : XReg) (tree : Bool) (f : RedFmt) (d a : VGroup) (s : State) : Out := s.red 2 tok tree f d a

/-- A reduction to which every rank has contributed closes (R160). -/
def execRedClose (team : Nat) (tree : Bool) (n : Nat) (s : State) : Out :=
  .next (match s.team? team with
    | none => s
    | some t =>
      match t.reduction tree n with
      | none => s
      | some r => if r.closed.isNone ∧ r.packets.length = t.size then s.redClose team tree n else s)

/-- A reduction of which a packet has waited its REDTMO closes (R160). -/
def execRedTimeout (team : Nat) (tree : Bool) (n : Nat) (s : State) : Out := .next (s.redExpire team tree n)

/-- A packet of a member whose core, or whose place while it is away, is c that comes after its reduction closed completes
with the closed outcome (R160, R163, R316). -/
def execRedLateComplete (c : Nat) (tree : Bool) (s : State) : Out :=
  .next (
    match s.ops.find? fun o =>
      s.homeOf o.owner == c && match o.body, s.redOutcome o, o.phase with
      | .red _ t _ _, some _, .issued => t == tree
      | _, _, _ => false with
    | none => s
    | some o =>
      match s.redOutcome o with
      | some (_, r) => s.redComplete o (if r.status = .format then .format else .timeout)
      | none => s)

end Sys2Proof.Machine
end

