-- ==== Sys2Proof/Machine/Matrix.lean ====
section
/-! DEFINITION. The matrix engine (R216 to R238): issue checks, jobs, and the steps of each cluster's engine. A job's
stores, and what it leaves in tiles and accumulator rows, fall in one step, its completion; its reads in that step or at its
start. -/
namespace Sys2Proof.Machine
open Sys2Proof

/-! ### Ranges of engine operations (R215, R227) -/

/-- Checks ranges in order: the keys of each, or the first failing byte's cause and address. DESIGN CHOICE (log 142): where bytes fail
different steps of R174 the first byte that fails any step decides; R227 does not say whether a step is made for all of them before the
next. -/
def State.checkRanges (s : State) (r : Rights) (need : Need) : List (Word × Nat) → Except (Cause × Word) (List (List Nat))
  | [] => .ok []
  | (a, n) :: t =>
    match s.resolveAll r need a n with
    | .error e => .error e
    | .ok ks =>
      match s.checkRanges r need t with
      | .error e => .error e
      | .ok l => .ok (ks :: l)

/-- The first address of the ranges whose data is uncorrectable. -/
def State.firstPoison (s : State) (rs : List (Word × Nat)) (kss : List (List Nat)) : Option Word :=
  ((rs.zip kss).map fun e => e.2.zipIdx.map fun k => (e.1.1 + nat64 k.2, k.1)).flatten.find? (fun k => s.poisoned k.2 1)
    |>.map (·.1)

/-- A store that ends in POISON: of each aligned 8-byte unit that ok admits, the bytes are wholly new or wholly
untouched; of the others, untouched (R227, R244). -/
def State.writeSome (s : State) (o : Option Op) (ok : Nat → Bool) (ks : List Nat) (data : List Byte) : State :=
  let l := ks.zip data
  ((ks.map (· / 8)).eraseDups.filter ok).foldl (fun (u : State) (q : Nat) =>
    let (u1, n) := u.draw
    let part := l.filter fun e => e.1 / 8 == q
    if Config.freeBit n then u1.writeFor o (part.map (·.1)) (part.map (·.2)) else u1) s

/-- Reads several ranges for an operation. -/
def State.readRanges (s : State) (o : Option Op) (kss : List (List Nat)) : State × List (List Byte) :=
  kss.foldl (fun (acc : State × List (List Byte)) ks =>
    let (u, b) := acc.1.readFor o ks
    (u, acc.2 ++ [b])) (s, [])

/-! ### Tiles and accumulator rows -/

/-- Row bytes of a shape (R222). -/
def rowBytes (t : Word) : Nat :=
  match tTag t with
  | some .bf16 | some .fp16 => 2 * tCols t
  | some .fp32 => 4 * tCols t
  | some .t2 => (tCols t + 3) / 4
  | some .t5 => (tCols t + 4) / 5
  | _ => tCols t

/-- The element size w of a tile format (R230). -/
def elemSize : Option Fmt → Nat
  | some .bf16 | some .fp16 => 2
  | some .fp32 => 4
  | _ => 1

/-- The bit pattern of element (i, c) of a tile (R222): of T2 its two bits, of T5 its byte. -/
def Core.tileElem (k : Core) (tc : TReg) (f : Fmt) (i c : Nat) : Nat :=
  let b (off n : Nat) : Nat := natOfBytes (k.tiles.read (tileKey tc (32 * i + off)) n)
  match f with
  | .bf16 | .fp16 => b (2 * c) 2
  | .fp32 => b (4 * c) 4
  | .t2 => b (c / 4) 1 / 4 ^ (c % 4) % 4
  | .t5 => b (c / 5) 1
  | _ => b c 1

/-- Element (i, c) of an integer or ternary tile. -/
def Core.tileInt (k : Core) (tc : TReg) (f : Fmt) (i c : Nat) : Int :=
  let e := k.tileElem tc f i c
  match f with
  | .t2 => t2Weight e
  | .t5 => (t5Decode e).1[c % 5]?.getD 0
  | _ => signedOf 8 e

/-- Element (i, c) of a floating-point tile, under its row's scale where the format has one (R83). -/
def Core.tileFp (k : Core) (tc : TReg) (f : Fmt) (i c : Nat) : Num :=
  match fpFmt f with
  | none => .fin false 0 0
  | some g =>
    let v := g.decode (k.tileElem tc f i c)
    if f = .fp8e4s ∨ f = .fp8e5s then scaled (natOfBytes (k.scales.read (scaleKey tc i) 2)) v else v

/-- Whether a decoded T5 byte of the tile's rows is an error byte (R82). -/
def Core.tileErr (k : Core) (tc : TReg) (shape : Word) : Bool :=
  tTag shape == some .t5 && (List.range (tRows shape)).any fun i =>
    (List.range (rowBytes shape)).any fun b => (t5Decode (k.tiles.get (tileKey tc (32 * i + b))).toNat).2

/-- The rows of the core's accumulator region (R219). -/
def Core.accRows (c : Core) : Nat := c.csr.acclim.toNat - c.csr.accbase.toNat

/-- The key of an absolute row's tag. -/
def accTagKey (cluster row : Nat) : Nat := cluster * 128 + row

/-- The tag of relative row r of a core (R220). -/
def State.accTag (s : State) (c : Core) (r : Nat) : Nat :=
  (s.accTags.get (accTagKey (clusterOf c.num) (c.csr.accbase.toNat + r))).toNat

/-- Sets the tags of n relative rows from row r of the core in focus (R220). -/
def State.setAccTags (s : State) (r n : Nat) (f : Fmt) : State :=
  let c := s.core
  { s with accTags := (List.range n).foldl (fun m i =>
      m.set (accTagKey (clusterOf c.num) (c.csr.accbase.toNat + r + i)) (BitVec.ofNat 8 (fmtNum f))) s.accTags }

/-- One 32-bit accumulator element of an absolute row. -/
def State.accGet (s : State) (cl row col : Nat) : Nat := natOfBytes (s.acc.read (accKey cl row col) 4)

def State.accSet (s : State) (cl row col v : Nat) : State := { s with acc := s.acc.write (accKey cl row col) (bytesOfNat 4 v) }

/-! ### The checks of issue (R226) -/

/-- The descriptor fields an instruction uses (R224). -/
structure Uses where
  stride : Bool
  rnd : Bool
  atag : Bool
  pack : Bool
  nr : Bool
  nc : Bool
  col : Bool
  deriving DecidableEq, Repr

/-- Whether a descriptor is in range, its unused fields zero; cols is how many columns a job writes where it has no NC. -/
def descOk (u : Uses) (cols : Nat) (d : Word) : Bool :=
  (u.stride || (if u.rnd then decide (bitsOf d 63 35 = 0 ∧ bitsOf d 34 32 ≤ 5) else bitsOf d 63 32 == 0)) &&
    (u.atag || !bitOf d 31) && (u.pack || !bitOf d 30) &&
    (if u.nr then decide (1 ≤ dNR d ∧ dNR d ≤ 32) else dNR d == 0) &&
    (if u.nc then decide (1 ≤ dNC d ∧ dNC d ≤ 128) else dNC d == 0) &&
    !bitOf d 15 && !bitOf d 7 &&
    (if u.col then decide (dCol d + (if u.nc then dNC d else cols) ≤ 128) else dCol d == 0)

/-- What the checks of issue answer. -/
abbrev Check := Option (Cause × Word)

/-- A check that must hold. -/
def require (ok : Bool) (cause : Cause) (val : Word) : Check := if ok then none else some (cause, val)

/-- The first failing check. -/
def firstFail : List Check → Check
  | [] => none
  | some e :: _ => some e
  | none :: t => firstFail t

/-- The first row of n from r, inside the region, whose tag is not admitted: FORMAT with that tag. DESIGN CHOICE (log 144): R226 gives no
order within the FORMAT step; operand tiles are tested before accumulator rows, and of those the lowest is reported. -/
def State.rowTags (s : State) (r n : Nat) (ok : Nat → Bool) : Check :=
  ((List.range n).map fun i =>
    if r + i < s.core.accRows ∧ !ok (s.accTag s.core (r + i)) then some (.format, nat64 (s.accTag s.core (r + i)))
    else none) |> firstFail

/-- Rows beyond the region (R219). -/
def State.rowsIn (s : State) (r n : Nat) (d : Word) : Check := require (decide (r + n ≤ s.core.accRows)) .rights d

/-- An address and a stride that are multiples of n bytes. DESIGN CHOICE (log 144): where both are not, the address is reported. -/
def aligned (n : Nat) (a str : Word) : Check :=
  firstFail [require (a.toNat % n == 0) .align a, require (str.toNat % n == 0) .align str]

/-- The n rows of a transfer from a with a stride, each of len bytes. -/
def rowRanges (a str : Word) (n len : Nat) : List (Word × Nat) :=
  (List.range n).map fun i => (a + nat64 i * str, len)

/-- The first byte of the ranges in a LOCAL range of R20 or R130. -/
def State.localHole (s : State) (rs : List (Word × Nat)) : Check :=
  let bad (a : Word) : Bool :=
    match regionOf a.toNat with
    | .hole => true
    | .peer rank _ => decide (bitsOf s.core.csr.teamsz 10 0 ≤ rank)
    | _ => false
  ((rs.map fun e => (List.range e.2).map fun i => e.1 + nat64 i).flatten.find? bad).map fun a => (.loc, a)

/-- SEQ of an operand tile (R231). -/
def seqCheck (t : Word) : Check :=
  require (!tScl t || tDseq t == tSseq t) .seq (nat64 (tSseq t * 65536 + tDseq t))

/-- The matrix jobs of an owner, or of a cluster, not complete. -/
def Op.isMatrix (o : Op) : Bool := match o.body with | .matrix _ _ _ _ => true | _ => false

def State.matrixOps (s : State) (cluster : Nat) : List Op :=
  s.ops.filter fun o => match o.body with | .matrix c _ _ _ => c == cluster | _ => false

/-- Whether the core's next job finds room: the queue's 32 entries, and 12 of one core (R216). -/
def State.matrixRoom (s : State) (c : Core) : Bool :=
  let l := s.matrixOps (clusterOf c.num)
  decide (l.length < 32) && decide ((l.filter fun o => o.owner == c.owner).length < 12)

/-- Issues a job that passed its checks: pre is what the issue itself sets. -/
def State.issueJob (s : State) (chk : Check) (tok : XReg) (job : Job) (pre : State → State) : Out :=
  match chk with
  | some (c, v) => s.fault c v
  | none =>
    if !s.matrixRoom s.core then .next (s.stallOn .matrixQueue)
    else if s.core.counterFull then .next (s.stallOn .counter)
    else
      let c := s.core
      let body := Body.matrix (clusterOf c.num) (bitOf c.csr.mstat 2) c.csr.accbase.toNat job
      .next ((pre (s.issue 1 tok body 0).1).retire 4)

def Core.shape (c : Core) (t : TReg) : Word := c.csr.tc.get t

def State.setShape (s : State) (t : TReg) (v : Word) : State := s.setCsr { s.core.csr with tc := s.core.csr.tc.set t v }

/-- TCFG (R229). -/
def execTcfg (tc : TReg) (a : XReg) (s : State) : Out :=
  let v := s.rx a
  if bitsOf v 63 21 ≠ 0 ∨ !shapeValid v then s.fault .illegal v
  else .next ((s.setShape tc ((v &&& tcMask) ||| if tScl v then 0xFFFF000000000000 else 0)).retire 4)

/-- ACCFG (R229). -/
def execAccfg (a : XReg) (s : State) : Out :=
  let d := s.rx a
  match firstFail [require (descOk ⟨false, false, true, false, true, false, false⟩ 0 d) .illegal d,
      s.rowsIn (dRow d) (dNR d) d] with
  | some (c, v) => s.fault c v
  | none => .next ((s.setAccTags (dRow d) (dNR d) (dAtag d)).retire 4)

/-- The stride of a tile transfer (R230). -/
def tileStride (xd : Word) : Word := sextNat 32 (bitsOf xd 31 0)

/-- The tag of a shape as FORMAT reports it. -/
def tagVal (t : Word) : Word := nat64 (bitsOf t 19 16)

def isScaled (t : Word) : Bool := tTag t == some .fp8e4s || tTag t == some .fp8e5s

def execTld (tok : XReg) (tc : TReg) (a d : XReg) (s : State) : Out :=
  let t := s.core.shape tc
  let xd := s.rx d
  let str := tileStride xd
  let w := elemSize (tTag t)
  s.issueJob (firstFail [require (bitsOf xd 63 48 == 0) .illegal xd, require (tagVal t != 0) .format 0,
      aligned w (s.rx a) str, s.localHole (rowRanges (s.rx a) str (tRows t) (rowBytes t))]) tok
    (.tld tc t (s.rx a) str) fun s1 =>
      s1.setShape tc ((s1.core.shape tc &&& 0xFFFF0000FFFFFFFF) ||| nat64 (bitsOf xd 47 32 * 2 ^ 32))

def execTst (tok : XReg) (tc : TReg) (a d : XReg) (s : State) : Out :=
  let t := s.core.shape tc
  let xd := s.rx d
  let str := tileStride xd
  let w := elemSize (tTag t)
  s.issueJob (firstFail [require (bitsOf xd 63 32 == 0) .illegal xd, require (tagVal t != 0) .format 0,
      aligned w (s.rx a) str, s.localHole (rowRanges (s.rx a) str (tRows t) (rowBytes t))]) tok
    (.tst tc t (s.rx a) str) id

def execTlds (tok : XReg) (tc : TReg) (a d : XReg) (s : State) : Out :=
  let t := s.core.shape tc
  let xd := s.rx d
  let str := tileStride xd
  s.issueJob (firstFail [require (bitsOf xd 63 48 == 0) .illegal xd, require (isScaled t) .format (tagVal t),
      aligned 2 (s.rx a) str, s.localHole (rowRanges (s.rx a) str (tRows t) 2)]) tok
    (.tlds tc t (s.rx a) str) fun s1 =>
      s1.setShape tc ((s1.core.shape tc &&& 0x0000FFFFFFFFFFFF) ||| nat64 (bitsOf xd 47 32 * 2 ^ 48))

def execTzero (tok : XReg) (tc : TReg) (s : State) : Out := s.issueJob none tok (.tzero tc) id

/-- The accumulator format of a pair of tile formats (R233): none for A's format in no pair. -/
def pairAcc (a : Option Fmt) : Option (Fmt × (Option Fmt → Bool)) :=
  match a with
  | some .i8 => some (.i32, fun b => b == some .i8 || b == some .t2 || b == some .t5)
  | some .fp8e4 | some .fp8e5 | some .fp8e4s | some .fp8e5s =>
    some (.fp32, fun b => b == some .fp8e4 || b == some .fp8e5 || b == some .fp8e4s || b == some .fp8e5s)
  | some .bf16 => some (.fp32, fun b => b == some .bf16)
  | some .fp16 => some (.fp32, fun b => b == some .fp16)
  | some .fp32 => some (.fp32, fun b => b == some .fp32)
  | _ => none

/-- The accumulator format of an MMA whose A tile has this shape. -/
def mmaAcc (ta : Word) : Fmt := match pairAcc (tTag ta) with | some (f, _) => f | none => .i32

/-- The FORMAT checks of the operand tiles (R233). -/
def pairCheck (ta tb : Word) : Check :=
  match pairAcc (tTag ta) with
  | none => some (.format, tagVal ta)
  | some (_, ok) => require (ok (tTag tb) && tCols tb == tCols ta) .format (tagVal tb)

/-- MMA and MMAS (R233, R234). DESIGN CHOICE (log 131): of two tiles whose sequence numbers differ, the A tile's are reported. -/
def State.mma (s : State) (zero : Bool) (tok : XReg) (tc tb : TReg) (a : XReg) : Out :=
  let ta := s.core.shape tc
  let sb := s.core.shape tb
  let d := s.rx a
  let acc := mmaAcc ta
  s.issueJob (firstFail [
      require (descOk ⟨false, false, false, false, false, false, true⟩ (tRows sb) d) .illegal d, pairCheck ta sb,
      if zero then none else s.rowTags (dRow d) (tRows ta) fun g => g == fmtNum acc,
      seqCheck ta, seqCheck sb, s.rowsIn (dRow d) (tRows ta) d]) tok (.mma zero tc ta tb sb d) fun s1 =>
    if zero then s1.setAccTags (dRow d) (tRows ta) acc else s1

def execMma (tok : XReg) (tc tb : TReg) (a : XReg) (s : State) : Out := s.mma false tok tc tb a
def execMmas (tok : XReg) (tc tb : TReg) (a : XReg) (s : State) : Out := s.mma true tok tc tb a

/-- K and the row bytes of an MTV (R235). -/
def mtvK (t : Word) : Nat := tRows t * tCols t
def mtvRow (t d : Word) : Nat := if bitOf d 30 then (mtvK t + 3) / 4 else (mtvK t + 4) / 5

/-- Whether n bytes at a lie in one local store of the issuer's cluster group (R235). -/
def State.inCluster (s : State) (a : Word) (n : Nat) : Bool :=
  match regionOf a.toNat, regionOf (a + nat64 (n - 1)).toNat with
  | .own _, .own _ => true
  | .peer r _, .peer r' _ =>
    r == r' && decide (r < bitsOf s.core.csr.teamsz 10 0) && r / 8 == bitsOf s.core.csr.rank 9 0 / 8
  | _, _ => false

def execMtv (tok : XReg) (tc : TReg) (a d : XReg) (s : State) : Out :=
  let t := s.core.shape tc
  let x := s.rx d
  let rb := mtvRow t x
  s.issueJob (firstFail [
      require (descOk ⟨true, false, false, true, false, true, true⟩ 0 x) .illegal x,
      require (tTag t == some .i8) .format (tagVal t), s.rowTags (dRow x) 1 fun g => g == fmtNum .i32,
      s.rowsIn (dRow x) 1 x,
      ((rowRanges (s.rx a) (dStride x) (dNC x) rb).find? fun e => !s.inCluster e.1 e.2).map fun e => (.loc, e.1)])
    tok (.mtv tc t (s.rx a) x) id

def execAcld (tok : XReg) (a d : XReg) (s : State) : Out :=
  let x := s.rx d
  s.issueJob (firstFail [
      require (descOk ⟨true, false, true, false, true, true, true⟩ 0 x) .illegal x, s.rowsIn (dRow x) (dNR x) x,
      aligned 4 (s.rx a) (dStride x), s.localHole (rowRanges (s.rx a) (dStride x) (dNR x) (4 * dNC x))])
    tok (.acld (s.rx a) x) fun s1 => s1.setAccTags (dRow x) (dNR x) (dAtag x)

def execAcst (tok : XReg) (a d : XReg) (s : State) : Out :=
  let x := s.rx d
  s.issueJob (firstFail [
      require (descOk ⟨true, false, false, false, true, true, true⟩ 0 x) .illegal x,
      s.rowTags (dRow x) (dNR x) (· != 0), s.rowsIn (dRow x) (dNR x) x,
      aligned 4 (s.rx a) (dStride x), s.localHole (rowRanges (s.rx a) (dStride x) (dNR x) (4 * dNC x))])
    tok (.acst (s.rx a) x) id

/-- The rounding of an ACCVT (R224, R237). -/
def Core.cvtRm (c : Core) (d : Word) : Rm := if bitsOf d 34 32 = 5 then c.rm else rmOf (bitsOf d 34 32)

/-- The code of a rounding mode (R78). -/
def rmCode : Rm → Nat
  | .rne => 0 | .rtz => 1 | .rdn => 2 | .rup => 3 | .rna => 4

def cvtTarget (t : Word) : Bool :=
  match tTag t with
  | some .i8 | some .fp8e4 | some .fp8e5 | some .bf16 | some .fp16 | some .fp32 => true
  | _ => false

def execAccvt (tok : XReg) (tc : TReg) (a : XReg) (s : State) : Out :=
  let t := s.core.shape tc
  let d := s.rx a
  s.issueJob (firstFail [
      require (descOk ⟨false, true, false, false, false, false, true⟩ (tCols t) d) .illegal d,
      require (cvtTarget t) .format (tagVal t), s.rowTags (dRow d) (tRows t) (· != 0),
      s.rowsIn (dRow d) (tRows t) d]) tok
    (.accvt tc t d ((List.range (tRows t)).map fun i => BitVec.ofNat 8 (s.accTag s.core (dRow d + i)))
      (rmCode (s.core.cvtRm d))) id

def execAczero (tok : XReg) (a : XReg) (s : State) : Out :=
  let d := s.rx a
  s.issueJob (firstFail [
      require (descOk ⟨false, false, true, false, true, true, true⟩ 0 d) .illegal d, s.rowsIn (dRow d) (dNR d) d])
    tok (.aczero d) fun s1 => s1.setAccTags (dRow d) (dNR d) (dAtag d)

/-! ### What jobs do -/

/-- The sum of the products of an accumulator element of an integer MMA, and of MTV (R86). -/
def dotInt (n : Nat) (a b : Nat → Int) : Int := (List.range n).foldl (fun s k => s + a k * b k) 0

/-- The cells a job writes, in order, as (row, column). -/
def cells (rows cols : Nat) : List (Nat × Nat) :=
  ((List.range rows).map fun i => (List.range cols).map fun j => (i, j)).flatten

/-- What a compute job leaves: the state, its FCSR flags, its MSTAT bits. -/
abbrev Work := State × Word × Word

/-- One accumulator element of an MMA (R234). -/
def Work.mmaCell (w : Work) (k : Core) (cl base : Nat) (zero : Bool) (ta : TReg) (sa : Word) (tb : TReg) (sb d : Word)
    (e : Nat × Nat) : Work :=
  let (s, fl, ms) := w
  let row := base + dRow d + e.1
  let col := dCol d + e.2
  let c := if zero then 0 else s.accGet cl row col
  let fa := (tTag sa).getD .none
  let fb := (tTag sb).getD .none
  let n := tCols sa
  if mmaAcc sa = .i32 then
    let sum := signedOf 32 c + dotInt n (k.tileInt ta fa e.1) (k.tileInt tb fb e.2)
    let (v, sat) := satInt 32 sum
    (s.accSet cl row col v, fl, if sat then ms ||| msSAT else ms)
  else
    let g := groupSum ((List.range n).map fun i => mulNum (k.tileFp ta fa e.1 i) (k.tileFp tb fb e.2 i))
    let (v, f) := accumulate c g
    (s.accSet cl row col v, fl ||| f, ms)

/-- The trit of weight k in a row's bytes (R81, R82). -/
def tritAt (pack : Bool) (l : List Byte) (k : Nat) : Int :=
  if pack then t2Weight (fieldAt l (k / 4) 1 / 4 ^ (k % 4) % 4)
  else (t5Decode (fieldAt l (k / 5) 1)).1[k % 5]?.getD 0

/-- One element of an MTV (R236). -/
def Work.mtvCell (w : Work) (k : Core) (cl base : Nat) (tc : TReg) (t d : Word) (j : Nat) (bytes : List Byte) : Work :=
  let (s, fl, ms) := w
  let row := base + dRow d
  let col := dCol d + j
  let pack := bitOf d 30
  let a (i : Nat) : Int := k.tileInt tc .i8 (i / tCols t) (i % tCols t)
  let (v, sat) := satInt 32 (signedOf 32 (s.accGet cl row col) + dotInt (mtvK t) (tritAt pack bytes) a)
  let err := !pack && bytes.any fun b => (t5Decode b.toNat).2
  (s.accSet cl row col v, fl, (if sat then ms ||| msSAT else ms) ||| (if err then msTERR else 0))

/-- One element of an ACCVT (R237): the tile bytes it writes and the flags. -/
def State.cvtCell (s : State) (cl base : Nat) (tc : TReg) (t d : Word) (rows : List Byte) (rm : Rm)
    (w : Memory × Word) (e : Nat × Nat) : Memory × Word :=
  let src := (fmtOf ((rows[e.1]?.getD 0).toNat)).getD .i32
  let dst := (tTag t).getD .i8
  let n := lanewidth dst / 8
  let (v, fl) := convert src dst rm (s.accGet cl (base + dRow d + e.1) (dCol d + e.2))
  (w.1.write (tileKey tc (32 * e.1 + n * e.2)) (bytesOfNat n v), w.2 ||| fl)

/-- The accumulator cells of ACLD, ACST and ACZERO as (row, column). -/
def accCells (d : Word) : List (Nat × Nat) := (cells (dNR d) (dNC d)).map fun e => (dRow d + e.1, dCol d + e.2)

/-- The ranges a job reads. -/
def Job.reads : Job → Option (List (Word × Nat))
  | .tld _ t a str => some (rowRanges a str (tRows t) (rowBytes t))
  | .tlds _ t a str => some (rowRanges a str (tRows t) 2)
  | .mtv _ t a d => some (rowRanges a (dStride d) (dNC d) (mtvRow t d))
  | .acld a d => some (rowRanges a (dStride d) (dNR d) (4 * dNC d))
  | _ => none

/-- A job that reads memory checks its ranges and reads them (R227). -/
def State.jobFetch (s : State) (o : Op) (rs : List (Word × Nat)) : State × Phase :=
  match s.checkRanges o.rights .load rs with
  | .error (c, a) => (s, .fetched (some (true, c, a)) [])
  | .ok kss =>
    match s.firstPoison rs kss with
    | some a => (s, .fetched (some (false, .poison, a)) [])
    | none =>
      let (s1, data) := s.readRanges (some (s.homeFor o rs kss)) kss
      (s1, .fetched none data)

/-- Hands f the bytes a job has read; one that a check failed writes nothing, and uncorrectable data leaves zeros and ends in
POISON (R227). DESIGN CHOICE (log 60): its COUNT is then 0, as where a check fails. -/
def State.jobRead (s : State) (o : Op) (rs : List (Word × Nat)) (count : Nat) (bad : State → State)
    (f : State → List (List Byte) → Work) : State :=
  let (s0, ph) := match o.phase with
    | .fetched x y => (s, Phase.fetched x y)
    | _ => s.jobFetch o rs
  match ph with
  | .fetched none data =>
    let (s1, fl, ms) := f s0 data
    s1.completeOp o .ok count 0 fun k => (k.orFlags fl).orMstat ms
  | .fetched (some (check, c, a)) _ => (if check then s0 else bad s0).completeOp o c 0 a id
  | _ => s0

/-- Stores rows of bytes to ranges, later rows last (R227, R230). DESIGN CHOICE (log 141): so where the rows of an ACST overlap in memory
the higher-numbered one's value stays, as R230 states of TST; no rule states it of ACST. -/
def State.jobWrite (s : State) (o : Op) (rs : List (Word × Nat)) (count : Nat) (data : List (List Byte)) : State :=
  match s.checkRanges o.rights .store rs with
  | .error (c, a) => s.completeOp o c 0 a id
  | .ok kss =>
    let h := s.homeFor o rs kss
    match s.firstPoison rs kss with
    | some a =>
      let (s1, n) := s.draw
      (s1.writeSome (some h) (fun _ => true) kss.flatten data.flatten).completeOp o .poison
        (Config.freeNat n % (count + 1)) a id
    | none => (s.engineWrite h kss.flatten data.flatten).completeOp o .ok count 0 id

/-- A job's writes to the tiles of its owner's core. -/
def State.writeTile (s : State) (o : Op) (l : List (Nat × List Byte)) : State :=
  s.deliverOp o fun k => { k with tiles := l.foldl (fun m e => m.write e.1 e.2) k.tiles }

def State.writeScales (s : State) (o : Op) (l : List (Nat × List Byte)) : State :=
  s.deliverOp o fun k => { k with scales := l.foldl (fun m e => m.write e.1 e.2) k.scales }

/-- A job executes and completes (R227, R228, R230 to R237). -/
def State.runJob (s : State) (o : Op) (cl base : Nat) (job : Job) : State :=
  let k := s.ownerCore o.owner
  match job with
  | .tld tc t _ _ =>
    let rb := rowBytes t
    let put (u : State) (l : List (List Byte)) : State :=
      u.writeTile o (l.zipIdx.map fun e => (tileKey tc (32 * e.2), e.1))
    s.jobRead o ((Job.reads job).getD []) (tRows t * rb)
      (fun u => put u (List.replicate (tRows t) (zeros rb))) fun u l => (put u l, 0, 0)
  | .tlds tc t _ _ =>
    let put (u : State) (l : List (List Byte)) : State :=
      u.writeScales o (l.zipIdx.map fun e => (scaleKey tc e.2, bytesOfNat 2 (natOfBytes e.1 % 4096)))
    s.jobRead o ((Job.reads job).getD []) (2 * tRows t)
      (fun u => put u (List.replicate (tRows t) (zeros 2))) fun u l => (put u l, 0, 0)
  | .tst tc t a str =>
    let rb := rowBytes t
    s.jobWrite o (rowRanges a str (tRows t) rb) (tRows t * rb)
      ((List.range (tRows t)).map fun i => k.tiles.read (tileKey tc (32 * i)) rb)
  | .tzero tc => (s.writeTile o [(tileKey tc 0, zeros 1024)]).completeOp o .ok 1024 0 id
  | .mma zero ta sa tb sb d =>
    let (s1, fl, ms) := (cells (tRows sa) (tRows sb)).foldl
      (fun (w : Work) e => w.mmaCell k cl base zero ta sa tb sb d e) (s, 0, if k.tileErr tb sb then msTERR else 0)
    s1.completeOp o .ok (tRows sa) 0 fun c => (c.orFlags fl).orMstat ms
  | .mtv tc t _ d =>
    s.jobRead o ((Job.reads job).getD []) (dNC d)
      (fun u => (List.range (dNC d)).foldl (fun v j => v.accSet cl (base + dRow d) (dCol d + j) 0) u)
      fun u l => l.zipIdx.foldl (fun (w : Work) e => w.mtvCell k cl base tc t d e.2 e.1) (u, 0, 0)
  | .acld _ d =>
    let put (u : State) (l : List (List Byte)) : State :=
      (accCells d).foldl (fun v e =>
        v.accSet cl (base + e.1) e.2 (fieldAt (l[e.1 - dRow d]?.getD []) (4 * (e.2 - dCol d)) 4)) u
    s.jobRead o ((Job.reads job).getD []) (4 * dNR d * dNC d) (fun u => put u [])
      fun u l => (put u l, 0, 0)
  | .acst a d =>
    s.jobWrite o (rowRanges a (dStride d) (dNR d) (4 * dNC d)) (4 * dNR d * dNC d)
      ((List.range (dNR d)).map fun i => s.acc.read (accKey cl (base + dRow d + i) (dCol d)) (4 * dNC d))
  | .accvt tc t d rows rm =>
    let (tiles, fl) := (cells (tRows t) (tCols t)).foldl (s.cvtCell cl base tc t d rows (rmOf rm)) (k.tiles, 0)
    (s.deliverOp o fun c => { c with tiles := tiles }).completeOp o .ok (tRows t) 0 fun c => c.orFlags fl
  | .aczero d =>
    ((accCells d).foldl (fun v e => v.accSet cl (base + e.1) e.2 0) s).completeOp o .ok (dNR d) 0 id

/-! ### The engine's steps (R216 to R218) -/

/-- Whether a job runs on the transfer unit (R218). -/
def Job.isTransfer : Job → Bool
  | .tld _ _ _ _ | .tst _ _ _ _ | .tlds _ _ _ _ | .acld _ _ | .acst _ _ => true
  | _ => false

def Op.onUnit (o : Op) (cluster : Nat) (transfer : Bool) : Bool :=
  match o.body with
  | .matrix c _ _ j => c == cluster && j.isTransfer == transfer
  | _ => false

/-- Whether an operation has been started. -/
def Op.begun (o : Op) : Bool :=
  match o.phase with
  | .started | .fetched _ _ => true
  | _ => false

/-- The job a unit is executing. -/
def State.running (s : State) (cluster : Nat) (transfer : Bool) : Option Op :=
  s.ops.find? fun o => o.onUnit cluster transfer && o.begun

/-- Whether every earlier job of its core has completed (R217). -/
def State.jobReady (s : State) (o : Op) : Bool :=
  o.phase == .issued && !s.ops.any fun p => p.isMatrix && p.owner == o.owner && decide (p.id < o.id)

/-- How far a core comes after the core last served, in round-robin order. -/
def turnOf (last core : Nat) : Nat := (core + 8 - (last + 1) % 8) % 8

def Op.inLane (o : Op) : Bool := match o.body with | .matrix _ l _ _ => l | _ => false

/-- The job a freed unit takes: a latency-lane job first, then by turn, then the oldest (R218). DESIGN CHOICE (log 143): a unit that has
served no core begins its turns at core 0. -/
def State.nextJob (s : State) (cluster : Nat) (transfer : Bool) : Option Op :=
  let ready := s.ops.filter fun o => o.onUnit cluster transfer && s.jobReady o
  let lane := ready.filter Op.inLane
  let last := lookupD s.served (2 * cluster + transfer.toNat) 7
  (if lane.isEmpty then ready else lane).foldl (fun (b : Option Op) o =>
    match b with
    | none => some o
    | some p => if turnOf last (s.homeOf o.owner % 8) < turnOf last (s.homeOf p.owner % 8) then some o else some p) none

/-- A matrix issue stalled on a full queue goes on once an entry frees (R216). -/
def execMatrixQueueRoom (c : Nat) (s : State) : Out :=
  .next (s.whileStalled c .matrixQueue fun _ s =>
    if s.matrixRoom s.core then { s with core := { s.core with stall := none } } else s)

/-- A started job reads its memory at once or only as it completes, a free choice: a FENCE waits for it no longer than for
its accesses (R181, R262). -/
def State.startJob (s : State) (o : Op) : State :=
  match o.body with
  | .matrix _ _ _ job =>
    match job.reads with
    | some rs =>
      let (s1, n) := s.draw
      if Config.freeBit n then
        let (s2, ph) := s1.jobFetch o rs
        s2.modOp o.id fun p => { p with phase := ph }
      else s1.modOp o.id fun p => { p with phase := .started }
    | none => s.modOp o.id fun p => { p with phase := .started }
  | _ => s

/-- The ranges of memory a job names. -/
def Op.jobRanges (o : Op) : List (Word × Nat) :=
  match o.body with
  | .matrix _ _ _ job => job.reads.getD []
  | _ => []

/-- The translation misses of an operation's ranges, at the stations of its issuer's stack (R172). -/
def State.noteRanges (s : State) (o : Op) (l : List (Word × Nat)) : State :=
  l.foldl (fun u e => u.noteRange (s.homeOf o.owner) o.rights.cid e.1.toNat e.2 (e.2 / 65536 + 2)) s

/-- A free unit starts its next job (R218). -/
def execMatrixJobStart (cluster : Nat) (transfer : Bool) (s : State) : Out :=
  .next (match s.running cluster transfer, s.nextJob cluster transfer with
    | none, some o =>
      { (s.noteRanges o o.jobRanges).startJob o with served := assign s.served (2 * cluster + transfer.toNat) (s.homeOf o.owner % 8) }
    | _, _ => s)

/-- The job a unit executes completes (R228). -/
def execMatrixJobComplete (cluster : Nat) (transfer : Bool) (s : State) : Out :=
  .next (match s.running cluster transfer with
    | none => s
    | some o =>
      match o.body with
      | .matrix cl _ base job => s.runJob o cl base job
      | _ => s)

end Sys2Proof.Machine
end

