-- ==== Sys2Proof/Machine/Copy.lean ====
section
/-! DEFINITION. The copy unit (R240 to R249): an operation reads and writes all its bytes in the step that starts it;
its beats land and it completes in later steps. -/
namespace Sys2Proof.Machine
open Sys2Proof

/-! ### Issue (R243) -/

def Op.isCopy (o : Op) : Bool :=
  match o.body with
  | .cpy _ _ _ _ | .cpyf _ _ _ _ | .tcpy _ _ _ _ => true
  | _ => false

/-- Whether the core may issue another copy (R240). -/
def State.copyRoom (s : State) (c : Core) : Bool := decide (((s.opsOf c.owner).filter Op.isCopy).length < 16)

/-- The barrier record that XBAR names (R241). -/
def Core.xbar (c : Core) : Option Word := if bitOf c.csr.xbar 0 then some (c.csr.xbar &&& ~~~15) else none

/-- Whether an address lies in a LOCAL range of R20 or R130, for a core. -/
def Core.localBad (c : Core) (a : Word) : Bool :=
  match regionOf a.toNat with
  | .hole => true
  | .peer rank _ => decide (bitsOf c.csr.teamsz 10 0 ≤ rank)
  | _ => false

/-- Where the region of an address ends: own store, a rank's slot, global space. -/
def regionEnd (a : Word) : Nat :=
  match regionOf a.toNat with
  | .own _ => 0x30000
  | .peer _ off => a.toNat - off + 0x30000
  | .global => 2 ^ 64
  | .hole => 0

/-- The LOCAL check of a range (R243): the first byte in a LOCAL range or outside the region of the first byte. -/
def Core.rangeCheck (c : Core) (a : Word) (n : Nat) : Check :=
  if n = 0 then none
  else if c.localBad a then some (.loc, a)
  else if regionEnd a < a.toNat + n then some (.loc, nat64 (regionEnd a))
  else none

/-- The check of the barrier record (R243 step 4). -/
def State.barCheck (s : State) : Check :=
  match s.core.xbar with
  | none => none
  | some b =>
    match s.resolveAll (s.rightsOf s.core) .atomic b 16 with
    | .error (c, _) => some (c, b)
    | .ok ks => require (!ks.any fun k => s.poisoned k 1) .poison b

/-- Aligned 64-byte units of a range (R249). -/
def beatsOf (a : Word) (n : Nat) : Nat := if n = 0 then 0 else (a.toNat + n - 1) / 64 - a.toNat / 64 + 1

/-- Issues a copy that passed its checks: its beats, or a TCPY's hold, are added before it retires (R249). -/
def State.issueCopy (s : State) (chk : Check) (tok : XReg) (body : Body) (beats : Nat) : Out :=
  match firstFail [chk, s.barCheck] with
  | some (c, v) => s.fault c v
  | none =>
    let n := if s.core.xbar.isSome then beats else 0
    let b := s.core.xbar.getD 0
    let r := s.rightsOf s.core
    if !s.copyRoom s.core then .next (s.stallOn .copySlot)
    else if s.core.counterFull then .next (s.stallOn .counter)
    else if n ≠ 0 ∧ !s.barRoom r b n then .next (s.stallOn .beats)
    else
      let (s1, o) := s.issue 2 tok body n
      .next ((if n = 0 then s1 else s1.modBar o View.empty b (BarRec.addBeats · n)).retire 4)

def execCpy (tok d a b : XReg) (s : State) : Out :=
  let len := s.rx b
  let n := len.toNat
  s.issueCopy (firstFail [require (bitsOf len 63 32 == 0) .illegal len, s.core.rangeCheck (s.rx a) n,
      s.core.rangeCheck (s.rx d) n]) tok (.cpy (s.rx d) (s.rx a) n s.core.xbar) (beatsOf (s.rx d) n)

def execCpyf (tok d a b : XReg) (s : State) : Out :=
  let len := s.rx b
  let n := len.toNat
  s.issueCopy (firstFail [require (bitsOf len 63 32 == 0) .illegal len, s.core.rangeCheck (s.rx d) n]) tok
    (.cpyf (s.rx d) (s.rx a) n s.core.xbar) (beatsOf (s.rx d) n)

def execTcpy (tok d a b : XReg) (s : State) : Out :=
  let desc := s.rx b
  s.issueCopy (firstFail [require (desc.toNat % 4 == 0) .align desc, s.core.rangeCheck desc 1]) tok
    (.tcpy (s.rx d) (s.rx a) desc s.core.xbar) 1

/-! ### What operations do (R244 to R248) -/

/-- How an operation ends: what it has written, its status, count and failing address. -/
abbrev Ending := State × Cause × Nat × Word

/-- The checks of R244: reads first, then writes. -/
def State.checkCopy (s : State) (r : Rights) (src dst : List (Word × Nat)) :
    Except (Cause × Word) (List (List Nat) × List (List Nat)) :=
  match s.checkRanges r .load src with
  | .error e => .error e
  | .ok ss =>
    match s.checkRanges r .store dst with
    | .error e => .error e
    | .ok ds => .ok (ss, ds)

/-- A copy of n bytes between checked keys (R245): all reads come first. -/
def State.moveBytes (s : State) (o : Option Op) (src : Word) (n : Nat) (ks ds : List Nat) : Ending :=
  let (s1, data) := s.readFor o ks
  match s.firstPoison [(src, n)] [ks] with
  | some a =>
    let bad := (ks.zip ds).filter fun e => s.poisoned e.1 1
    (s1.writeSome o (fun q => !bad.any fun e => e.2 / 8 == q) ds data, .poison, 0, a)
  | none => (s1.writeFor o ds data, .ok, n, 0)

/-- CPY and a record's move (R245). -/
def State.copyBytes (s : State) (o : Option Op) (r : Rights) (dst src : Word) (n : Nat) : Ending :=
  match s.checkCopy r [(src, n)] [(dst, n)] with
  | .error (c, a) => (s, c, 0, a)
  | .ok (ks, ds) => s.moveBytes (o.map fun o => s.homeFor o [(src, n), (dst, n)] (ks ++ ds)) src n ks.flatten ds.flatten

/-- n bytes of an 8-byte pattern (R246). -/
def fillBytes (pat : Word) (n : Nat) : List Byte :=
  (List.range n).map fun i => BitVec.ofNat 8 (pat.toNat / 256 ^ (i % 8))

/-- CPYF (R246). -/
def State.fill (s : State) (o : Op) (dst pat : Word) (n : Nat) : Ending :=
  match s.checkCopy o.rights [] [(dst, n)] with
  | .error (c, a) => (s, c, 0, a)
  | .ok (_, ds) => (s.engineWrite (s.homeFor o [(dst, n)] ds) ds.flatten (fillBytes pat n), .ok, n, 0)

/-- A dimension of a TCPY: extent, source and destination strides (R247). -/
structure Dim where
  ext : Nat
  src : Word
  dst : Word
  deriving DecidableEq, Repr

/-- A TCPY's geometry. -/
structure Tensor where
  size : Nat
  total : Nat
  dims : List Dim
  deriving DecidableEq, Repr

/-- The dimension entries of a descriptor. -/
def dimsOf (l : List Byte) : Nat → List Dim
  | 0 => []
  | n + 1 => ⟨fieldAt l 0 4, nat64 (fieldAt l 4 8), nat64 (fieldAt l 12 8)⟩ :: dimsOf (l.drop 20) n

/-- The bytes a descriptor of ndim dimensions occupies (R247). -/
def descSize (ndim : Nat) : Nat := 16 + 20 * ndim

/-- A descriptor's geometry, if it is valid (R247, R248). -/
def tensorOf (l : List Byte) : Option Tensor :=
  let ndim := fieldAt l 0 1
  let size := 2 ^ fieldAt l 1 1
  let total := fieldAt l 8 8
  let dims := dimsOf (l.drop 16) ndim
  let prod := dims.foldl (fun a d => a * d.ext) size
  if 1 ≤ ndim ∧ ndim ≤ 14 ∧ fieldAt l 1 1 ≤ 3 ∧ fieldAt l 2 6 = 0 ∧ total = prod ∧ total ≤ 2 ^ 32 then
    some ⟨size, total, dims⟩
  else none

/-- Checks n bytes to read in increasing order, each by R174 steps 1 to 3 and then for uncorrectable data: their keys, or the
first failing byte. -/
def State.resolveRead (s : State) (r : Rights) (a : Word) : Nat → Except (Cause × Word) (List Nat)
  | 0 => .ok []
  | n + 1 =>
    match s.resolve r .load a.toNat with
    | .error (c, v) => .error (c, v.getD a)
    | .ok k =>
      if s.poisoned k 1 then .error (.poison, a)
      else
        match s.resolveRead r (a + 1) n with
        | .error e => .error e
        | .ok ks => .ok (k :: ks)

/-- Reads a descriptor whole: its header, then its entries, and the first failing byte decides (R248). Its extent beyond the
header is NDIM's, where NDIM is in range. -/
def State.readTensor (s : State) (o : Op) (a : Word) : State × Except (Cause × Word) (List Byte) :=
  match s.resolveRead o.rights a 16 with
  | .error e => (s, .error e)
  | .ok hs =>
    let (s1, h) := s.engineRead (s.homeFor o [(a, 16)] [hs]) hs
    let ndim := fieldAt h 0 1
    match s1.resolveRead o.rights (a + 16) (if 1 ≤ ndim ∧ ndim ≤ 14 then 20 * ndim else 0) with
    | .error e => (s1, .error e)
    | .ok ks =>
      let (s2, l) := s1.engineRead (s1.homeFor o [(a + 16, ks.length)] [ks]) ks
      (s2, .ok (h ++ l))

/-- The source and destination offsets of the element with a linear index, the first dimension fastest (R248). -/
def elemOffset : List Dim → Nat → Word × Word
  | [], _ => (0, 0)
  | d :: t, i =>
    let k := nat64 (i % d.ext)
    let (x, y) := elemOffset t (i / d.ext)
    (k * d.src + x, k * d.dst + y)

/-- The element addresses of a TCPY in order. -/
def Tensor.elems (t : Tensor) (dst src : Word) : List (Word × Word) :=
  (List.range (t.total / t.size)).map fun i =>
    let (x, y) := elemOffset t.dims i
    (src + x, dst + y)

/-- The beats of a TCPY (R249). -/
def Tensor.beats (t : Tensor) (dst src : Word) : Nat :=
  ((t.elems dst src).map fun e => (List.range t.size).map fun i => (e.2 + nat64 i).toNat / 64).flatten.eraseDups.length

/-- A byte of a list of writes, latest first, or of what was read at the start. -/
def byteOf (writes start : List (Nat × Byte)) (k : Nat) : Byte :=
  match writes.find? fun e => e.1 == k with
  | some e => e.2
  | none => ((start.find? fun e => e.1 == k).map (·.2)).getD 0

/-- Draws a free order of the numbers below n. -/
def State.drawOrder (s : State) (n : Nat) : State × List Nat :=
  let (s1, l) := (List.range n).foldl (fun (acc : State × List (Nat × Nat)) i =>
    let (u, k) := acc.1.draw
    (u, acc.2 ++ [(Config.freeNat k, i)])) (s, [])
  (s1, (l.mergeSort fun a b => decide (a.1 ≤ b.1)).map (·.2))

/-- The values of a TCPY's elements (R248): where the operation writes its own sources, each element reads before or after any
of those writes: the elements are taken in a free order, and those that choose so are read at the start. -/
def State.elemData (s : State) (ss ds : List (List Nat)) (data : List (List Byte)) : State × List (List Byte) :=
  let written := ds.flatten
  if !ss.any fun e => e.any written.contains then (s, data)
  else
    let n := ss.length
    let start := ss.flatten.zip data.flatten
    let (s1, order) := s.drawOrder n
    let (s2, _, vals) := order.foldl (fun (acc : State × List (Nat × Byte) × List (Nat × List Byte)) i =>
      let (u, writes, vals) := acc
      let (u1, k) := u.draw
      let v := if Config.freeBit k then data[i]?.getD [] else (ss[i]?.getD []).map (byteOf writes start)
      (u1, ((ds[i]?.getD []).zip v).reverse ++ writes, (i, v) :: vals)) (s1, [], [])
    (s2, (List.range n).map fun i => ((vals.find? fun e => e.1 == i).map (·.2)).getD [])

/-- TCPY with its descriptor read: a later element's bytes stand (R248). -/
def State.tensorCopy (s : State) (o : Op) (dst src : Word) (t : Tensor) : Ending :=
  let es := t.elems dst src
  let reads := es.map fun e => (e.1, t.size)
  let writes := es.map fun e => (e.2, t.size)
  match s.checkCopy o.rights reads writes with
  | .error (c, a) => (s, c, 0, a)
  | .ok (ss, ds) =>
    let o := s.homeFor o (reads ++ writes) (ss ++ ds)
    let (s1, data) := s.readRanges (some o) ss
    match s.firstPoison reads ss with
    | some a =>
      let bad := (((ss.zip ds).filter fun e => e.1.any fun k => s.poisoned k 1).map fun e => e.2.map (· / 8)).flatten
      (s1.writeSome (some o) (fun q => !bad.contains q) ds.flatten data.flatten, .poison, 0, a)
    | none =>
      let (s2, vals) := s1.elemData ss ds data
      (s2.engineWrite o ds.flatten vals.flatten, .ok, t.total, 0)

/-- The bytes of an operation have moved, or it is refused: it has still to complete. -/
def State.endOp (o : Op) (e : Ending) : State :=
  let (s, c, n, a) := e
  s.modOp o.id fun p => { p with phase := .moved c n a }

/-- TCPY with a valid descriptor (R249): its beats are counted and its hold removed in one update; without room it
waits, and reads its descriptor again. -/
def State.startTensor (s : State) (o : Op) (dst src : Word) (t : Tensor) : State :=
  match o.bar with
  | none => State.endOp o (s.tensorCopy o dst src t)
  | some b =>
    let n := t.beats dst src
    if t.total = 0 then State.endOp o (s, .ok, 0, 0)
    else if s.barRoom o.rights b (n - 1) then
      let s1 := (s.modBar o View.empty b fun r => { (if r.beats = 0 then { r with stray := true } else r) with
        beats := r.beats - 1 + n }).modOp o.id fun p => { p with beats := n }
      State.endOp o (s1.tensorCopy o dst src t)
    else s.modOp o.id fun p => { p with phase := .started }

/-- The copy unit checks an operation and moves its bytes or refuses it (R244). The spec states no reported address
for an illegal descriptor: a free value. -/
def State.startCopy (s : State) (o : Op) : State :=
  match o.body with
  | .cpy dst src n _ => State.endOp o (s.copyBytes (some o) o.rights dst src n)
  | .cpyf dst pat n _ => State.endOp o (s.fill o dst pat n)
  | .tcpy dst src desc _ =>
    match s.readTensor o desc with
    | (s0, .error (c, a)) => State.endOp o (s0, c, 0, a)
    | (s0, .ok l) =>
      match tensorOf l with
      | none =>
        let (s1, n) := s0.draw
        State.endOp o (s1, .illegal, 0, Config.freeWord n)
      | some t => s0.startTensor o dst src t
  | _ => s

/-! ### The unit's steps -/

/-- A copy issue stalled as the 17th goes on (R240). -/
def execCopySlotFree (c : Nat) (s : State) : Out :=
  .next (s.whileStalled c .copySlot fun _ s =>
    if s.copyRoom s.core then { s with core := { s.core with stall := none } } else s)

/-- The ranges of memory a copy names; of a TCPY its descriptor. -/
def Op.copyRanges (o : Op) : List (Word × Nat) :=
  match o.body with
  | .cpy dst src n _ => [(src, n), (dst, n)]
  | .cpyf dst _ n _ => [(dst, n)]
  | .tcpy _ _ desc _ => [(desc, 16)]
  | _ => []

def execCopyOpStart (id : Nat) (s : State) : Out :=
  .next (match s.op? id with
    | some o => if o.isCopy ∧ o.phase = .issued then (s.noteRanges o o.copyRanges).startCopy o else s
    | none => s)

/-- n of an operation's beats land (R151, R249). -/
def execBeatLanding (id n : Nat) (s : State) : Out :=
  .next (match s.op? id with
    | some o =>
      match o.phase with
      | .moved .ok _ _ =>
        if o.isCopy ∧ n ≤ o.beats then
          (s.landBeats o n).modOp id fun p => { p with beats := p.beats - n }
        else s
      | _ => s
    | none => s)

/-- A copy completes: what is left of its beats is subtracted, its word written and its counter lowered (R240, R249). -/
def execCopyComplete (id : Nat) (s : State) : Out :=
  .next (match s.op? id with
    | some o =>
      match o.phase with
      | .moved c n a =>
        if o.isCopy ∧ !s.asyncWaiting.any fun e => e.1 == id then s.completeOp o c n a (fun k => k) else s
      | _ => s
    | none => s)

end Sys2Proof.Machine
end

