-- ==== Sys2Proof/Machine/Bte.lean ====
section
/-! DEFINITION. Block-transfer channels (R251 to R259): a record's bytes move in the step that lands it. -/
namespace Sys2Proof.Machine
open Sys2Proof

/-- The channel a handle of the core's gang names (R251, R340). -/
def State.channelOf (s : State) (c : Core) (h : Nat) : Option Nat :=
  match s.coreThread c with
  | none => none
  | some t => ((s.gangs.find? fun g => g.id == t.gang).map (·.channels)).bind (·[h]?)

/-- A channel that has run no chain (R259). -/
def Channel.reset (ch : Nat) : Channel := ⟨ch, none, 0, 0, 0, [], none, 0, .ok⟩

def State.channel (s : State) (ch : Nat) : Channel := (s.channels.find? fun c => c.ch == ch).getD (Channel.reset ch)

def State.putChannel (s : State) (c : Channel) : State :=
  { s with channels := c :: s.channels.filter fun d => d.ch != c.ch }

/-- The requests of a core that no channel has accepted, in issue order (R255). -/
def State.heldRequests (s : State) (c : Nat) : List Op :=
  s.ops.filter fun o =>
    match o.body with
    | .bte _ _ _ acc _ => s.homeOf o.owner == c && !acc
    | _ => false

/-- The issue faults that BTE.GO and BTE.Q share: the channel, or the fault (R254). -/
def State.bteChannel (s : State) (h : Word) : Except Cause Nat :=
  if 64 ≤ h.toNat then .error .illegal
  else
    match s.channelOf s.core h.toNat with
    | none => .error .rights
    | some ch => .ok ch

def execBteGo (tok d a b : XReg) (s : State) : Out :=
  let h := s.rx a
  let head := s.rx b
  let ring := s.rx d
  match s.bteChannel h with
  | .error c => s.fault c h
  | .ok ch =>
    match firstFail [require (head.toNat % 64 == 0) .align head, require (ring.toNat % 8 == 0) .align ring] with
    | some (c, v) => s.fault c v
    | none =>
      if 8 ≤ (s.heldRequests s.core.num).length then .next (s.stallOn .bteRequest)
      else if s.core.counterFull then .next (s.stallOn .counter)
      else .next ((s.issue 3 tok (.bte ch ring head false 0) 0).1.retire 4)

/-- BTE.Q's word (R259). -/
def State.bteWord (s : State) (ch : Nat) : Word :=
  let c := s.channel ch
  let held := (s.heldRequests s.core.num).any fun o => match o.body with | .bte k _ _ _ _ => k == ch | _ => false
  let st := match c.phase with | 0 => 0 | 3 => 2 | _ => 1
  nat64 (c.lastId * 2 ^ 32 + causeCode c.last * 256 + held.toNat * 4 + st)

def execBteQ (d a : XReg) (s : State) : Out :=
  let h := s.rx a
  match s.bteChannel h with
  | .error c => s.fault c h
  | .ok ch => .next (((s.logAnswer (.channel ch) (s.bteWord ch)).wx d (s.bteWord ch)).retire 4)

/-! ### Requests (R255) -/

/-- A channel is idle when no chain of it runs or has still to complete. -/
def State.channelIdle (s : State) (ch : Nat) : Bool := (s.channel ch).phase == 0

def Op.chan (o : Op) : Nat := match o.body with | .bte ch _ _ _ _ => ch | _ => 0
def Op.ring (o : Op) : Word := match o.body with | .bte _ r _ _ _ => r | _ => 0
def Op.chainHead (o : Op) : Word := match o.body with | .bte _ _ h _ _ => h | _ => 0
def Op.retryAt (o : Op) : Nat := match o.body with | .bte _ _ _ _ t => t | _ => 0

def State.setRequest (s : State) (o : Op) (acc : Bool) (retryAt : Nat) : State :=
  s.modOp o.id fun p => { p with body := .bte o.chan o.ring o.chainHead acc retryAt }

/-- A busy channel refuses the i-th request a core holds, with a back-off hint of ns nanoseconds. -/
def execBteRequestRefused (c i ns : Nat) (s : State) : Out :=
  .next (match (s.heldRequests c)[i]? with
    | some o =>
      if !s.channelIdle o.chan ∧ o.retryAt = 0 ∧ 1 ≤ ns ∧ ns ≤ 65535 then s.setRequest o false (s.clock + 2 * ns) else s
    | none => s)

/-- The network interface sends a refused request again once its hint has passed. -/
def execBteRetry (c i : Nat) (s : State) : Out :=
  .next (match (s.heldRequests c)[i]? with
    | some o => if o.retryAt ≠ 0 ∧ o.retryAt ≤ s.clock then s.setRequest o false 0 else s
    | none => s)

def execBteRequestRoom (c : Nat) (s : State) : Out :=
  .next (s.whileStalled c .bteRequest fun _ s =>
    if (s.heldRequests s.core.num).length < 8 then { s with core := { s.core with stall := none } } else s)

/-- An idle channel accepts the i-th request a core holds, if no earlier one of that core waits for it. -/
def execBteAccept (c i : Nat) (s : State) : Out :=
  .next (match (s.heldRequests c)[i]? with
    | some o =>
      let first := !((s.heldRequests c).take i).any fun p => p.chan == o.chan
      if s.channelIdle o.chan ∧ o.retryAt = 0 ∧ first then
        ((s.setRequest o true 0).modOp o.id fun p => { p with phase := .started }).putChannel
          { s.channel o.chan with op := some o.id, recAdr := o.chainHead, moved := 0, phase := 1, bytes := [], entry := none }
      else s
    | none => s)

/-! ### Chains (R256 to R258) -/

/-- A checked read of n bytes for a party of the module, as they stand: the bytes, or the cause and address that fail. -/
def State.bteRead (s : State) (r : Rights) (a : Word) (n : Nat) : Except (Cause × Word) (List Byte) :=
  match s.resolveAll r .load a n with
  | .error e => .error e
  | .ok ks =>
    match s.firstPoison [(a, n)] [ks] with
    | some p => .error (.poison, p)
    | none => .ok (s.readKeys ks)

/-- Such a read corrects the single-bit errors it meets (R165). -/
def State.correctAt (s : State) (r : Rights) (a : Word) (n : Nat) : State :=
  match s.resolveAll r .load a n with
  | .ok ks => s.correct ks
  | .error _ => s

/-- A weak read of a chain (R183, R256). -/
def State.chainRead (s : State) (o : Op) (a : Word) (n : Nat) : State × Except (Cause × Word) (List Byte) :=
  match s.resolveRead o.rights a n with
  | .error e => (s, .error e)
  | .ok ks =>
    let (s1, l) := s.engineRead (s.homeFor o [(a, n)] [ks]) ks
    (s1, .ok l)

/-- A strong acquire load of a chain at SYS scope (R256, R258): what the releases it reads carry is ordered before the chain's
later accesses. -/
def State.chainAcquire (s : State) (o : Op) (a : Word) (n : Nat) : State × Except (Cause × Word) (List Byte) :=
  match s.bteRead o.rights a n, s.resolveAll o.rights .load a n with
  | .ok l, .ok ks =>
    let hs := ks.map hostKey
    let v := s.acquired .sys o.owner (messages (s.writesTo hs) hs)
    let s1 := s.correct ks
    (if v.trivial then s1
      else s1.modOp o.id fun p => { p with fenced := ⟨p.fenced.rd.join v, p.fenced.wr.join v⟩ }, .ok l)
  | .error e, _ => (s, .error e)
  | _, .error e => (s, .error e)

/-- A strong release store of a chain at SYS scope: it carries the chain's writes and what the chain has acquired. -/
def State.chainRelease (s : State) (o : Op) (ks : List Nat) (data : List Byte) : State :=
  s.writeKeysAs { o.source with msg := [⟨s.chainView o, .sys, o.owner⟩] } ks data

/-- An operation as it now stands. -/
def State.opNow (s : State) (o : Op) : Op := (s.op? o.id).getD o

/-- The chain finishes: its completion word, and the channel is idle (R256). One whose record waits for room in the trap ring has
still to finish (R310). -/
def State.finishChain (s : State) (o : Op) (c : Channel) (status : Cause) (moved : Nat) (fa : Word) : State :=
  ((s.putChannel { c with phase := 5, moved := moved, bytes := [], entry := none }).completeOp o status moved fa id).chainDone o status

/-- The lowest field of a ring header out of range (R258): its offset. -/
def ringField (h : List Byte) : Option Nat :=
  if !decide (1 ≤ fieldAt h 8 1 ∧ fieldAt h 8 1 ≤ 20) then some 8
  else if fieldAt h 9 7 ≠ 0 then some 9
  else if fieldAt h 20 4 ≠ 0 then some 20
  else if fieldAt h 28 4 ≠ 0 then some 28
  else none

/-- An entry's 32 bytes (R253). -/
def entryBytes (id : Nat) (status : Cause) (count : Nat) (fa adr : Word) : List Byte :=
  bytesOfNat 4 id ++ bytesOfNat 1 (causeCode status) ++ [3] ++ zeros 2 ++ bytesOfNat 8 count ++ bytesOfWord fa ++
    bytesOfWord adr

/-- What becomes of an entry. -/
inductive Emitted where
  | written (s : State)
  | full (s : State)
  | badHeader (s : State) (fa : Word)
  | failed (s : State) (cause : Cause) (fa : Word)

/-- One attempt to write an entry and advance PROD, which is stored after the entry (R258). -/
def State.emit (s : State) (o : Op) (entry : List Byte) : Emitted :=
  let ring := o.ring
  match s.chainAcquire o (ring + 24) 4 with
  | (s0, .error (c, a)) => .failed s0 c a
  | (s0, .ok cons) =>
    match s0.bteRead o.rights ring 32 with
    | .error (c, a) => .failed s0 c a
    | .ok h =>
      let s0 := s0.correctAt o.rights ring 32
      match ringField h with
      | some off => .badHeader s0 (ring + nat64 off)
      | none =>
        let n := 2 ^ fieldAt h 8 1
        let prod := fieldAt h 16 4
        if (prod + 2 ^ 32 - natOfBytes cons) % 2 ^ 32 = n then .full s0
        else
          match s0.resolveAll o.rights .store (nat64 (fieldAt h 0 8 + 32 * (prod % n))) 32 with
          | .error (c, a) => .failed s0 c a
          | .ok es =>
            let s1 := s0.engineWrite (s0.homeFor (s0.opNow o) [(nat64 (fieldAt h 0 8 + 32 * (prod % n)), 32)] [es]) es entry
            match s1.resolveAll o.rights .store (ring + 16) 4 with
            | .error (c, a) => .failed s1 c a
            | .ok ps => .written (s1.chainRelease (s1.opNow o) ps (bytesOfNat 4 (prod + 1)))

/-- The next record of the chain, or its end. -/
def State.nextRecord (s : State) (c : Channel) (moved : Nat) : State :=
  s.putChannel { c with recAdr := nat64 (fieldAt c.bytes 0 8), moved := moved, phase := 1, bytes := [], entry := none }

/-- Goes on after a record's entry: a failed record ends the chain with its status, a moved one is counted. -/
def State.afterRecord (s : State) (o : Op) (c : Channel) (status : Cause) (count : Nat) (fa : Word) : State :=
  if status = .ok then s.nextRecord c (c.moved + count) else s.finishChain o c status c.moved fa

/-- Emits a record's entry where the chain has a ring (R258), and goes on. A ring access that fails is what the chain reports, with
the record's own status if that had failed. -/
def State.emitRecord (s : State) (o : Op) (c : Channel) (id : Nat) (status : Cause) (count : Nat) (fa adr : Word) : State :=
  if o.ring = 0 then s.afterRecord o c status count fa
  else
    match s.emit o (entryBytes id status count fa adr) with
    | .written s1 => s1.afterRecord o c status count fa
    | .full s1 => s1.putChannel { c with phase := 3, entry := some (id, status, count, fa, adr) }
    | .badHeader s1 a => s1.finishChain o c .illegal (c.moved + count) a
    | .failed s1 e a => s1.finishChain o c (if status = .ok then e else status) (c.moved + count) a

/-- The fields of a record (R252). -/
def recId (l : List Byte) : Nat := fieldAt l 12 4
def recArrive (l : List Byte) : Bool := fieldAt l 8 1 / 16 % 2 == 1
def recFill (l : List Byte) : Bool := fieldAt l 8 1 / 8 % 2 == 1
def recRing (l : List Byte) : Bool := fieldAt l 8 1 / 2 % 2 == 1
def recSrc (l : List Byte) : Word := nat64 (fieldAt l 16 8)
def recDst (l : List Byte) : Word := nat64 (fieldAt l 24 8)
def recLen (l : List Byte) : Nat := fieldAt l 32 8
def recBar (l : List Byte) : Word := nat64 (fieldAt l 40 8)

/-- The lowest field of a record at fault (R256): its offset. -/
def recField (l : List Byte) : Option Nat :=
  if fieldAt l 8 4 / 32 ≠ 0 ∨ fieldAt l 8 4 / 4 % 2 = 1 ∨ (recArrive l ∧ recBar l = 0) then some 8
  else if 2 ^ 32 < recLen l then some 32
  else if (recBar l).toNat % 16 ≠ 0 then some 40
  else if fieldAt l 48 16 ≠ 0 then some 48
  else none

/-- The checks of a record's ranges, of the record and of its barrier (R256). -/
def State.recordCheck (s : State) (r : Rights) (adr : Word) (l : List Byte) : Check :=
  let src := if recFill l then [] else [(recSrc l, recLen l)]
  match s.checkCopy r src [(recDst l, recLen l)] with
  | .error e => some e
  | .ok _ =>
    match s.checkRanges r .store [(adr, 64)] with
    | .error e => some e
    | .ok _ =>
      if recBar l = 0 then none
      else
        match s.resolveAll r .atomic (recBar l) 16 with
        | .error e => some e
        | .ok ks => (s.firstPoison [(recBar l, 16)] [ks]).map fun a => (.poison, a)

/-- Adds a checked record's beats; without room the channel stalls (R151, R256). -/
def State.takeRecord (s : State) (o : Op) (c : Channel) (l : List Byte) : State :=
  let n := beatsOf (recDst l) (recLen l)
  if recBar l = 0 ∨ n = 0 then s.putChannel { c with phase := 2, bytes := l }
  else if s.barRoom o.rights (recBar l) n then
    (s.modBar o View.empty (recBar l) (BarRec.addBeats · n)).putChannel { c with phase := 2, bytes := l }
  else s.putChannel { c with phase := 4, bytes := l }

/-- Takes up the record at the chain's current address (R256, R257): CTRL by an acquire, and the whole record only if it is
owned; a chain of an ending context ends there (R362). DESIGN CHOICE (log 67): a byte outside CTRL that cannot be read fails the record
with its own cause and address, under the ID of CTRL; a record at an address that is not a multiple of 64, for which R252 states no
fate, is taken up as any other where its CTRL is aligned, and else fails with ALIGN as a failed load of CTRL. -/
def State.takeup (s : State) (o : Op) (c : Channel) : State :=
  let r := c.recAdr
  if r = 0 then s.finishChain o c .ok c.moved 0
  else
    let (s0, ctrl) : State × Except (Cause × Word) (List Byte) :=
      if (s.ctx o.rights.cid).ending then (s, .error (.rights, r))
      else if r.toNat % 8 ≠ 0 then (s, .error (.align, r))
      else s.chainAcquire o (r + 8) 8
    match ctrl with
    | .error (e, _) => s0.emitRecord o c 0 e 0 (r + 8) r
    | .ok ctl =>
      if natOfBytes ctl % 2 = 0 then s0.finishChain o c .ok c.moved 0
      else
        let c1 := { c with lastId := fieldAt ctl 4 4 }
        match s0.chainRead (s0.opNow o) r 64 with
        | (s1, .error (e, a)) => s1.emitRecord o c1 c1.lastId e 0 a r
        | (s1, .ok rest) =>
          let l := rest.take 8 ++ ctl ++ rest.drop 16
          match recField l with
          | some off => s1.emitRecord o c1 (recId l) .illegal 0 (r + nat64 off) r
          | none =>
            match s1.recordCheck o.rights r l with
            | some (e, a) => s1.emitRecord o c1 (recId l) e 0 a r
            | none => s1.takeRecord o c1 l

/-- A record's bytes move and land (R256): beats, OWN, arrival, ring entry. -/
def State.landRecord (s : State) (o : Op) (c : Channel) : State :=
  let l := c.bytes
  let r := o.rights
  let bar := recBar l
  let (s1, st, _, fa) :=
    if recFill l then s.fill o (recDst l) (recSrc l) (recLen l) else s.copyBytes (some o) r (recDst l) (recSrc l) (recLen l)
  let n := beatsOf (recDst l) (recLen l)
  let s2 := if bar = 0 ∨ n = 0 then s1 else s1.modBar o (s1.landedView o) bar (BarRec.land · n)
  if st ≠ .ok then s2.emitRecord o c (recId l) st 0 fa c.recAdr
  else
    let ctrl := fieldAt l 8 8 - 1
    let s3 := match s2.resolveAll r .store (c.recAdr + 8) 8 with
      | .ok ks => s2.chainRelease o ks (bytesOfNat 8 ctrl)
      | .error _ => s2
    let s4 := if recArrive l then s3.modBar o (s3.chainView o) bar BarRec.arrive else s3
    if recRing l then s4.emitRecord o c (recId l) .ok (recLen l) 0 c.recAdr
    else s4.nextRecord c (c.moved + recLen l)

/-- Runs f on a channel in a phase, and on its chain. -/
def State.onChannel (s : State) (ch phase : Nat) (f : State → Op → Channel → State) : State :=
  let c := s.channel ch
  match c.op.bind s.op? with
  | some o => if c.phase = phase then f s o c else s
  | none => s

def execBteRecordTakeup (ch : Nat) (s : State) : Out :=
  .next (s.onChannel ch 1 fun s o c => (s.noteRanges o [(c.recAdr, 64)]).takeup o c)
def execBteRecordLanded (ch : Nat) (s : State) : Out := .next (s.onChannel ch 2 State.landRecord)

/-- A channel stalled on a full ring rereads CONS (R258). -/
def execBteRingResume (ch : Nat) (s : State) : Out :=
  .next (s.onChannel ch 3 fun s o c =>
    match c.entry with
    | some (id, st, n, fa, adr) => s.emitRecord o c id st n fa adr
    | none => s)

/-- An addition that waits for room in BEATS is made (R151): that of a TCPY which has read its descriptor, or of a
chain's record, by the operation's number. A CPY or CPYF that stalls at issue adds its beats at a turn of its core. -/
def execBeatsRoom (id : Nat) (s : State) : Out :=
  .next (match s.op? id with
    | some o =>
      if o.isCopy ∧ o.phase = .started then s.startCopy o
      else s.onChannel o.chan 4 fun s p c => if p.id = id then s.takeRecord p c c.bytes else s
    | none => s)

end Sys2Proof.Machine
end

