-- ==== Sys2Proof/Machine/Search.lean ====
section
/-! DEFINITION. The search engine (R267 to R284): watermark slots, their copies, task records and segments. A request
to a slot's home leaves its core in one step, meets the home in a HOME event, and its instruction completes when it
executes again with the home's answer. -/
namespace Sys2Proof.Machine
open Sys2Proof

/-- Records a segment holds (R272), and a spill area (R340). -/
def segmentSize : Nat := 4096
def spillSize : Nat := 65536

def State.wslot (s : State) (sl : Slot) : WSlot := s.slots.get sl

/-- Whether a slot is granted to the context of the core in focus (R267). -/
def State.slotGranted (s : State) (sl : Slot) : Bool := (s.wslot sl).granted == some s.core.cid

/-- The copy of the core in focus (R270). -/
def State.myCopy (s : State) (sl : Slot) : SlotCopy := (s.wslot sl).copy (.core s.core.num)

def slotVal (sl : Slot) : Word := nat64 sl.val

/-- A fault with PEERLOST at a joined slot that a member's loss has closed: the task running leaves through it (R368). -/
def State.peerLost (s : State) (sl : Slot) : State :=
  let s1 : State :=
    if s.core.csr.taskValid ∧ s.core.csr.taskSlot = sl then
      let u := s.taskLeaves s.core
      { u with core := u.core.clearTask }
    else s
  s1.trap .peerlost (nat64 ((s.wslot sl).joined.getD 0))

/-! ### Segments (R271, R272) -/

def State.inSegment (s : State) (field : Nat) : List TaskRec := s.records.filter fun r => r.field == field

/-- The fields where a slot's context runs. -/
def State.contextFields (s : State) (sl : Slot) : List Nat :=
  ((s.threads.filter fun t => !t.ended && (s.wslot sl).granted == some t.cid).map fun t => fieldOf t.home).eraseDups

/-- The records of a segment that fail against its copy are discarded (R272, R273). -/
def State.prune (s : State) (sl : Slot) (field : Nat) : State :=
  let c := (s.wslot sl).copy (.segment field)
  let dead := s.records.filter fun r => r.field == field && r.slot == sl && fails r.bound c
  if dead.isEmpty then s
  else
    { s with records := s.records.filter fun r => !(r.field == field && r.slot == sl && fails r.bound c) }.modSlot sl
      fun w => { w with queued := w.queued - dead.length }.settle

/-- The 32 bytes of a record (R271). -/
def TaskRec.bytes (r : TaskRec) : List Byte :=
  bytesOfWord (BitVec.ofInt 64 r.bound) ++ bytesOfWord r.arg ++ bytesOfNat 4 r.pseq ++ bytesOfNat 4 r.seq ++
    bytesOfNat 1 r.slot.val ++ bytesOfNat 1 (r.root.toNat + 2 * r.moved.toNat) ++ zeros 6

/-- The record that 32 bytes of a spill area hold. -/
def TaskRec.ofBytes (b : List Byte) (i : Nat) (view : View) : TaskRec where
  bound := (nat64 (fieldAt b 0 8)).toInt
  arg := nat64 (fieldAt b 8 8)
  pseq := fieldAt b 16 4
  seq := fieldAt b 20 4
  slot := Fin.ofNat 16 (fieldAt b 24 1)
  root := fieldAt b 25 1 % 2 == 1
  moved := fieldAt b 25 1 / 2 % 2 == 1
  field := 0
  order := i
  view := view

/-- Record i of a slot's spill area. -/
def State.spilled (s : State) (w : WSlot) (e : Nat × View) : TaskRec :=
  TaskRec.ofBytes (s.readMem (w.area.getD 0 + 32 * e.1) 32) e.1 e.2

/-- Room in a slot's spill area: the lowest number that holds no record (R272, R340). -/
def WSlot.spillRoom (w : WSlot) : Option Nat :=
  if w.area.isNone ∨ spillSize ≤ w.spill.length then none
  else (List.range (w.spill.length + 1)).find? fun i => !w.spill.any fun e => e.1 == i

/-- Where a new record goes (R272): the segment of the issuing core's field, else another of the context's fields, a
free choice, else the spill area; none without room. -/
def State.placeFor (s : State) (sl : Slot) (field : Nat) : State × Option SegPlace :=
  if (s.inSegment field).length < segmentSize then (s, some (.segment field))
  else
    let l := (s.contextFields sl).filter fun f => (s.inSegment f).length < segmentSize
    if l.isEmpty then (s, (s.wslot sl).spillRoom.map fun _ => .spill)
    else
      let (s1, n) := s.draw
      (s1, (l[Config.freeNat n % l.length]?).map .segment)

/-- Puts a record at a place: at the end of a segment's order of queueing, or of the spill area. -/
def State.place (s : State) (r : TaskRec) (p : SegPlace) : State :=
  match p with
  | .segment f =>
    let (s1, n) := s.fresh
    { s1 with records := s1.records ++ [{ r with field := f, order := n }] }.prune r.slot f
  | .spill =>
    let w := s.wslot r.slot
    match w.area, w.spillRoom with
    | some base, some i =>
      (s.writeMem (base + 32 * i) r.bytes).modSlot r.slot fun w => { w with spill := w.spill ++ [(i, r.view)] }
    | _, _ => s

/-- The record of a slot that a pop of a segment takes: the lowest bound, and of equals the earliest queued. -/
def State.best (s : State) (sl : Slot) (field : Nat) : Option TaskRec :=
  ((s.inSegment field).filter fun r => r.slot == sl).foldl (fun (b : Option TaskRec) r =>
    match b with
    | none => some r
    | some q => if r.bound < q.bound ∨ (r.bound = q.bound ∧ r.order < q.order) then some r else some q) none

/-! ### Spawning (R277) -/

/-- What a slot's home or a segment answers the core in focus is logged, word by word (R322). -/
def State.logWords (s : State) (sl : Slot) (l : List Word) : State := l.foldl (fun u w => u.logAnswer (.slot sl) w) s

/-- A request to a home leaves its core, and the instruction stalls. -/
def State.ask (s : State) (r : HomeReq) : State :=
  { s with core := { s.core with request := some r } }.stallOn .home

/-- A home's answer as one word, for the replay log. -/
def HomeReply.word : HomeReply → Word
  | .spawn drop => nat64 drop.toNat
  | .update acc => nat64 acc.toNat
  | .set | .closed _ => 0
  | .refused c _ => nat64 (causeCode c)

/-- The instruction of a request to a slot's home executes again: with the home's answer it is f of it, or faults. -/
def State.answered (s : State) (sl : Slot) (f : State → HomeReply → State) : Out :=
  match s.core.reply with
  | none => .next (s.stallOn .home)
  | some r =>
    let s1 := s.logWords sl [r.word]
    match r with
    | .refused .peerlost v => .next (s1.peerLost (Fin.ofNat 16 v.toNat))
    | .refused c v => s1.fault c v
    | r => .next (f s1 r)

def execTspawn (sl : Slot) (a b : XReg) (s : State) : Out :=
  if s.core.request.isSome then s.answered sl fun s _ => s.retire 4
  else if !s.slotGranted sl then s.fault .rights (slotVal sl)
  else if (s.wslot sl).lost then .next (s.peerLost sl)
  else
    let c := s.myCopy sl
    let bound := (s.rx a).toInt
    if c.phase ≠ 2 then .next (s.retire 4)
    else if fails bound c then .next (s.ask (.spawn sl true (s.rx a) (s.rx b)))
    else if (s.placeFor sl (fieldOf s.core.num)).2.isNone then s.fault .rights (slotVal sl)
    else .next (s.ask (.spawn sl false (s.rx a) (s.rx b)))

/-- The record of a spawn (R271): its SEQ counts the spawns of the issuing core's field. -/
def State.newRecord (s : State) (c : Core) (sl : Slot) (bound arg : Word) : State × TaskRec :=
  let f := fieldOf c.num
  let n := lookupD s.spawnCounters f 0
  let pseq := if c.csr.taskValid then c.csr.taskSeq else 0xFFFFFFFF
  ({ s with spawnCounters := assign s.spawnCounters f ((n + 1) % 2 ^ 22) },
    ⟨bound.toInt, arg, pseq, f % 1024 * 2 ^ 22 + n, sl, !c.csr.taskValid, false, f, 0, c.view⟩)

/-- Answers a core's request. -/
def State.replyTo (s : State) (c : Nat) (r : HomeReply) : State := s.modCore c fun k => { k with reply := some r }

/-- A core's search instruction acquires (R284): its earlier accesses, and what it takes over, come before its later ones. -/
def State.acquireAt (s : State) (c : Nat) (v : View) : State := s.modCore c fun k => k.orderSeen.orderView v

/-- A TSPAWN's count at its slot's home (R273, R277); that of a queued record is a release, which the core's earlier loads come
before (R284). -/
def State.homeSpawn (s : State) (c : Nat) (sl : Slot) (failed : Bool) (bound arg : Word) : State :=
  let w := s.wslot sl
  if w.lost then s.replyTo c (.refused .peerlost (slotVal sl))
  else if w.phase ≠ 2 then s.replyTo c (.spawn true)
  else if failed then (s.modSlot sl fun w => { w with spawned := true }.settle).replyTo c (.spawn true)
  else
    match s.placeFor sl (fieldOf c) with
    | (_, none) => s.replyTo c (.refused .rights (slotVal sl))
    | (s1, some p) =>
      let (s2, r) := s1.newRecord (s.getCore c) sl bound arg
      (((s2.modSlot sl fun w => { w with queued := w.queued + 1, spawned := true }).place r p).modCore c fun k =>
        k.orderSeen.settleLoads).replyTo c (.spawn false)

/-- Runs f on a core's unanswered request. -/
def State.onRequest (s : State) (c : Nat) (f : HomeReq → State) : State :=
  let k := s.getCore c
  match k.request, k.reply with
  | some r, none => f r
  | _, _ => s

def execHomeSpawnCount (c : Nat) (s : State) : Out :=
  .next (s.onRequest c fun r =>
    match r with
    | .spawn sl failed bound arg => s.homeSpawn c sl failed bound arg
    | _ => s)

/-! ### Popping (R278) -/

/-- A pop: the record leaves its segment and runs as one step; it synchronises with its spawn (R284). -/
def State.pop (s : State) (r : TaskRec) (pd : PReg) (d : XReg) : State :=
  let s1 := { s with records := s.records.filter fun q => q.order != r.order }.modSlot r.slot fun w =>
    { w with queued := w.queued - 1, running := w.running + 1 }
  let s1 : State := { s1 with core := s1.core.orderSeen.orderView r.view }.logWords r.slot
    [BitVec.ofInt 64 r.bound, r.arg, nat64 r.seq]
  let s2 := s1.setCsr { s1.core.csr with tbnd := BitVec.ofInt 64 r.bound, ttask := nat64 (r.seq * 2 ^ 32 + 16 + r.slot.val) }
  ((s2.wx d r.arg).wp pd true).retire 4

/-- A TNEXT returns false; what it takes over comes before the core's later accesses (R278, R284). -/
def State.tnextFalse (s : State) (pd : PReg) (d : XReg) (ends : View) : State :=
  (((s.acquireAt s.core.num ends).wx d 0).wp pd false).retire 4

/-- TNEXT's loop, once (R278); one that returns false synchronises with the task ends of the slot (R284). -/
def State.tnextTry (s : State) (pd : PReg) (d : XReg) (sl : Slot) : State :=
  if (s.wslot sl).lost then s.peerLost sl
  else
    let f := fieldOf s.core.num
    let s1 := s.prune sl f
    match s1.best sl f with
    | some r => s1.pop r pd d
    | none =>
      if (s1.myCopy sl).phase = 0 then
        (s1.logWords sl [0]).tnextFalse pd d (s1.wslot sl).ends
      else s1.block (.tnext pd d sl) false

/-- Whether a core waits in TNEXT on a slot. -/
def Core.inTnext (k : Core) (sl : Slot) : Bool := match k.wait with | some (.tnext _ _ t) => t == sl | _ => false

/-- The TNEXTs that wait on a slot on a core find that it has closed (R275, R368). -/
def State.closeWaits (s : State) (sl : Slot) : State :=
  (((s.core :: s.others).filter fun k => k.inTnext sl).map (·.num)).foldl (fun (u : State) c => u.onCore c fun v =>
    match v.core.wait with
    | some (.tnext pd d t) => v.tnextTry pd d t
    | _ => v) s

/-- Those that wait in evicted threads will find it when they resume. -/
def State.closeAway (s : State) (sl : Slot) : State :=
  let w := s.wslot sl
  let r : HomeReply := if w.lost then .refused .peerlost (slotVal sl) else .closed w.ends
  { s with threads := s.threads.map fun t =>
      match t.evicted with
      | some k => if !t.ended && k.inTnext sl && k.reply.isNone then { t with evicted := some { k with reply := some r } } else t
      | none => t }

/-- TEND's effect (R279), a release when a task runs (R284). -/
def State.endTask (s : State) : State :=
  let s1 := s.taskLeaves s.core
  { s1 with core := (if s.core.csr.taskValid then s1.core.orderSeen.settleLoads else s1.core).clearTask }

def execTnext (pd : PReg) (d : XReg) (sl : Slot) (s : State) : Out :=
  if !s.slotGranted sl then s.fault .rights (slotVal sl)
  else if (s.wslot sl).lost then .next (s.peerLost sl)
  else .next (s.endTask.tnextTry pd d sl)

def execTend (s : State) : Out := .next (s.endTask.retire 4)

/-- A waiting TNEXT pops a record that arrived in its segment, or returns false once its slot has closed (R278). -/
def execTnextWake (c : Nat) (s : State) : Out :=
  .next (s.onCore c fun s =>
    match s.core.wait with
    | some (.tnext pd d sl) => s.tnextTry pd d sl
    | _ => s)

/-- TPOLL (R280): it retires, and a kill replaces its next pc. -/
def execTpoll (s : State) : Out := .next (s.retireAs (s.core.pc + 4) false true true)

/-! ### The watermark (R281 to R283) -/

/-- Writes what a read of the watermark answers: xd last (R281). -/
def State.wmkOut (s : State) (d b : XReg) (c : SlotCopy) : Out :=
  .next (((s.wx b (nat64 (c.seq * 2 ^ 32 + c.p))).wx d (BitVec.ofInt 64 c.w)).retire 4)

/-- A copy's value, for the replay log. -/
def SlotCopy.words (c : SlotCopy) : List Word := [BitVec.ofInt 64 c.w, nat64 (c.seq * 2 ^ 32 + c.p)]

def execWmkRd (d b : XReg) (sl : Slot) (s : State) : Out :=
  if !s.slotGranted sl then s.fault .rights (slotVal sl)
  else (s.logWords sl (s.myCopy sl).words).wmkOut d b (s.myCopy sl)

/-- A core's copy takes the lower of itself and a value returned to it (R270), as the home answers. -/
def State.lowerAt (s : State) (c : Nat) (sl : Slot) (v : SlotCopy) : State :=
  s.modSlot sl fun w => w.setCopy (.core c) ((w.copy (.core c)).lower v)

def execWmkRdS (d b : XReg) (sl : Slot) (s : State) : Out :=
  if !s.slotGranted sl then s.fault .rights (slotVal sl)
  else
    let w := s.wslot sl
    (((s.lowerAt s.core.num sl w.home).acquireAt s.core.num w.view).logWords sl w.home.words).wmkOut d b w.home

/-- The slot and payload that WMK.UPD and WMK.SET carry in xb (R276). -/
def wmkSlot (x : Word) : Slot := Fin.ofNat 16 (bitsOf x 35 32)
def wmkPayload (x : Word) : Nat := bitsOf x 31 0

def execWmkUpd (pd : PReg) (a b : XReg) (s : State) : Out :=
  let x := s.rx b
  let sl := wmkSlot x
  if s.core.request.isSome then
    s.answered sl fun s r =>
      match r with
      | .update acc => (s.wp pd acc).retire 4
      | _ => s.stallOn .home
  else if bitsOf x 63 36 ≠ 0 then s.fault .illegal x
  else if !s.slotGranted sl then s.fault .rights (slotVal sl)
  else if (s.wslot sl).lost then .next (s.peerLost sl)
  else .next (s.ask (.update sl (s.rx a) (wmkPayload x)))

/-- A core's accepted update or SET is an acquire-release atomic in the run of its slot (R188, R284). -/
def State.joinRun (s : State) (c : Nat) (sl : Slot) : State :=
  let mine := (s.getCore c).view
  (s.acquireAt c (s.wslot sl).view).modSlot sl fun w => { w with view := w.view.join mine }

/-- A WMK.UPD at its slot's home (R282): it waits while the slot is OPENING; the core's copy takes what it returns. -/
def execHomeUpdate (c : Nat) (s : State) : Out :=
  .next (s.onRequest c fun r =>
    match r with
    | .update sl v p =>
      let w := s.wslot sl
      if w.lost then s.replyTo c (.refused .peerlost (slotVal sl))
      else if w.phase = 1 then s
      else if lowerThan v.toInt p w.w w.p then
        let w' := { w with w := v.toInt, p := p, seq := (w.seq + 1) % 2 ^ 32 }
        (((s.modSlot sl fun _ => w').lowerAt c sl w'.home).joinRun c sl).replyTo c (.update true)
      else ((s.lowerAt c sl w.home).acquireAt c View.empty).replyTo c (.update false)
    | _ => s)

/-- WMK.SET retires once the home that took it is OPEN. -/
def execWmkSet (d a b : XReg) (s : State) : Out :=
  let x := s.rx b
  let sl := wmkSlot x
  if s.core.reply = some .set ∧ (s.wslot sl).phase = 1 then .next (s.stallOn .home)
  else if s.core.request.isSome then s.answered sl fun s _ => s.retire 4
  else if bitsOf x 63 36 ≠ 0 then s.fault .illegal x
  else if (s.rx d).toInt < 0 then s.fault .illegal (s.rx d)
  else if !s.slotGranted sl then s.fault .rights (slotVal sl)
  else .next (s.ask (.set sl (s.rx a) (wmkPayload x) (s.rx d)))

/-- The slot's value after a WMK.SET at its home (R283). -/
def WSlot.setTo (w : WSlot) (v : Word) (p : Nat) (gap : Word) : WSlot :=
  let w' := { w with
    w := v.toInt, p := p, g := gap.toNat, seq := (w.seq + 1) % 2 ^ 32, phase := 1, spawned := false
    lost := false, copies := [], ends := View.empty }
  { w' with base := w'.home }

/-- Whether a WMK.SET may initialise the slot (R283). -/
def WSlot.idle (w : WSlot) : Bool :=
  (w.phase == 0 || (w.phase == 2 && !w.spawned)) && w.queued == 0 && w.running == 0

/-- The TNEXTs that wait on a closed slot return, or fault, for that closing before a SET opens it again (R275, R368). -/
def State.settleWaits (s : State) (sl : Slot) : State :=
  if (s.wslot sl).phase = 0 then
    ((s.closeAway sl).modSlot sl fun w => { w with base := w.home, copies := [] }).closeWaits sl
  else s

/-- A WMK.SET at its slot's home (R283): every copy is overwritten in OPENING, or the slot is not idle. -/
def execHomeSet (c : Nat) (s : State) : Out :=
  .next (s.onRequest c fun r =>
    match r with
    | .set sl v p gap =>
      let w := s.wslot sl
      if w.idle then
        (((s.settleWaits sl).modSlot sl fun _ => w.setTo v p gap).joinRun c sl).replyTo c .set
      else s.replyTo c (.refused .illegal (slotVal sl))
    | _ => s)

/-- The cores whose WMK.SET of a slot its home has taken. -/
def State.setters (s : State) (sl : Slot) : List Nat :=
  ((s.core :: s.others).filter fun k =>
    k.reply == some .set && match k.request with | some (.set t _ _ _) => t == sl | _ => false).map (·.num)

/-- Every copy holds the new value: the slot opens, and its WMK.SET retires (R283). -/
def execWmkSetOpen (sl : Slot) (s : State) : Out :=
  .next (if (s.wslot sl).phase = 1 then
      let s1 := s.modSlot sl fun w => { w with phase := 2, base := { w.base with phase := 2 }, copies := [] }
      (s.setters sl).foldl (fun (u : State) c => u.onCore c fun v => if v.issues then v.retire 4 else v) s1
    else s)

/-! ### Propagation, work-sharing, closing (R270, R272, R275) -/

/-- The sequence numbers of the tasks of a slot that run, on a core or in a save area. -/
def State.tasksOf (s : State) (sl : Slot) : List Nat :=
  ((s.core :: s.others ++ s.threads.filterMap (·.evicted)).filter fun k => k.csr.taskValid && k.csr.taskSlot == sl).map
    fun k => k.csr.taskSeq

/-- Whether a core waits at a blocking point that is a kill point (R280). -/
def killableWait : Option Wait → Bool
  | none | some (.tnext _ _ _) | some (.yield _) => false
  | some _ => true

/-- A core in focus that waits at a blocking point is killed when its task's bound now fails (R280); one that FORK has recruited
waits no longer (R144). -/
def State.killWaiting (s : State) : State :=
  if killableWait s.core.wait && s.core.recruit.isNone && s.taskFailsAt s.core s.core.num then
    (if s.core.wait = some .cvyJoin then { s with core := s.core.setConvoy .left } else s).killTask
  else s

/-- What another module does at the home of a joined slot, given how many records and running tasks of the slot are this module's
(R267, R273, R275, R282, R283). -/
def WSlot.remote (w : WSlot) (records tasks : Nat) : MemberAct → WSlot
  | .update v p =>
    if w.phase ≠ 1 ∧ lowerThan v.toInt p w.w w.p then { w with w := v.toInt, p := p, seq := (w.seq + 1) % 2 ^ 32 } else w
  | .spawn => if w.phase = 2 then { w with queued := w.queued + 1, spawned := true } else w
  | .failed => if w.phase = 2 then { w with spawned := true }.settle else w
  | .pop => if records < w.queued then { w with queued := w.queued - 1, running := w.running + 1 } else w
  | .discard => if records < w.queued then { w with queued := w.queued - 1 }.settle else w
  | .ends => if tasks < w.running then { w with running := w.running - 1 }.settle else w
  | .set v p gap => if w.idle then w.setTo v p gap else w
  | .give _ _ | .take _ _ => w

def isSetAct : MemberAct → Bool
  | .set _ _ _ => true
  | _ => false

/-- The records of a slot at a place. -/
def State.recordsAt (s : State) (sl : Slot) : SegPlace → List TaskRec
  | .segment f => (s.inSegment f).filter fun r => r.slot == sl
  | .spill => (s.wslot sl).spill.map (s.spilled (s.wslot sl))

/-- Places that hold records of a slot. -/
def State.placesOf (s : State) (sl : Slot) : List SegPlace :=
  .spill :: ((s.records.filter fun r => r.slot == sl).map fun r => SegPlace.segment r.field).eraseDups

/-- Takes the n lowest-bound records of a slot from a place. -/
def lowestRecords (l : List TaskRec) (n : Nat) : List TaskRec :=
  (l.mergeSort fun a b => decide (a.bound < b.bound ∨ (a.bound = b.bound ∧ a.order ≤ b.order))).take n

/-- Removes a record from where it lies. -/
def State.takeRecordOut (s : State) (p : SegPlace) (r : TaskRec) : State :=
  match p with
  | .segment _ => { s with records := s.records.filter fun q => q.order != r.order }
  | .spill =>
    (s.correct ((List.range 32).map fun i => (s.wslot r.slot).area.getD 0 + 32 * r.order + i)).modSlot r.slot fun w =>
      { w with spill := w.spill.filter fun e => e.1 != r.order }

/-- Whether a thread waits in TNEXT on a slot in a field: on a core there, or evicted and named to resume there (R325). -/
def State.waitingTnext (s : State) (sl : Slot) (field : Nat) : Bool :=
  ((s.core :: s.others).any fun k => fieldOf k.num == field && k.inTnext sl) ||
    s.threads.any fun t => !t.ended && t.named == field && match t.evicted with | some k => k.inTnext sl | none => false

/-- Moves records of a slot to a segment, as MOVED. -/
def State.moveRecords (s : State) (src : SegPlace) (dst : Nat) (l : List TaskRec) : State :=
  l.foldl (fun (u : State) r => (u.takeRecordOut src r).place { r with moved := true } (.segment dst)) s

/-- How many records of a slot lie in this module. -/
def State.recordsHere (s : State) (sl : Slot) : Nat := (s.records.filter fun r => r.slot == sl).length + (s.wslot sl).spill.length

/-- A record that another module hands over: MOVED, and its spawn comes after what that module has written here. -/
def State.givenRecord (s : State) (sl : Slot) (t : TaskWords) : TaskRec :=
  let peers := s.hist.filter fun e => e.src.route == .inbound && decide (2 ≤ e.src.num)
  ⟨t.bound.toInt, t.arg, t.pseq % 2 ^ 32, t.seq % 2 ^ 32, sl, t.root, true, 0, 0,
    View.empty.add ((peers.map fun e => e.cells.map fun c => (c.1, e.stamp)).flatten)⟩

/-- Another module's slice moves records of a joined slot to a segment here on which a TNEXT waits (R272): at most 64 of those
counted that do not lie here. -/
def State.takeOver (s : State) (sl : Slot) (field : Nat) (l : List TaskWords) : State :=
  let room := min 64 (min ((s.wslot sl).queued - s.recordsHere sl) (segmentSize - (s.inSegment field).length))
  if s.waitingTnext sl field && (s.recordsAt sl (.segment field)).isEmpty && decide (l.length ≤ room) then
    l.foldl (fun u t => u.place (u.givenRecord sl t) (.segment field)) s
  else s

/-- The slice moves the lowest n records of a slot from the place here that holds most of them to another module, where a TNEXT
waits (R272): they stay queued. -/
def State.handOver (s : State) (sl : Slot) (src : SegPlace) (n : Nat) : State :=
  let l := s.recordsAt sl src
  let most := (s.placesOf sl).all fun p => decide ((s.recordsAt sl p).length ≤ l.length)
  if most && decide (n ≤ min ((l.length + 1) / 2) 64) then (lowestRecords l n).foldl (fun u r => u.takeRecordOut src r) s else s

/-- An act of another member's module at the home of a slot joined with it. The home is on the group's primary (R267); its state is
held here whichever module that is. -/
def State.memberActs (s : State) (sl : Slot) (a : MemberAct) : State :=
  let w := s.wslot sl
  if w.joined.isNone || (w.lost && !isSetAct a) then s
  else
    match a with
    | .give field l => s.takeOver sl field l
    | .take src n => s.handOver sl src n
    | _ =>
      let s0 := if isSetAct a && w.idle then s.settleWaits sl else s
      s0.modSlot sl fun _ => w.remote (s.recordsHere sl) (s.tasksOf sl).length a

/-- An accepted update, or a closing, reaches a copy (R270): a segment prunes, a waiting core is killed; or what another member's
module does reaches the home of a joined slot (R267). -/
def execWmkPropagate (sl : Slot) (holder : CopyHolder) (s : State) : Out :=
  let w := s.wslot sl
  let c := (w.copy holder).lower w.home
  let s1 := s.modSlot sl fun w => w.setCopy holder { c with phase := if w.phase = 0 then 0 else c.phase }
  .next (match holder with
    | .segment f => s1.prune sl f
    | .core n =>
      let s2 := if c = w.copy holder then s1 else c.words.foldl (fun u v => u.logExt (s1.getCore n) (.slot sl) 11 v) s1
      s2.onCore n State.killWaiting
    | .member a => s.memberActs sl a)

/-- The slice shares work with a segment on which a TNEXT waits (R272): from the place holding most records of the slot,
half of them, rounded up and at most 64. -/
def execRecordMove (sl : Slot) (src : SegPlace) (dst : Nat) (s : State) : Out :=
  let l := s.recordsAt sl src
  let most := (s.placesOf sl).all fun p => decide ((s.recordsAt sl p).length ≤ l.length)
  let n := min (min ((l.length + 1) / 2) 64) (segmentSize - (s.inSegment dst).length)
  .next (if s.waitingTnext sl dst && (s.recordsAt sl (.segment dst)).isEmpty && most then
      s.moveRecords src dst (lowestRecords l n)
    else s)

/-- A spilled record comes back to a segment with room (R272): which one is a free choice. -/
def execSpillReturn (sl : Slot) (field : Nat) (s : State) : Out :=
  let l := s.recordsAt sl .spill
  .next (if (s.contextFields sl).contains field ∧ (s.inSegment field).length < segmentSize then
      let (s1, n) := s.draw
      match l[Config.freeNat n % l.length]? with
      | some r => s1.moveRecords .spill field [r]
      | none => s
    else s)

/-- A closed slot's copies are CLOSED and its waiting TNEXTs return false (R275). DEDUCED: the closing follows every accepted
value to the copies, as the WMK.RD row of R327 needs. -/
def execSlotClose (sl : Slot) (s : State) : Out :=
  let s1 := s.modSlot sl WSlot.settle
  .next (if (s1.wslot sl).phase = 0 then
      let s2 := s1.modSlot sl fun w =>
        { w with base := w.home, copies := [] }
      s2.closeWaits sl
    else s)

end Sys2Proof.Machine
end

