-- ==== Sys2Proof/Machine/Calender.lean ====
section
/-! DEFINITION. The calender refinement controller (R286 to R298): gathering, validation, kernels, the norm test, and the
end of a run. -/
namespace Sys2Proof.Machine
open Sys2Proof

/-! ### The controller's accesses: path X, with rank 0's captured rights (R291) -/

/-- Checks n bytes for reading and writing, and their data, in increasing address order (R288). -/
def State.rwBytes (s : State) (r : Rights) (a : Word) : Nat → Except (Cause × Word) (List Nat)
  | 0 => .ok []
  | n + 1 =>
    match s.resolve r .atomic a.toNat with
    | .error (c, v) => .error (c, v.getD a)
    | .ok k =>
      if s.poisoned k 1 then .error (.poison, a)
      else
        match s.rwBytes r (a + 1) n with
        | .error e => .error e
        | .ok ks => .ok (k :: ks)

/-- The controller as an operation of path X with rank 0's captured rights (R291): it follows every write performed so far. -/
def State.calOp (s : State) (run : CalRun) (r : Rights) : Op :=
  let id := ((run.members.find? fun m => m.rank == 0).map (·.opId)).getD 0
  ⟨id, r.owner, 4, 0, none, 0, r, [], .cal 0, .issued, 0, true, ⟨View.upTo s.stamp, View.upTo s.stamp⟩, false⟩

/-- A write of the controller. -/
def State.calWrite (s : State) (o : Op) (a : Word) (data : List Byte) : Except (Cause × Word) State :=
  match s.resolveAll o.rights .store a data.length with
  | .error e => .error e
  | .ok ks => .ok (s.engineWrite { o with fenced := ⟨View.upTo s.stamp, View.upTo s.stamp⟩ } ks data)

/-- Writes that are each made if they can be. -/
def State.tryWrites (s : State) (o : Op) (l : List (Word × List Byte)) : State :=
  l.foldl (fun (u : State) e =>
    match u.calWrite o e.1 e.2 with
    | .ok v => v
    | .error _ => u) s

/-! ### The command block (R286 to R288) -/

def f64 (w : Nat) : Num := match fpFmt .fp64 with | some f => f.decode w | none => .nan false

/-- rnd(FP64, RNE, a * b) (R292). -/
def mul64 (a b : Num) : Num := match fpFmt .fp64 with | some f => f.decode (f.deliver .rne (mulNum a b)).1 | none => a

def Num.isFinite : Num → Bool
  | .fin _ _ _ => true
  | _ => false

def Num.isPos (a : Num) : Bool := (Num.fin false 0 0).lt a

/-- a ≤ b; false where either is NaN. -/
def Num.le (a b : Num) : Bool := !a.isNaN && !b.isNaN && !b.lt a

/-- The place of a ladder format in the order of R287. -/
def ladderRank : Nat → Option Nat
  | 0x5 => some 0
  | 0x7 => some 1
  | 0x9 => some 2
  | 0xA => some 3
  | _ => none

/-- Whether the first n bytes of a ladder are known and strictly increasing (R287). DEDUCED: the controller does not test the
unused bytes, as R302's row of a ladder byte beyond NRUNG needs. -/
def ladderOk (l : List Nat) (n : Nat) : Bool :=
  (l.take n).all (fun b => (ladderRank b).isSome) &&
    (List.range (n - 1)).all fun i =>
      match (l[i]?).bind ladderRank, (l[i + 1]?).bind ladderRank with
      | some a, some b => decide (a < b)
      | _, _ => false

/-- The ILLEGAL rows of R288. -/
def blockOk (b : List Byte) : Bool :=
  let n := fieldAt b 0 8
  let nr := fieldAt b 72 1
  let tol := f64 (fieldAt b 80 8)
  let stag := f64 (fieldAt b 88 8)
  let div := f64 (fieldAt b 96 8)
  let bn := f64 (fieldAt b 104 8)
  let entry (off : Nat) : Bool := fieldAt b off 8 != 0 && fieldAt b off 1 % 2 == 0
  decide (1 ≤ n ∧ n ≤ 2 ^ 24 ∧ 1 ≤ nr ∧ nr ≤ 4) && ladderOk (fieldsAt b 73 1 4) nr && fieldAt b 77 3 == 0 &&
    fieldAt b 146 2 == 0 && tol.isFinite && tol.isPos && stag.isPos && !div.lt stag && div.isFinite && bn.isFinite &&
    !bn.lt (.fin false 0 0) && fieldAt b 112 4 != 0 &&
    decide (fieldAt b 116 1 ≤ 2 ∧ fieldAt b 117 1 ≤ 2 ∧ fieldAt b 118 1 ≤ 2) && fieldAt b 116 1 != 0 &&
    entry 48 && entry 56 && entry 64

/-- The validation of R288: the block's bytes, or the cause and the failing address where the spec states one. -/
def State.calValidate (s : State) (r : Rights) (blk : Word) : Except (Cause × Option Word) (List Byte) :=
  match s.rwBytes r blk 256 with
  | .error (c, a) => .error (c, some a)
  | .ok ks =>
    let b := s.readKeys ks
    if !blockOk b then .error (.illegal, none)
    else
      match s.rwBytes r (nat64 (fieldAt b 24 8)) (8 * fieldAt b 0 8), s.rwBytes r (nat64 (fieldAt b 40 8)) (8 * fieldAt b 0 8) with
      | .error (c, a), _ => .error (c, some a)
      | _, .error (c, a) => .error (c, some a)
      | .ok _, .ok _ => .ok b

/-! ### Members -/

/-- A member is ordered, on every path, after what the run's re-arrivals released and after the controller's writes (R291,
R301). -/
def State.calAcquire (s : State) (run : CalRun) : State :=
  let own := match run.rights with
    | some r => (s.writesOf (s.calOp run r)).map (·.2)
    | none => []
  { s with core := s.core.orderPaths (run.view.add own) }

def Team.modMember (t : Team) (rank : Nat) (f : CalMember → CalMember) : Team :=
  { t with cal := { t.cal with members := modWhere (fun m => m.rank == rank) f t.cal.members } }

/-- The thread that a member of a team is. -/
def State.memberThread (s : State) (team rank : Nat) : Option Thread :=
  s.threads.find? fun t => t.team == team && t.rank == rank && !t.ended

/-- A member's part ends (R293, R295): result, token, counter and holds, and its CAL.RUN retires; rank 0 may trap. -/
def State.calRetire (s : State) (team : Nat) (m : CalMember) (o : Op) (status : Cause) : State :=
  match s.team? team with
  | none => s
  | some t =>
    let run := t.cal
    let s1 := s.finishOp o status run.iters fun k => k.wx m.xd (calResult run.exit run.rung run.iters)
    let s2 := s1.modTeam team fun t => (t.modMember m.rank fun m => { m with done := true, waiting := none, due := false }).calIdle
    match s2.memberThread team m.rank with
    | none => s2
    | some th =>
      s2.onCore th.home fun u =>
        let u1 := (u.calAcquire run).retire 4
        if run.trapExit ∧ m.rank = 0 then u1.trapEntry .calexit u1.core.pc (nat64 (run.rung * 256 + run.exit)) else u1

/-- A waiting member of a run that is DONE completes: a failure with token x0 first writes its record (R296, R309). -/
def State.calComplete (s : State) (team : Nat) (m : CalMember) : State :=
  match s.team? team, s.op? m.opId with
  | some t, some o =>
    let (_, status, fa) := t.cal.ending.getD (0, .ok, 0)
    if s.asyncWaiting.any (fun e => e.1 == o.id) then s
    else if status = .ok ∨ o.tok ≠ 0 then s.calRetire team m o status
    else
      let (s1, res) := s.writeRecord (s.ownerCore o.owner) (causeCode status) o.cls 1 o.rights.domain o.pc fa
        (completionWord status o.cls t.cal.iters)
      match res with
      | .full => { s1 with asyncWaiting := s1.asyncWaiting ++ [(o.id, status, nat64 t.cal.iters, fa)] }
      | _ => s1.calRetire team m o status
  | _, _ => s

/-- What a dispatch hands a member (R290): its CAL.RUN retires as a taken transfer to the kernel. -/
def State.calEnter (s : State) (team : Nat) (m : CalMember) (home : Nat) : State :=
  match s.team? team with
  | none => s
  | some t =>
    let run := t.cal
    let k := match run.state with | 3 => 0 | 4 => 1 | _ => 2
    let iter := if run.state = 4 ∨ run.state = 5 then run.iter else 0
    let entry : Word := nat64 (fieldAt run.cfg (48 + 8 * k) 8)
    let s1 := s.modTeam team fun t => t.modMember m.rank fun m => { m with waiting := none, due := false }
    s1.onCore home fun u0 =>
      let u := (u0.logExt u0.core (.team team) 6 entry).calAcquire run
      ({ u with core := ((((u.core.wx 1 u.core.pc).wx 10 (nat64 run.block)).wx 11
        (nat64 (fieldAt run.cfg (73 + run.rung) 1))).wx 12 (nat64 iter)).wx 13 (nat64 k) }).gateJump entry

/-- Gives a resident waiting member what its run has for it: the run's end, or a dispatch (R290, R293, R298). -/
def State.calDeliver (s : State) (team rank : Nat) : State :=
  match s.team? team, s.memberThread team rank with
  | some t, some th =>
    match t.calMember rank with
    | none => s
    | some m =>
      let there := th.evicted.isNone && match (s.getCore th.home).wait with | some (.cal _) => true | _ => false
      if !there then s
      else if t.cal.state = 6 then s.calComplete team m
      else if m.due then s.calEnter team m th.home
      else s
  | _, _ => s

/-- Gives every member what the run has for it, in rank order of arrival. -/
def State.calDeliverAll (s : State) (team : Nat) : State :=
  match s.team? team with
  | none => s
  | some t => t.cal.members.foldl (fun u m => u.calDeliver team m.rank) s

/-! ### The controller (R289 to R296) -/

def State.modCal (s : State) (team : Nat) (f : CalRun → CalRun) : State := s.modTeam team fun t => { t with cal := f t.cal }

def State.calRun (s : State) (team : Nat) : CalRun := ((s.team? team).map (·.cal)).getD CalRun.idle

/-- The block fields that the run's counts fill, by their offsets (R286). -/
def CalRun.counts (c : CalRun) : List (Nat × List Byte) :=
  [(144, bytesOfNat 1 c.exit), (145, bytesOfNat 1 c.rung), (148, bytesOfNat 4 c.iters)] ++
    (c.riters.zipIdx.map fun e => (152 + 4 * e.2, bytesOfNat 4 e.1))

/-- The counts of a run that starts (R294). -/
def CalRun.clear (c : CalRun) : CalRun := { c with exit := 255, rung := 0, iter := 0, iters := 0, riters := [0, 0, 0, 0] }

/-- The run ends (R293, R296): the block's counts are written where they can be, and every member completes. DEDUCED: one that
ends before it started has counted nothing. -/
def State.calFinish (s : State) (team exit : Nat) (status : Cause) (fa : Word) (trap write : Bool) : State :=
  let s1 := s.modCal team fun c =>
    { (if c.state = 1 then c.clear else c) with state := 6, exit := exit, ending := some (exit, status, fa), trapExit := trap }
  let run := s1.calRun team
  let s2 := match run.rights with
    | some r =>
      if write then s1.tryWrites (s1.calOp run r) (run.counts.map fun (e : Nat × List Byte) => (nat64 (run.block + e.1), e.2)) else s1
    | none => s1
  (s2.modTeam team Team.calIdle).calDeliverAll team

/-- An access of the controller failed: the run ends with FAULT and the access's cause (R296). -/
def State.calFail (s : State) (team : Nat) (e : Cause × Word) : State := s.calFinish team 4 e.1 e.2 false true

/-- Writes a block field of a run. -/
def State.calField (s : State) (team off : Nat) (data : List Byte) : Except (Cause × Word) State :=
  let run := s.calRun team
  match run.rights with
  | some r => s.calWrite (s.calOp run r) (nat64 (run.block + off)) data
  | none => .ok s

/-- Reads n bytes of a run's block. -/
def State.calRead (s : State) (team off n : Nat) : Except (Cause × Word) (List Byte) :=
  let run := s.calRun team
  match run.rights with
  | some r => s.bteRead r (nat64 (run.block + off)) n
  | none => .ok (zeros n)

/-- Such a read corrects the single-bit errors it meets (R165). -/
def State.calCorrect (s : State) (team off n : Nat) : State :=
  let run := s.calRun team
  match run.rights with
  | some r => s.correctAt r (nat64 (run.block + off)) n
  | none => s

/-- Writes block fields of a run in turn. -/
def State.calFields (s : State) (team : Nat) : List (Nat × List Byte) → State × Option (Cause × Word)
  | [] => (s, none)
  | (off, data) :: rest =>
    match s.calField team off data with
    | .error e => (s, some e)
    | .ok s1 => s1.calFields team rest

/-- ABORT, by a strong acquire load (R294). A store to it that is still on its way, as no re-arrival and no earlier dispatch
comes after it, may be missed (R299). -/
def State.calAbort (s : State) (team : Nat) : State × Except (Cause × Word) Byte :=
  let run := s.calRun team
  match s.calRead team 119 1, run.rights.map fun r => s.resolve r .load (run.block + 119) with
  | .error e, _ => (s, .error e)
  | .ok l, some (.ok k) =>
    let w := s.writesTo [hostKey k]
    let free (e : Write) : Bool := decide (run.asOf < e.stamp) && !run.view.covers e (hostKey k)
    let (s1, n) := (s.correct [k]).choose (w.takeWhile free).length
    (s1, .ok (before (w.take n) (l.headD 0) (hostKey k)))
  | .ok l, _ => (s, .ok (l.headD 0))

/-- Dispatches a kernel: the state it runs in; ABORT is read first (R290, R294). A solve begins an iteration. -/
def State.calDispatch (s : State) (team st : Nat) : State :=
  match s.calAbort team with
  | (s0, .error e) => s0.calFail team e
  | (s0, .ok b) =>
    if b ≠ 0 then s0.calFinish team 5 .ok 0 false true
    else
      let s1 := s0.modCal team fun c =>
        { c with state := st, iter := if st = 4 then c.iter + 1 else c.iter, asOf := s0.stamp }
      match s1.calFields team (s1.calRun team).counts with
      | (s2, some e) => s2.calFail team e
      | (s2, none) =>
        (s2.modCal team fun c => { c with members := c.members.map fun m => { m with due := !m.done } }).calDeliverAll team

/-- A copy between x and BESTX, at the block's offsets (R292). -/
def State.calCopy (s : State) (team src dst : Nat) : State × Option (Cause × Word) :=
  let run := s.calRun team
  match run.rights with
  | none => (s, none)
  | some r =>
    let (s1, c, _, a) := s.copyBytes (some (s.calOp run r)) r (nat64 (fieldAt run.cfg dst 8)) (nat64 (fieldAt run.cfg src 8)) (8 * fieldAt run.cfg 0 8)
    (s1, if c = .ok then none else some (c, a))

/-- An exit takes its action (R293): escalation refactors at the next rung, but not from the initial residual (R294) nor
at the last rung. -/
def State.calExit (s : State) (team exit : Nat) : State :=
  let run := s.calRun team
  let act := fieldAt run.cfg (116 + exit) 1
  if act = 0 ∧ run.state = 5 ∧ run.rung + 1 < fieldAt run.cfg 72 1 then
    (s.modCal team fun c => { c with rung := c.rung + 1, iter := 0 }).calDispatch team 3
  else s.calFinish team exit .ok 0 (act = 2) true

/-- BEST ← r where it is lowered, or at the initial residual, with x copied to BESTX; then PREV at the initial residual
(R292). -/
def State.calBest (s : State) (team : Nat) (r : Word) : Except (State × Cause × Word) State :=
  let run := s.calRun team
  let first := run.state = 2
  if !(first || (f64 r.toNat).lt (f64 run.best.toNat)) then .ok s
  else
    let s1 := s.modCal team fun c => { c with best := r, prev := if first then r else c.prev }
    match s1.calCopy team 24 40 with
    | (s2, some e) => .error (s2, e)
    | (s2, none) =>
      match s2.calField team 128 (bytesOfWord r) with
      | .error e => .error (s2, e)
      | .ok s3 =>
        if !first then .ok s3
        else match s3.calField team 136 (bytesOfWord r) with
          | .error e => .error (s3, e)
          | .ok s4 => .ok s4

/-- PREV ← r, in the run and in the block, and then f. -/
def State.calPrev (s : State) (team : Nat) (r : Word) (f : State → State) : State :=
  let s1 := s.modCal team fun c => { c with prev := r }
  match s1.calField team 136 (bytesOfWord r) with
  | .error e => s1.calFail team e
  | .ok s2 => f s2

/-- A residual kernel has re-arrived: with its solve it makes a pair, which ITERS and RITERS count (R293). -/
def State.calPair (s : State) (team : Nat) : State :=
  s.modCal team fun c =>
    if c.state = 5 then { c with iters := c.iters + 1, riters := c.riters.set c.rung (c.riters[c.rung]?.getD 0 + 1) } else c

/-- The norm test of R292 after a residual kernel. -/
def State.calTest (s : State) (team : Nat) : State :=
  match s.calRead team 120 8 with
  | .error e => s.calFail team e
  | .ok l =>
    let rw := wordOfBytes l
    match (s.calCorrect team 120 8).calBest team rw with
    | .error (s1, e) => s1.calFail team e
    | .ok s1 =>
      let run := s1.calRun team
      let num (off : Nat) : Num := f64 (fieldAt run.cfg off 8)
      let r := f64 rw.toNat
      let p := f64 run.prev.toNat
      let tol := num 80
      let stag := num 88
      let div := num 96
      let diverge (u : State) : State :=
        match u.calCopy team 40 24 with
        | (v, some e) => v.calFail team e
        | (v, none) => v.calPrev team (v.calRun team).best fun w => w.calExit team 2
      if r.isNaN ∨ r = .inf false then diverge s1
      else if r.le (mul64 (mul64 tol tol) (num 104)) then s1.calExit team 0
      else if run.state = 2 then s1.calDispatch team 3
      else if (mul64 (mul64 div div) p).lt r then diverge s1
      else if (mul64 (mul64 stag stag) p).lt r ∨ run.iter = fieldAt run.cfg 112 4 then
        if fieldAt run.cfg 117 1 = 0 then s1.calPrev team rw fun w => w.calExit team 1 else s1.calExit team 1
      else s1.calPrev team rw fun w => w.calDispatch team 4

/-- Whether every member of a run that has not left it waits in CAL.RUN for the next step. -/
def Team.calArrived (t : Team) : Bool := t.cal.members.all fun m => m.done || (m.waiting.isSome && !m.due)

/-- Whether all members of a team have arrived to start a run. -/
def Team.calGathered (t : Team) : Bool :=
  t.cal.state == 1 && t.cal.ending.isNone && decide (t.cal.members.length = t.size) && t.calArrived

/-- Whether a run of the calender goes on at a field's sequencer, of a team other than this one (R289). -/
def State.sequencerBusy (s : State) (field team : Nat) : Bool :=
  s.teams.any fun u => u.field == field && u.id != team && decide (2 ≤ u.cal.state ∧ u.cal.state ≤ 5)

/-- Whether a team is in a run of its field's sequencer (R289, R294). -/
def Team.inRun (t : Team) : Bool := decide (2 ≤ t.cal.state ∧ t.cal.state ≤ 5)

/-- The run of a gathered team starts when its field's sequencer is free, in order of last arrivals (R289, R294). -/
def execCalRunStart (team : Nat) (s : State) : Out :=
  .next (match s.team? team with
    | none => s
    | some t =>
      let peers := s.teams.filter fun u => u.field == t.field && u.id != team
      let busy := s.sequencerBusy t.field team
      let first := peers.all fun u => !u.calGathered || decide (t.cal.lastArrival ≤ u.cal.lastArrival)
      if !t.calGathered || busy || !first then s
      else
        match t.cal.rights with
        | none => s
        | some r =>
          let s := s.correctAt r (nat64 t.cal.block) 256
          match s.calValidate r (nat64 t.cal.block) with
          | .error (c, some a) => s.calFinish team 255 c a false false
          | .error (c, none) =>
            let (s1, n) := s.draw
            s1.calFinish team 255 c (Config.freeWord n) false false
          | .ok b =>
            let s1 := s.modCal team fun c =>
              { c.clear with cfg := b.take 119, state := 2 }
            s1.calDispatch team 2)

/-- The controller goes on after the last re-arrival of a kernel, or ends a run that a fault, a kill or a failed access
has ended (R292, R296). -/
def execCalKernelDone (team : Nat) (s : State) : Out :=
  .next (match s.team? team with
    | none => s
    | some t =>
      if t.cal.state = 0 ∨ t.cal.state = 6 then s
      else
        match t.cal.ending with
        | some (exit, status, fa) => s.calFinish team exit status fa false (decide (2 ≤ t.cal.state))
        | none =>
          if !t.calArrived then s
          else
            match t.cal.state with
            | 3 => s.calDispatch team 4
            | 4 => s.calDispatch team 5
            | 2 | 5 => (s.calPair team).calTest team
            | _ => s)

/-! ### The instructions (R295, R297) -/

/-- A member's arrival in a run releases what it and its engines have done (R291). -/
def State.calRelease (s : State) (team : Nat) : State :=
  let s1 := s.observeDone
  s1.modCal team fun c => { c with view := c.view.join s1.core.view }

/-- A run gathers: CAL.QRY still shows the exit and counts of the last one (R294, R297). -/
def CalRun.gather (c : CalRun) (stamp : Nat) : CalRun :=
  { CalRun.idle with
    state := 1, asOf := stamp, exit := c.exit, rung := c.rung, iter := c.iter, iters := c.iters, riters := c.riters }

/-- A member arrives at the start of a run: it issues its part and waits (R289, R295). DEDUCED: it releases as a re-arrival
does. -/
def State.calArrive (s : State) (tok d : XReg) (xa : Word) (t : Thread) : State :=
  let (s1, o) := s.issue 4 tok (.cal t.team) 0
  let m : CalMember := ⟨t.rank, o.id, xa, d, some s.core.pc, false, false⟩
  let s2 := s1.modCal t.team fun c =>
    let c0 := if c.state = 0 then c.gather s.stamp else c
    let c1 := { c0 with members := c0.members ++ [m], lastArrival := s.clock }
    if t.rank = 0 then { c1 with rights := some o.rights, block := xa.toNat } else c1
  (({ s2 with core := s2.core.setPending tok false } : State).calRelease t.team).block (.cal xa) true

/-- A member that is in its team's run re-arrives once its engine operations have completed (R291), or completes when
the run has ended (R296). -/
def State.calReturn (s : State) (t : Thread) (m : CalMember) : State :=
  if (s.opsOf s.core.owner).any fun o => match o.body with | .cal _ | .strong _ _ _ _ _ _ => false | _ => true then
    s.stallOn .drain
  else
    let s1 := s.modTeam t.team fun tm => tm.modMember m.rank fun m => { m with waiting := some s.core.pc }
    ((s1.calRelease t.team).block (.cal m.block) true).calDeliver t.team m.rank

def execCalRun (tok d a : XReg) (s : State) : Out :=
  let xa := s.rx a
  let run := (s.coreThread s.core).bind fun t => (s.team? t.team).map fun tm => (t, tm)
  let member := run.bind fun e => (e.2.calMember e.1.rank).map fun m => (e.1, m)
  match member with
  | some (t, m) => .next (s.calReturn t m)
  | none =>
    if xa.toNat % 8 ≠ 0 then s.fault .align xa
    else if s.core.localBad xa then s.fault .loc xa
    else if s.core.counterFull then .next (s.stallOn .counter)
    else
      match run with
      | none => .next (s.block (.cal xa) true)
      | some (t, tm) =>
        if 2 ≤ tm.cal.state ∨ tm.cal.ending.isSome then .next (s.block (.cal xa) true) else .next (s.calArrive tok d xa t)

/-- CAL.QRY's word (R297). -/
def CalRun.word (c : CalRun) : Word :=
  nat64 (c.iters % 2 ^ 32 * 2 ^ 32 + c.iter % 2 ^ 16 * 2 ^ 16 + c.exit * 256 + c.rung % 4 * 16 + c.state)

def execCalQry (d : XReg) (s : State) : Out :=
  match s.coreThread s.core with
  | some t =>
    let w := (s.calRun t.team).word
    .next (((s.logAnswer (.team t.team) w).wx d w).retire 4)
  | none => .next ((s.wx d CalRun.idle.word).retire 4)

end Sys2Proof.Machine
end

