-- ==== Sys2Proof/Machine/Monitor.lean ====
section
/-! DEFINITION. Monitor mode: MRET and the MON instructions (R348, R351, R352), Deckle's services (R349) and the security core's
request (R346). A service is one step from the monitor entry to the return, as R349 states it. -/
namespace Sys2Proof.Machine
open Sys2Proof

/-! ### MRET (R348) -/

/-- The tag of the page an address lies on: the LPT's, or the leaf's; none where no page is mapped. -/
def State.pageTagAt (s : State) (a : Word) : Option Byte :=
  match regionOf a.toNat with
  | .own off => some ((s.getCore (s.homeOf s.core.owner)).pageTag (off / 4096))
  | .global =>
    match s.leafFor s.core.num s.core.cid a.toNat with
    | .ok (e, _) => some (leafTag e)
    | .error _ => none
  | _ => none

/-- The core's operations are all part of the context it goes on with. -/
def State.joinOps (s : State) : State :=
  if s.ops.any (·.apart) then
    { s with ops := modWhere (fun o => o.owner == s.core.owner) (fun o => { o with apart := false }) s.ops }
  else s

/-- Clears ARM and returns to program mode at t; where t lies on no page DOMAIN keeps its value. -/
def State.toProgram (s : State) (t : Word) : State :=
  let c := s.core
  { s.joinOps with core := { c with
    mode := .program, pc := t, pfb := [], inArea := none, domain := (s.pageTagAt t).getD c.domain
    csr := { c.csr with dkresume := c.csr.dkresume &&& ~~~1 } } }

/-- The encoding of a monitor instruction, as ILLEGAL reports it in program mode (R10). -/
def monFault (s : State) (i : Instr) : Out := s.fault .illegal (nat64 (encode i))

def execMret (s : State) : Out :=
  if s.core.mode = .program then monFault s .mret
  else if !bitOf s.core.csr.dkresume 0 then .next s.stopCore
  else
    let t := s.core.csr.dkresume &&& ~~~1
    .next ((s.jump t).toProgram t)

/-! ### The MON instructions (R352) -/

/-- Whether a protection entry's value is admitted as entry i (R351, R352). -/
def Core.peOk (c : Core) (i : Nat) (v : Word) : Bool :=
  bitsOf v 51 18 == 0 && bitsOf v 15 14 == 0 && bitsOf v 7 6 == 0 && peKind v != 3 && decide (peFirst v ≤ peLast v) &&
    !(peLast v == 47 && peKind v != 0) &&
    (peKind v == 0 || (List.finRange 8).all fun j =>
      let w := c.pe.get j
      j.val == i || peKind w == 0 || decide (peLast v < peFirst w ∨ peLast w < peFirst v))

def execProtSet (a b : XReg) (s : State) : Out :=
  let i := s.rx a
  let v := s.rx b
  if s.core.mode = .program then monFault s (.protSet a b)
  else if h : i.toNat < 8 then
    if !s.core.peOk i.toNat v then s.fault .illegal v
    else .next ({ s with core := { s.core with pe := s.core.pe.set i.toNat v } }.retire 4)
  else s.fault .illegal i

def execLptSet (a b : XReg) (s : State) : Out :=
  let i := s.rx a
  let v := s.rx b
  if s.core.mode = .program then monFault s (.lptSet a b)
  else if h : i.toNat < 47 then
    if bitsOf v 63 8 ≠ 0 then s.fault .illegal v
    else .next ({ s with core := { s.core with lpt := s.core.lpt.set i.toNat (BitVec.ofNat 8 v.toNat) } }.retire 4)
  else s.fault .illegal i

/-- The check of a save-area address (R352). -/
def saveOk (a : Word) : Bool := a.toNat % 4096 == 0 && decide (a.toNat ≤ 0x2C000)

/-- The program-mode state as CTX.SAVE writes it: its pc is the one at which MRET would resume. -/
def Core.saved (c : Core) : Core := { c with pc := c.csr.dkresume &&& ~~~1 }

/-- What an evicted thread's area holds once CTX.SAVE has written another context over it: the slice still waits for what it saved
the thread for. -/
def Core.savedOver (c img : Core) : Core :=
  { c.saved with
    num := img.num, mode := img.mode, cid := img.cid, tid := img.tid, wait := img.wait, reply := img.reply, loadFault := img.loadFault
    csr := { c.csr with dkctx := img.csr.dkctx } }

/-- An operation whose context lies in no save area any more: its results go nowhere. -/
def Op.stray (o : Op) : Op := { o with owner := .saved 0, discard := true, holds := [] }

/-- CTX.SAVE once the core's matrix jobs have completed (R352): every operation of the core is one of the context that lies there. One
of a context that lay there delivers nowhere. -/
def State.ctxSave (s0 : State) (a : Word) : State :=
  if (s0.opsOf s0.core.owner).any Op.isMatrix then s0.stallOn .drain
  else
    let k := localKey s0.core.num a.toNat
    let s := s0.joinOps
    let s1 := s.writeArea k s.core.saved s.core.owner
    let s2 := match s.areaThread k with
      | some (t, img) => s1.setSaved t.tid (s.core.savedOver img)
      | none => s1
    ({ s2 with
      core := { s2.core.settleLoads with inArea := some k }
      ops := modWhere (fun o => o.owner == s.areaHolder k) Op.stray s2.ops } : State).retire 4

def execCtxSave (a : XReg) (s : State) : Out :=
  if s.core.mode = .program then monFault s (.ctxSave a)
  else if !saveOk (s.rx a) then s.fault .align (s.rx a)
  else .next (s.ctxSave (s.rx a))

/-- The operations when a context is loaded over an owner's (R316, R352): those of the context that leaves go on for whoever holds it
then, and those of the context that comes are the owner's. One that was issued apart from the leaving context stays the core's. -/
def Op.reowned (own : Owner) (left : Option Owner) (come : Owner) (o : Op) : Op :=
  if o.owner = come then { o with owner := own }
  else if o.owner = own ∧ !o.apart ∧ left ≠ some come then
    match left with
    | some w => { o with owner := w }
    | none => o.stray
  else o

/-- Vector registers that the outstanding reductions of an owner write (R139). -/
def State.pendingGroups (s : State) (w : Owner) : BitVec 32 :=
  (s.opsOf w).foldl (fun a o =>
    match o.body with
    | .red _ _ _ vd => (List.finRange 4).foldl (fun b q => b ||| (1#32 <<< (groupReg vd q).val)) a
    | _ => a) 0

/-- CTX.LOAD (R352): the loaded pc becomes the address MRET resumes at, ARM as it was; the context's instruction cache
is invalidated (R23), the gate stack is that of the context (R209), and its operations in flight deliver to the core again (R316), also
where the area is that of an evicted thread. What the core has issued apart from the context stays in flight on it (R215).
Uncorrectable data in the area is consumed (R165). DESIGN CHOICE (log 126): the declared set of R43 and INSTRET stay as they were,
since the save area holds neither. -/
def State.ctxLoad (s : State) (a : Word) : State :=
  let c := s.core
  let at_ := localKey c.num a.toNat
  let k := loadBytes { c with gateSpill := s.spilledAt at_ } (s.readMem at_ 12288)
  if s.savePoisoned at_ then s.trap .poison a
  else
    let s1 : State := { s.correctArea at_ with
      ops := s.ops.map (Op.reowned c.owner (c.inArea.map s.areaHolder) (s.areaHolder at_)) }
    let k := (s1.ops.filter fun o => o.owner == c.owner && o.apart).foldl Core.takeOp k
    { s1 with
      core := { k.settleLoads with
        pc := c.pc, wait := none, cid := bitsOf c.csr.dkctx 63 52, icache := [], inArea := some at_
        pendV := s1.pendingGroups c.owner
        csr := { k.csr with dkresume := (k.pc &&& ~~~1) ||| (c.csr.dkresume &&& 1) } } }.retire 4

def execCtxLoad (a : XReg) (s : State) : Out :=
  if s.core.mode = .program then monFault s (.ctxLoad a)
  else if !saveOk (s.rx a) then s.fault .align (s.rx a)
  else .next (s.ctxLoad (s.rx a))

/-! ### Deckle's services (R349) -/

/-- Whether the core in focus has just entered monitor mode by an MCALL whose immediate p admits. -/
def State.inService (s : State) (p : Nat → Bool) : Bool :=
  let c := s.core
  c.mode == .monitor && !c.stopped && bitsOf c.csr.dkentry 47 40 == 1 && bitOf c.csr.dkresume 0 &&
    c.pc == 0x2F080 && p c.csr.dkdata.toNat

/-- Deckle returns from a service with a status in x10; a load before it has its value for good (R184). -/
def State.svcReturn (s : State) (status : Nat) : State :=
  let s1 := { s with core := s.core.settleLoads }.wx 10 (nat64 status)
  s1.toProgram (s1.core.csr.dkresume &&& ~~~1)

/-- The status of a failed check of a service's operand bytes. -/
def svcStatus (c : Cause) : Nat := if c = .rights then 1 else 2

/-- The rights with which Deckle reads and writes for services 2 and 3: domain 255 of the calling context. -/
def State.svcRights (s : State) : Rights := (s.rightsOf s.core).runtime

/-- Runs a service on core c, whose instructions name some registers: it stalls while one of them is pending, and uses them (R139). -/
def State.service (s : State) (c : Nat) (p : Nat → Bool) (xs : List XReg) (f : State → State) : State :=
  s.onCore c fun s => if s.inService p && !xs.any (fun r => s.core.pendX.getLsbD r.val) then f (s.useNamed xs []) else s

/-- Service 1. -/
def State.svcTag (s : State) : State :=
  let page := (s.rx 11).toNat
  let tag := (s.rx 12).toNat
  if s.core.domain ≠ 255 then s.svcReturn 1
  else if h : page < 47 then
    if !s.core.peAllows s.core.cid page ∨ 256 ≤ tag then s.svcReturn 2
    else { s with core := { s.core with lpt := s.core.lpt.set page (BitVec.ofNat 8 tag) } }.svcReturn 0
  else s.svcReturn 2

/-- The domain and bitmap that services 2 and 3 name, if valid. -/
def State.svcBitmap (s : State) : Option (Byte × Bool) :=
  let t := (s.rx 11).toNat
  let w := (s.rx 12).toNat
  if 1 ≤ t ∧ t ≤ 255 ∧ w ≤ 1 then some (BitVec.ofNat 8 t, w == 1) else none

/-- The place of a bitmap in the reach table (R203). -/
def reachKey (t : Byte) (write : Bool) : Nat := 64 * t.toNat + if write then 32 else 0

/-- Service 2. -/
def State.svcWrite (s : State) : State :=
  if s.core.domain ≠ 255 then s.svcReturn 1
  else
    match s.svcBitmap with
    | none => s.svcReturn 2
    | some (t, w) =>
      match s.resolveAll s.svcRights .load (s.rx 13) 32 with
      | .error (c, _) => s.svcReturn (svcStatus c)
      | .ok ks =>
        if ks.any fun k => s.poisoned k 1 then s.svcReturn 2
        else ((s.correct ks).modCtx s.core.cid fun x => { x with reach := x.reach.write (reachKey t w) (s.readKeys ks) }).svcReturn 0

/-- A bitmap with the bits that hardware forces (R203). -/
def Context.bitmap (x : Context) (t : Byte) (write : Bool) : List Byte :=
  (List.range 32).map fun i => BitVec.ofNat 8 ((List.range 8).foldl (fun a b =>
    a + (x.reaches write t (BitVec.ofNat 8 (8 * i + b))).toNat * 2 ^ b) 0)

/-- Service 3. -/
def State.svcRead (s : State) : State :=
  if s.core.domain ≠ 255 then s.svcReturn 1
  else
    match s.svcBitmap with
    | none => s.svcReturn 2
    | some (t, w) =>
      match s.resolveAll s.svcRights .store (s.rx 13) 32 with
      | .error (c, _) => s.svcReturn (svcStatus c)
      | .ok ks => (s.writeKeys ks ((s.ctx s.core.cid).bitmap t w)).svcReturn 0

/-- Service 0: the thread's task and calender run end, its operations' results are discarded, and it waits to end. -/
def State.svcEnd (s : State) : State :=
  match s.coreThread s.core with
  | none => s
  | some t =>
    let s1 := s.endTask
    let s2 := s1.calKill s1.core
    { s2 with
      ops := modWhere (fun o => o.owner == Owner.thread t.tid) (fun o => { o with discard := true }) s2.ops
      threads := modWhere (fun u => u.tid == t.tid) (fun u => { u with ending := true }) s2.threads }.teamCheck t.team

def execSvcEndThread (c : Nat) (s : State) : Out := .next (s.service c (· == 0) [] State.svcEnd)
def execSvcSetPageTag (c : Nat) (s : State) : Out := .next (s.service c (· == 1) [10, 11, 12] State.svcTag)
def execSvcWriteReach (c : Nat) (s : State) : Out := .next (s.service c (· == 2) [10, 11, 12, 13] State.svcWrite)
def execSvcReadReach (c : Nat) (s : State) : Out := .next (s.service c (· == 3) [10, 11, 12, 13] State.svcRead)
def execSvcUnknown (c : Nat) (s : State) : Out := .next (s.service c (4 ≤ ·) [10] fun s => s.svcReturn 3)

/-! ### Requests of the security core -/

/-- A page of a local store that is written anew has sound check bits (R25). -/
def State.clearPoison (s : State) (key n : Nat) : State :=
  { s with poison := s.poison.filter fun u => !(decide (u * 8 < key + n ∧ key < u * 8 + 8)) }

/-- Waits that stand across a monitor entry only in the core: what they did is not repeated by executing again. -/
def holdsWait : Option Wait → Bool
  | some .parked | some .cvyJoin | some (.cal _) | some (.strongLoad _ _ _) => true
  | _ => false

/-- The security core's request, between instructions (R346, event 4): of a core in program mode that is in no wait that
would be lost, and in no instruction whose request its home may have taken already (R277, R282, R283). -/
def State.requestMonitor (s : State) (v : Word) : State :=
  if s.core.mode = .program ∧ !s.core.stopped ∧ !holdsWait s.core.wait ∧ s.core.request.isNone then s.enterMonitor 4 .ok v s.core.pc else s

def execSecurityCoreRequest (c : Nat) (v : Word) (s : State) : Out := .next (s.onCore c fun s => s.requestMonitor v)

end Sys2Proof.Machine
end

