-- ==== Sys2Proof/Machine/Slice.lean ====
section
/-! DEFINITION. The slice controllers: eviction, resumption and migration of threads (R135, R313 to R319, R325). -/
namespace Sys2Proof.Machine
open Sys2Proof

/-- The KIND of a blocking point (R313); none elsewhere. -/
def waitKind : Option Wait → Option Nat
  | some .idle => some 1
  | some (.barrier _ _ _) => some 2
  | some (.waita _ _ _) => some 3
  | some .parked => some 4
  | some .cvyJoin => some 5
  | some (.tnext _ _ _) => some 6
  | some (.cal _) => some 7
  | some (.strongLoad _ _ _) => some 8
  | _ => none

/-- A thread's gang. -/
def State.gangOf (s : State) (t : Thread) : Option Gang := s.gangs.find? fun g => g.id == t.gang

/-- Whether Deckle keeps a save area for a context on a core (R314, R347, R351): the three pages from the one it records lie in a
KIND 2 entry of the context. -/
def Core.hasArea (k : Core) (cid : Nat) : Bool :=
  decide (k.saveBase ≤ 0x2C000) && [0, 1, 2].all fun i => k.pe.toList.any fun w =>
    peKind w == 2 && peCid w == cid && decide (peFirst w ≤ k.saveBase / 4096 + i ∧ k.saveBase / 4096 + i ≤ peLast w)

/-- Whether a thread may be evicted (R135, R314): it waits at a blocking point, is not CONCURRENT, not halted, its matrix
jobs have completed, and Deckle keeps a save area for it. -/
def State.evictable (s : State) (t : Thread) (k : Core) : Bool :=
  (waitKind k.wait).isSome && !t.ending && !t.ended && !k.dbg.halted && !k.stopped && k.mode == .program &&
    (match s.gangOf t with | some g => g.cls != 2 | none => false) &&
    !(s.opsOf (.thread t.tid)).any Op.isMatrix && k.hasArea t.cid

/-- A core left by its thread: in monitor mode, with nothing of the thread's that other steps would act on. -/
def Core.vacant (k : Core) : Core :=
  { k with
    tid := none, loans := Vector.replicate 8 Loan.empty, gateHw := [], gateSpill := [], wake := false, convoy := .alone
    trail := [], pendX := 0, pendV := 0, delivered := [], wait := none, stall := none, request := none, reply := none
    recruit := none, inArea := none, loadFault := none, pfb := [], views := Views.start 0 }

/-- The field a waiting TNEXT is named to resume in (R325): one of the gang's partitions; any other thread resumes in the
field of its region. -/
def State.mayName (s : State) (t : Thread) (k : Core) (field : Nat) : Bool :=
  match k.wait with
  | some (.tnext _ _ _) =>
    field == fieldOf t.home || (match s.gangOf t with | some g => g.plan.any fun p => p.field == field | none => false)
  | _ => true

/-- The slice evicts the waiting thread of a core into its save area, and the core enters monitor mode (R314, R346); an operation of a
context that lay there delivers nowhere. For a
waiting TNEXT it names the field of the resumption (R325). -/
def execSliceEvict (v : Eviction) (s : State) : Out :=
  .next (
    let k := s.getCore v.core
    match s.coreThread k with
    | none => s
    | some t =>
      if !s.evictable t k || !s.mayName t k v.field then s
      else
        let s1 := s.writeSaved t k
        let s2 : State := { s1 with
          threads := modWhere (fun u => u.tid == t.tid) (fun u =>
            { u with evicted := some k, named := if waitKind k.wait = some 6 then v.field else fieldOf u.home }) s1.threads
          ops := modWhere (fun o => o.owner == .saved (localKey t.home k.saveBase)) Op.stray s1.ops }
        s2.onCore v.core fun u =>
          let w := u.enterMonitor 3 .ok 0 u.core.pc
          { w with core := w.core.vacant })

/-- Whether the word a barrier or WAITA wait names satisfies it; an access that is refused ends the wait (the instruction
executes again and faults). -/
def State.wordWakes (s : State) (k : Core) (a : Word) (n : Nat) (f : List Byte → Bool) : Bool :=
  match s.resolveAll (s.rightsOf k) .load a n with
  | .ok ks => f (s.readKeys ks)
  | .error _ => true

/-- The wake condition of an evicted thread (R313, R325). -/
def State.wakes (s : State) (t : Thread) (k : Core) : Bool :=
  match k.wait with
  | some .idle => k.wake
  | some (.barrier a _ _) => s.wordWakes k a 16 fun b => (BarRec.ofBytes b).gen != bitsOf k.csr.bargen 31 0
  | some (.waita ge a v) => s.wordWakes k a 8 fun b => waitaHolds ge (wordOfBytes b) v
  | some .parked => k.recruit.isSome
  | some .cvyJoin => true
  | some (.tnext _ _ sl) =>
    (s.best sl t.named).isSome || (s.wslot sl).phase == 0 || (s.wslot sl).lost || k.reply.isSome
  | some (.cal _) =>
    match s.team? t.team with
    | some tm =>
      tm.cal.state == 6 || (match tm.calMember t.rank with | some m => m.due | none => true)
    | none => true
  | some (.strongLoad id _ _) => (s.op? id).isNone
  | _ => false

/-- The core of a resumed thread: what its save area holds, over the core's own tables (R315 to R317). DESIGN CHOICE (log 126): its
INSTRET, which R315 does not save, goes on from where it was. -/
def State.resumed (s : State) (t : Thread) (img k : Core) : Core :=
  let bytes := s.readMem (localKey t.home img.saveBase) 12288
  let c := loadBytes img bytes
  { c with
    num := k.num, mode := .program, cid := t.cid, tid := some t.tid, lpt := k.lpt, pe := k.pe, dbg := k.dbg
    resetAt := k.resetAt, stopped := false, held := k.held, deckle := k.deckle, icache := [], pfb := [], views := Views.start s.stamp, loadFault := none, trail := []
    pendV := s.pendingGroups (.thread t.tid), wait := waitOfRecord (bytes.drop 0xB40), stall := none, request := none, reply := none
    csr := { c.csr with
      dkentry := k.csr.dkentry, dkresume := k.csr.dkresume &&& ~~~1, dkdata := k.csr.dkdata, dkctx := img.csr.dkctx
      dkwork := k.csr.dkwork } }

/-- What a resumed thread does first (R317): the kill check, then the blocking instruction goes on. CVY.JOIN retires with
the core ALONE; a strong load whose value came retires; a TNEXT whose slot closed while it was away, and has been set since, returns
for that closing (R275, R368). -/
def State.wakeUp (s : State) (t : Thread) (img : Core) : State :=
  let c := s.core
  if s.taskFailsAt c c.num then
    (if img.wait = some .cvyJoin then { s with core := c.setConvoy .left } else s).killTask
  else
    match img.wait with
    | some .cvyJoin => { s with core := c.setConvoy .alone }.retire 4
    | some (.strongLoad _ _ _) =>
      match img.loadFault with
      | some (f, v) => s.trap f v
      | none => s.retire s.lenHere
    | some (.cal _) => s.calDeliver t.team t.rank
    | some (.tnext pd d sl) =>
      match img.reply with
      | some (.closed v) => s.tnextFalse pd d v
      | some (.refused .peerlost _) => s.peerLost sl
      | _ => s.tnextTry pd d sl
    | _ => s

/-- A core that a thread may be started or resumed on, or moved to: released, in monitor mode and without a thread. -/
def State.coreFree (s : State) (c : Nat) : Bool :=
  let k := s.getCore c
  k.tid.isNone && !k.stopped && !k.held && k.mode == .monitor && decide (c < numCores)

/-- The operations of a core that holds no thread when one comes to it: those of a context that lies in a save area go on for whoever
holds that; any other delivers nowhere. -/
def State.leaveBare (s : State) (c : Nat) : State :=
  match (s.getCore c).inArea with
  | some key => { s with ops := s.ops.map fun o =>
      if o.owner != .bare c then o else if o.apart then o.stray else { o with owner := s.areaHolder key } }
  | none => { s with ops := s.ops.map fun o => if o.owner != .bare c then o else o.stray }

/-- The slice resumes an evicted thread on core c, which holds its region, when its wake condition holds (R317), a waiting TNEXT
in the field named at its eviction (R325), and no thread of a halted context (R357). Uncorrectable data in its save area stops the core (R165, R346). -/
def State.resumeThread (s : State) (t : Thread) (c : Nat) : State :=
  match t.evicted with
  | none => s
  | some img =>
    if t.ended || t.ending || (s.ctx t.cid).halted || t.home != c || !s.coreFree c || !s.wakes t img
        || (waitKind img.wait = some 6 && t.named != fieldOf c) then s
    else if s.savePoisoned (localKey c img.saveBase) then s.onCore c State.stopCore
    else
      let s0 := (s.leaveBare c).correctArea (localKey c img.saveBase)
      let k := s0.resumed t img (s0.getCore c)
      let s1 : State := { s0 with
        threads := modWhere (fun u => u.tid == t.tid) (fun u => { u with evicted := none }) s0.threads }
      (s1.modCore c fun _ => k).onCore c fun u => u.wakeUp t img

/-! ### Regions and accumulator rows (R219, R314, R319) -/

/-- The accumulator region of a member on a core (R219, R335): its base and rows. -/
def accRegion (accn rank c : Nat) : Nat × Nat := if accn = 0 then (16 * (c % 8), 16) else (accn * (rank % 8), accn)

/-- Local pages that a context holds on a core, its save area among them. -/
def Core.pagesOf (k : Core) (cid : Nat) : List Nat :=
  (List.range 47).filter fun p => k.pe.toList.any fun w =>
    peKind w != 0 && peCid w == cid && decide (peFirst w ≤ p ∧ p ≤ peLast w)

/-- A core may take a context's content on these pages: no other context holds one of them (R351). -/
def Core.takesRegion (k : Core) (cid : Nat) (pages : List Nat) : Bool :=
  pages.all fun p => !(k.pe.toList.any fun w =>
    peKind w != 0 && peCid w != cid && decide (peFirst w ≤ p ∧ p ≤ peLast w))

/-- Rows [b, b + n) of a cluster are reserved to no live thread that p picks: an evicted one keeps its rows (R314). -/
def State.rowsFree (s : State) (p : Thread → Bool) (cl b n : Nat) : Bool :=
  s.threads.all fun u => u.ended || !p u || clusterOf u.home != cl ||
    (let k := (s.ownerCore (.thread u.tid)).csr
     decide (k.acclim.toNat ≤ b ∨ b + n ≤ k.accbase.toNat))

/-- The rows that the slice assigns to moved threads, given those taken already as cluster, base and count: the rows of the
new core, or others that are free (R319). -/
def State.assignRows (s : State) (p : Thread → Bool) (accn : Nat) :
    List (Thread × Core × Nat) → List (Nat × Nat × Nat) → Option (List (Nat × Nat))
  | [], _ => some []
  | (t, img, c) :: rest, taken =>
    let n := img.csr.acclim.toNat - img.csr.accbase.toNat
    let free (b : Nat) : Bool := s.rowsFree p (clusterOf c) b n &&
      taken.all fun e => e.1 != clusterOf c || decide (e.2.1 + e.2.2 ≤ b ∨ b + n ≤ e.2.1)
    let at_ := (accRegion accn t.rank c).1
    match (if accn = 0 then at_ :: (List.range 8).map (16 * ·) else [at_]).find? free with
    | none => none
    | some b => (s.assignRows p accn rest ((clusterOf c, b, n) :: taken)).map ((b, n) :: ·)

/-! ### Ownership (R353) -/

def Security.own (x : Security) (t : Thing) : Own := ((x.owned.find? fun e => e.1 == t).map (·.2)).getD .free

def Security.setOwn (x : Security) (t : Thing) (o : Own) : Security :=
  { x with owned := (if o = .free then [] else [(t, o)]) ++ x.owned.filter fun e => e.1 != t }

/-- Whether a context may be given a thing: it is FREE, or its own already; a core may have up to four contexts. -/
def Security.mayOwn (x : Security) (cid : Nat) (t : Thing) : Bool :=
  match x.own t, t with
  | .free, _ => true
  | .assigned l, .core _ => l.contains cid || decide (l.length < 4)
  | .assigned l, _ => l == [cid]
  | .dirty, _ => false

def Security.assign (x : Security) (cid : Nat) (t : Thing) : Security :=
  match x.own t with
  | .assigned l => x.setOwn t (.assigned (if l.contains cid then l else l ++ [cid]))
  | _ => x.setOwn t (.assigned [cid])

/-- Gives a context all of a list of things. -/
def Security.assignAll (x : Security) (cid : Nat) (l : List Thing) : Security := l.foldl (fun y t => y.assign cid t) x

/-! ### Migration (R319) -/

/-- The protection entries of a core that takes a context's region from core k, if they fit. -/
def Core.mergePe (d k : Core) (cid : Nat) : Option (Vector Word 8) :=
  let l := (d.pe.toList.filter fun w => peKind w != 0 && peCid w != cid) ++
    k.pe.toList.filter fun w => peKind w != 0 && peCid w == cid
  if l.length ≤ 8 ∧ d.takesRegion cid (k.pagesOf cid) then some (vec8 0 l) else none

/-- Moves one thread's region and accumulator rows to core c, from the state before the moves. -/
def State.moveThread (old s : State) (t : Thread) (img : Core) (c : Nat) (region : Nat × Nat) : State :=
  let k := old.getCore t.home
  let pages := k.pagesOf t.cid
  let s0 := pages.foldl (fun (u : State) p =>
    u.overwrite (localKey c (4096 * p)) (old.mem.read (localKey t.home (4096 * p)) 4096)) s
  let (base, rows) := region
  let b0 := img.csr.accbase.toNat
  let cl0 := clusterOf t.home
  let cl := clusterOf c
  let acc := (List.range rows).foldl (fun m i =>
    m.write (accKey cl (base + i) 0) (old.acc.read (accKey cl0 (b0 + i) 0) 512)) s0.acc
  let tags := (List.range rows).foldl (fun m i =>
    m.set (accTagKey cl (base + i)) (old.accTags.get (accTagKey cl0 (b0 + i)))) s0.accTags
  let img' : Core := { img with num := c, csr := { img.csr with accbase := nat64 base, acclim := nat64 (base + rows) } }
  let t' : Thread := { t with home := c, evicted := some img' }
  let s1 : State := { s0 with
    acc := acc, accTags := tags
    threads := modWhere (fun u => u.tid == t.tid) (fun _ => t') s0.threads
    ops := modWhere (fun o => o.owner == .saved (localKey c img.saveBase)) Op.stray s0.ops
    sec := s0.sec.assignAll t.cid (.core c :: pages.map fun p => .page c p) }
  let s2 := s1.modCore c fun d =>
    { d with
      pe := (d.mergePe k t.cid).getD d.pe
      lpt := Vector.ofFn fun i => if pages.contains i.val then k.lpt.get i else d.lpt.get i }
  s2.writeSaved t' img'

/-- The rules of placement for a team's live members (R128, R129): one field, one cluster to a group, one group to a
cluster. -/
def placedOk (l : List (Nat × Nat)) : Bool :=
  l.all fun a => l.all fun b =>
    fieldOf a.2 == fieldOf b.2 && ((a.1 / 8 == b.1 / 8) == (clusterOf a.2 == clusterOf b.2)) && (a.1 == b.1 || a.2 != b.2)

/-- Whether the slice may move these evicted threads of one team to these cores (R319): their region becomes the context's there,
which the ownership table must allow (R345, R353), and a run goes on only at a sequencer that is free (R289). A halted context's stay,
and in ERROR its mappings are frozen (R357). -/
def State.mayMigrate (s : State) (tm : Team) (ts : List Thread) (cs : List Nat) : Bool :=
  let live := s.threads.filter fun u => u.team == tm.id && !u.ended && !u.unstarted
  let moving (u : Thread) : Bool := ts.any fun t => t.tid == u.tid
  let newHome (u : Thread) : Nat := (((ts.zip cs).find? fun e => e.1.tid == u.tid).map (·.2)).getD u.home
  let groupsOut := live.all fun u => !(ts.any fun t => t.rank / 8 == u.rank / 8) || u.evicted.isSome
  let away := ts.any fun t => fieldOf t.home != fieldOf (newHome t)
  let inPlan := (s.gangs.find? fun g => g.id == tm.gang).any fun g =>
    cs.all fun c => g.plan.any fun p => p.field == fieldOf c
  !(s.ctx tm.cid).halted && (s.ctx tm.cid).iface != .error && ts.all (fun t => t.team == tm.id && t.evicted.isSome && !t.ended && !t.unstarted) && cs.all s.coreFree && decide cs.Nodup &&
    ts.all (fun t => ((.core (newHome t) : Thing) :: ((s.getCore t.home).pagesOf t.cid).map fun p => .page (newHome t) p).all
      (s.sec.mayOwn tm.cid)) &&
    (!away || !tm.inRun || cs.all fun c => !s.sequencerBusy (fieldOf c) tm.id) &&
    cs.all (fun c => !s.threads.any fun u => u.home == c && u.cid == tm.cid && !u.ended && !u.unstarted && !moving u) &&
    ts.all (fun t => ((s.getCore (newHome t)).mergePe (s.getCore t.home) t.cid).isSome) && groupsOut &&
    (!away || live.all moving) && inPlan && placedOk (live.map fun u => (u.rank, newHome u))

/-- The moves of an event: each thread with its saved core and its new core. -/
def State.movesOf (ts : List Thread) (cs : List Nat) : List (Thread × Core × Nat) :=
  (ts.zip cs).filterMap fun e => e.1.evicted.map fun img => (e.1, img, e.2)

def execSliceMigrate (is cs : List Nat) (s : State) : Out :=
  let ts := is.filterMap s.thread?
  .next (
    match ts.head?.bind fun t => s.team? t.team with
    | none => s
    | some tm =>
      let l := State.movesOf ts cs
      match s.assignRows (fun u => !ts.any fun t => t.tid == u.tid) tm.accn l [] with
      | none => s
      | some rows =>
        if ts.length = is.length ∧ is.length = cs.length ∧ is.Nodup ∧ s.mayMigrate tm ts cs then
          let s1 := (l.zip rows).foldl (fun (u : State) e => State.moveThread s u e.1.1 e.1.2.1 e.1.2.2 e.2) s
          s1.modTeam tm.id fun x => { x with field := (cs.head?.map fieldOf).getD x.field }
        else s)

end Sys2Proof.Machine
end

