-- ==== Sys2Proof/Machine/Mapping.lean ====
section
/-! DEFINITION. Ownership and mappings as the security core checks them (R345, R350, R353, R354), and when new work is
accepted (R360). -/
namespace Sys2Proof.Machine
open Sys2Proof

/-- Changes the security core's record. -/
def State.modSec (s : State) (f : Security → Security) : State := { s with sec := f s.sec }

/-- An answer of the DOE mailbox. -/
def State.answer (s : State) (a : Answer) : State := s.modSec fun x => { x with answers := x.answers ++ [a] }

/-- BUSY; the spec names no hint here, so the hint is a free value. -/
def State.answerBusy (s : State) : State :=
  let (s1, n) := s.draw
  s1.answer (.busy (Config.freeNat n))

/-- The granules of HBM that n bytes at pa touch. -/
def granules (pa n : Nat) : List Thing := (List.range ((pa + n - 1) / 65536 + 1 - pa / 65536)).map fun i => .granule (pa / 65536 + i)

def pages (c : Nat) (value : Word) : List Thing :=
  (List.range (peLast value + 1 - peFirst value)).map fun i => .page c (peFirst value + i)

/-- The bytes a leaf maps (R169). -/
def leafSize (e : Word) : Nat := [65536, 2097152, 1073741824][bitsOf e 15 14]?.getD 0

/-- What a proposed mapping names (R353, R354). -/
def mappingThings : Mapping → List Thing
  | .leaf _ pa e =>
    .granule (pa / 65536) ::
      (if !bitOf e 0 then []
      else if bitsOf e 15 14 = 3 then [.granule (bitsOf e 51 16)]
      else
        if inHbm (bitsOf e 51 16 * 65536) then granules (bitsOf e 51 16 * 65536) (leafSize e) else [])
  | .protEntry _ c _ v => .core c :: (if peKind v = 0 then [] else pages c v)
  | .lptTag _ c p _ => [.page c p]
  | .queueBlock _ _ _ => []
  | .keySlot _ _ => []
  | .root _ pa => [.granule (pa / 65536)]
  | .coreOwn _ c => [.core c]

def mappingCid : Mapping → Nat
  | .leaf c _ _ | .protEntry c _ _ _ | .lptTag c _ _ _ | .queueBlock c _ _ | .keySlot c _ | .root c _ | .coreOwn c _ => c

/-- Whether a leaf over the debug blocks names only cores whose contexts permit debugging (R350). -/
def State.debugLeafOk (s : State) (pa n : Nat) : Bool :=
  (s.core :: s.others).all fun k =>
    let a := 0x10000000000 + 0x20000000 + 128 * k.num
    !(decide (pa < a + 128 ∧ a < pa + n)) || s.debugAllowed k.num

/-- The form a mapping must have besides what it names. -/
def State.mappingOk (s : State) : Mapping → Bool
  | .leaf _ pa e =>
    let target := bitsOf e 51 16 * 65536
    inHbm pa && pa % 8 == 0 &&
      (!bitOf e 0 ||
        (if bitsOf e 15 14 = 3 then isPointer e && bitsOf e 63 52 == 0 && bitsOf e 13 4 == 0 && inHbm target
        else populated target && bitsOf e 61 52 == 0 && s.debugLeafOk target (leafSize e)))
  | .protEntry cid c i v => decide (c < numCores) && peCid v == cid && (s.getCore c).peOk i.val v
  | .lptTag _ c p _ => decide (c < numCores ∧ p < 47)
  | .queueBlock _ q _ => decide (q < 1024)
  | .keySlot cid n =>
    decide (1 ≤ n ∧ n ≤ 255) && !(s.sec.contexts.any fun x => x.cid != cid && x.keySlot == some n) &&
      ((s.ctx cid).keySlot == none || (s.ctx cid).keySlot == some n)
  | .root _ pa => inHbm pa && pa % 65536 == 0
  | .coreOwn _ c => decide (c < numCores)

/-- Everything named is FREE or the context's own, none of it is the monitor's, whose bytes no scrub passes over (R340, R373), and the form is right (R353, R354). -/
def State.mappingSound (s : State) (m : Mapping) : Bool :=
  ((mappingThings m).all fun t => s.sec.mayOwn (mappingCid m) t &&
    (match t with | .granule g => !s.monitorBytes (65536 * g) 65536 | _ => true)) && s.mappingOk m

/-- Whether new work is accepted: after an alarm of level 2 or 3 not before the links have rekeyed and every protected
context is torn down (R360). -/
def State.workAccepted (s : State) : Bool :=
  !(s.sec.alarmed && decide (2 ≤ s.sec.alarm.getD 0)) ||
    (s.sec.links.all (·.keyed) && s.sec.contexts.all fun x => !x.protect)

/-- Zeros in every byte of a range, with sound check bits; no access finds what was there before. -/
def State.zeroFill (s : State) (pa n : Nat) : State :=
  { (s.clearPoison pa n).forget pa n with mem := s.mem.filter fun e => !(decide (pa ≤ e.1 ∧ e.1 < pa + n)) }

/-- The granules of HBM that a context owns. -/
def Security.granulesOf (x : Security) (cid : Nat) : List Nat :=
  x.owned.filterMap fun e =>
    match e with
    | (.granule g, .assigned l) => if l.contains cid then some g else none
    | _ => none

/-- Whether a mapping that the security core has checked, and that is active, maps a core's debug block (R350, R354). -/
def State.debugMapped (s : State) (c : Nat) : Bool :=
  s.sec.activated.any fun l =>
    let at_ := bitsOf l.2.2 51 16 * 65536
    let a := 0x10000000000 + 0x20000000 + 128 * c
    decide (at_ ≤ a ∧ a + 128 ≤ at_ + leafSize l.2.2)

/-! ### Links (R355) -/

/-- The sealed links: the UCIe links 0 to 51, the Causeway ports 52 to 59 and CXL 60. -/
def numLinks : Nat := 61

def Security.link (x : Security) (n : Nat) : Link := (x.links.find? fun l => l.num == n).getD ⟨n, false, 0, 0, []⟩

/-- Whether every link is keyed. -/
def Security.linksKeyed (x : Security) : Bool := (List.range numLinks).all fun n => (x.link n).keyed

/-- Whether the security core has released every core since the last reset (R373). -/
def Security.allReleased (x : Security) : Bool := x.released == numCores

def Security.putLink (x : Security) (l : Link) : Security := { x with links := l :: x.links.filter fun k => k.num != l.num }

end Sys2Proof.Machine
end

