-- ==== Sys2Proof/Machine/Headbox.lean ====
section
/-! DEFINITION. The Headbox (R328 to R341): packets, their fetching, order and completion, code objects, gangs from
reservation to their reported end, and the ends of threads (R133, R349). -/
namespace Sys2Proof.Machine
open Sys2Proof

/-! ### Packets in rings (R331 to R334) -/

/-- Reads n bytes for a queue of a context (R330, R375). -/
def State.headboxRead (s : State) (cid : Nat) (a : Word) (n : Nat) : Except (Cause × Word) (List Byte) :=
  match s.headboxKeys cid .load a n with
  | .error e => .error e
  | .ok ks => .ok (s.readKeys ks)

/-- Such a read corrects the single-bit errors it meets (R165). -/
def State.headboxSees (s : State) (cid : Nat) (a : Word) (n : Nat) : State :=
  match s.headboxKeys cid .load a n with
  | .error _ => s
  | .ok ks => s.correct ks

/-- Writes bytes for a queue of a context: a strong release at SYS scope (R336, R339). -/
def State.headboxWrite (s : State) (cid : Nat) (a : Word) (data : List Byte) : Except (Cause × Word) State :=
  match s.headboxKeys cid .store a data.length with
  | .error e => .error e
  | .ok ks => .ok (s.writeReleased .sys ks data)

/-- The fields of a header (R331). -/
def pktType (b : List Byte) : Nat := fieldAt b 1 1
def pktJoin (b : List Byte) : Bool := fieldAt b 2 1 % 2 == 1
def pktSeq (b : List Byte) : Nat := fieldAt b 4 4
def pktPhase (b : List Byte) : Nat := fieldAt b 0 1 % 2

/-- A header without a nonzero zero field, misplaced JOINPREV or unknown type (R331). -/
def headerOk (b : List Byte) : Bool :=
  fieldAt b 0 1 / 2 == 0 && fieldAt b 2 2 / 2 == 0 && decide (1 ≤ pktType b ∧ pktType b ≤ 7) &&
    (!pktJoin b || pktType b == 1)

/-- What the fetcher finds at a packet's slot. -/
inductive Found where
  | notYet
  | error (reason : Nat) (adr : Word)
  | packet (bytes : List Byte)
  deriving DecidableEq, Repr

/-- The address of packet n's slot (R332). -/
def Queue.slotAdr (k : Queue) (n : Nat) : Word := k.base + nat64 (128 * (n % 2 ^ k.log2n))

/-- Reads packet n, whose sequence number must be seq (R332). A bad format goes before a bad sequence number. -/
def State.examine (s : State) (k : Queue) (n seq : Nat) : Found :=
  let a := k.slotAdr n
  match s.headboxRead k.cid a 8 with
  | .error e => .error 4 e.2
  | .ok h =>
    if pktPhase h ≠ (n / 2 ^ k.log2n + 1) % 2 then .notYet
    else if !headerOk h then .error 3 a
    else if pktSeq h ≠ seq then .error 2 a
    else
      match s.headboxRead k.cid (a + 8) 120 with
      | .error e => .error 4 e.2
      | .ok b => .packet (h ++ b)

/-- What the fetcher has read of packet n's slot. -/
def State.seeSlot (s : State) (k : Queue) (n seq : Nat) : State :=
  s.headboxSees k.cid (k.slotAdr n) (match s.examine k n seq with | .packet _ => 128 | _ => 8)

/-- A failed access goes to management's log (R375). -/
def State.queueFail (s : State) (q : Nat) (a : Word) : State := (s.logEvent q 2 a).queueError q 4

/-- Whether the packet taken last is a LAUNCH that still awaits its commit: a JOINPREV LAUNCH taken up now joins it (R335). -/
def Queue.joinable (k : Queue) : Bool :=
  match k.taken.getLast? with
  | some p => pktType p.bytes == 1 && !pktJoin p.bytes && !p.started && p.counted
  | none => false

/-- Takes a packet (R332): QSEQ and QHEAD advance. -/
def State.takePacket (s : State) (q : Nat) (bytes : List Byte) : State :=
  s.modQueue q fun k => { k with
    head := (k.head + 1) % 2 ^ 32, seq := (k.seq + 1) % 2 ^ 32
    ahead := k.ahead.filter fun e => e.1 != k.head
    taken := k.taken ++ [⟨pktSeq bytes, bytes, false, false, none, false, true, k.cid, pktJoin bytes && !k.joinable⟩] }

/-- The copy of packet n that AHEAD has fetched. -/
def Queue.copyAt (k : Queue) (n : Nat) : Option (List Byte) := (k.ahead.find? fun e => e.1 == n).map (·.2)

/-- The packet next in order: an unchanged copy fetched ahead, else as it stands in its slot (R334). -/
def State.nextPacket (s : State) (k : Queue) : Found :=
  match k.copyAt k.head with
  | none => s.examine k k.head k.seq
  | some b =>
    match s.headboxRead k.cid (k.slotAdr k.head) 8 with
    | .error e => .error 4 e.2
    | .ok h => if h = b.take 8 then .packet b else s.examine k k.head k.seq

/-- Takes a packet, and with a LAUNCH the JOINPREV LAUNCH that follows it, if that is valid already (R335); a failed read of
the next slot puts the queue in ERROR (R375). -/
def State.takeUp (s : State) (q : Nat) (bytes : List Byte) : State :=
  let s1 := s.takePacket q bytes
  if pktType bytes ≠ 1 ∨ pktJoin bytes then s1
  else
    let k := s1.queue q
    let s2 := s1.seeSlot k k.head k.seq
    match s1.nextPacket k with
    | .packet b => if pktType b = 1 ∧ pktJoin b then s2.takePacket q b else s2
    | .error 4 a => s2.queueFail q a
    | _ => s2

/-- A found packet is taken, or its error put in the queue. -/
def State.takeFound (s : State) (q : Nat) : Found → State
  | .notYet => s
  | .error 4 a => s.queueFail q a
  | .error r _ => s.queueError q r
  | .packet b => s.takeUp q b

/-- Whether a packet holds back the start of later ones (R337). -/
def TakenPacket.holds (p : TakenPacket) : Bool :=
  match pktType p.bytes with
  | 1 => !p.started
  | 5 | 6 => !p.completed
  | _ => false

/-- The packets that no earlier one holds back, with their places. -/
def startableFrom (i : Nat) : List TakenPacket → List (Nat × TakenPacket)
  | [] => []
  | p :: t => (i, p) :: if p.holds then [] else startableFrom (i + 1) t

def Queue.startable (k : Queue) : List (Nat × TakenPacket) := startableFrom 0 k.taken

/-- Whether the fetcher of a queue works. -/
def State.fetching (s : State) (k : Queue) : Bool := k.enabled && k.state != 3 && !s.restarting

/-- The packets a tail covers beyond a count, modulo 2^32. -/
def covered (tail n : Nat) : Bool := let d := (tail + 2 ^ 32 - n) % 2 ^ 32; decide (0 < d ∧ d < 2 ^ 31)

/-- SNAP (R333). -/
def State.snapFetch (s : State) (q : Nat) : State :=
  let k := s.queue q
  if covered k.tail k.head then (s.seeSlot k k.head k.seq).takeFound q (s.examine k k.head k.seq) else s

/-- Fetches the first packet after the next one of which no copy is held, up to 16 (R334). -/
def State.fetchAhead (s : State) (q : Nat) : State :=
  let k := s.queue q
  match (List.range 16).find? fun i => (k.copyAt ((k.head + i) % 2 ^ 32)).isNone with
  | none => s
  | some i =>
    let n := (k.head + i) % 2 ^ 32
    let s1 := s.seeSlot k n ((k.seq + i) % 2 ^ 32)
    match s.examine k n ((k.seq + i) % 2 ^ 32) with
    | .packet b => s1.modQueue q fun k => { k with ahead := k.ahead ++ [(n, b)] }
    | .error 4 a => s1.queueFail q a
    | f => if i = 0 then s1.takeFound q f else s1

/-- AHEAD (R334): the packet next in issue is read again and taken once nothing holds it; else one more is fetched ahead,
whatever the tail. A copy whose header has changed is discarded, that copy alone, and fetched again. -/
def State.aheadFetch (s : State) (q : Nat) : State :=
  let k := s.queue q
  match k.copyAt k.head with
  | none => s.fetchAhead q
  | some b =>
    if k.taken.any TakenPacket.holds && !(k.joinable && pktType b == 1 && pktJoin b) then s.fetchAhead q
    else
      let s1 := s.seeSlot k k.head k.seq
      match s.nextPacket k with
      | .packet b => s1.takeUp q b
      | f => (s1.modQueue q fun k => { k with ahead := k.ahead.filter fun e => e.1 != k.head }).takeFound q f

/-- The state of a queue that runs (R337): HELD while a LAUNCH awaits cores or a WAIT or QFENCE is pending. -/
def State.queueState (s : State) (q : Nat) : State :=
  s.modQueue q fun k =>
    let held := k.taken.any fun p =>
      (pktType p.bytes == 1 && p.gang.isSome && !p.started) ||
        ((pktType p.bytes == 5 || pktType p.bytes == 6) && p.started && !p.completed)
    if k.state = 1 ∨ k.state = 2 then { k with state := if held then 2 else 1 } else k

def State.fetch1 (s : State) (q : Nat) : State :=
  let k := s.queue q
  if !s.fetching k then s
  else (if k.ahead? then s.aheadFetch q else s.snapFetch q).queueState q

def execPacketFetch (q : Nat) (s : State) : Out := .next (s.fetch1 q)

/-- The fetcher reads again, while the tail lies beyond it, a header whose phase did not match. -/
def execPacketPoll (q : Nat) (s : State) : Out :=
  let k := s.queue q
  .next (if covered k.tail k.head then s.fetch1 q else s)

/-! ### Completion (R337) -/

/-- The prefix of completed packets: the new DONE, the context it is written in, and the packets after it. -/
def donePrefix : List TakenPacket → Nat × Nat → (Nat × Nat) × List TakenPacket
  | [], d => (d, [])
  | p :: t, d => if p.completed then donePrefix t (p.seq, p.cid) else (d, p :: t)

/-- DONE follows the completed packets, and is written when it changes (R337). Packets taken before EN was last set leave
the list by themselves. -/
def State.settleQueue (s : State) (q : Nat) : State :=
  let k := s.queue q
  let old := k.taken.filter fun p => !p.counted && !p.completed
  let ((d, cid), rest) := donePrefix (k.taken.filter (·.counted)) (k.done, k.cid)
  let s1 := s.putQueue { k with taken := old ++ rest, done := d }
  (if d = k.done then s1 else s1.writeDone q cid).queueState q

def State.modTaken (s : State) (q i : Nat) (f : TakenPacket → TakenPacket) : State :=
  s.modQueue q fun k => { k with taken := k.taken.modify i f }

/-- A packet starts and completes. -/
def State.completePacket (s : State) (q i : Nat) : State :=
  (s.modTaken q i fun p => { p with started := true, completed := true }).settleQueue q

/-- An access of a SIGNAL or WAIT fails (R375). -/
def State.failPacket (s : State) (q i : Nat) (a : Word) : State :=
  (s.modTaken q i fun p => { p with started := true, failed := true }).queueFail q a

/-- The first startable packet of a type that has not completed or failed and that p admits. -/
def Queue.firstOf (k : Queue) (type : Nat) (p : Nat → TakenPacket → Bool) : Option (Nat × TakenPacket) :=
  k.startable.find? fun e => pktType e.2.bytes == type && !e.2.completed && !e.2.failed && p e.1 e.2

def Queue.earlierDone (k : Queue) (i : Nat) : Bool := (k.taken.take i).all (·.completed)

def execNop (q : Nat) (s : State) : Out :=
  .next (match (s.queue q).firstOf 7 fun _ _ => true with
    | some (i, _) => s.completePacket q i
    | none => s)

/-- SIGNAL, once every earlier packet has completed (R336). -/
def execSignal (q : Nat) (s : State) : Out :=
  let k := s.queue q
  .next (match k.firstOf 4 fun i _ => k.earlierDone i with
    | none => s
    | some (i, p) =>
      match s.headboxWrite p.cid (nat64 (fieldAt p.bytes 8 8)) ((p.bytes.drop 16).take 8) with
      | .ok s1 => s1.completePacket q i
      | .error e => s.failPacket q i e.2)

/-- Reads a WAIT's word and completes it if its compare holds (R153, R336). -/
def State.tryWait (s : State) (q i : Nat) (p : TakenPacket) : State :=
  match s.headboxRead p.cid (nat64 (fieldAt p.bytes 8 8)) 8 with
  | .error e => s.failPacket q i e.2
  | .ok b =>
    let s := s.headboxSees p.cid (nat64 (fieldAt p.bytes 8 8)) 8
    if waitaHolds (fieldAt p.bytes 24 1 == 1) (wordOfBytes b) (nat64 (fieldAt p.bytes 16 8)) then s.completePacket q i
    else (s.modTaken q i fun p => { p with started := true }).queueState q

def execWait (q : Nat) (s : State) : Out :=
  .next (match (s.queue q).firstOf 5 fun _ p => !p.started with
    | some (i, p) => s.tryWait q i p
    | none => s)

def execWaitSatisfied (q : Nat) (s : State) : Out :=
  .next (match (s.queue q).firstOf 5 fun _ p => p.started with
    | some (i, p) => s.tryWait q i p
    | none => s)

/-- QFENCE (R336): pending until every earlier packet has completed. -/
def execQfence (q : Nat) (s : State) : Out :=
  let k := s.queue q
  .next (match k.firstOf 6 fun _ _ => true with
    | none => s
    | some (i, _) =>
      if k.earlierDone i then s.completePacket q i
      else (s.modTaken q i fun p => { p with started := true }).queueState q)

/-! ### Status records (R339) -/

/-- The 32 bytes of a status record. -/
def statusBytes (state : Nat) (cause : Cause) (seq gangid : Nat) (tstart tend : Word) : List Byte :=
  bytesOfNat 1 state ++ bytesOfNat 1 (causeCode cause) ++ zeros 2 ++ bytesOfNat 4 seq ++ bytesOfNat 4 gangid ++ zeros 4 ++
    bytesOfWord tstart ++ bytesOfWord tend

/-- Writes a status record and then does what completes the packet; a failed write puts the queue in ERROR after it. -/
def State.reportThen (s : State) (q cid : Nat) (adr : Word) (rec_ : List Byte) (f : State → State) : State :=
  if adr = 0 then f s
  else
    match s.headboxWrite cid adr rec_ with
    | .ok s1 => f s1
    | .error e => (f s).queueFail q e.2

/-- A status record of a packet that no gang stands behind: its times are free values. -/
def State.reportPacket (s : State) (q i : Nat) (p : TakenPacket) (adr : Word) (state : Nat) (cause : Cause) (gangid : Nat) :
    State :=
  let (s1, n) := s.draw
  let (s2, m) := s1.draw
  s2.reportThen q p.cid adr (statusBytes state cause p.seq gangid (Config.freeWord n) (Config.freeWord m))
    fun u => u.completePacket q i

/-! ### Code objects (R126, R127, R338) -/

structure Section where
  kind : Nat
  domain : Byte
  adr : Word
  size : Nat
  content : List Byte
  deriving DecidableEq, Repr

/-- The bytes [off, off + n) of a file, if they lie in it. -/
def slice (l : List Byte) (off n : Nat) : Option (List Byte) :=
  if off + n ≤ l.length then some ((l.drop off).take n) else none

/-- A section of an executable (R121, R127). DESIGN CHOICE: an entry with a kind above 4, a nonzero zero field, or an address
that is misaligned or out of range makes the object malformed; the symbol, relocation and gate entries are not looked at. -/
def parseSection (file : List Byte) (e : List Byte) : Option Section :=
  let kind := fieldAt e 4 1
  let adr := fieldAt e 8 8
  let size := fieldAt e 16 8
  let local_ := kind == 4
  if 4 < kind ∨ fieldAt e 7 1 ≠ 0 ∨ fieldAt e 28 4 ≠ 0 ∨ 64 ≤ fieldAt e 6 1 ∨ adr % 2 ^ fieldAt e 6 1 ≠ 0
      ∨ (local_ = true ∧ 0x2F000 < adr + size) ∨ (local_ = false ∧ (adr < 0x110000000 ∨ 2 ^ 56 < adr + size))
      ∨ (kind = 3 ∧ fieldAt e 24 4 ≠ 0) then none
  else
    match if kind = 3 then some [] else slice file (fieldAt e 24 4) size with
    | none => none
    | some c => some ⟨kind, BitVec.ofNat 8 (fieldAt e 5 1), nat64 adr, size, c⟩

/-- All or none. -/
def allSome {α : Type} : List (Option α) → Option (List α)
  | [] => some []
  | none :: _ => none
  | some a :: t => (allSome t).map (a :: ·)

/-- The sections of an executable TCO, if it is well formed under R126. DESIGN CHOICE: a relocatable object and an odd entry
address are refused in the same way; a team range that no team size can meet is not. -/
def parseObject (f : List Byte) : Option (List Section) :=
  let table := fieldAt f 24 4
  let n := fieldAt f 28 2
  if f.length < 64 ∨ f.take 4 ≠ [0x54, 0x43, 0x4F, 0x01] ∨ fieldAt f 4 2 ≠ 1 ∨ 4 ≤ fieldAt f 6 2 ∨ fieldAt f 6 2 % 2 = 0
      ∨ fieldAt f 30 2 ≠ 0 ∨ fieldAt f 44 4 ≠ 0 ∨ fieldAt f 16 8 % 2 ≠ 0
      ∨ f.length < table + 32 * n ∨ f.length < fieldAt f 32 4 + 16 * fieldAt f 36 4
      ∨ f.length < fieldAt f 48 4 + fieldAt f 52 4 ∨ f.length < fieldAt f 56 4 + 16 * fieldAt f 60 4 then none
  else
    match allSome ((List.range n).map fun i => parseSection f ((f.drop (table + 32 * i)).take 32)) with
    | none => none
    | some l => if (l.any fun x => x.kind == 4) == (fieldAt f 6 2 / 2 == 1) then some l else none

def State.object? (s : State) (cid handle : Nat) : Option CodeObject :=
  s.objects.find? fun o => o.cid == cid && o.handle == handle

/-- The instruction caches of a context's cores are invalidated (R23, R338), with a launched thread or without one. -/
def State.dropICaches (s : State) (cid : Nat) : State :=
  let f (c : Core) : Core := if c.cid = cid then { c with icache := [] } else c
  { s with core := f s.core, others := s.others.map f }

/-- Whether a gang is running: it has been committed and has not ended. -/
def State.live (s : State) (g : Gang) : Bool :=
  g.state == .running || (g.state == .failed && s.threads.any fun t => t.gang == g.id && !t.ended)

/-- Unmaps an object whose last reference has gone and from which no gang runs (R338): neither a cached leaf nor a walk in
flight maps it any longer. -/
def State.unbind (s : State) (cid handle : Nat) : State :=
  match s.object? cid handle with
  | none => s
  | some o =>
    if o.refs ≠ [] ∨ s.gangs.any (fun g => g.cid == cid && g.handle == handle && s.live g) then s
    else
      let s1 : State := { s with
        objects := s.objects.filter fun p => !(p.cid == cid && p.handle == handle)
        mem := o.ptes.foldl (fun m a => m.write a (zeros 8)) s.mem
        leaves := s.leaves.filter fun l => !(l.cid == cid && o.sections.any fun x =>
          decide (l.page * 2 ^ l.bits < x.1 + x.2 ∧ x.1 < (l.page + 1) * 2 ^ l.bits)) }
      (s1.rewalk cid).dropICaches cid

/-- Whether a LOAD of a handle, earlier than packet i of the queue, has not completed. DEDUCED: a LAUNCH or UNLOAD behind it
acts on what it leaves, as the worked queue of five packets does (R337, R338). -/
def Queue.loadPending (k : Queue) (i h : Nat) : Bool :=
  (k.taken.take i).any fun e => pktType e.bytes == 2 && fieldAt e.bytes 24 4 == h && !e.completed

/-- The UNLOAD that may drop its reference: every earlier LAUNCH of the queue that names its handle has completed (R338). -/
def Queue.unloadNext (k : Queue) : Option (Nat × TakenPacket) :=
  k.firstOf 3 fun i p =>
    !(k.loadPending i (fieldAt p.bytes 8 4)) && (k.taken.take i).all fun e =>
      pktType e.bytes != 1 || fieldAt e.bytes 8 4 != fieldAt p.bytes 8 4 || e.completed

/-- Whether packet i, a LAUNCH of handle h, follows a LOAD or an UNLOAD of it that comes first. -/
def Queue.handleBusy (k : Queue) (i h : Nat) : Bool :=
  k.loadPending i h || (match k.unloadNext with | some (j, p) => j < i && fieldAt p.bytes 8 4 == h | none => false)

/-- UNLOAD (R338); in ERROR a context's mappings are frozen (R357). -/
def execUnload (q : Nat) (s : State) : Out :=
  let k := s.queue q
  .next (match k.unloadNext with
    | none => s
    | some (i, p) =>
      let h := fieldAt p.bytes 8 4
      let drop (o : CodeObject) : CodeObject := { o with refs := o.refs.filter (· != q) }
      let s1 : State := { s with objects := modWhere (fun o => o.cid == p.cid && o.handle == h) drop s.objects }
      if (s.ctx p.cid).iface = .error then s else (s1.unbind p.cid h).completePacket q i)

/-- The rights with which the loader's mapping of a section must serve: its domain's. -/
def sectionRights (cid : Nat) (d : Byte) : Rights := { headboxRights cid with domain := d }

/-- Whether a section is mapped as its kind needs, on pages of its domain. DESIGN CHOICE (log 128): sections of two domains in one page,
and a text section of domain 0, which no page can serve, are not, so that the LOAD of such a file waits. -/
def State.sectionMapped (s : State) (cid : Nat) (x : Section) : Option (List Nat) :=
  let need : Need := if x.kind = 0 then .fetch else if x.kind = 1 then .load else .store
  match s.resolveAll (sectionRights cid x.domain) need x.adr x.size with
  | .error _ => none
  | .ok ks =>
    if (List.range x.size).all fun i =>
      match s.leafFor 0 cid (x.adr.toNat + i) with
      | .ok (e, _) => leafTag e == x.domain
      | .error _ => false
    then some ks else none

/-- Maps an object's sections through the loader's page-table entries, which the security core has checked (R345, R354), and
writes their contents; none if the entries do not map them so. The leaves get OWN and are active, zero-filled first in a
protected context. DESIGN CHOICE (log 128): a bss section, whose entry has no contents (R127), is filled with zeros. -/
def State.placeObject (s : State) (cid : Nat) (l : List Section) (ptes : List (Nat × Word)) : Option State :=
  let own (e : Word) : Word := if bitsOf e 15 14 = 3 then e else e ||| (1#64 <<< 63)
  if !(ptes.all fun e => bitOf e.2 0 && s.mappingSound (.leaf cid e.1 e.2)) then none
  else
    let fill (u : State) (e : Nat × Word) : State :=
      let target := bitsOf e.2 51 16 * 65536
      if (s.ctx cid).protect ∧ bitsOf e.2 15 14 ≠ 3 ∧ inHbm target then u.zeroFill target (leafSize e.2) else u
    let s0 := ptes.foldl (fun (u : State) e => u.writeMem e.1 (bytesOfWord (own e.2))) (ptes.foldl fill s)
    let s1 := s0.modSec fun x => ptes.foldl (fun y e => { (y.assignAll cid (mappingThings (.leaf cid e.1 e.2))) with
      activated := (if bitsOf e.2 15 14 = 3 then [] else [(e.1, cid, own e.2)]) ++ y.activated.filter fun a => a.1 != e.1 }) x
    let s2 := s1.rewalk cid
    (l.filter fun x => x.kind != 4).foldl (fun (u : Option State) x =>
      match u with
      | none => none
      | some u =>
        match u.sectionMapped cid x with
        | none => none
        | some ks => some (u.writeKeys ks (padTo x.size x.content))) (some s2)

/-- The object a file becomes. Its declared set holds ZB, which every code object declares (R44). -/
def makeObject (cid handle q : Nat) (file : List Byte) (l : List Section) (ptes : List (Nat × Word)) : CodeObject where
  cid := cid
  handle := handle
  bytes := file
  profiles := BitVec.ofNat 8 (fieldAt file 8 4) ||| 1
  entry := nat64 (fieldAt file 16 8)
  teamLo := fieldAt file 12 2
  teamHi := fieldAt file 14 2
  image := (l.filter fun x => x.kind == 4).map fun x => (x.adr.toNat, x.domain, x.content)
  sections := (l.filter fun x => x.kind != 4).map fun x => (x.adr.toNat, x.size)
  refs := [q]
  ptes := ptes.map (·.1)

/-- LOAD (R338). It waits while the loader's entries do not map the object, while its context's mappings are frozen (R357),
and after an alarm until new work is accepted (R360). DESIGN CHOICE (log 128): where several grounds hold, a malformed file is
reported before a profile that is lacking, and that before a handle that names other bytes. -/
def execLoad (q : Nat) (ptes : List (Nat × Word)) (s : State) : Out :=
  let k := s.queue q
  .next (match k.firstOf 2 fun _ _ => true with
    | none => s
    | some (i, p) =>
      let handle := fieldAt p.bytes 24 4
      let report (s : State) (state : Nat) (c : Cause) : State :=
        s.reportPacket q i p (nat64 (fieldAt p.bytes 32 8)) state c 0
      if (s.ctx p.cid).iface = .error ∨ !s.workAccepted then s else
      match s.headboxRead p.cid (nat64 (fieldAt p.bytes 8 8)) (fieldAt p.bytes 16 8) with
      | .error e => (report s 3 e.1).logEvent q 2 e.2
      | .ok file =>
        let s := s.headboxSees p.cid (nat64 (fieldAt p.bytes 8 8)) (fieldAt p.bytes 16 8)
        match parseObject file with
        | none => report s 3 .ok
        | some l =>
          if 64 ≤ fieldAt file 8 4 then report s 1 .ok
          else
            match s.object? p.cid handle with
            | some o =>
              if o.bytes ≠ file then report s 3 .ok
              else
                let add (x : CodeObject) : CodeObject :=
                  { x with refs := if x.refs.contains q then x.refs else x.refs ++ [q] }
                report { s with objects := modWhere (fun x => x.cid == p.cid && x.handle == handle) add s.objects } 0 .ok
            | none =>
              match s.placeObject p.cid l ptes with
              | none => s
              | some s1 =>
                report ({ s1 with objects := s1.objects ++ [makeObject p.cid handle q file l ptes] }.dropICaches p.cid) 0 .ok)

/-! ### Launches (R134 to R136, R335, R339) -/

/-- Cores the context may hold in a field (R353). -/
def State.coresIn (s : State) (cid field : Nat) : Nat :=
  (s.sec.owned.filter fun e =>
    match e with
    | (.core c, .assigned l) => fieldOf c == field && l.contains cid
    | _ => false).length

/-- A team table entry (R335); none if it is out of range. -/
def teamEntry (o : CodeObject) (e : List Byte) : Option TeamPlan :=
  let size := fieldAt e 2 2
  let accn := fieldAt e 6 1
  if 32 ≤ fieldAt e 0 1 ∨ 32 ≤ fieldAt e 1 1 ∨ size < 1 ∨ 1024 < size ∨ size < o.teamLo ∨ o.teamHi < size
      ∨ fieldAt e 7 9 ≠ 0 ∨ !([0, 8, 16, 32, 64, 128].contains accn) ∨ 128 < accn * min size 8 then none
  else some ⟨fieldAt e 0 1 * 32 + fieldAt e 1 1, size, fieldAt e 4 2, accn⟩

/-- Whether the context could ever hold the cores a plan needs (R136). -/
def State.planFits (s : State) (cid cls : Nat) (plan : List TeamPlan) : Bool :=
  plan.all fun p =>
    (cls == 0 || decide (p.size ≤ s.coresIn cid p.field)) &&
      (cls != 2 ||
        decide (((plan.filter fun r => r.field == p.field).map (·.size)).sum ≤ s.coresIn cid p.field))

/-- The body bytes of a LAUNCH that R335 does not list. -/
def launchPadOk (b : List Byte) : Bool := fieldAt b 39 1 == 0 && fieldAt b 48 80 == 0

/-- A launch's plan, or the cause recorded with its refusal (R136, R335, R339). -/
def State.launchPlan (s : State) (k : Queue) (p : TakenPacket) : Except (Cause × Option Word) (List TeamPlan) :=
  let b := p.bytes
  let cls := fieldAt b 12 1
  let flags := fieldAt b 13 1
  let n := fieldAt b 14 2
  match s.object? p.cid (fieldAt b 8 4) with
  | none => .error (.ok, none)
  | some o =>
    if !(o.refs.contains k.q) ∨ 2 < cls ∨ 1 < flags ∨ (flags = 1 ∧ cls ≠ 2) ∨ n < 1 ∨ 1024 < n ∨ 64 < fieldAt b 38 1
        ∨ !launchPadOk b ∨ (s.ctx p.cid).ending then .error (.ok, none)
    else
      match s.headboxRead p.cid (nat64 (fieldAt b 24 8)) (16 * n) with
      | .error e => .error (e.1, some e.2)
      | .ok t =>
        match allSome ((List.range n).map fun i => teamEntry o ((t.drop (16 * i)).take 16)) with
        | none => .error (.ok, none)
        | some plan => if s.planFits p.cid cls plan then .ok plan else .error (.ok, none)

/-- The gang of a LAUNCH that awaits its cores (R339): PENDING until the Headbox begins to reserve for its whole unit. -/
def makeGang (id : Nat) (k : Queue) (p : TakenPacket) (plan : List TeamPlan) : Gang where
  id := id
  gangid := fieldAt p.bytes 32 4
  queue := k.q
  seq := p.seq
  cid := p.cid
  cls := fieldAt p.bytes 12 1
  latency := fieldAt p.bytes 13 1 == 1
  arg := nat64 (fieldAt p.bytes 16 8)
  handle := fieldAt p.bytes 8 4
  slots := fieldAt p.bytes 36 2
  nchan := fieldAt p.bytes 38 1
  staddr := nat64 (fieldAt p.bytes 40 8)
  plan := plan
  state := .pending
  partner := none
  channels := []
  cause := .ok
  tstart := 0
  tend := 0

def State.modGang (s : State) (id : Nat) (f : Gang → Gang) : State :=
  { s with gangs := modWhere (fun g => g.id == id) f s.gangs }

def State.gang? (s : State) (id : Nat) : Option Gang := s.gangs.find? fun g => g.id == id

/-- Refuses a launch: its status record, then the packet has started and completed. The place is sought anew, since the
packet before it may have left the list. -/
def State.refuseLaunch (s : State) (q : Nat) (p : TakenPacket) (cause : Cause) : State :=
  match (s.queue q).taken.findIdx? fun e => e.seq == p.seq && e.counted == p.counted with
  | none => s
  | some i =>
    let s1 := match p.gang with | some g => s.modGang g fun g => { g with state := .refused } | none => s
    s1.reportPacket q i p (nat64 (fieldAt p.bytes 40 8)) 1 cause (fieldAt p.bytes 32 4)

/-- The Headbox has read the team tables of a launch unit. -/
def State.seeTables (s : State) (unit_ : List (Nat × TakenPacket)) : State :=
  unit_.foldl (fun u e => match e.2.gang with
    | some _ => u
    | none => u.headboxSees e.2.cid (nat64 (fieldAt e.2.bytes 24 8)) (16 * fieldAt e.2.bytes 14 2)) s

/-- Makes the gangs of a launch unit and links them. -/
def State.reserve (s : State) (q : Nat) (unit_ : List (Nat × TakenPacket × List TeamPlan)) : State :=
  let (s1, ids) := unit_.foldl (fun (u : State × List Nat) (e : Nat × TakenPacket × List TeamPlan) =>
    match e.2.1.gang with
    | some g => (u.1, u.2 ++ [g])
    | none =>
      let (s1, id) := u.1.fresh
      (({ s1 with gangs := s1.gangs ++ [makeGang id (s1.queue q) e.2.1 e.2.2] }.modTaken q e.1 fun p =>
        { p with gang := some id }), u.2 ++ [id])) (s, [])
  match ids with
  | [a, b] => (s1.modGang a fun g => { g with partner := some b }).modGang b fun g => { g with partner := some a }
  | _ => s1

/-- The launch unit at place i: with the JOINPREV LAUNCH directly after it, if that has been taken (R335). -/
def Queue.unitAt (k : Queue) (i : Nat) (p : TakenPacket) : List (Nat × TakenPacket) :=
  match k.taken[i + 1]? with
  | some n => if !pktJoin p.bytes ∧ pktType n.bytes = 1 ∧ pktJoin n.bytes ∧ !n.late ∧ n.counted = p.counted then [(i, p), (i + 1, n)] else [(i, p)]
  | none => [(i, p)]

/-- The gangs of a launch unit are in a state of R339 until their commit. -/
def State.unitState (s : State) (unit_ : List (Nat × TakenPacket)) (st : GangState) : State :=
  { s with gangs := modWhere (fun g => unit_.any fun e => e.2.gang == some g.id) (fun g => { g with state := st }) s.gangs }

/-- LAUNCH: the launch, or launch unit, next in order is refused or awaits its cores; one that awaits them, its unit whole, begins
to reserve. A JOINPREV LAUNCH taken up since joins the unit, which gives up what it has reserved (R134), and its grounds of refusal
are the unit's. A context in ERROR starts none (R357), an ending one is refused all (R362). DESIGN CHOICE (log 94): the cores are
chosen, and held against other gangs, at the commit alone. -/
def execLaunch (q : Nat) (s : State) : Out :=
  let k := s.queue q
  .next (match k.firstOf 1 fun _ p => !p.started with
    | none => s
    | some (i, p) =>
      let unit_ := k.unitAt i p
      if (s.ctx p.cid).ending then unit_.foldl (fun u e => u.refuseLaunch q e.2 .ok) s
      else if (s.ctx p.cid).iface = .error ∨ !s.workAccepted
          ∨ unit_.any (fun e => k.handleBusy e.1 (fieldAt e.2.bytes 8 4)) then s
      else if unit_.all fun e => e.2.gang.isSome then s.unitState unit_ .reserving
      else
        let plans : List (Except (Cause × Option Word) (List TeamPlan)) := unit_.map fun e =>
          match e.2.gang with
          | some g => Except.ok (((s.gang? g).map Gang.plan).getD [])
          | none => s.launchPlan k e.2
        let bad := plans.filterMap fun r => match r with | .error e => some e | .ok _ => none
        let s := s.seeTables unit_
        if pktJoin p.bytes ∨ bad ≠ [] then
          let cause := ((bad.find? fun e => e.1 != .ok).map (·.1)).getD .ok
          let s0 := (bad.filterMap (·.2)).foldl (fun (u : State) a => u.logEvent q 2 a) s
          unit_.foldl (fun u e => u.refuseLaunch q e.2 (if pktJoin p.bytes then .ok else cause)) s0
        else
          ((s.unitState unit_ .pending).reserve q ((unit_.zip plans).map fun e =>
            (e.1.1, e.1.2, match e.2 with | .ok l => l | .error _ => []))).queueState q)

/-! ### Commit (R128, R129, R132, R134, R135, R340) -/

/-- Whether a context owns a core (R353). -/
def State.ownsCore (s : State) (cid c : Nat) : Bool :=
  s.sec.owned.any fun e => match e with | (.core d, .assigned l) => d == c && l.contains cid | _ => false

/-- Whether a local page is ASSIGNED to a context (R353). -/
def State.ownsPage (s : State) (cid c p : Nat) : Bool :=
  match s.sec.own (.page c p) with
  | .assigned l => l.contains cid
  | _ => false

/-- The local pages an object's image touches. -/
def CodeObject.imagePages (o : CodeObject) : List Nat :=
  ((o.image.filter fun e => e.2.2 != []).map fun e =>
    (List.range ((e.1 + e.2.2.length - 1) / 4096 + 1 - e.1 / 4096)).map (e.1 / 4096 + ·)).flatten

/-- The live threads of a team that have started. -/
def State.started (s : State) (team : Nat) : List Thread :=
  s.threads.filter fun t => t.team == team && !t.ended && !t.unstarted

/-- Whether a cluster may take a member: a team with accumulator rows of its own holds its clusters alone (R335). -/
def State.clusterOpen (s : State) (team accn cl : Nat) : Bool :=
  s.threads.all fun t => t.ended || t.unstarted || t.team == team || clusterOf t.home != cl ||
    (accn == 0 && (match s.team? t.team with | some m => m.accn == 0 | none => true))

/-- Whether member `rank` of a team may start on core c (R129, R314, R335, R351): the core is free and the context's, no
live thread of the context has its region there, every page that is written is the context's (R345, R353), and its accumulator rows
are free. An evicted thread of another context keeps its own pages and rows, but not the core. -/
def State.mayHost (s : State) (o : CodeObject) (team accn rank c : Nat) : Bool :=
  let (base, rows) := accRegion accn rank c
  let pages := o.imagePages ++ (s.getCore c).pagesOf o.cid
  s.coreFree c && s.ownsCore o.cid c && (s.getCore c).takesRegion o.cid pages && pages.all (s.ownsPage o.cid c) &&
    s.threads.all (fun t => t.home != c || t.cid != o.cid || t.ended || t.unstarted) &&
    s.rowsFree (fun t => !t.unstarted) (clusterOf c) base rows && s.clusterOpen team accn (clusterOf c) &&
    placedOk ((rank, c) :: (s.started team).map fun t => (t.rank, t.home))

/-- The cores of a context in a field that a thread may be started on. -/
def State.freeCores (s : State) (cid field : Nat) : List Nat :=
  s.sec.owned.filterMap fun e =>
    match e with
    | (.core c, .assigned l) => if fieldOf c == field && l.contains cid && s.coreFree c then some c else none
    | _ => none

/-- Whether cores can be reserved on every partition that a gang's table names (R134): for all its members, or for one of a WEAK
gang. -/
def State.reservable (s : State) (g : Gang) : Bool :=
  g.plan.all fun p =>
    let n := ((g.plan.filter fun r => r.field == p.field).map (·.size)).sum
    decide ((if g.cls = 0 then min 1 n else n) ≤ (s.freeCores g.cid p.field).length)

/-- The field that a team is placed in. -/
def TeamPlan.placedIn (p : TeamPlan) (cs : List Nat) : Nat := (cs.head?.map fieldOf).getD p.field

/-- A team's placement (R128, R129, R134, R335): in one field, that of its table entry or, where every named partition has its cores,
another that the gang's table names, as R324 places its threads. A PARALLEL or CONCURRENT team starts whole; of a WEAK one at least
one member starts (R134, R135). -/
def State.placementOk (s : State) (g : Gang) (o : CodeObject) (p : TeamPlan) (cs : List Nat) : Bool :=
  let hosts := cs.zipIdx.map fun e => s.mayHost o s.nextId p.accn e.2 e.1
  let f := p.placedIn cs
  cs.length == p.size && (cs.all fun c => fieldOf c == f) &&
    (f == p.field || (s.reservable g && g.plan.any fun r => r.field == f)) &&
    (if g.cls = 0 then hosts.any id else hosts.all id && placedOk (cs.zipIdx.map fun e => (e.2, e.1)))

/-- Every part of a gang placed. -/
def State.gangPlaced (s : State) (g : Gang) (pl : List (List Nat)) : Bool :=
  match s.object? g.cid g.handle with
  | none => false
  | some o => pl.length == g.plan.length && (g.plan.zip pl).all fun e => s.placementOk g o e.1 e.2

/-- Slots of a LAUNCH's mask (R335). -/
def Gang.slotList (g : Gang) : List Slot := (List.finRange 16).filter fun i => g.slots.testBit i.val

/-- Channels no gang holds (R251, R340). -/
def State.freeChannels (s : State) : List Nat :=
  let used := (s.gangs.map (·.channels)).flatten
  (List.range 4096).filter fun c => !used.contains c

/-- Whether a 2 MiB block of HBM may serve as a spill area (R340). DESIGN CHOICE: nobody owns a granule of it, no byte of it is
set, and no other spill area nor the monitor area meets it. -/
def State.spillFree (s : State) (b : Nat) : Bool :=
  !(s.sec.owned.any fun e => match e.1 with | .granule g => decide (b ≤ 65536 * g ∧ 65536 * g < b + 2097152) | _ => false) &&
    !(s.mem.any fun e => decide (b ≤ e.1 ∧ e.1 < b + 2097152)) && !s.inSpill b &&
    (match s.sec.area with | some (a, n) => decide (a + n ≤ b ∨ b + 2097152 ≤ a) | none => true)

/-- The k highest blocks below block n that may serve as spill areas, if there are so many. -/
def State.findSpills (s : State) : Nat → Nat → Option (List Nat)
  | _, 0 => some []
  | 0, _ + 1 => none
  | n + 1, k + 1 =>
    if s.spillFree (2097152 * n) then (s.findSpills n k).map (2097152 * n :: ·) else s.findSpills n (k + 1)

/-- The 2 MiB blocks of HBM. -/
def hbmBlocks : Nat := 0x6000000000 / 2097152

/-- The slots that a set of gangs grants anew. -/
def State.newSlots (s : State) (gs : List Gang) : List Slot :=
  (List.finRange 16).filter fun i => gs.any (fun g => g.slots.testBit i.val) && (s.wslot i).granted.isNone

/-- Whether two teams that hold clusters alone, or not, meet in a cluster. -/
def accClash (l : List (TeamPlan × List Nat)) : Bool :=
  l.zipIdx.any fun a => l.zipIdx.any fun b =>
    a.2 != b.2 && a.1.1.accn != 0 && a.1.2.any fun c => b.1.2.any fun d => clusterOf c == clusterOf d

/-- Whether a gang's launch is whole: it names no partner that has joined its unit since (R335). -/
def State.unitWhole (s : State) (g : Gang) : Bool :=
  let k := s.queue g.queue
  match k.taken.findIdx? fun p => p.gang == some g.id with
  | none => false
  | some i =>
    match k.taken[i]? with
    | none => false
    | some p => (k.unitAt i p).all fun e => e.2.gang.isSome

/-- The fields that the slices of placed teams lie in. -/
def placedFields (places : List (List (List Nat))) : List Nat := (places.flatten.flatten.map fieldOf).eraseDups

/-- Whether the listed gangs are whole launch units that may all commit as placed. Each field's slice takes two commands, the
reservation and the commit, for which two permits must be left (R134, R328). -/
def State.mayCommit (s : State) (gs : List Gang) (places : List (List (List Nat))) : Bool :=
  gs.length == places.length && gs != [] && decide (gs.map (·.id)).Nodup && !s.restarting && !s.exchanging && s.workAccepted &&
    gs.all (fun (g : Gang) => g.state == .reserving && s.unitWhole g &&
      (match g.partner with | some p => gs.any fun h => h.id == p | none => gs.length == 1)
      && (s.ctx g.cid).iface != .error && !(s.ctx g.cid).ending
      && g.slotList.all fun sl => (s.wslot sl).granted == none || (s.wslot sl).granted == some g.cid) &&
    (gs.zip places).all (fun e => s.gangPlaced e.1 e.2) &&
    (gs.all (fun g => g.cls == 0) || decide (places.flatten.flatten).Nodup) &&
    !accClash ((gs.zip places).map fun (e : Gang × List (List Nat)) => e.1.plan.zip e.2).flatten &&
    (s.findSpills hbmBlocks (s.newSlots gs).length).isSome &&
    decide ((gs.map (·.nchan)).sum ≤ s.freeChannels.length) &&
    (placedFields places).all (fun f => decide (lookupD s.permits f 0 ≤ 6))

/-- The group a slot is joined across: one all of whose members are ACTIVE (R267, R367). -/
def State.joinedGroup (s : State) (sl : Slot) : Option Nat :=
  (s.groups.find? fun g => g.slots.contains sl && g.members.all fun m => m.2 == .active).map (·.g)

/-- Grants a slot with a spill area, which starts out zero (R268, R340). -/
def State.grantSlot (s : State) (cid : Nat) (sl : Slot) : State :=
  match (s.wslot sl).granted, s.findSpills hbmBlocks 1 with
  | none, some [b] =>
    (s.zeroFill b 2097152).modSlot sl fun _ => { WSlot.reset with granted := some cid, area := some b, joined := s.joinedGroup sl }
  | _, _ => s

/-- Grants a gang's slots and channels (R268, R340). -/
def State.grant (s : State) (g : Gang) : State :=
  let s1 := g.slotList.foldl (fun (u : State) sl => u.grantSlot g.cid sl) s
  let chans := s1.freeChannels.take g.nchan
  { (s1.modGang g.id fun g => { g with channels := chans }) with
    channels := s1.channels.filter fun c => !chans.contains c.ch }

/-- The local-store tags at a thread's start (R166): those of the image's pages, and 255 on every other page of the region. DESIGN
CHOICE (log 128): of two image sections in one page, which tsld never places (R121), the later gives the tag. -/
def startTags (o : CodeObject) (k : Core) : Vector Byte 48 :=
  o.image.foldl (fun (t : Vector Byte 48) e => Vector.ofFn fun i =>
    if e.1 / 4096 ≤ i.val ∧ i.val ≤ (e.1 + e.2.2.length - 1) / 4096 ∧ e.2.2 ≠ [] then e.2.1 else t.get i)
    (Vector.ofFn fun i => if k.peAllows o.cid i.val then 255 else k.lpt.get i)

/-- Core k at a thread's start (R132, R219, R335). DESIGN CHOICE (log 126): INSTRET, which R132 does not list, starts at 0. -/
def startCore (g : Gang) (o : CodeObject) (p : TeamPlan) (rank tid : Nat) (k : Core) : Core :=
  let z := Core.reset k.num
  let (base, rows) := accRegion p.accn rank k.num
  let save := (k.pe.toList.find? fun w => peKind w == 2 && peCid w == g.cid).map peFirst
  { z with
    x := z.x.set 10 g.arg, pc := o.entry, mode := .program, cid := g.cid, declared := o.profiles, tid := some tid
    lpt := startTags o k, pe := k.pe, dbg := k.dbg, resetAt := k.resetAt, held := false, deckle := k.deckle
    csr := { z.csr with
      rank := nat64 rank, teamsz := nat64 p.size, stage := nat64 p.stage, gangid := nat64 g.gangid
      accbase := nat64 base, acclim := nat64 (base + rows), mstat := if g.latency then 1#64 <<< 2 else 0
      dkentry := k.csr.dkentry, dkresume := k.csr.dkresume &&& ~~~1, dkdata := k.csr.dkdata, dkwork := k.csr.dkwork
      dkctx := nat64 (g.cid * 2 ^ 52 + save.getD 0) } }

/-- The start of thread i on core c: its image, its accumulator rows, its registers, and DOMAIN from its entry's page (R132).
DESIGN CHOICE: local-store bytes outside the image, which are undefined, keep what was there before. -/
def State.beginThread (s : State) (g : Gang) (o : CodeObject) (p : TeamPlan) (rank i c : Nat) : State :=
  let (base, rows) := accRegion p.accn rank c
  let cl := clusterOf c
  let s := s.leaveBare c
  let s1 : State := { s with
    threads := modWhere (fun t => t.tid == i) (fun t => { t with home := c, evicted := none, unstarted := false }) s.threads
    mem := (o.image.foldl (fun (u : State) e => u.overwrite (localKey c e.1) e.2.2) s).mem
    hist := (o.image.foldl (fun (u : State) e => u.overwrite (localKey c e.1) e.2.2) s).hist
    acc := (List.range rows).foldl (fun m j => m.write (accKey cl (base + j) 0) (zeros 512)) s.acc
    accTags := (List.range rows).foldl (fun m j => m.set (accTagKey cl (base + j)) 0) s.accTags }
  let s2 := s1.modCore c fun k => { startCore g o p rank i k with views := Views.start s1.stamp }
  s2.onCore c fun u => { u with core := { u.core with domain := (u.pageTagAt u.core.pc).getD u.core.domain } }

/-- Enters a member of a team, away from its core until it starts. -/
def State.enterThread (s : State) (g : Gang) (o : CodeObject) (p : TeamPlan) (team rank c : Nat) : State × Nat :=
  let (s1, tid) := s.fresh
  let k := startCore g o p rank tid (s.getCore c)
  let img : Core := { k with csr := { k.csr with accbase := 0, acclim := 0 } }
  ({ s1 with threads := s1.threads ++ [⟨tid, g.cid, g.id, team, rank, c, false, false, some img, fieldOf c, true⟩] }, tid)

/-- A member of a committed team starts on its core; a WEAK one whose core is not free stays out until the slice starts it
(R135). -/
def State.startThread (s : State) (g : Gang) (o : CodeObject) (p : TeamPlan) (team rank c : Nat) : State :=
  let (s1, tid) := s.enterThread g o p team rank c
  if g.cls = 0 ∧ !s1.mayHost o team p.accn rank c then s1 else s1.beginThread g o p rank tid c

/-- Starts a team in the field it is placed in. -/
def State.startTeam (s : State) (g : Gang) (o : CodeObject) (p : TeamPlan) (cs : List Nat) : State :=
  let (s1, id) := s.fresh
  let s2 : State := { s1 with teams := s1.teams ++ [⟨id, g.id, g.cid, p.size, p.stage, p.placedIn cs, p.accn, [], CalRun.idle, [], false⟩] }
  cs.zipIdx.foldl (fun u e => u.startThread g o p id e.2 e.1) s2

/-- Starts a gang; its packet has started. -/
def State.startGang (s : State) (g : Gang) (pl : List (List Nat)) : State :=
  match s.object? g.cid g.handle with
  | none => s
  | some o =>
    let s1 := (s.grant g).modGang g.id fun g => { g with state := .running, tstart := s.clock / 2 }
    let s2 := (g.plan.zip pl).foldl (fun u e => u.startTeam g o e.1 e.2) s1
    let k := s2.queue g.queue
    (s2.putQueue { k with taken := k.taken.map fun p => if p.gang = some g.id then { p with started := true } else p }).queueState g.queue

def execGangCommit (gs : List Nat) (places : List (List (List Nat))) (s : State) : Out :=
  let l := gs.filterMap s.gang?
  .next (
    if l.length = gs.length ∧ s.mayCommit l places then
      let s1 : State := { s with
        permits := (placedFields places).foldl (fun p f => assign p f (lookupD p f 0 + 2)) s.permits }
      (l.zip places).foldl (fun u e => u.startGang e.1 e.2) s1
    else s)

/-- A permit comes back, and the Headbox sends what waits for one: the end of a failed gang's threads (R328, R339). -/
def execSlicePermitReturn (slice : Nat) (s : State) : Out :=
  .next (({ s with permits := assign s.permits slice (lookupD s.permits slice 0 - 1) } : State).endFailed slice)

/-- The slice starts a WEAK thread that has not started on a core of its team's field that is free for it (R135). -/
def State.startLate (s : State) (t : Thread) (c : Nat) : State :=
  match s.gangOf t, s.team? t.team with
  | some g, some m =>
    match s.object? g.cid g.handle with
    | some o =>
      let p : TeamPlan := ⟨m.field, m.size, m.stage, m.accn⟩
      if fieldOf c = m.field ∧ s.mayHost o m.id m.accn t.rank c then s.beginThread g o p t.rank t.tid c else s
    | none => s
  | _, _ => s

/-- The slice resumes an evicted thread (R317), or starts a WEAK one that has not started (R135). -/
def execSliceResume (i c : Nat) (s : State) : Out :=
  .next (
    match s.thread? i with
    | some t => if t.unstarted then (if t.ended || t.ending || (s.ctx t.cid).halted then s else s.startLate t c) else s.resumeThread t c
    | none => s)

/-! ### The end of threads and gangs (R133, R339, R340, R349) -/

/-- A grant ends with the last running gang of its context that names the slot (R340). -/
def State.endGrants (s : State) (g : Gang) : State :=
  g.slotList.foldl (fun (u : State) sl =>
    if (u.wslot sl).granted ≠ some g.cid ∨ u.gangs.any (fun h => h.cid == g.cid && h.id != g.id && h.slots.testBit sl.val && u.live h) then u
    else
      let v := match (u.wslot sl).area with | some b => u.zeroFill b 2097152 | none => u
      { v with records := v.records.filter fun r => r.slot != sl }.modSlot sl fun w =>
        { w with granted := none, phase := 0, queued := 0, running := 0, area := none, spill := [], joined := none, lost := false
                 orphans := [] }) s

/-- The Headbox reports a gang's end: the status record, then the packet completes (R339). -/
def State.reportGang (s : State) (id : Nat) : State :=
  match s.gang? id with
  | none => s
  | some g =>
    let (st, c) := if g.state = .failed then (2, g.cause) else (0, Cause.ok)
    s.reportThen g.queue g.cid g.staddr (statusBytes st c g.seq g.gangid (nat64 g.tstart) (nat64 g.tend)) fun u =>
      let k := u.queue g.queue
      (u.putQueue { k with taken := k.taken.map fun p => if p.gang = some id then { p with completed := true } else p }).settleQueue
        g.queue

/-- A gang whose teams have all ended ends: its channels, slots and object (but in ERROR, which freezes mappings, R357) are released, and its end is reported, after
a restart if there is one (R340, R341). -/
def State.gangCheck (s : State) (id : Nat) : State :=
  match s.gang? id with
  | none => s
  | some g =>
    if (g.state ≠ .running ∧ g.state ≠ .failed) ∨ s.teams.any (fun t => t.gang == id && !t.ended) then s
    else
      let s1 := s.modGang id fun g => { g with
        state := if g.state = .failed then .failed else .ended, channels := [], tend := s.clock / 2 }
      let s2 := s1.endGrants g
      let s2 := if (s2.ctx g.cid).iface = .error then s2 else s2.unbind g.cid g.handle
      if s2.restarting then { s2 with reports := s2.reports ++ [id] } else s2.reportGang id

/-- What a thread gives up as it ends (R133, R349): its convoy, its core, its place in the map. -/
def State.releaseThread (s : State) (t : Thread) : State :=
  let k := s.ownerCore (.thread t.tid)
  let s1 := (s.taskLeaves k).calKill k
  let s2 :=
    if t.evicted.isSome then s1
    else
      s1.onCore t.home fun u =>
        let v := u.detach
        let v := if v.core.mode = .program then v.enterMonitor 3 .ok 0 v.core.pc else v
        { v with core := v.core.vacant }
  { s2 with threads := modWhere (fun u => u.tid == t.tid) (fun u => { u with ended := true, evicted := none }) s2.threads }

/-- The thread of core c that is to end ends once its operations have drained; then its team and its gang may (R133). -/
def execThreadEnd (c : Nat) (s : State) : Out :=
  .next (
    match s.threads.find? fun t => t.home == c && t.ending && !t.ended with
    | none => s
    | some t =>
      let busy := (s.opsOf (.thread t.tid)).any fun o =>
        match o.body with | .cal _ => s.asyncWaiting.any fun e => e.1 == o.id | _ => true
      if busy then s
      else
        let s1 := (s.releaseThread t).teamCheck t.team
        let allEnded := s1.threads.all fun u => u.team != t.team || u.ended
        let s2 := if allEnded then s1.modTeam t.team fun m => { m with ended := true } else s1
        s2.gangCheck t.gang)

/-! ### Trap rings with room again (R310) -/

/-- The i-th of the asynchronous records that wait writes itself once its ring has room, and its operation completes. -/
def execTrapRingResume (i : Nat) (s : State) : Out :=
  .next (
    match s.asyncWaiting[i]? with
    | none => s
    | some (id, status, count, fa) =>
      let gone (u : State) : State := { u with asyncWaiting := u.asyncWaiting.filter fun e => e.1 != id }
      match s.op? id with
      | none => gone s
      | some o =>
        let (s1, res) :=
          s.writeRecord { s.ownerCore o.owner with cid := o.rights.cid } (causeCode status) o.cls 1 o.rights.domain o.pc fa
            (completionWord status o.cls count.toNat)
        if res = .full then s1
        else
          match o.body with
          | .red _ _ _ _ =>
            match s1.redOutcome o with
            | some (vd, r) => gone ((s1.finishOp o status count.toNat (redWrites vd status r)).logReduce o status r)
            | none => gone (s1.finishOp o status count.toNat fun c => c)
          | .cal team =>
            match (s1.team? team).bind fun t => t.cal.members.find? fun m => m.opId == id && !m.done with
            | some m => if s1.isEvicted o.owner then s else gone (s1.calRetire team m o status)
            | none => gone (s1.finishOp o status count.toNat fun c => c)
          | _ => gone ((s1.finishOp o status count.toNat fun c => c).chainDone o status))

/-! ### Registers of the window as events (R329, R330, R342) -/

def execQueueEnable (q : Nat) (v : Word) (s : State) : Out :=
  .next (if q < 1024 ∧ !(s.queue q).enabled ∧ bitOf v 0 then s.queueEnable q v else s)

def execQueueDisable (q : Nat) (v : Word) (s : State) : Out :=
  .next (if q < 1024 ∧ (s.queue q).enabled ∧ !bitOf v 0 then s.queueDisable q v else s)

def execQtailWrite (q : Nat) (v : Word) (s : State) : Out := .next (if q < 1024 then s.qtailWrite q v else s)

/-- A host writes a register. Only the owner does: another host's write of a queue register is REFUSED, and a former owner is
read-only from the grant on (R361). DEDUCED: nor has any other host a checked mapping of the other registers (R329, R350). A debug
block is written only through a mapping that has been checked (R350). -/
def execRegisterWrite (r : HostReg) (v : Word) (s : State) : Out :=
  .next (
    if r.off % 8 ≠ 0 ∨ 0x100000000 ≤ r.off then s
    else if s.sec.owner ≠ some r.host then s.answer .refused
    else if 0x20000000 ≤ r.off ∧ !s.debugMapped ((r.off - 0x20000000) / 128) then s
    else s.regWrite (.inbound 0) r.off v)

def execNotifyWrite (c : Nat) (s : State) : Out := .next (if c < numCores then s.notify (.inbound 0) c else s)

/-- A gated field wakes and delivers the latched writes (R342). -/
def execNotifyGatedDeliver (field : Nat) (s : State) : Out :=
  let mine := s.gatedWrites.filter fun c => fieldOf c == field
  .next (mine.foldl (fun u c => u.setWake .module c)
    { s with gated := s.gated.filter (· != field), gatedWrites := s.gatedWrites.filter fun c => fieldOf c != field })

/-! ### Restarts (R341) -/

def execHeadboxRestart (s : State) : Out :=
  .next (if s.restarting then s else { s with restarting := true, restartAt := s.clock })

/-- Each fetcher goes on against its latched tail; ends of gangs that were held are reported in order. -/
def execHeadboxResume (s : State) : Out :=
  .next (
    if !s.restarting then s
    else
      let s1 : State := { s with restarting := false, reports := [] }
      s.reports.foldl (fun u g => u.reportGang g) (if s.exchanging then s1 else s1.releaseLatches))

end Sys2Proof.Machine
end

