-- ==== Sys2Proof/Machine/Debug.lean ====
section
/-! DEFINITION. Debug halts as management asks for them (R321, R350), and replay logging (R322). -/
namespace Sys2Proof.Machine
open Sys2Proof

/-- A halt request reaches a core through a mapping of its debug block that has been checked, where the block answers (R350). -/
def State.debugAsk (s : State) (c : Nat) (f : State → State) : State :=
  if c < numCores ∧ s.debugMapped c ∧ s.debugAllowed c then f s else s

def execDebugRun (c : Nat) (s : State) : Out := .next (s.debugAsk c fun s => s.debugRun c)
def execDebugPlainHalt (c : Nat) (s : State) : Out := .next (s.debugAsk c fun s => s.debugHalt c false)
def execDebugQuiesceHalt (c : Nat) (s : State) : Out := .next (s.debugAsk c fun s => s.debugHalt c true)

/-- A halt is stable once the core's current instruction has retired, a quiescing one once C0 to C15 are 0 and no token is
pending as well (R321). -/
def execDebugStable (c : Nat) (s : State) : Out :=
  let k := s.getCore c
  .next (if k.dbg.halted ∧ !k.midway ∧ (k.dbg.dctl = 1 ∨ (k.dbg.dctl = 2 ∧ k.csr.cnt.toList.all (· == 0) ∧ k.pendX = 0)) then
      s.modCore c fun k => { k with dbg := { k.dbg with stable := true } }
    else s)

def execLoggingEnable (cid : Nat) (s : State) : Out := .next (s.modCtx cid fun x => { x with logging := true })

end Sys2Proof.Machine
end

