-- ==== Sys2Proof/Machine/Security.lean ====
section
/-! DEFINITION. The security core: mappings and ownership (R353, R354), attestation (R356), interfaces and activation
(R357 to R359), alarms (R360), owners (R361), teardown and scrub (R362, R363). -/
namespace Sys2Proof.Machine
open Sys2Proof

/-- The granules of HBM that a context's checked leaves map (R354). -/
def State.mappedGranules (s : State) (cid : Nat) : List Nat :=
  let leaves := ((s.sec.activated ++ s.sec.checked).filter fun l => l.2.1 == cid).map (·.2.2)
  (s.sec.granulesOf cid).filter fun g => leaves.any fun e =>
    decide (bitsOf e 51 16 ≤ g ∧ g < bitsOf e 51 16 + leafSize e / 65536)

/-- A context's first key slot is bound: what its leaves map of HBM was written under slot 0 and shows no plaintext any more (R355),
and a leaf that was active waits for its zero fill and a new activation (R354). -/
def State.sealMemory (s : State) (cid : Nat) : State :=
  if (s.ctx cid).keySlot.isSome then s
  else
    let mine := s.mappedGranules cid
    let back := s.sec.activated.filter fun l => l.2.1 == cid && mine.contains (bitsOf l.2.2 51 16)
    ((s.scramble fun a => inHbm a && mine.contains (a / 65536)).modSec fun x => { x with
      activated := x.activated.filter fun l => !back.contains l
      checked := back ++ x.checked }).rewalk cid

/-- What an accepted mapping does. A valid leaf is written with OWN set and is usable only once it is activated. -/
def State.applyMapping (s : State) : Mapping → State
  | .leaf cid pa e =>
    let leaf := bitOf e 0 && bitsOf e 15 14 != 3
    let e' := if leaf then e ||| (1#64 <<< 63) else e
    (s.writeMem pa (bytesOfWord e')).modSec fun x => { x with
      activated := x.activated.filter fun l => l.1 != pa
      checked := (if leaf then [(pa, cid, e')] else []) ++ x.checked.filter fun l => l.1 != pa }
  | .protEntry _ c i v => s.modCore c fun k => { k with pe := k.pe.set i v }
  | .lptTag _ c p tag => s.modCore c fun k => { k with lpt := Vector.ofFn fun i => if i.val = p then tag else k.lpt.get i }
  | .queueBlock _ q priv =>
    s.modQueue q fun k => { k with priv := priv, ctl := (k.ctl &&& ~~~8) ||| (if priv then 8 else 0) }
  | .keySlot cid n =>
    (s.sealMemory cid).modCtx cid (fun x => { x with keySlot := some n, protect := true }) |>.modSec fun x =>
      { x with keys := if x.keys.contains n then x.keys else x.keys ++ [n] }
  | .root cid pa => s.modCtx cid fun x => { x with root := some pa }
  | .coreOwn _ _ => s

/-- A host's proposal (R354, R361): BUSY during a scrub that a reset left, or of what it names; REFUSED to any host but the
owner, and where a check fails. -/
def State.propose (s : State) (h : Nat) (m : Mapping) : State :=
  let x := s.ctx (mappingCid m)
  let l := mappingThings m
  if s.sec.boot then s.answerBusy
  else if s.sec.owner ≠ some h then s.answer .refused
  else if l.any (fun t => s.sec.scrub.contains t) ∨ !s.workAccepted then s.answerBusy
  else if 4096 ≤ (mappingCid m) ∨ x.ending ∨ x.iface = .error ∨ !s.mappingSound m then s.answer .refused
  else ((s.applyMapping m).modSec fun x => x.assignAll (mappingCid m) l).answer .ok

def execMappingProposal (m : Proposal) (s : State) : Out := .next (s.propose m.host m.mapping)

/-- A checked leaf becomes usable as it was checked, zero-filled first where it maps HBM into a protected context (R354); in
ERROR a context's mappings are frozen (R357). -/
def execLeafActivate (pa : Nat) (s : State) : Out :=
  .next (
    match s.sec.checked.find? fun l => l.1 == pa with
    | none => s
    | some (_, cid, e) =>
      let target := bitsOf e 51 16 * 65536
      if (s.ctx cid).iface = .error then s
      else
        let s1 := if (s.ctx cid).protect ∧ inHbm target then s.zeroFill target (leafSize e) else s
        (s1.modSec fun x => { x with
          activated := (pa, cid, e) :: x.activated, checked := x.checked.filter fun l => l.1 != pa }).rewalk cid)

/-! ### Attestation and measurements (R356, R358) -/

/-- Cycles of a commit window: 2 ms. -/
def windowCycles : Nat := 4000000

/-- Answers BUSY with the microseconds left of the commit window while it is open. -/
def State.unlessWindow (s : State) (f : State → State) : State :=
  match s.sec.window with
  | some (_, _, _, opened) => s.answer (.busy ((opened + windowCycles - s.clock + 1999) / 2000))
  | none => f s

/-- A report with its signature, which is a free value; the signature index advances first (R356). -/
def State.attest (s : State) (nonce : Word) : State :=
  if s.sec.seedErased ∨ 2 ^ 25 ≤ s.sec.sigIndex then s.answer .refused
  else
    let (s1, n) := s.draw
    (s1.modSec fun x => { x with sigIndex := x.sigIndex + 1 }).answer
      (.report s.sec.measured s.sec.fuses nonce (s.sec.contexts.map fun x => (x.cid, x.iface)) (Config.freeNat n))

def execAttestRequest (nonce : Word) (s : State) : Out := .next (s.unlessWindow fun s => s.attest nonce)

/-- The measurement of a part; of an image that the model was not told, a free value. -/
def State.measurement (s : State) (part : FwPart) : State :=
  match s.sec.measured.find? fun e => e.1 == part with
  | some e => s.answer (.measurement e.2)
  | none =>
    let (s1, n) := s.draw
    (s1.modSec fun x => { x with measured := x.measured ++ [(part, Config.freeNat n)] }).answer (.measurement (Config.freeNat n))

def execMeasurementRequest (part : FwPart) (s : State) : Out := .next (s.unlessWindow fun s => s.measurement part)

/-! ### Interfaces (R357) -/

/-- The cores that run a context in program mode, a launched thread or one that CTX.LOAD and MRET brought there. -/
def State.coresOf (s : State) (cid : Nat) : List Nat :=
  ((s.core :: s.others).filter fun k => k.cid == cid && k.mode == .program).map (·.num)

/-- Halts a context (R346 event 4, R357): its cores in program mode that wait for nothing enter monitor mode, and none of them
issues in program mode any more. -/
def State.haltContext (s : State) (cid : Nat) : State :=
  let s1 := s.modCtx cid fun x => { x with halted := true }
  (s1.coresOf cid).foldl (fun (u : State) c => u.onCore c fun v => v.requestMonitor 0) s1

/-- An interface moves to ERROR, which halts its context (R357). -/
def State.interfaceError (s : State) (cid : Nat) : State :=
  (s.modCtx cid fun x => { x with iface := .error }).haltContext cid

def execInterfaceLock (cid : Nat) (policy : Policy) (s : State) : Out :=
  let x := s.ctx cid
  .next (if x.protect ∧ x.iface = .unlocked ∧ !x.ending then s.modCtx cid fun x => { x with iface := .locked, policy := policy }
    else s)

def execInterfaceStart (cid : Nat) (s : State) : Out :=
  .next (if (s.ctx cid).iface = .locked then s.modCtx cid fun x => { x with iface := .run } else s)

/-- Step 1 of teardown (R362). -/
def State.beginTeardown (s : State) (cid : Nat) : State := (s.modCtx cid fun x => { x with ending := true }).haltContext cid

def execInterfaceStop (cid : Nat) (s : State) : Out :=
  .next (if (s.ctx cid).protect ∧ !(s.ctx cid).ending then s.beginTeardown cid else s)

/-! ### Teardown and scrub (R362, R363) -/

/-- Takes a context off a core: its protection entries, and its thread if it has one there. -/
def Core.leaveContext (k : Core) (cid : Nat) : Core :=
  let pe := k.pe.map fun w => if peKind w ≠ 0 ∧ peCid w = cid then 0 else w
  if k.cid = cid then { k.vacant with pe := pe } else { k with pe := pe }

/-- Every core of a context is released (R362): one still in program mode enters monitor mode by event 4 (R346). -/
def State.leaveCores (s : State) (cid : Nat) : State :=
  let s1 := (s.coresOf cid).foldl (fun (u : State) c => u.onCore c fun v => v.enterMonitor 4 .ok 0 v.core.pc) s
  { s1 with core := s1.core.leaveContext cid, others := s1.others.map fun k => k.leaveContext cid }

/-- 4 KiB units of a thing. -/
def Thing.units : Thing → Nat
  | .core _ => 0
  | .page _ _ => 1
  | .granule _ => 16

/-- A scrub of more things begins, or joins the one that runs; local pages go first. -/
def State.startScrub (s : State) (l : List Thing) : State :=
  let fresh := (l.filter fun t => t.units == 1) ++ l.filter fun t => t.units == 16
  let n := (fresh.map Thing.units).sum
  s.modSec fun x =>
    if x.scrubActive then { x with scrub := x.scrub ++ fresh, scrubTotal := x.scrubTotal + n }
    else { x with scrub := fresh, scrubPart := 0, scrubTotal := n, scrubDone := 0, scrubActive := true }

/-- The scrub is over: DIRTY cores are FREE, and contexts whose teardown it ends are UNLOCKED again. -/
def State.endScrub (s : State) : State :=
  if s.sec.scrub ≠ [] then s
  else s.modSec fun x => { x with
    scrubActive := false, boot := false
    owned := x.owned.filter fun e => e.2 != .dirty
    contexts := x.contexts.filter fun c => !c.drained }

/-- Steps 3 to 5: key slot, leaves, ownership, cores, and the scrub. -/
def State.finishTeardown (s : State) (cid : Nat) : State :=
  let mine := s.sec.owned.filter fun e => match e.2 with | .assigned l => l.contains cid | _ => false
  let left (e : Thing × Own) : Own :=
    match e.2 with
    | .assigned l => if l.filter (· != cid) = [] then .dirty else .assigned (l.filter (· != cid))
    | o => o
  let dirty := (mine.filter fun e => left e == .dirty).map (·.1)
  let slot := (s.ctx cid).keySlot
  let s1 := s.modCtx cid fun x => { x with keySlot := none, root := none, drained := true, reach := defaultReach }
  let s2 := s1.modSec fun x => { (mine.foldl (fun y e => y.setOwn e.1 (left e)) x) with
    keys := x.keys.filter fun k => slot != some k
    activated := x.activated.filter fun l => l.2.1 != cid && !dirty.contains (.granule (l.1 / 65536))
    checked := x.checked.filter fun l => l.2.1 != cid }
  let s3 : State := { s2.leaveCores cid with
    leaves := s2.leaves.filter fun l => l.cid != cid
    misses := s2.misses.filter fun m => m.cid != cid
    heldMisses := s2.heldMisses.filter fun m => m.cid != cid
    threads := modWhere (fun t => t.cid == cid) (fun t => { t with ended := true, evicted := none }) s2.threads
    teams := modWhere (fun t => t.cid == cid) (fun t => { t with ended := true }) s2.teams
    gangs := modWhere (fun g => g.cid == cid) (fun g => { g with state := .failed, channels := [] }) s2.gangs
    objects := s2.objects.filter fun o => o.cid != cid }
  let s4 := (s3.gangs.filter fun g => g.cid == cid).foldl (fun u g => u.endGrants g) s3
  (s4.startScrub dirty).endScrub

/-- Teardown goes on once every operation that carries the CID has completed. -/
def execTeardownDrained (cid : Nat) (s : State) : Out :=
  let x := s.ctx cid
  .next (if x.ending ∧ !x.drained ∧ !(s.ops.any fun o => o.rights.cid == cid && match o.body with | .cal _ => false | _ => true) then
      { s with ops := s.ops.filter fun o => o.rights.cid != cid }.finishTeardown cid
    else s)

/-- One 4 KiB unit is zeroed; a finished page or granule is FREE (R362, R363). The scrub that a reset left waits until the security
core has released the cores (R373). -/
def State.scrubUnit (s : State) : State :=
  if s.sec.boot && !s.sec.allReleased then s
  else
  let free (s : State) (t : Thing) (rest : List Thing) : State :=
    (s.modSec fun x => { (x.setOwn t .free) with scrub := rest, scrubPart := 0, scrubDone := x.scrubDone + 1 }).endScrub
  match s.sec.scrub with
  | [] => if s.sec.scrubActive then s.endScrub else s
  | .page c n :: rest =>
    let at_ := localKey c (4096 * n)
    free { s.zeroFill at_ 4096 with gateSpills := s.gateSpills.filter fun e => !(decide (at_ ≤ e.1 ∧ e.1 < at_ + 4096)) }
      (.page c n) rest
  | .granule g :: rest =>
    let s1 := s.zeroFill (65536 * g + 4096 * s.sec.scrubPart) 4096
    if s.sec.scrubPart < 15 then
      s1.modSec fun x => { x with scrubPart := x.scrubPart + 1, scrubDone := x.scrubDone + 1 }
    else free s1 (.granule g) rest
  | .core _ :: rest => s.modSec fun x => { x with scrub := rest }

def execScrubUnit (s : State) : Out := .next s.scrubUnit

/-! ### Live activation (R358, R359) -/

/-- Steps 1 and 2: a verified image opens the commit window. Each core installs a Deckle image at its next monitor entry; another
part stalls its command links, and tail writes latch (State.exchanging). -/
def execActivateImage (image : PartImage) (digest version : Nat) (signed : Bool) (s : State) : Out :=
  .next (if s.sec.window.isSome ∨ !signed ∨ version < s.sec.fuses ∨ 64 < version ∨ (image.part = .deckle ∧ 4096 < image.bytes.length) then
      s.answer .refused
    else (s.modSec fun x => { x with
      window := some (image.part, digest, version, s.clock)
      deckle := if image.part = .deckle then (x.deckle.1 + 1, image.bytes) else x.deckle }).answer .ok)

/-- What an exchange held back goes on: the latched tails, and the commands that wait to be sent. -/
def State.reopenLinks (s : State) : State :=
  if s.restarting ∨ s.exchanging then s
  else ((s.threads.map fun t => fieldOf t.home).eraseDups).foldl State.endFailed s.releaseLatches

/-- A part has a new image (R345, R358): its measurement holds, and the interfaces in LOCKED or RUN whose policy lacks it move to
ERROR. -/
def State.remeasure (s : State) (part : FwPart) (digest version : Nat) : State :=
  let bad := (s.sec.contexts.filter fun x =>
    (x.iface == .locked || x.iface == .run) && !x.policy.accept.contains (part, digest)).map (·.cid)
  let s1 := s.modSec fun x => { x with
    versions := x.versions.filter (fun e => e.1 != part) ++ [(part, version)]
    measured := x.measured.filter (fun e => e.1 != part) ++ [(part, digest)] }
  bad.foldl (fun u c => u.interfaceError c) s1

/-- Steps 3 and 4: the fuses burn, the new measurement holds, and the window closes. -/
def State.commitWindow (s : State) : State :=
  match s.sec.window with
  | none => s
  | some (part, digest, version, _) =>
    ((s.modSec fun x => { x with window := none, fuses := max x.fuses version }).remeasure part digest version).reopenLinks

def execActivationCommit (s : State) : Out := .next s.commitWindow

/-- The window lasts at most 2 ms: one that has lasted so long commits before the next step (R358). -/
def State.dueCommit (s : State) : State :=
  match s.sec.window with
  | some (_, _, _, opened) => if opened + windowCycles ≤ s.clock then s.commitWindow else s
  | none => s

/-! ### Power-on (R25, R373) -/

/-- Writes a Deckle image into a core's page 47 and releases the core, whose local store's check bits are initialised with it (R25):
it starts as after reset, at its first monitor entry, event 0 with ARM clear (R346, R347). -/
def State.releaseCore (s : State) (c : Nat) (image : List Byte) : State :=
  let s1 := (((s.leaveBare c).clearPoison (localKey c 0) 0x30000).overwrite (localKey c 0x2F000) image).modSec fun x =>
    { x with released := x.released + (s.getCore c).held.toNat }
  s1.modCore c fun _ =>
    { Core.reset c with
      held := false, deckle := s.sec.deckle.1, resetAt := s.clock, csr := { Csrs.reset with dkentry := 1 } }

/-- The security core releases a core that holds no thread (R25). The first release after a reset comes once the links are keyed
(R373), and its image, of at least the fused version (R359), is the one that was measured at boot (R345); from then on a core gets the
image that is live (R358). -/
def execPowerOn (c : Nat) (image : Firmware) (s : State) : Out :=
  let first := (s.core :: s.others).all (·.held)
  .next (
    if numCores ≤ c ∨ 4096 < image.bytes.length ∨ (s.getCore c).tid.isSome ∨ (first ∧ !s.sec.linksKeyed) then s
    else if image.version < s.sec.fuses then s.logEvent c 6 (nat64 image.version)
    else if first ∧ s.sec.window = none then
      ((s.modSec fun x => { x with deckle := (x.deckle.1, image.bytes) }).remeasure .deckle (Config.digest image.bytes)
        image.version).releaseCore c image.bytes
    else if image.bytes = s.sec.deckle.2 then s.releaseCore c image.bytes
    else s)

/-! ### Alarms (R360) -/

/-- The contexts the module knows of: recorded ones, those of launched threads, and those that a core runs. -/
def State.cids (s : State) : List Nat :=
  (s.sec.contexts.map (·.cid) ++ s.threads.map (·.cid) ++ ((s.core :: s.others).filter fun k => k.mode == .program).map (·.cid)).eraseDups

/-- The actions of the configured alarm level; before one is configured an event is only logged. Without its key slots, 0 among them, the
module's HBM shows no plaintext any more (R355). -/
def State.tamper (s : State) (kind : Nat) : State :=
  let level := s.sec.alarm.getD 0
  let s1 := s.logEvent 0 3 (nat64 kind)
  if level = 0 then s1
  else
    let s2 := (s1.cids.foldl (fun u c => u.haltContext c) s1).modSec fun x => { x with alarmed := true }
    if level = 1 then s2
    else
      let protect := (s2.sec.contexts.filter (·.protect)).map (·.cid)
      let s3 := (s2.scramble inHbm).modSec fun x => { x with
        keys := [], links := (List.range numLinks).map fun n => { x.link n with keyed := false }
        contexts := x.contexts.map fun c => { c with keySlot := none }
        seedErased := x.seedErased || level == 3 }
      protect.foldl (fun u c => (u.interfaceError c).beginTeardown c) s3

def tamperCode : Tamper → Nat
  | .voltageClock => 0 | .temperature => 1 | .enclosure => 2 | .linkTags => 3

def execTamperEvent (kind : Tamper) (s : State) : Out := .next (s.tamper (tamperCode kind))

/-- The alarm level is configured once per boot. -/
def execAlarmLevelConfig (level : Nat) (s : State) : Out :=
  .next (if s.sec.alarm = none ∧ 1 ≤ level ∧ level ≤ 3 then s.modSec fun x => { x with alarm := some level } else s)

/-! ### Owners (R361) -/

/-- A host becomes owner; protected contexts from before whose policy does not name it move to ERROR. -/
def State.giveOwner (s : State) (h : Nat) : State :=
  let s1 := s.modSec fun x => { x with owner := some h, heartbeat := s.clock, former := x.former.filter (· != h) }
  let bad := if s.sec.owner = none ∧ (s.sec.former = [] ∨ s.sec.former.getLast? = some h) then []
    else (s.sec.contexts.filter fun x => x.protect && !x.policy.owners.contains h).map (·.cid)
  (bad.foldl (fun u c => u.interfaceError c) s1).answer .ok

/-- The owner election is answered last of the bring-up (R373): a claim waits until every core has been released. -/
def execOwnerClaim (h : Nat) (s : State) : Out :=
  .next (if !s.sec.allReleased then s else if s.sec.boot then s.answerBusy else if s.sec.owner = none then s.giveOwner h else s.answer .refused)

def execOwnerHeartbeat (h : Nat) (s : State) : Out :=
  .next (if s.sec.owner = some h then (s.modSec fun x => { x with heartbeat := s.clock }).answer .ok else s.answer .refused)

def execOwnerRelease (h : Nat) (s : State) : Out :=
  .next (if s.sec.owner = some h then
      (s.modSec fun x => { x with owner := none, former := x.former ++ [h] }).answer .ok
    else s.answer .refused)

/-- A takeover is granted once the last heartbeat is more than 5 s old. -/
def execOwnerTakeover (h : Nat) (s : State) : Out :=
  .next (
    match s.sec.owner with
    | none => s.answer .refused
    | some o =>
      if o ≠ h ∧ s.sec.heartbeat + 10000000000 < s.clock then
        (s.modSec fun x => { x with former := x.former ++ [o] }).giveOwner h
      else s.answer .refused)

end Sys2Proof.Machine
end

