-- ==== Sys2Proof/Machine/Fabric.lean ====
section
/-! DEFINITION. Translation stations (R172, R173), sealed links (R355, R365, R366), collective groups (R367, R368), the
power governor (R370, R371), module numbers and module reset (R366, R373). -/
namespace Sys2Proof.Machine
open Sys2Proof

/-! ### Translation stations -/

/-- A leaf enters a station's cache of 4,096; the oldest leaves a full one. -/
def cacheLeaf (l : List Leaf) (x : Leaf) : List Leaf :=
  let same := l.filter fun y => y.station == x.station
  let l1 := if same.length < 4096 then l else match same.head? with | some y => l.erase y | none => l
  l1 ++ [x]

/-- The i-th walk completes: what it found is cached, or each merged request has faulted with it (R172). -/
def execTranslationWalkDone (i : Nat) (s : State) : Out :=
  .next (
    match s.misses[i]? with
    | none => s
    | some m =>
      let s1 : State := { s with misses := s.misses.eraseIdx i }
      match m.found with
      | .inl _ => s1
      | .inr (e, bits) => { s1 with leaves := cacheLeaf s1.leaves ⟨m.station, m.cid, m.page * 65536 / 2 ^ bits, bits, e⟩ })

/-- Whether two requests are for one walk. -/
def Miss.same (m n : Miss) : Bool := m.station == n.station && m.cid == n.cid && m.page == n.page

/-- The first held request whose station has room joins a walk of its page, or starts one, which corrects the entries it reads
(R165). -/
def execTranslationRetry (s : State) : Out :=
  let room (m : Miss) : Bool :=
    s.misses.any m.same || decide ((s.misses.filter fun n => n.station == m.station).length < 512)
  .next (
    match s.heldMisses.find? room with
    | none => s
    | some m =>
      let s1 := { s with heldMisses := s.heldMisses.erase m }
      if s.misses.any m.same then s1
      else { s1 with misses := s.misses ++ [s.walkNow m] }.correct (s.walkKeys m.cid (m.page * 65536)))

/-- Every station drops a leaf; the context's walks in flight deliver what stands in its tables now (R173). -/
def execStationInvalidate (cid va : Nat) (s : State) : Out :=
  let kept := s.leaves.filter fun l => !(l.cid == cid && l.page == va / 2 ^ l.bits)
  .next (({ s with leaves := kept } : State).rewalk cid)

/-! ### Links -/

/-- Batches cross a link in both directions: how many since its last event is a free value. The link rekeys, and a counter
starts again, before it could wrap (R355). -/
def Link.carry (l : Link) (sent got : Nat) : Link :=
  { l with
    sent := if l.sent + sent < 2 ^ 64 then l.sent + sent else sent % 2 ^ 64
    got := if l.got + got < 2 ^ 64 then l.got + got else got % 2 ^ 64 }

def State.carry (s : State) (n : Nat) : State :=
  let (s1, a) := s.draw
  let (s2, b) := s1.draw
  s2.modSec fun x => x.putLink ((x.link n).carry (Config.freeNat a) (Config.freeNat b))

/-- A link has a new key, and its counters start again (R355). -/
def execLinkRekey (link : Nat) (s : State) : Out :=
  .next (s.modSec fun x => x.putLink { x.link link with keyed := true, sent := 0, got := 0 })

/-- A batch fails its tag: it is dropped and sent again; the eighth failure within 1 s is a tamper event (R355, R360). -/
def execSealTagFail (link : Nat) (s : State) : Out :=
  let recent := (s.sec.link link).fails.filter (fun t => decide (s.clock ≤ t + 2000000000)) ++ [s.clock]
  let note (l : List Nat) : State := (s.carry link).modSec fun x => x.putLink { x.link link with fails := l }
  .next (if recent.length < 8 then note recent else (note []).tamper 3)

/-- A UCIe link sends again from its replay buffer (R365): programs see only latency. Whether it recovers within 10 microseconds
is a free value; one that does not is listed from its first error on. -/
def State.linkError (s : State) (l : Nat) : State :=
  let (s1, n) := (s.carry l).draw
  if Config.freeBit n then { s1 with recovering := s1.recovering.filter fun e => e.1 != l }
  else if s1.recovering.any fun e => e.1 == l then s1
  else { s1 with recovering := assign s1.recovering l s1.clock }

def execUcieLinkError (link : Nat) (s : State) : Out := .next (if link < 52 then s.linkError link else s)

/-- A Causeway port, numbered after the UCIe links, sends a flit again until its CRC holds (R366). -/
def execCausewayCrcFail (port : Nat) (s : State) : Out := .next (if port < 8 then s.carry (52 + port) else s)

/-! ### Reset (R373) -/

/-- The number of a part of R345. -/
def partCode : FwPart → Nat
  | .security => 0 | .deckle => 1 | .headbox => 2 | .slice => 3 | .management => 4

/-- The security core's store outlives a reset; all that was ASSIGNED is DIRTY, and so are the spill areas, which were the monitor's;
the scrub starts (R340, R353, R373). The firmware is verified and measured as it boots: of a part whose image is below the fused
version another boots, which passes it; its measurement is a free value (R345, R356, R359). -/
def Security.afterReset (x : Security) (spill : List Thing) : Security :=
  let old (p : FwPart) : Bool := x.versions.any fun e => e.1 == p && decide (e.2 < x.fuses)
  let dirty := x.owned.map (·.1) ++ spill.filter fun t => !x.owned.any fun e => e.1 == t
  { Security.reset with
    owned := dirty.map fun t => (t, .dirty)
    fuses := x.fuses, sigIndex := x.sigIndex, seedErased := x.seedErased
    measured := x.measured.map fun e => if old e.1 then (e.1, Config.passingDigest (partCode e.1) x.fuses) else e
    versions := x.versions.map fun e => (e.1, max e.2 x.fuses)
    events := (x.versions.filter fun e => old e.1).map fun r => ⟨0, 6, nat64 r.2⟩
    boot := !dirty.isEmpty }

/-- The granules of every spill area (R340). -/
def State.spillGranules (s : State) : List Thing :=
  (s.slots.toList.map fun w => match w.area with | some b => granules b 2097152 | none => []).flatten

/-- A module reset: fuses and the always-on store stay; the cores wait to be released. The bytes of the strata and of HBM are
undefined: free values; host memory and the peer windows are not the module's. What numbers free values and operations is the
model's own and goes on. -/
def State.moduleReset (s : State) : State :=
  let old := s.scramble fun a => inHbm a || decide (2 ^ 52 ≤ a)
  let r : State := { State.reset with
    mem := old.mem, poison := s.poison, singles := s.singles, freeCount := old.freeCount, nextId := s.nextId
    agenda := s.agenda, sec := s.sec.afterReset s.spillGranules }
  if r.sec.boot then (r.startScrub (r.sec.owned.map (·.1))).endScrub else r

def execModuleReset (s : State) : Out := .next s.moduleReset

/-- A UCIe link that has not recovered within 10 microseconds forces a module reset (R365). -/
def execLinkRecoveryTimeout (link : Nat) (s : State) : Out :=
  .next (
    match s.recovering.find? fun e => e.1 == link with
    | some e => if link < 52 ∧ e.2 + 20000 ≤ s.clock then s.moduleReset else s
    | none => s)

/-- A route leads through one of the eight ports and at most three other modules (R366). -/
def ModuleRoute.ok (r : ModuleRoute) : Bool :=
  decide (r.dest < 256 ∧ r.port < 8 ∧ r.via.length ≤ 3) && r.via.all fun m => decide (m < 256) && m != r.dest

/-- Management gives the module its number and its route table, one route to a module (R366). -/
def execModuleNumberAssign (n : Nat) (routes : List ModuleRoute) (s : State) : Out :=
  .next (if n < 256 ∧ routes.all ModuleRoute.ok ∧ (routes.map (·.dest)).Nodup then { s with moduleNumber := n, routes := routes }
    else s)

/-! ### Collective groups -/

def execGroupForm (g : Nat) (members : List Nat) (primary : Nat) (terms : GroupTerms) (s : State) : Out :=
  .next (if g < 256 ∧ 2 ≤ members.length ∧ members.length ≤ 64 ∧ members.Nodup ∧ members.contains primary
      ∧ members.all (fun m => decide (m < 256)) ∧ !(s.groups.any fun x => x.g == g) then
      { s with groups := s.groups ++
          [⟨g, members.map fun m => (m, .attesting), primary, terms.policy, terms.slots, [], []⟩] }
    else s)

/-- A member that attests anew or is lost: none of its pairs is verified, and its Causeway keys for the group are not set (R367). -/
def Group.setMember (x : Group) (m : Nat) (st : MemberState) : Group :=
  { x with
    members := x.members.map fun e => if e.1 = m then (e.1, st) else e
    pairs := x.pairs.filter fun p => p.1 != m && p.2 != m
    keyed := x.keyed.filter (· != m) }

/-- A report against a group's policy: every part's measurement is acceptable (R367). -/
def Group.accepts (x : Group) (measured : List (FwPart × Nat)) : Bool :=
  [FwPart.security, .deckle, .headbox, .slice, .management].all (fun p => measured.any fun e => e.1 == p) &&
    measured.all fun e => x.policy.accept.contains e

/-- Whether a member and every other that is not LOST have verified each other's reports (R367). -/
def Group.paired (x : Group) (m : Nat) : Bool :=
  x.members.all fun e => e.1 == m || e.2 == .lost || (x.pairs.contains (e.1, m) && x.pairs.contains (m, e.1))

/-- The members whose pairs are all verified are ACTIVE, with their Causeway keys set. -/
def Group.settle (x : Group) : Group :=
  let now := (x.members.filter fun e => e.2 == .attesting && x.paired e.1).map (·.1)
  { x with
    members := x.members.map fun e => if now.contains e.1 then (e.1, .active) else e
    keyed := x.keyed ++ now }

/-- One member has checked another's report (R367): if the policy admits it the pair counts; a LOST member attests again only by a
report made since its reset, and with measurements outside the policy it stays outside the group. -/
def Group.verify (x : Group) (r : MemberReport) : Group :=
  if !x.accepts r.measured ∨ r.checker = r.member ∨ !(x.members.any fun e => e.1 == r.checker) then x
  else
    match x.members.find? fun e => e.1 == r.member with
    | none => x
    | some (_, .lost) =>
      if !r.reset then x
      else
        let y := x.setMember r.member .attesting
        { y with pairs := (r.checker, r.member) :: y.pairs }.settle
    | some _ => { x with pairs := (r.checker, r.member) :: x.pairs.filter (· != (r.checker, r.member)) }.settle

/-- The granted slots that a group joins once all of its members are ACTIVE (R267, R367). -/
def State.joinSlots (s : State) : State :=
  { s with slots := Vector.ofFn fun sl =>
      let w := s.wslot sl
      if w.granted.isSome ∧ w.joined = none then { w with joined := s.joinedGroup sl } else w }

/-- A pair of members: one has verified the other's report. A member is ACTIVE once every pair has (R367). -/
def execMemberVerified (g : Nat) (r : MemberReport) (s : State) : Out :=
  .next ({ s with groups := modWhere (fun x => x.g == g) (fun x => x.verify r) s.groups } : State).joinSlots

/-- The joined slots of a group close at once: their records are discarded, and the tasks that run count no longer (R368). -/
def State.closeJoined (s : State) (g : Nat) : State :=
  (List.finRange 16).foldl (fun (u : State) sl =>
    if (u.wslot sl).joined = some g then
      { u with records := u.records.filter fun r => r.slot != sl }.modSlot sl fun w =>
        { w with phase := 0, queued := 0, running := 0, spill := [], lost := true, orphans := u.tasksOf sl }
    else u) s

/-- Whether a byte lies in a module's window. -/
def inWindowOf (m pa : Nat) : Bool := decide (0xC000000000000 ≤ pa ∧ pa < 2 ^ 52) && pa / 2 ^ 42 % 256 == m

/-- A load that was sent to a member before it was lost faults when it arrives, whatever has become of the member since (R368). -/
def Op.loses (m g : Nat) (o : Op) : Op :=
  match o.body with
  | .strong _ _ _ _ ks _ => if ks.any (inWindowOf m) then { o with phase := .moved .peerlost 0 (nat64 g) } else o
  | _ => o

def execMemberLost (g m : Nat) (s : State) : Out :=
  .next (if s.groups.any (fun x => x.g == g && x.members.any fun e => e.1 == m && e.2 != .lost) then
      { s with
        groups := modWhere (fun x => x.g == g) (fun x => x.setMember m .lost) s.groups
        ops := s.ops.map (Op.loses m g) }.closeJoined g
    else s)

/-! ### The power governor -/

def State.level (s : State) (c : Fin 8) : Nat := (s.throttle.get c).val

/-- Lowers the issue rate of one class by a sixteenth: the first of the list without a LATENCY gang that can be lowered,
else the first that can. -/
def State.throttleOne (s : State) (l latency : List (Fin 8)) : State :=
  let can := l.filter fun c => s.level c < 15
  match (can.find? fun c => !latency.contains c).or can.head? with
  | some c => { s with throttle := s.throttle.set c (s.throttle.get c + 1) }
  | none => s

/-- A sample (R370): above the limit the class farthest above its share is lowered; 100 microseconds below it, every
class rises by a step; classes of a hot die are lowered in the same way. -/
def execGovernorSample (p : PowerSample) (s : State) : Out :=
  let s1 : State :=
    if p.overLimit then { s.throttleOne p.order p.latency with belowSince := none }
    else
      match s.belowSince with
      | none => { s with belowSince := some s.clock }
      | some t =>
        if t + 200000 ≤ s.clock then
          { s with throttle := Vector.ofFn fun c =>
              if p.hot.contains c ∨ s.throttle.get c = 0 then s.throttle.get c else s.throttle.get c - 1 }
        else s
  .next (s1.throttleOne p.hot p.latency)

end Sys2Proof.Machine
end

