-- ==== Sys2Proof/Machine/Scalar.lean ====
section
/-! DEFINITION. Integer arithmetic, constants, predicates and selection (R44 to R53), and the 16-bit scalar operations
that have no operand form of their own (R39, R40). -/
namespace Sys2Proof.Machine
open Sys2Proof

/-- Writes xd and retires an instruction of n bytes. -/
def State.writeX (s : State) (n : Word) (d : XReg) (v : Word) : Out := .next ((s.wx d v).retire n)

/-- Writes pd and retires. -/
def State.writeP (s : State) (d : PReg) (v : Bool) : Out := .next ((s.wp d v).retire 4)

def boolWord (b : Bool) : Word := if b then 1 else 0

/-- The shift amount b[5:0] (R47). -/
def shamt (b : Word) : Nat := b.toNat % 64

/-- The high half of the product of two signed or unsigned values (R47). -/
def mulHigh (signed : Bool) (a b : Word) : Word :=
  if signed then BitVec.ofInt 64 (a.toInt * b.toInt / 2 ^ 64) else nat64 (a.toNat * b.toNat / 2 ^ 64)

/-- Quotient and remainder of R48, and whether DZ is set. -/
def divide (signed : Bool) (a b : Word) : Word × Word × Bool :=
  if b = 0 then (0, a, true)
  else if signed then (BitVec.ofInt 64 (a.toInt.tdiv b.toInt), BitVec.ofInt 64 (a.toInt.tmod b.toInt), false)
  else (nat64 (a.toNat / b.toNat), nat64 (a.toNat % b.toNat), false)

/-- A division that writes its quotient or its remainder (R48). -/
def State.divideInto (s : State) (signed rem : Bool) (d a b : XReg) : Out :=
  let (q, r, dz) := divide signed (s.rx a) (s.rx b)
  let s1 := if dz then s.orFlags flDZ else s
  s1.writeX 4 d (if rem then r else q)

/-- Leading zero bits of the low n bits of a value. -/
def leadingZeros (v : Nat) : Nat → Nat
  | 0 => 0
  | n + 1 => if v / 2 ^ n % 2 = 1 then 0 else leadingZeros v n + 1

/-- Trailing zero bits, n bits looked at. -/
def trailingZeros (v : Nat) : Nat → Nat
  | 0 => 0
  | n + 1 => if v % 2 = 1 then 0 else trailingZeros (v / 2) n + 1

/-- One bits among the low n. -/
def popCount (v : Nat) : Nat → Nat
  | 0 => 0
  | n + 1 => v % 2 + popCount (v / 2) n

def execAdd (d a b : XReg) (s : State) : Out := s.writeX 4 d (s.rx a + s.rx b)
def execSub (d a b : XReg) (s : State) : Out := s.writeX 4 d (s.rx a - s.rx b)
def execAnd (d a b : XReg) (s : State) : Out := s.writeX 4 d (s.rx a &&& s.rx b)
def execOr (d a b : XReg) (s : State) : Out := s.writeX 4 d (s.rx a ||| s.rx b)
def execXor (d a b : XReg) (s : State) : Out := s.writeX 4 d (s.rx a ^^^ s.rx b)
def execSll (d a b : XReg) (s : State) : Out := s.writeX 4 d (s.rx a <<< shamt (s.rx b))
def execSrl (d a b : XReg) (s : State) : Out := s.writeX 4 d (s.rx a >>> shamt (s.rx b))
def execSra (d a b : XReg) (s : State) : Out := s.writeX 4 d ((s.rx a).sshiftRight (shamt (s.rx b)))
def execSlt (d a b : XReg) (s : State) : Out := s.writeX 4 d (boolWord ((s.rx a).slt (s.rx b)))
def execSltu (d a b : XReg) (s : State) : Out := s.writeX 4 d (boolWord ((s.rx a).ult (s.rx b)))
def execMin (d a b : XReg) (s : State) : Out :=
  s.writeX 4 d (if (s.rx b).slt (s.rx a) then s.rx b else s.rx a)
def execMax (d a b : XReg) (s : State) : Out :=
  s.writeX 4 d (if (s.rx a).slt (s.rx b) then s.rx b else s.rx a)
def execMinu (d a b : XReg) (s : State) : Out :=
  s.writeX 4 d (if (s.rx b).ult (s.rx a) then s.rx b else s.rx a)
def execMaxu (d a b : XReg) (s : State) : Out :=
  s.writeX 4 d (if (s.rx a).ult (s.rx b) then s.rx b else s.rx a)
def execMul (d a b : XReg) (s : State) : Out := s.writeX 4 d (s.rx a * s.rx b)
def execMulh (d a b : XReg) (s : State) : Out := s.writeX 4 d (mulHigh true (s.rx a) (s.rx b))
def execMulhu (d a b : XReg) (s : State) : Out := s.writeX 4 d (mulHigh false (s.rx a) (s.rx b))
def execDiv (d a b : XReg) (s : State) : Out := s.divideInto true false d a b
def execDivu (d a b : XReg) (s : State) : Out := s.divideInto false false d a b
def execRem (d a b : XReg) (s : State) : Out := s.divideInto true true d a b
def execRemu (d a b : XReg) (s : State) : Out := s.divideInto false true d a b
def execClz (d a : XReg) (s : State) : Out := s.writeX 4 d (nat64 (leadingZeros (s.rx a).toNat 64))
def execCtz (d a : XReg) (s : State) : Out := s.writeX 4 d (nat64 (trailingZeros (s.rx a).toNat 64))
def execPopc (d a : XReg) (s : State) : Out := s.writeX 4 d (nat64 (popCount (s.rx a).toNat 64))
def execRol (d a b : XReg) (s : State) : Out := s.writeX 4 d ((s.rx a).rotateLeft (shamt (s.rx b)))
def execRor (d a b : XReg) (s : State) : Out := s.writeX 4 d ((s.rx a).rotateRight (shamt (s.rx b)))

def execAddi (d a : XReg) (imm : BitVec 12) (s : State) : Out := s.writeX 4 d (s.rx a + imm12 imm)
def execAndi (d a : XReg) (imm : BitVec 12) (s : State) : Out := s.writeX 4 d (s.rx a &&& imm12 imm)
def execOri (d a : XReg) (imm : BitVec 12) (s : State) : Out := s.writeX 4 d (s.rx a ||| imm12 imm)
def execXori (d a : XReg) (imm : BitVec 12) (s : State) : Out := s.writeX 4 d (s.rx a ^^^ imm12 imm)
def execSlli (d a : XReg) (sh : BitVec 6) (s : State) : Out := s.writeX 4 d (s.rx a <<< sh.toNat)
def execSrli (d a : XReg) (sh : BitVec 6) (s : State) : Out := s.writeX 4 d (s.rx a >>> sh.toNat)
def execSrai (d a : XReg) (sh : BitVec 6) (s : State) : Out := s.writeX 4 d ((s.rx a).sshiftRight sh.toNat)
def execSlti (d a : XReg) (imm : BitVec 12) (s : State) : Out :=
  s.writeX 4 d (boolWord ((s.rx a).slt (imm12 imm)))
def execSltiu (d a : XReg) (imm : BitVec 12) (s : State) : Out :=
  s.writeX 4 d (boolWord ((s.rx a).ult (imm12 imm)))
def execLih (d : XReg) (imm : BitVec 20) (s : State) : Out := s.writeX 4 d (upper imm)
def execAddpc (d : XReg) (imm : BitVec 20) (s : State) : Out := s.writeX 4 d (s.core.pc + upper imm)

def execCmpEq (p : PReg) (a b : XReg) (s : State) : Out := s.writeP p (s.rx a == s.rx b)
def execCmpNe (p : PReg) (a b : XReg) (s : State) : Out := s.writeP p (s.rx a != s.rx b)
def execCmpLt (p : PReg) (a b : XReg) (s : State) : Out := s.writeP p ((s.rx a).slt (s.rx b))
def execCmpGe (p : PReg) (a b : XReg) (s : State) : Out := s.writeP p (!(s.rx a).slt (s.rx b))
def execCmpLtu (p : PReg) (a b : XReg) (s : State) : Out := s.writeP p ((s.rx a).ult (s.rx b))
def execCmpGeu (p : PReg) (a b : XReg) (s : State) : Out := s.writeP p (!(s.rx a).ult (s.rx b))
def execCmpiEq (p : PReg) (a : XReg) (imm : BitVec 12) (s : State) : Out := s.writeP p (s.rx a == imm12 imm)
def execCmpiNe (p : PReg) (a : XReg) (imm : BitVec 12) (s : State) : Out := s.writeP p (s.rx a != imm12 imm)
def execCmpiLt (p : PReg) (a : XReg) (imm : BitVec 12) (s : State) : Out := s.writeP p ((s.rx a).slt (imm12 imm))
def execCmpiGe (p : PReg) (a : XReg) (imm : BitVec 12) (s : State) : Out := s.writeP p (!(s.rx a).slt (imm12 imm))
def execCmpiLtu (p : PReg) (a : XReg) (imm : BitVec 12) (s : State) : Out := s.writeP p ((s.rx a).ult (imm12 imm))
def execCmpiGeu (p : PReg) (a : XReg) (imm : BitVec 12) (s : State) : Out := s.writeP p (!(s.rx a).ult (imm12 imm))

def execPand (d a b : PReg) (s : State) : Out := s.writeP d (s.rp a && s.rp b)
def execPor (d a b : PReg) (s : State) : Out := s.writeP d (s.rp a || s.rp b)
def execPxor (d a b : PReg) (s : State) : Out := s.writeP d (s.rp a != s.rp b)
def execPnot (d a : PReg) (s : State) : Out := s.writeP d (!s.rp a)
def execPmov (d a : PReg) (s : State) : Out := s.writeP d (s.rp a)
def execMovp (d : XReg) (a : PReg) (s : State) : Out := s.writeX 4 d (boolWord (s.rp a))
def execSetp (d : PReg) (a : XReg) (s : State) : Out := s.writeP d (s.rx a != 0)
def execSel (g : Guard) (d a b : XReg) (s : State) : Out :=
  s.writeX 4 d (if s.core.cond g then s.rx a else s.rx b)

def execHMov (d b : XReg) (s : State) : Out := s.writeX 2 d (s.rx b)
def execHAdd (d b : XReg) (s : State) : Out := s.writeX 2 d (s.rx d + s.rx b)
def execHSub (d b : XReg) (s : State) : Out := s.writeX 2 d (s.rx d - s.rx b)
def execHAnd (d b : XReg) (s : State) : Out := s.writeX 2 d (s.rx d &&& s.rx b)
def execHOr (d b : XReg) (s : State) : Out := s.writeX 2 d (s.rx d ||| s.rx b)
def execHXor (d b : XReg) (s : State) : Out := s.writeX 2 d (s.rx d ^^^ s.rx b)
def execHAddi (d : XReg) (imm : BitVec 5) (s : State) : Out := s.writeX 2 d (s.rx d + imm.signExtend 64)
def execHLi (d : XReg) (imm : BitVec 5) (s : State) : Out := s.writeX 2 d (imm.signExtend 64)
def execHSlli (d : XReg) (sh : BitVec 5) (s : State) : Out := s.writeX 2 d (s.rx d <<< sh.toNat)
def execHSrli (d : XReg) (sh : BitVec 5) (s : State) : Out := s.writeX 2 d (s.rx d >>> sh.toNat)
def execHSrai (d : XReg) (sh : BitVec 5) (s : State) : Out := s.writeX 2 d ((s.rx d).sshiftRight sh.toNat)
def execHMul (d b : XReg) (s : State) : Out := s.writeX 2 d (s.rx d * s.rx b)
def execHNeg (d b : XReg) (s : State) : Out := s.writeX 2 d (0 - s.rx b)

end Sys2Proof.Machine
end

