-- ==== Sys2Proof/Machine/VectorArith.lean ====
section
/-! DEFINITION. Vector arithmetic and compares (R96 to R100) and the 16-bit vector forms of it (R41, R113). -/
namespace Sys2Proof.Machine
open Sys2Proof

/-- The first operand that fails its check, counted in the order vd, va, vb, gives the reported tag (R93). -/
def badTag (checks : List (Bool × Fmt)) : Option Word :=
  (checks.find? fun c => !c.1).map fun c => nat64 (fmtNum c.2)

/-- The value and flags of every active lane below n (R97). -/
def Core.laneResults (c : Core) (k : KReg) (n : Nat) (op : Nat → Nat × Word) : List (Nat × Nat × Word) :=
  ((List.range n).filter fun i => c.active k n i).map fun i => (i, op i)

/-- Writes lane results over a register's bits (R91). -/
def writeLanes (v : BitVec 256) (w : Nat) (l : List (Nat × Nat × Word)) : BitVec 256 :=
  l.foldl (fun acc r => setLane acc w r.1 r.2.1) v

/-- The frame of R97, for an instruction of n bytes: op takes the format and the lanes of va, vb and vd. -/
def State.vop (s : State) (len : Word) (k : KReg) (d a b : VReg) (checks : List (Bool × Fmt))
    (op : Fmt → Nat → Nat → Nat → Nat × Word) : Out :=
  match badTag checks with
  | some t => s.fault .format t
  | none =>
    let c := s.core
    let f := (c.rv a).tag
    let w := lanewidth f
    let rs := c.laneResults k (c.effLen f) fun i =>
      op f (getLane (c.rv a).bits w i) (getLane (c.rv b).bits w i) (getLane (c.rv d).bits w i)
    let v : VecReg := ⟨writeLanes (c.rv d).bits w rs, f⟩
    .next (((s.wv d v).orFlags (orAll (rs.map (·.2.2)))).retire len)

def admitArith (f : Fmt) : Bool := isInt f || isFpa f

/-- Checks of a two-operand instruction: va in its class, vb tagged like va. -/
def Core.twoChecks (c : Core) (okTag : Fmt → Bool) (a b : VReg) : List (Bool × Fmt) :=
  let f := (c.rv a).tag
  [(okTag f, f), ((c.rv b).tag == f, (c.rv b).tag)]

/-- Checks of an instruction whose vd is an operand too. -/
def Core.threeChecks (c : Core) (okTag : Fmt → Bool) (d a b : VReg) : List (Bool × Fmt) :=
  ((c.rv d).tag == (c.rv a).tag, (c.rv d).tag) :: c.twoChecks okTag a b

def Core.oneCheck (c : Core) (okTag : Fmt → Bool) (a : VReg) : List (Bool × Fmt) :=
  [(okTag (c.rv a).tag, (c.rv a).tag)]

/-- An exact integer result taken modulo 2^w, without flags. -/
def wrapped (f : Fmt) (v : Int) : Nat × Word := (wrapInt (lanewidth f) v, 0)

def sgn (f : Fmt) (v : Nat) : Int := signedOf (lanewidth f) v

/-! ### Lane operations (R98, R99) -/

def laneAdd (rm : Rm) (f : Fmt) (x y _z : Nat) : Nat × Word :=
  match fpFmt f with
  | some g => g.deliver rm (addNum rm (g.decode x) (g.decode y))
  | none => wrapped f (sgn f x + sgn f y)

def laneSub (rm : Rm) (f : Fmt) (x y _z : Nat) : Nat × Word :=
  match fpFmt f with
  | some g => g.deliver rm (addNum rm (g.decode x) (g.decode y).negate)
  | none => wrapped f (sgn f x - sgn f y)

def laneMul (rm : Rm) (f : Fmt) (x y _z : Nat) : Nat × Word :=
  match fpFmt f with
  | some g => g.deliver rm (mulNum (g.decode x) (g.decode y))
  | none => wrapped f (sgn f x * sgn f y)

/-- VFMA, VFMS and VFNMA: the product or the addend negated. -/
def laneFma (negProd negAdd : Bool) (rm : Rm) (f : Fmt) (x y z : Nat) : Nat × Word :=
  match fpFmt f with
  | some g =>
    let a := g.decode x
    let d := g.decode z
    g.deliver rm (fmaNum rm (if negProd then a.negate else a) (g.decode y) (if negAdd then d.negate else d))
  | none =>
    let p := sgn f x * sgn f y
    wrapped f ((if negProd then -p else p) + (if negAdd then -sgn f z else sgn f z))

def laneMinMax (max : Bool) (f : Fmt) (x y _z : Nat) : Nat × Word :=
  match fpFmt f with
  | some g => g.minMax max x y
  | none => (if max then (if sgn f x < sgn f y then y else x) else (if sgn f y < sgn f x then y else x), 0)

def laneMinu (_f : Fmt) (x y _z : Nat) : Nat × Word := (if y < x then y else x, 0)
def laneMaxu (_f : Fmt) (x y _z : Nat) : Nat × Word := (if x < y then y else x, 0)

def laneAbs (f : Fmt) (x _y _z : Nat) : Nat × Word :=
  match fpFmt f with
  | some g =>
    match g.decode x with
    | .nan sig => (g.canonNaN, nvIf sig)
    | _ => (x % 2 ^ (g.p + g.ebits), 0)
  | none => wrapped f (if sgn f x < 0 then -sgn f x else sgn f x)

def laneNeg (f : Fmt) (x _y _z : Nat) : Nat × Word :=
  match fpFmt f with
  | some g =>
    match g.decode x with
    | .nan sig => (g.canonNaN, nvIf sig)
    | _ => ((x + 2 ^ (g.p + g.ebits)) % 2 ^ (g.p + g.ebits + 1), 0)
  | none => wrapped f (-sgn f x)

def laneAnd (_f : Fmt) (x y _z : Nat) : Nat × Word := (x &&& y, 0)
def laneOr (_f : Fmt) (x y _z : Nat) : Nat × Word := (x ||| y, 0)
def laneXor (_f : Fmt) (x y _z : Nat) : Nat × Word := (x ^^^ y, 0)
def laneNot (f : Fmt) (x _y _z : Nat) : Nat × Word := (2 ^ lanewidth f - 1 - x, 0)
def laneSll (f : Fmt) (x y _z : Nat) : Nat × Word := (x * 2 ^ (y % lanewidth f) % 2 ^ lanewidth f, 0)
def laneSrl (f : Fmt) (x y _z : Nat) : Nat × Word := (x / 2 ^ (y % lanewidth f), 0)
def laneSra (f : Fmt) (x y _z : Nat) : Nat × Word := wrapped f (sgn f x / 2 ^ (y % lanewidth f))
def laneAdds (f : Fmt) (x y _z : Nat) : Nat × Word := ((satInt (lanewidth f) (sgn f x + sgn f y)).1, 0)
def laneSubs (f : Fmt) (x y _z : Nat) : Nat × Word := ((satInt (lanewidth f) (sgn f x - sgn f y)).1, 0)

def laneDiv (rm : Rm) (f : Fmt) (x y _z : Nat) : Nat × Word :=
  match fpFmt f with
  | some g => g.deliver rm (divNum (g.decode x) (g.decode y))
  | none => if y = 0 then (0, flDZ) else wrapped f ((sgn f x).tdiv (sgn f y))

def laneSqrt (rm : Rm) (f : Fmt) (x _y _z : Nat) : Nat × Word :=
  match fpFmt f with
  | some g => g.deliver rm (sqrtNum (g.decode x))
  | none => (x, 0)

/-! ### The instructions -/

def execVadd (k : KReg) (d a b : VReg) (s : State) : Out :=
  s.vop 4 k d a b (s.core.twoChecks admitArith a b) (laneAdd s.core.rm)
def execVsub (k : KReg) (d a b : VReg) (s : State) : Out :=
  s.vop 4 k d a b (s.core.twoChecks admitArith a b) (laneSub s.core.rm)
def execVmul (k : KReg) (d a b : VReg) (s : State) : Out :=
  s.vop 4 k d a b (s.core.twoChecks admitArith a b) (laneMul s.core.rm)
def execVfma (k : KReg) (d a b : VReg) (s : State) : Out :=
  s.vop 4 k d a b (s.core.threeChecks admitArith d a b) (laneFma false false s.core.rm)
def execVfms (k : KReg) (d a b : VReg) (s : State) : Out :=
  s.vop 4 k d a b (s.core.threeChecks admitArith d a b) (laneFma false true s.core.rm)
def execVfnma (k : KReg) (d a b : VReg) (s : State) : Out :=
  s.vop 4 k d a b (s.core.threeChecks admitArith d a b) (laneFma true false s.core.rm)
def execVmin (k : KReg) (d a b : VReg) (s : State) : Out :=
  s.vop 4 k d a b (s.core.twoChecks admitArith a b) (laneMinMax false)
def execVmax (k : KReg) (d a b : VReg) (s : State) : Out :=
  s.vop 4 k d a b (s.core.twoChecks admitArith a b) (laneMinMax true)
def execVminu (k : KReg) (d a b : VReg) (s : State) : Out :=
  s.vop 4 k d a b (s.core.twoChecks isInt a b) laneMinu
def execVmaxu (k : KReg) (d a b : VReg) (s : State) : Out :=
  s.vop 4 k d a b (s.core.twoChecks isInt a b) laneMaxu
def execVabs (k : KReg) (d a : VReg) (s : State) : Out :=
  s.vop 4 k d a a (s.core.oneCheck admitArith a) laneAbs
def execVneg (k : KReg) (d a : VReg) (s : State) : Out :=
  s.vop 4 k d a a (s.core.oneCheck admitArith a) laneNeg
def execVand (k : KReg) (d a b : VReg) (s : State) : Out := s.vop 4 k d a b (s.core.twoChecks isInt a b) laneAnd
def execVor (k : KReg) (d a b : VReg) (s : State) : Out := s.vop 4 k d a b (s.core.twoChecks isInt a b) laneOr
def execVxor (k : KReg) (d a b : VReg) (s : State) : Out := s.vop 4 k d a b (s.core.twoChecks isInt a b) laneXor
def execVnot (k : KReg) (d a : VReg) (s : State) : Out := s.vop 4 k d a a (s.core.oneCheck isInt a) laneNot
def execVsll (k : KReg) (d a b : VReg) (s : State) : Out := s.vop 4 k d a b (s.core.twoChecks isInt a b) laneSll
def execVsrl (k : KReg) (d a b : VReg) (s : State) : Out := s.vop 4 k d a b (s.core.twoChecks isInt a b) laneSrl
def execVsra (k : KReg) (d a b : VReg) (s : State) : Out := s.vop 4 k d a b (s.core.twoChecks isInt a b) laneSra
def execVadds (k : KReg) (d a b : VReg) (s : State) : Out := s.vop 4 k d a b (s.core.twoChecks isInt a b) laneAdds
def execVsubs (k : KReg) (d a b : VReg) (s : State) : Out := s.vop 4 k d a b (s.core.twoChecks isInt a b) laneSubs
def execVdiv (k : KReg) (d a b : VReg) (s : State) : Out :=
  s.vop 4 k d a b (s.core.twoChecks admitArith a b) (laneDiv s.core.rm)
def execVsqrt (k : KReg) (d a : VReg) (s : State) : Out :=
  s.vop 4 k d a a (s.core.oneCheck isFpa a) (laneSqrt s.core.rm)

def execHVadd (d b : VReg) (s : State) : Out :=
  s.vop 2 0 d d b (s.core.twoChecks admitArith d b) (laneAdd s.core.rm)
def execHVsub (d b : VReg) (s : State) : Out :=
  s.vop 2 0 d d b (s.core.twoChecks admitArith d b) (laneSub s.core.rm)
def execHVmul (d b : VReg) (s : State) : Out :=
  s.vop 2 0 d d b (s.core.twoChecks admitArith d b) (laneMul s.core.rm)
def execHVmin (d b : VReg) (s : State) : Out :=
  s.vop 2 0 d d b (s.core.twoChecks admitArith d b) (laneMinMax false)
def execHVmax (d b : VReg) (s : State) : Out :=
  s.vop 2 0 d d b (s.core.twoChecks admitArith d b) (laneMinMax true)
def execHVminu (d b : VReg) (s : State) : Out := s.vop 2 0 d d b (s.core.twoChecks isInt d b) laneMinu
def execHVmaxu (d b : VReg) (s : State) : Out := s.vop 2 0 d d b (s.core.twoChecks isInt d b) laneMaxu
def execHVand (d b : VReg) (s : State) : Out := s.vop 2 0 d d b (s.core.twoChecks isInt d b) laneAnd
def execHVor (d b : VReg) (s : State) : Out := s.vop 2 0 d d b (s.core.twoChecks isInt d b) laneOr
def execHVxor (d b : VReg) (s : State) : Out := s.vop 2 0 d d b (s.core.twoChecks isInt d b) laneXor
def execHVsll (d b : VReg) (s : State) : Out := s.vop 2 0 d d b (s.core.twoChecks isInt d b) laneSll
def execHVsrl (d b : VReg) (s : State) : Out := s.vop 2 0 d d b (s.core.twoChecks isInt d b) laneSrl
def execHVsra (d b : VReg) (s : State) : Out := s.vop 2 0 d d b (s.core.twoChecks isInt d b) laneSra
def execHVadds (d b : VReg) (s : State) : Out := s.vop 2 0 d d b (s.core.twoChecks isInt d b) laneAdds
def execHVsubs (d b : VReg) (s : State) : Out := s.vop 2 0 d d b (s.core.twoChecks isInt d b) laneSubs

/-! ### Compares (R100) -/

inductive Cmp where
  | eq | ne | lt | ge | ltu | geu
  deriving DecidableEq, Repr

/-- One lane's compare and its flag. -/
def laneCmp (cc : Cmp) (f : Fmt) (x y : Nat) : Bool × Word :=
  match fpFmt f with
  | some g =>
    let a := g.decode x
    let b := g.decode y
    if a.isNaN || b.isNaN then
      (cc == .ne, nvIf (a.isSig || b.isSig || cc == .lt || cc == .ge))
    else
      (match cc with
        | .eq => !a.lt b && !b.lt a
        | .ne => a.lt b || b.lt a
        | .lt => a.lt b
        | .ge => !a.lt b
        | .ltu => a.lt b
        | .geu => !a.lt b, 0)
  | none =>
    (match cc with
      | .eq => x == y
      | .ne => x != y
      | .lt => decide (sgn f x < sgn f y)
      | .ge => decide (sgn f y ≤ sgn f x)
      | .ltu => decide (x < y)
      | .geu => decide (y ≤ x), 0)

def State.vcmp (s : State) (cc : Cmp) (k d : KReg) (a b : VReg) : Out :=
  let c := s.core
  let okTag := if cc = .ltu ∨ cc = .geu then isInt else admitArith
  match badTag (c.twoChecks okTag a b) with
  | some t => s.fault .format t
  | none =>
    let f := (c.rv a).tag
    let w := lanewidth f
    let rs := c.laneResults k (c.effLen f) fun i =>
      let (r, fl) := laneCmp cc f (getLane (c.rv a).bits w i) (getLane (c.rv b).bits w i)
      (r.toNat, fl)
    let m : BitVec 32 := BitVec.ofNat 32 (rs.foldl (fun acc r => acc + r.2.1 * 2 ^ r.1) 0)
    .next (((s.wk d m).orFlags (orAll (rs.map (·.2.2)))).retire 4)

def execVcmpEq (k d : KReg) (a b : VReg) (s : State) : Out := s.vcmp .eq k d a b
def execVcmpNe (k d : KReg) (a b : VReg) (s : State) : Out := s.vcmp .ne k d a b
def execVcmpLt (k d : KReg) (a b : VReg) (s : State) : Out := s.vcmp .lt k d a b
def execVcmpGe (k d : KReg) (a b : VReg) (s : State) : Out := s.vcmp .ge k d a b
def execVcmpLtu (k d : KReg) (a b : VReg) (s : State) : Out := s.vcmp .ltu k d a b
def execVcmpGeu (k d : KReg) (a b : VReg) (s : State) : Out := s.vcmp .geu k d a b

end Sys2Proof.Machine
end

