-- ==== Sys2Proof/Machine/VectorMove.lean ====
section
/-! DEFINITION. Vector moves, selections, permutations, reductions, conversion, retagging, masks and SETVL (R95, R101 to
R108). -/
namespace Sys2Proof.Machine
open Sys2Proof

/-- A move under a mask: lane i of the result is f i, in lanes of the format of f's tag; vd takes the tag given. -/
def State.vmove (s : State) (len : Word) (k : KReg) (d : VReg) (f : Fmt) (tag : Fmt) (op : Nat → Nat) : Out :=
  let c := s.core
  let rs := c.laneResults k (c.effLen f) fun i => (op i, 0)
  .next ((s.wv d ⟨writeLanes (c.rv d).bits (lanewidth f) rs, tag⟩).retire len)

def Core.lane (c : Core) (r : VReg) (f : Fmt) (i : Nat) : Nat := getLane (c.rv r).bits (lanewidth f) i

def State.vmovInto (s : State) (len : Word) (k : KReg) (d a : VReg) : Out :=
  let f := (s.core.rv a).tag
  s.vmove len k d f f fun i => s.core.lane a f i

def execVmov (k : KReg) (d a : VReg) (s : State) : Out := s.vmovInto 4 k d a
def execHVmov (d b : VReg) (s : State) : Out := s.vmovInto 2 0 d b

/-- VSEL: the mask selects, and every lane below n is written (R101). -/
def execVsel (k : KReg) (d a b : VReg) (s : State) : Out :=
  let c := s.core
  let f := (c.rv a).tag
  match badTag [((c.rv b).tag == f, (c.rv b).tag)] with
  | some t => s.fault .format t
  | none =>
    s.vmove 4 0 d f f fun i => if (c.rk k).getLsbD i then c.lane a f i else c.lane b f i

def execVbcast (k : KReg) (d : VReg) (a : XReg) (s : State) : Out :=
  let f := (s.core.rv d).tag
  s.vmove 4 k d f f fun _ => (s.rx a).toNat % 2 ^ lanewidth f

def execVextr (d : XReg) (a : VReg) (b : XReg) (s : State) : Out :=
  let f := (s.core.rv a).tag
  let i := (s.rx b).toNat
  let v : Word :=
    if lanes f ≤ i then 0
    else if isInt f then sextNat (lanewidth f) (s.core.lane a f i) else nat64 (s.core.lane a f i)
  .next ((s.wx d v).retire 4)

def execVins (d : VReg) (a b : XReg) (s : State) : Out :=
  let r := s.core.rv d
  let w := lanewidth r.tag
  let i := (s.rx b).toNat
  let v : VecReg := if i < lanes r.tag then ⟨setLane r.bits w i (s.rx a).toNat, r.tag⟩ else r
  .next ((s.wv d v).retire 4)

/-- Lane j of va, or zero bits where there is no such lane (R103). -/
def Core.laneOrZero (c : Core) (a : VReg) (f : Fmt) (j : Int) : Nat :=
  if 0 ≤ j ∧ j < (lanes f : Int) then c.lane a f j.toNat else 0

def execVslide (k : KReg) (d a : VReg) (b : XReg) (s : State) : Out :=
  let f := (s.core.rv a).tag
  s.vmove 4 k d f f fun i => s.core.laneOrZero a f (i + (s.rx b).toInt)

/-- Whether a register holds indices for lanes of this width: the INT tag of that width (R93). -/
def Core.indexOk (c : Core) (b : VReg) (f : Fmt) : Bool :=
  isInt (c.rv b).tag && lanewidth (c.rv b).tag == lanewidth f

def execVperm (k : KReg) (d a b : VReg) (s : State) : Out :=
  let c := s.core
  let f := (c.rv a).tag
  match badTag [(c.indexOk b f, (c.rv b).tag)] with
  | some t => s.fault .format t
  | none => s.vmove 4 k d f f fun i => c.laneOrZero a f (c.lane b f i)

def execViota (k : KReg) (d : VReg) (s : State) : Out :=
  let c := s.core
  let f := (c.rv d).tag
  match badTag [(isInt f, f)] with
  | some t => s.fault .format t
  | none =>
    let n := c.effLen f
    s.vmove 4 k d f f fun i => ((List.range i).filter fun j => c.active k n j).length

/-- One level of the tree of R87: pairs of lanes, an absent lane passing its partner. -/
def pairUp (comb : Nat → Nat → Nat × Word) : List (Option Nat) → List (Option Nat) × Word
  | x :: y :: t =>
    let (r, fl) := pairUp comb t
    match x, y with
    | some a, some b => let (v, g) := comb a b; (some v :: r, g ||| fl)
    | some a, none => (some a :: r, fl)
    | none, y => (y :: r, fl)
  | l => (l, 0)

/-- The whole tree: as many levels as given. -/
def treeReduce (comb : Nat → Nat → Nat × Word) : Nat → List (Option Nat) → Option Nat × Word
  | 0, l => (l.head?.getD none, 0)
  | n + 1, l =>
    let (m, fl) := pairUp comb l
    let (r, g) := treeReduce comb n m
    (r, fl ||| g)

/-- VREDSUM, VREDMIN and VREDMAX (R105): lane 0 gets the result, every other lane zero bits. -/
def State.vred (s : State) (k : KReg) (d a : VReg) (comb : Fmt → Nat → Nat → Nat × Word) (empty : Fmt → Nat) : Out :=
  let c := s.core
  let f := (c.rv a).tag
  match badTag (c.oneCheck admitArith a) with
  | some t => s.fault .format t
  | none =>
    let n := c.effLen f
    let l := (List.range (lanes f)).map fun i => if c.active k n i then some (c.lane a f i) else none
    let (r, fl) := treeReduce (comb f) 5 l
    let v : VecReg := ⟨BitVec.ofNat 256 (r.getD (empty f)), f⟩
    .next (((s.wv d v).orFlags fl).retire 4)

def execVredsum (k : KReg) (d a : VReg) (s : State) : Out :=
  s.vred k d a (fun f x y => laneAdd s.core.rm f x y 0) fun _ => 0
def execVredmin (k : KReg) (d a : VReg) (s : State) : Out :=
  s.vred k d a (fun f x y => laneMinMax false f x y 0) fun f =>
    match fpFmt f with
    | some g => g.infBits false
    | none => 2 ^ (lanewidth f - 1) - 1
def execVredmax (k : KReg) (d a : VReg) (s : State) : Out :=
  s.vred k d a (fun f x y => laneMinMax true f x y 0) fun f =>
    match fpFmt f with
    | some g => g.infBits true
    | none => 2 ^ (lanewidth f - 1)

def execVtag (f : Fmt) (d a : VReg) (s : State) : Out := .next ((s.wv d ⟨(s.core.rv a).bits, f⟩).retire 4)

/-- VCVT (R106): lane i of the source becomes lane i of the target. -/
def execVcvt (r : VRnd) (f : Fmt) (k : KReg) (d a : VReg) (s : State) : Out :=
  let c := s.core
  let src := (c.rv a).tag
  match badTag [(isCvt f, f), (isCvt src, src)] with
  | some t => s.fault .format t
  | none =>
    let m := min (c.effLen src) (lanes f)
    let rs := c.laneResults k m fun i => convert src f (c.vrnd r) (c.lane a src i)
    let v : VecReg := ⟨writeLanes (c.rv d).bits (lanewidth f) rs, f⟩
    .next (((s.wv d v).orFlags (orAll (rs.map (·.2.2)))).retire 4)

def execKand (d a b : KReg) (s : State) : Out := .next ((s.wk d (s.rk a &&& s.rk b)).retire 4)
def execKor (d a b : KReg) (s : State) : Out := .next ((s.wk d (s.rk a ||| s.rk b)).retire 4)
def execKxor (d a b : KReg) (s : State) : Out := .next ((s.wk d (s.rk a ^^^ s.rk b)).retire 4)
def execKnot (d a : KReg) (s : State) : Out := .next ((s.wk d (~~~(s.rk a))).retire 4)

/-- The number of one bits (R108). -/
def execKpop (d : XReg) (a : KReg) (s : State) : Out :=
  .next ((s.wx d (nat64 ((List.range 32).filter fun i => (s.rk a).getLsbD i).length)).retire 4)

def execKfirst (d : XReg) (a : KReg) (s : State) : Out :=
  .next ((s.wx d (nat64 (((List.range 32).find? fun i => (s.rk a).getLsbD i).getD 32))).retire 4)

/-- SETVL (R95). -/
def execSetvl (f : Fmt) (d a : XReg) (s : State) : Out :=
  let vl : Word := nat64 (min (s.rx a).toNat (lanes f))
  .next (((s.setCsr { s.core.csr with vl := vl }).wx d vl).retire 4)

end Sys2Proof.Machine
end

