-- ==== Sys2Proof/Machine/VectorMem.lean ====
section
/-! DEFINITION. Vector loads and stores (R109 to R112, R311). -/
namespace Sys2Proof.Machine
open Sys2Proof

/-- What the checks of a vector access answer: for each lane its address and keys, in increasing lane order, or the
first lane's failure. -/
inductive LaneAcc where
  | ok (l : List (Nat × Word × List Nat))
  | fault (cause : Cause) (val : Word)
  | halt (w : Fin 4)
  deriving DecidableEq, Repr

/-- Checks every lane's access before any is performed (R110, R311): R60 and R174 steps 1 to 4. -/
def State.laneChecks (s : State) (need : Need) (n : Nat) : List (Nat × Word) → LaneAcc
  | [] => .ok []
  | (i, a) :: t =>
    match s.checkAs (s.rightsOf s.core) need a n n with
    | .fault c v => .fault c v
    | .halt w => .halt w
    | .ok ks =>
      match s.laneChecks need n t with
      | .ok l => .ok ((i, a, ks) :: l)
      | r => r

/-- All the checks of a vector access: every lane's own, then uncorrectable data in any lane that is read (R311). -/
def State.laneAccess (s : State) (need : Need) (n : Nat) (l : List (Nat × Word)) : LaneAcc :=
  match s.laneChecks need n l with
  | .ok e =>
    match e.find? fun x => needReads need && x.2.2.any fun k => s.poisoned k 1 with
    | some x => .fault .poison x.2.1
    | none => .ok e
  | r => r

/-- The active lanes and their addresses. -/
def Core.laneAddrs (c : Core) (k : KReg) (f : Fmt) (addr : Nat → Word) : List (Nat × Word) :=
  let n := c.effLen f
  ((List.range n).filter fun i => c.active k n i).map fun i => (i, addr i)

/-- A vector load: each active lane of vd gets its bytes; vd takes the tag (R91, R92). -/
def State.vload (s : State) (f : Fmt) (k : KReg) (d : VReg) (addr : Nat → Word) : Out :=
  let w := lanewidth f
  match s.laneAccess .load (w / 8) (s.core.laneAddrs k f addr) with
  | .fault c v => s.fault c v
  | .halt x => .next (s.watchHalt x)
  | .ok l =>
    let so (e : Nat × Word × List Nat) : Bool := s.pageKindIs 0 e.2.1
    let (s1, bits) := l.foldl (fun (acc : State × BitVec 256) e =>
      let (u, v) := acc.1.readLane (l.all so) e.2.1 e.2.2
      (u.noteAccess e.2.1 true (nat64 v), setLane acc.2 w e.1 v)) (s, (s.core.rv d).bits)
    .next (((l.filter fun e => !so e).foldl (fun (u : State) e => u.noteLate (.lanes d [e.1]) e.2.1 (w / 8)) (s1.wv d ⟨bits, f⟩)).retire 4)

/-- The sign-extended index in lane i of vb (R109). -/
def Core.index (c : Core) (b : VReg) (f : Fmt) (i : Nat) : Word := sextNat (lanewidth f) (c.lane b f i)

def execVld (f : Fmt) (k : KReg) (d : VReg) (a : XReg) (s : State) : Out :=
  s.vload f k d fun i => s.rx a + nat64 (i * (lanewidth f / 8))
def execVlds (f : Fmt) (k : KReg) (d : VReg) (a b : XReg) (s : State) : Out :=
  s.vload f k d fun i => s.rx a + nat64 i * s.rx b
def execVldx (f : Fmt) (k : KReg) (d : VReg) (a : XReg) (b : VReg) (s : State) : Out :=
  match badTag [(s.core.indexOk b f, (s.core.rv b).tag)] with
  | some t => s.fault .format t
  | none => s.vload f k d fun i => s.rx a + s.core.index b f i

/-- VLDB: one access, its value in every active lane (R109, R110). -/
def execVldb (f : Fmt) (k : KReg) (d : VReg) (a : XReg) (s : State) : Out :=
  let c := s.core
  let w := lanewidth f
  let act := c.laneAddrs k f fun _ => s.rx a
  if act = [] then .next ((s.wv d ⟨(c.rv d).bits, f⟩).retire 4)
  else
    s.loadThen .weak (s.rx a) (w / 8) fun s1 v =>
      let s2 := s1.wv d ⟨act.foldl (fun b e => setLane b w e.1 v) (c.rv d).bits, f⟩
      (if s.pageKindIs 0 (s.rx a) then s2 else s2.noteLate (.lanes d (act.map (·.1))) (s.rx a) (w / 8)).retire 4

/-- A vector store: lanes are written in increasing order, so the highest wins where two overlap (R111). -/
def State.vstore (s : State) (k : KReg) (d : VReg) (addr : Nat → Word) : Out :=
  let f := (s.core.rv d).tag
  let n := lanewidth f / 8
  match s.laneAccess .store n (s.core.laneAddrs k f addr) with
  | .fault c v => s.fault c v
  | .halt x => .next (s.watchHalt x)
  | .ok l =>
    let whole := l.all fun e => s.pageKindIs 0 e.2.1
    .next ((l.foldl (fun (u : State) e =>
      let v := s.core.lane d f e.1
      ((u.noteAccess e.2.1 (u.pageKindIs 0 e.2.1) (nat64 v)).noteCode e.2.2).writeLane whole e.2.1 e.2.2 (bytesOfNat n v)) s).retire 4)

def execVst (k : KReg) (d : VReg) (a : XReg) (s : State) : Out :=
  s.vstore k d fun i => s.rx a + nat64 (i * (lanewidth (s.core.rv d).tag / 8))
def execVsts (k : KReg) (d : VReg) (a b : XReg) (s : State) : Out :=
  s.vstore k d fun i => s.rx a + nat64 i * s.rx b
def execVstx (k : KReg) (d : VReg) (a : XReg) (b : VReg) (s : State) : Out :=
  let f := (s.core.rv d).tag
  match badTag [(s.core.indexOk b f, (s.core.rv b).tag)] with
  | some t => s.fault .format t
  | none => s.vstore k d fun i => s.rx a + s.core.index b f i

end Sys2Proof.Machine
end

