-- ==== Sys2Proof/Machine/Dispatch.lean ====
section
/-! DEFINITION. One arm per constructor of Instr: the direct call of its meaning, its name written in full. -/
namespace Sys2Proof.Machine
open Sys2Proof Host

def exec (i : Instr) (s : State) : Host.Outcome State Fault Refusal :=
  match i with
  | .add d a b => Sys2Proof.Machine.execAdd d a b s
  | .sub d a b => Sys2Proof.Machine.execSub d a b s
  | .and d a b => Sys2Proof.Machine.execAnd d a b s
  | .or d a b => Sys2Proof.Machine.execOr d a b s
  | .xor d a b => Sys2Proof.Machine.execXor d a b s
  | .sll d a b => Sys2Proof.Machine.execSll d a b s
  | .srl d a b => Sys2Proof.Machine.execSrl d a b s
  | .sra d a b => Sys2Proof.Machine.execSra d a b s
  | .slt d a b => Sys2Proof.Machine.execSlt d a b s
  | .sltu d a b => Sys2Proof.Machine.execSltu d a b s
  | .min d a b => Sys2Proof.Machine.execMin d a b s
  | .max d a b => Sys2Proof.Machine.execMax d a b s
  | .minu d a b => Sys2Proof.Machine.execMinu d a b s
  | .maxu d a b => Sys2Proof.Machine.execMaxu d a b s
  | .mul d a b => Sys2Proof.Machine.execMul d a b s
  | .mulh d a b => Sys2Proof.Machine.execMulh d a b s
  | .mulhu d a b => Sys2Proof.Machine.execMulhu d a b s
  | .div d a b => Sys2Proof.Machine.execDiv d a b s
  | .divu d a b => Sys2Proof.Machine.execDivu d a b s
  | .rem d a b => Sys2Proof.Machine.execRem d a b s
  | .remu d a b => Sys2Proof.Machine.execRemu d a b s
  | .clz d a => Sys2Proof.Machine.execClz d a s
  | .ctz d a => Sys2Proof.Machine.execCtz d a s
  | .popc d a => Sys2Proof.Machine.execPopc d a s
  | .rol d a b => Sys2Proof.Machine.execRol d a b s
  | .ror d a b => Sys2Proof.Machine.execRor d a b s
  | .addi d a imm => Sys2Proof.Machine.execAddi d a imm s
  | .andi d a imm => Sys2Proof.Machine.execAndi d a imm s
  | .ori d a imm => Sys2Proof.Machine.execOri d a imm s
  | .xori d a imm => Sys2Proof.Machine.execXori d a imm s
  | .slli d a sh => Sys2Proof.Machine.execSlli d a sh s
  | .srli d a sh => Sys2Proof.Machine.execSrli d a sh s
  | .srai d a sh => Sys2Proof.Machine.execSrai d a sh s
  | .slti d a imm => Sys2Proof.Machine.execSlti d a imm s
  | .sltiu d a imm => Sys2Proof.Machine.execSltiu d a imm s
  | .lih d imm => Sys2Proof.Machine.execLih d imm s
  | .addpc d imm => Sys2Proof.Machine.execAddpc d imm s
  | .cmpEq p a b => Sys2Proof.Machine.execCmpEq p a b s
  | .cmpNe p a b => Sys2Proof.Machine.execCmpNe p a b s
  | .cmpLt p a b => Sys2Proof.Machine.execCmpLt p a b s
  | .cmpGe p a b => Sys2Proof.Machine.execCmpGe p a b s
  | .cmpLtu p a b => Sys2Proof.Machine.execCmpLtu p a b s
  | .cmpGeu p a b => Sys2Proof.Machine.execCmpGeu p a b s
  | .cmpiEq p a imm => Sys2Proof.Machine.execCmpiEq p a imm s
  | .cmpiNe p a imm => Sys2Proof.Machine.execCmpiNe p a imm s
  | .cmpiLt p a imm => Sys2Proof.Machine.execCmpiLt p a imm s
  | .cmpiGe p a imm => Sys2Proof.Machine.execCmpiGe p a imm s
  | .cmpiLtu p a imm => Sys2Proof.Machine.execCmpiLtu p a imm s
  | .cmpiGeu p a imm => Sys2Proof.Machine.execCmpiGeu p a imm s
  | .pand d a b => Sys2Proof.Machine.execPand d a b s
  | .por d a b => Sys2Proof.Machine.execPor d a b s
  | .pxor d a b => Sys2Proof.Machine.execPxor d a b s
  | .pnot d a => Sys2Proof.Machine.execPnot d a s
  | .pmov d a => Sys2Proof.Machine.execPmov d a s
  | .movp d a => Sys2Proof.Machine.execMovp d a s
  | .setp d a => Sys2Proof.Machine.execSetp d a s
  | .sel g d a b => Sys2Proof.Machine.execSel g d a b s
  | .br g off => Sys2Proof.Machine.execBr g off s
  | .jal d off => Sys2Proof.Machine.execJal d off s
  | .jalr d a imm => Sys2Proof.Machine.execJalr d a imm s
  | .lb d a imm => Sys2Proof.Machine.execLb d a imm s
  | .lbu d a imm => Sys2Proof.Machine.execLbu d a imm s
  | .lh d a imm => Sys2Proof.Machine.execLh d a imm s
  | .lhu d a imm => Sys2Proof.Machine.execLhu d a imm s
  | .lw d a imm => Sys2Proof.Machine.execLw d a imm s
  | .lwu d a imm => Sys2Proof.Machine.execLwu d a imm s
  | .ld d a imm => Sys2Proof.Machine.execLd d a imm s
  | .lwS sc d a off => Sys2Proof.Machine.execLwS sc d a off s
  | .ldS sc d a off => Sys2Proof.Machine.execLdS sc d a off s
  | .lwA sc d a off => Sys2Proof.Machine.execLwA sc d a off s
  | .ldA sc d a off => Sys2Proof.Machine.execLdA sc d a off s
  | .sb g b a off => Sys2Proof.Machine.execSb g b a off s
  | .sh g b a off => Sys2Proof.Machine.execSh g b a off s
  | .sw g b a off => Sys2Proof.Machine.execSw g b a off s
  | .sd g b a off => Sys2Proof.Machine.execSd g b a off s
  | .swS g sc b a off => Sys2Proof.Machine.execSwS g sc b a off s
  | .sdS g sc b a off => Sys2Proof.Machine.execSdS g sc b a off s
  | .swL g sc b a off => Sys2Proof.Machine.execSwL g sc b a off s
  | .sdL g sc b a off => Sys2Proof.Machine.execSdL g sc b a off s
  | .amoaddW p os d b a => Sys2Proof.Machine.execAmoaddW p os d b a s
  | .amoandW p os d b a => Sys2Proof.Machine.execAmoandW p os d b a s
  | .amoorW p os d b a => Sys2Proof.Machine.execAmoorW p os d b a s
  | .amoxorW p os d b a => Sys2Proof.Machine.execAmoxorW p os d b a s
  | .amominW p os d b a => Sys2Proof.Machine.execAmominW p os d b a s
  | .amomaxW p os d b a => Sys2Proof.Machine.execAmomaxW p os d b a s
  | .amominuW p os d b a => Sys2Proof.Machine.execAmominuW p os d b a s
  | .amomaxuW p os d b a => Sys2Proof.Machine.execAmomaxuW p os d b a s
  | .amoswapW p os d b a => Sys2Proof.Machine.execAmoswapW p os d b a s
  | .casW p os d b a => Sys2Proof.Machine.execCasW p os d b a s
  | .amoaddD p os d b a => Sys2Proof.Machine.execAmoaddD p os d b a s
  | .amoandD p os d b a => Sys2Proof.Machine.execAmoandD p os d b a s
  | .amoorD p os d b a => Sys2Proof.Machine.execAmoorD p os d b a s
  | .amoxorD p os d b a => Sys2Proof.Machine.execAmoxorD p os d b a s
  | .amominD p os d b a => Sys2Proof.Machine.execAmominD p os d b a s
  | .amomaxD p os d b a => Sys2Proof.Machine.execAmomaxD p os d b a s
  | .amominuD p os d b a => Sys2Proof.Machine.execAmominuD p os d b a s
  | .amomaxuD p os d b a => Sys2Proof.Machine.execAmomaxuD p os d b a s
  | .amoswapD p os d b a => Sys2Proof.Machine.execAmoswapD p os d b a s
  | .casD p os d b a => Sys2Proof.Machine.execCasD p os d b a s
  | .fence kind sc paths => Sys2Proof.Machine.execFence kind sc paths s
  | .csrr d n => Sys2Proof.Machine.execCsrr d n s
  | .csrw d n a => Sys2Proof.Machine.execCsrw d n a s
  | .csrs d n a => Sys2Proof.Machine.execCsrs d n a s
  | .csrc d n a => Sys2Proof.Machine.execCsrc d n a s
  | .loop a e => Sys2Proof.Machine.execLoop a e s
  | .loopi c e => Sys2Proof.Machine.execLoopi c e s
  | .trap imm => Sys2Proof.Machine.execTrap imm s
  | .brk imm => Sys2Proof.Machine.execBrk imm s
  | .mcall imm => Sys2Proof.Machine.execMcall imm s
  | .idle => Sys2Proof.Machine.execIdle s
  | .yield => Sys2Proof.Machine.execYield s
  | .tret => Sys2Proof.Machine.execTret s
  | .mret => Sys2Proof.Machine.execMret s
  | .gate => Sys2Proof.Machine.execGate s
  | .callg a imm => Sys2Proof.Machine.execCallg a imm s
  | .retg => Sys2Proof.Machine.execRetg s
  | .lendR d a b => Sys2Proof.Machine.execLendR d a b s
  | .lendRw d a b => Sys2Proof.Machine.execLendRw d a b s
  | .recl a => Sys2Proof.Machine.execRecl a s
  | .loanq d a => Sys2Proof.Machine.execLoanq d a s
  | .barInit a b => Sys2Proof.Machine.execBarInit a b s
  | .barArr a => Sys2Proof.Machine.execBarArr a s
  | .barWait a => Sys2Proof.Machine.execBarWait a s
  | .barSync a => Sys2Proof.Machine.execBarSync a s
  | .waita a b => Sys2Proof.Machine.execWaita a b s
  | .waitaGe a b => Sys2Proof.Machine.execWaitaGe a b s
  | .cwait c n => Sys2Proof.Machine.execCwait c n s
  | .fork d a => Sys2Proof.Machine.execFork d a s
  | .join a => Sys2Proof.Machine.execJoin a s
  | .cvyLead => Sys2Proof.Machine.execCvyLead s
  | .cvyJoin => Sys2Proof.Machine.execCvyJoin s
  | .cvyLeave => Sys2Proof.Machine.execCvyLeave s
  | .redAdd tok tree f d a => Sys2Proof.Machine.execRedAdd tok tree f d a s
  | .redMin tok tree f d a => Sys2Proof.Machine.execRedMin tok tree f d a s
  | .redMax tok tree f d a => Sys2Proof.Machine.execRedMax tok tree f d a s
  | .vadd k d a b => Sys2Proof.Machine.execVadd k d a b s
  | .vsub k d a b => Sys2Proof.Machine.execVsub k d a b s
  | .vmul k d a b => Sys2Proof.Machine.execVmul k d a b s
  | .vfma k d a b => Sys2Proof.Machine.execVfma k d a b s
  | .vfms k d a b => Sys2Proof.Machine.execVfms k d a b s
  | .vfnma k d a b => Sys2Proof.Machine.execVfnma k d a b s
  | .vmin k d a b => Sys2Proof.Machine.execVmin k d a b s
  | .vmax k d a b => Sys2Proof.Machine.execVmax k d a b s
  | .vminu k d a b => Sys2Proof.Machine.execVminu k d a b s
  | .vmaxu k d a b => Sys2Proof.Machine.execVmaxu k d a b s
  | .vabs k d a => Sys2Proof.Machine.execVabs k d a s
  | .vneg k d a => Sys2Proof.Machine.execVneg k d a s
  | .vand k d a b => Sys2Proof.Machine.execVand k d a b s
  | .vor k d a b => Sys2Proof.Machine.execVor k d a b s
  | .vxor k d a b => Sys2Proof.Machine.execVxor k d a b s
  | .vnot k d a => Sys2Proof.Machine.execVnot k d a s
  | .vsll k d a b => Sys2Proof.Machine.execVsll k d a b s
  | .vsrl k d a b => Sys2Proof.Machine.execVsrl k d a b s
  | .vsra k d a b => Sys2Proof.Machine.execVsra k d a b s
  | .vadds k d a b => Sys2Proof.Machine.execVadds k d a b s
  | .vsubs k d a b => Sys2Proof.Machine.execVsubs k d a b s
  | .vdiv k d a b => Sys2Proof.Machine.execVdiv k d a b s
  | .vsqrt k d a => Sys2Proof.Machine.execVsqrt k d a s
  | .vcmpEq k d a b => Sys2Proof.Machine.execVcmpEq k d a b s
  | .vcmpNe k d a b => Sys2Proof.Machine.execVcmpNe k d a b s
  | .vcmpLt k d a b => Sys2Proof.Machine.execVcmpLt k d a b s
  | .vcmpGe k d a b => Sys2Proof.Machine.execVcmpGe k d a b s
  | .vcmpLtu k d a b => Sys2Proof.Machine.execVcmpLtu k d a b s
  | .vcmpGeu k d a b => Sys2Proof.Machine.execVcmpGeu k d a b s
  | .vsel k d a b => Sys2Proof.Machine.execVsel k d a b s
  | .vmov k d a => Sys2Proof.Machine.execVmov k d a s
  | .vbcast k d a => Sys2Proof.Machine.execVbcast k d a s
  | .vextr d a b => Sys2Proof.Machine.execVextr d a b s
  | .vins d a b => Sys2Proof.Machine.execVins d a b s
  | .vslide k d a b => Sys2Proof.Machine.execVslide k d a b s
  | .vperm k d a b => Sys2Proof.Machine.execVperm k d a b s
  | .viota k d => Sys2Proof.Machine.execViota k d s
  | .vredsum k d a => Sys2Proof.Machine.execVredsum k d a s
  | .vredmin k d a => Sys2Proof.Machine.execVredmin k d a s
  | .vredmax k d a => Sys2Proof.Machine.execVredmax k d a s
  | .vtag f d a => Sys2Proof.Machine.execVtag f d a s
  | .kand d a b => Sys2Proof.Machine.execKand d a b s
  | .kor d a b => Sys2Proof.Machine.execKor d a b s
  | .kxor d a b => Sys2Proof.Machine.execKxor d a b s
  | .knot d a => Sys2Proof.Machine.execKnot d a s
  | .kpop d a => Sys2Proof.Machine.execKpop d a s
  | .kfirst d a => Sys2Proof.Machine.execKfirst d a s
  | .vcvt r f k d a => Sys2Proof.Machine.execVcvt r f k d a s
  | .vld f k d a => Sys2Proof.Machine.execVld f k d a s
  | .vlds f k d a b => Sys2Proof.Machine.execVlds f k d a b s
  | .vldx f k d a b => Sys2Proof.Machine.execVldx f k d a b s
  | .vldb f k d a => Sys2Proof.Machine.execVldb f k d a s
  | .vst k d a => Sys2Proof.Machine.execVst k d a s
  | .vsts k d a b => Sys2Proof.Machine.execVsts k d a b s
  | .vstx k d a b => Sys2Proof.Machine.execVstx k d a b s
  | .setvl f d a => Sys2Proof.Machine.execSetvl f d a s
  | .tcfg tc a => Sys2Proof.Machine.execTcfg tc a s
  | .accfg a => Sys2Proof.Machine.execAccfg a s
  | .tld tok tc a d => Sys2Proof.Machine.execTld tok tc a d s
  | .tst tok tc a d => Sys2Proof.Machine.execTst tok tc a d s
  | .tlds tok tc a d => Sys2Proof.Machine.execTlds tok tc a d s
  | .tzero tok tc => Sys2Proof.Machine.execTzero tok tc s
  | .mma tok tc tb a => Sys2Proof.Machine.execMma tok tc tb a s
  | .mmas tok tc tb a => Sys2Proof.Machine.execMmas tok tc tb a s
  | .mtv tok tc a d => Sys2Proof.Machine.execMtv tok tc a d s
  | .acld tok a d => Sys2Proof.Machine.execAcld tok a d s
  | .acst tok a d => Sys2Proof.Machine.execAcst tok a d s
  | .accvt tok tc a => Sys2Proof.Machine.execAccvt tok tc a s
  | .aczero tok a => Sys2Proof.Machine.execAczero tok a s
  | .cpy tok d a b => Sys2Proof.Machine.execCpy tok d a b s
  | .tcpy tok d a b => Sys2Proof.Machine.execTcpy tok d a b s
  | .cpyf tok d a b => Sys2Proof.Machine.execCpyf tok d a b s
  | .bteGo tok d a b => Sys2Proof.Machine.execBteGo tok d a b s
  | .bteQ d a => Sys2Proof.Machine.execBteQ d a s
  | .tspawn sl a b => Sys2Proof.Machine.execTspawn sl a b s
  | .tnext pd d sl => Sys2Proof.Machine.execTnext pd d sl s
  | .tend => Sys2Proof.Machine.execTend s
  | .tpoll => Sys2Proof.Machine.execTpoll s
  | .wmkRd d b sl => Sys2Proof.Machine.execWmkRd d b sl s
  | .wmkRdS d b sl => Sys2Proof.Machine.execWmkRdS d b sl s
  | .wmkUpd pd a b => Sys2Proof.Machine.execWmkUpd pd a b s
  | .wmkSet d a b => Sys2Proof.Machine.execWmkSet d a b s
  | .calRun tok d a => Sys2Proof.Machine.execCalRun tok d a s
  | .calQry d => Sys2Proof.Machine.execCalQry d s
  | .protSet a b => Sys2Proof.Machine.execProtSet a b s
  | .lptSet a b => Sys2Proof.Machine.execLptSet a b s
  | .ctxSave a => Sys2Proof.Machine.execCtxSave a s
  | .ctxLoad a => Sys2Proof.Machine.execCtxLoad a s
  | .hMov d b => Sys2Proof.Machine.execHMov d b s
  | .hAdd d b => Sys2Proof.Machine.execHAdd d b s
  | .hSub d b => Sys2Proof.Machine.execHSub d b s
  | .hAnd d b => Sys2Proof.Machine.execHAnd d b s
  | .hOr d b => Sys2Proof.Machine.execHOr d b s
  | .hXor d b => Sys2Proof.Machine.execHXor d b s
  | .hAddi d imm => Sys2Proof.Machine.execHAddi d imm s
  | .hLi d imm => Sys2Proof.Machine.execHLi d imm s
  | .hSlli d sh => Sys2Proof.Machine.execHSlli d sh s
  | .hSrli d sh => Sys2Proof.Machine.execHSrli d sh s
  | .hSrai d sh => Sys2Proof.Machine.execHSrai d sh s
  | .hLd d b => Sys2Proof.Machine.execHLd d b s
  | .hSd d b => Sys2Proof.Machine.execHSd d b s
  | .hJmp b => Sys2Proof.Machine.execHJmp b s
  | .hMul d b => Sys2Proof.Machine.execHMul d b s
  | .hNeg d b => Sys2Proof.Machine.execHNeg d b s
  | .hVadd d b => Sys2Proof.Machine.execHVadd d b s
  | .hVsub d b => Sys2Proof.Machine.execHVsub d b s
  | .hVmul d b => Sys2Proof.Machine.execHVmul d b s
  | .hVmin d b => Sys2Proof.Machine.execHVmin d b s
  | .hVmax d b => Sys2Proof.Machine.execHVmax d b s
  | .hVminu d b => Sys2Proof.Machine.execHVminu d b s
  | .hVmaxu d b => Sys2Proof.Machine.execHVmaxu d b s
  | .hVand d b => Sys2Proof.Machine.execHVand d b s
  | .hVor d b => Sys2Proof.Machine.execHVor d b s
  | .hVxor d b => Sys2Proof.Machine.execHVxor d b s
  | .hVsll d b => Sys2Proof.Machine.execHVsll d b s
  | .hVsrl d b => Sys2Proof.Machine.execHVsrl d b s
  | .hVsra d b => Sys2Proof.Machine.execHVsra d b s
  | .hVadds d b => Sys2Proof.Machine.execHVadds d b s
  | .hVsubs d b => Sys2Proof.Machine.execHVsubs d b s
  | .hVmov d b => Sys2Proof.Machine.execHVmov d b s
  | .powerOn c image => Sys2Proof.Machine.execPowerOn c image s
  | .yieldEnd c => Sys2Proof.Machine.execYieldEnd c s
  | .idleWake w => Sys2Proof.Machine.execIdleWake w s
  | .trapRingResume n => Sys2Proof.Machine.execTrapRingResume n s
  | .gangCommit gs places => Sys2Proof.Machine.execGangCommit gs places s
  | .svcEndThread c => Sys2Proof.Machine.execSvcEndThread c s
  | .svcSetPageTag c => Sys2Proof.Machine.execSvcSetPageTag c s
  | .svcWriteReach c => Sys2Proof.Machine.execSvcWriteReach c s
  | .svcReadReach c => Sys2Proof.Machine.execSvcReadReach c s
  | .svcUnknown c => Sys2Proof.Machine.execSvcUnknown c s
  | .threadEnd c => Sys2Proof.Machine.execThreadEnd c s
  | .convoyRelease team group => Sys2Proof.Machine.execConvoyRelease team group s
  | .joinRecruited c => Sys2Proof.Machine.execJoinRecruited c s
  | .barWaitWake c => Sys2Proof.Machine.execBarWaitWake c s
  | .barTimeout c => Sys2Proof.Machine.execBarTimeout c s
  | .waitaWake c => Sys2Proof.Machine.execWaitaWake c s
  | .cwaitWake c => Sys2Proof.Machine.execCwaitWake c s
  | .tokenStallRelease c => Sys2Proof.Machine.execTokenStallRelease c s
  | .counterRoom c => Sys2Proof.Machine.execCounterRoom c s
  | .redClose team tree n => Sys2Proof.Machine.execRedClose team tree n s
  | .redTimeout team tree n => Sys2Proof.Machine.execRedTimeout team tree n s
  | .redLateComplete c tree => Sys2Proof.Machine.execRedLateComplete c tree s
  | .peerAccessArrival c home off need data => Sys2Proof.Machine.execPeerAccessArrival c home off need data s
  | .inboundWrite loc data => Sys2Proof.Machine.execInboundWrite loc data s
  | .translationWalkDone n => Sys2Proof.Machine.execTranslationWalkDone n s
  | .translationRetry => Sys2Proof.Machine.execTranslationRetry s
  | .stationInvalidate cid va => Sys2Proof.Machine.execStationInvalidate cid va s
  | .reclFree c => Sys2Proof.Machine.execReclFree c s
  | .matrixQueueRoom c => Sys2Proof.Machine.execMatrixQueueRoom c s
  | .matrixJobStart cluster transfer => Sys2Proof.Machine.execMatrixJobStart cluster transfer s
  | .matrixJobComplete cluster transfer => Sys2Proof.Machine.execMatrixJobComplete cluster transfer s
  | .copySlotFree c => Sys2Proof.Machine.execCopySlotFree c s
  | .copyOpStart id => Sys2Proof.Machine.execCopyOpStart id s
  | .copyComplete id => Sys2Proof.Machine.execCopyComplete id s
  | .beatLanding id n => Sys2Proof.Machine.execBeatLanding id n s
  | .beatsRoom id => Sys2Proof.Machine.execBeatsRoom id s
  | .fenceDrain c => Sys2Proof.Machine.execFenceDrain c s
  | .bteRequestRefused c n ns => Sys2Proof.Machine.execBteRequestRefused c n ns s
  | .bteRetry c n => Sys2Proof.Machine.execBteRetry c n s
  | .bteRequestRoom c => Sys2Proof.Machine.execBteRequestRoom c s
  | .bteAccept c n => Sys2Proof.Machine.execBteAccept c n s
  | .bteRecordTakeup ch => Sys2Proof.Machine.execBteRecordTakeup ch s
  | .bteRecordLanded ch => Sys2Proof.Machine.execBteRecordLanded ch s
  | .bteRingResume ch => Sys2Proof.Machine.execBteRingResume ch s
  | .homeSpawnCount c => Sys2Proof.Machine.execHomeSpawnCount c s
  | .homeUpdate c => Sys2Proof.Machine.execHomeUpdate c s
  | .homeSet c => Sys2Proof.Machine.execHomeSet c s
  | .wmkSetOpen sl => Sys2Proof.Machine.execWmkSetOpen sl s
  | .wmkPropagate sl holder => Sys2Proof.Machine.execWmkPropagate sl holder s
  | .recordMove sl src dst => Sys2Proof.Machine.execRecordMove sl src dst s
  | .spillReturn sl field => Sys2Proof.Machine.execSpillReturn sl field s
  | .tnextWake c => Sys2Proof.Machine.execTnextWake c s
  | .slotClose sl => Sys2Proof.Machine.execSlotClose sl s
  | .calRunStart team => Sys2Proof.Machine.execCalRunStart team s
  | .calKernelDone team => Sys2Proof.Machine.execCalKernelDone team s
  | .strongLoadTimeout c => Sys2Proof.Machine.execStrongLoadTimeout c s
  | .strongLoadArrive c => Sys2Proof.Machine.execStrongLoadArrive c s
  | .sliceEvict v => Sys2Proof.Machine.execSliceEvict v s
  | .sliceResume n c => Sys2Proof.Machine.execSliceResume n c s
  | .sliceMigrate is cs => Sys2Proof.Machine.execSliceMigrate is cs s
  | .debugRun c => Sys2Proof.Machine.execDebugRun c s
  | .debugPlainHalt c => Sys2Proof.Machine.execDebugPlainHalt c s
  | .debugQuiesceHalt c => Sys2Proof.Machine.execDebugQuiesceHalt c s
  | .debugStable c => Sys2Proof.Machine.execDebugStable c s
  | .queueEnable q v => Sys2Proof.Machine.execQueueEnable q v s
  | .queueDisable q v => Sys2Proof.Machine.execQueueDisable q v s
  | .qtailWrite q v => Sys2Proof.Machine.execQtailWrite q v s
  | .registerWrite r v => Sys2Proof.Machine.execRegisterWrite r v s
  | .packetFetch q => Sys2Proof.Machine.execPacketFetch q s
  | .packetPoll q => Sys2Proof.Machine.execPacketPoll q s
  | .launch q => Sys2Proof.Machine.execLaunch q s
  | .load q ptes => Sys2Proof.Machine.execLoad q ptes s
  | .unload q => Sys2Proof.Machine.execUnload q s
  | .signal q => Sys2Proof.Machine.execSignal q s
  | .wait q => Sys2Proof.Machine.execWait q s
  | .waitSatisfied q => Sys2Proof.Machine.execWaitSatisfied q s
  | .qfence q => Sys2Proof.Machine.execQfence q s
  | .nop q => Sys2Proof.Machine.execNop q s
  | .slicePermitReturn slice => Sys2Proof.Machine.execSlicePermitReturn slice s
  | .headboxRestart => Sys2Proof.Machine.execHeadboxRestart s
  | .headboxResume => Sys2Proof.Machine.execHeadboxResume s
  | .notifyWrite c => Sys2Proof.Machine.execNotifyWrite c s
  | .notifyGatedDeliver field => Sys2Proof.Machine.execNotifyGatedDeliver field s
  | .securityCoreRequest c v => Sys2Proof.Machine.execSecurityCoreRequest c v s
  | .mappingProposal m => Sys2Proof.Machine.execMappingProposal m s
  | .leafActivate pa => Sys2Proof.Machine.execLeafActivate pa s
  | .attestRequest nonce => Sys2Proof.Machine.execAttestRequest nonce s
  | .measurementRequest part => Sys2Proof.Machine.execMeasurementRequest part s
  | .interfaceLock cid policy => Sys2Proof.Machine.execInterfaceLock cid policy s
  | .interfaceStart cid => Sys2Proof.Machine.execInterfaceStart cid s
  | .interfaceStop cid => Sys2Proof.Machine.execInterfaceStop cid s
  | .teardownDrained cid => Sys2Proof.Machine.execTeardownDrained cid s
  | .scrubUnit => Sys2Proof.Machine.execScrubUnit s
  | .activateImage image digest version signed => Sys2Proof.Machine.execActivateImage image digest version signed s
  | .activationCommit => Sys2Proof.Machine.execActivationCommit s
  | .tamperEvent kind => Sys2Proof.Machine.execTamperEvent kind s
  | .ownerClaim h => Sys2Proof.Machine.execOwnerClaim h s
  | .ownerHeartbeat h => Sys2Proof.Machine.execOwnerHeartbeat h s
  | .ownerRelease h => Sys2Proof.Machine.execOwnerRelease h s
  | .ownerTakeover h => Sys2Proof.Machine.execOwnerTakeover h s
  | .linkRekey link => Sys2Proof.Machine.execLinkRekey link s
  | .sealTagFail link => Sys2Proof.Machine.execSealTagFail link s
  | .ucieLinkError link => Sys2Proof.Machine.execUcieLinkError link s
  | .linkRecoveryTimeout link => Sys2Proof.Machine.execLinkRecoveryTimeout link s
  | .causewayCrcFail port => Sys2Proof.Machine.execCausewayCrcFail port s
  | .groupForm g members primary terms => Sys2Proof.Machine.execGroupForm g members primary terms s
  | .memberVerified g r => Sys2Proof.Machine.execMemberVerified g r s
  | .memberLost g m => Sys2Proof.Machine.execMemberLost g m s
  | .governorSample sample => Sys2Proof.Machine.execGovernorSample sample s
  | .moduleReset => Sys2Proof.Machine.execModuleReset s
  | .reservedEncoding w => Sys2Proof.Machine.execReservedEncoding w s
  | .instructionFetchFault cause val => Sys2Proof.Machine.execInstructionFetchFault cause val s
  | .followerStallDetach c => Sys2Proof.Machine.execFollowerStallDetach c s
  | .loggingEnable cid => Sys2Proof.Machine.execLoggingEnable cid s
  | .alarmLevelConfig level => Sys2Proof.Machine.execAlarmLevelConfig level s
  | .moduleNumberAssign n routes => Sys2Proof.Machine.execModuleNumberAssign n routes s

end Sys2Proof.Machine
end

