-- ==== Sys2Proof/Machine/Step.lean ====
section
/-! DEFINITION. One step of the module: the next turn of the agenda, or, with none, the core in focus. -/
namespace Sys2Proof.Machine
open Sys2Proof

/-- The clock moves on before a step (R4): by how much is a free value. A commit window whose 2 ms are over closes (R358). -/
def State.tick (s : State) : State :=
  let (s1, n) := s.draw
  { s1 with clock := s1.clock + Config.elapsed n }.dueCommit

/-- The core in focus fetches, decodes and executes one instruction, or does nothing while it does not issue. -/
def State.runCore (s : State) : Out :=
  if s.issues then
    match s.decodeNext with
    | (s1, .run i) => exec i s1
    | (s1, .reserved w) => execReservedEncoding w s1
    | (s1, .fetchFault c v) => execInstructionFetchFault c v s1
    | (s1, .decodeFault c v) => s1.fault c v
    | (s1, .stall) => .next (s1.stallOn .register)
  else .next s

/-- An event of the module. The two events that are a core's own come about only by its fetch. -/
def State.runEvent (s : State) (i : Instr) : Out :=
  match i with
  | .reservedEncoding _ => .next s
  | .instructionFetchFault _ _ => .next s
  | i => if i.isEvent then exec i s else .next s

/-- One step. -/
def step (s : State) : Host.Outcome State Fault Refusal :=
  match s.agenda with
  | .event i :: rest => ({ s with agenda := rest }.tick).runEvent i
  | .core c :: rest => (({ s with agenda := rest }.tick).focus c).runCore
  | [] => if s.core.stopped then .fault .coreStopped else s.tick.runCore

/-- The state with an instruction's bytes stored where the next step fetches: at the pc of the core in focus, which is
let issue. -/
def State.withFetchWord (s : State) (nbits w : Nat) : State :=
  let c := s.core
  { s with
    mem := s.mem.write (localKey c.num c.pc.toNat) (bytesOfNat 4 (w % 2 ^ nbits))
    agenda := []
    core := { c with stopped := false, held := false, wait := none, stall := none, convoy := .alone, pfb := []
                     dbg := { c.dbg with halted := false } } }

end Sys2Proof.Machine
end

