-- ==== Sys2Proof/Safety.lean ====
section
/-! DEFINITION. The terms the claims are stated in: memories in their canonical form, what an instruction leaves
unchanged, and how the pc and INSTRET go on. -/
namespace Sys2Proof.Machine
open Sys2Proof

/-- The memory is canonical. -/
def State.memWf (s : State) : Prop := Memory.wf s.mem = true

/-- Every sparse memory of the module that is not a core's is canonical: memory, accumulators and their tags. -/
def State.storesWf (s : State) : Prop := s.memWf ∧ Memory.wf s.acc = true ∧ Memory.wf s.accTags = true

/-- The CSRs without those a retirement may write: the loop counts (R65), INSTRET (R17), and what an eager kill (R280)
may clear, TTASK.VALID and the counter of a CAL.RUN it aborts. -/
def Csrs.kept (c : Csrs) : Csrs :=
  { c with lpc0 := 0, lpc1 := 0, instret := 0, ttask := 0, cnt := Vector.replicate 16 0 }

/-- A loan without its count of holds. -/
def Loan.kept (l : Loan) : Loan := { l with holds := 0 }

/-- Everything but the register files x, p, v, k and the pc that an instruction without a further effect leaves as it is:
every CSR outside retirement, the mode, DOMAIN, the gate stack, the loans, the protection tables, the tiles, the vector
registers pending, the debug block, and every byte of memory, every uncorrectable unit and every accumulator. -/
structure Unchanged (s t : State) : Prop where
  csr : t.core.csr.kept = s.core.csr.kept
  task : s.core.csr.taskValid = false → t.core.csr.ttask = s.core.csr.ttask ∧ t.core.csr.cnt = s.core.csr.cnt
  mode : t.core.mode = s.core.mode
  domain : t.core.domain = s.core.domain
  cid : t.core.cid = s.core.cid
  tid : t.core.tid = s.core.tid
  gateHw : t.core.gateHw = s.core.gateHw
  gateSpill : t.core.gateSpill = s.core.gateSpill
  loans : ∀ i, (t.core.loans.get i).kept = (s.core.loans.get i).kept
  lpt : t.core.lpt = s.core.lpt
  pe : t.core.pe = s.core.pe
  tiles : ∀ a, t.core.tiles.get a = s.core.tiles.get a
  scales : ∀ a, t.core.scales.get a = s.core.scales.get a
  pendV : t.core.pendV = s.core.pendV
  dbg : t.core.dbg = s.core.dbg
  stopped : t.core.stopped = s.core.stopped
  mem : ∀ a, t.mem.get a = s.mem.get a
  poison : t.poison = s.poison
  acc : ∀ a, t.acc.get a = s.acc.get a
  accTags : ∀ a, t.accTags.get a = s.accTags.get a

/-- No write of the history is from the future: none has a later cycle or a higher stamp than the module. -/
def State.histOk (s : State) : Prop := ∀ e ∈ s.hist, e.clock ≤ s.clock ∧ e.stamp ≤ s.stamp

def SameX (s t : State) : Prop := ∀ r, t.rx r = s.rx r
def SameP (s t : State) : Prop := ∀ r, t.rp r = s.rp r
def SameV (s t : State) : Prop := ∀ r, t.rv r = s.rv r
def SameK (s t : State) : Prop := ∀ r, t.rk r = s.rk r

/-- t is s with xd holding v (x0 keeps reading 0), and nothing else changed. -/
def WritesX (d : XReg) (v : Word) (s t : State) : Prop :=
  t.rx d = (if d = 0 then 0 else v) ∧ (∀ r, r ≠ d → t.rx r = s.rx r) ∧ SameP s t ∧ SameV s t ∧ SameK s t ∧ Unchanged s t

/-- t is s with pd holding v (p0 keeps reading true), and nothing else changed. -/
def WritesP (d : PReg) (v : Bool) (s t : State) : Prop :=
  t.rp d = (if d = 0 then true else v) ∧ (∀ r, r ≠ d → t.rp r = s.rp r) ∧ SameX s t ∧ SameV s t ∧ SameK s t ∧ Unchanged s t

/-- t is s with vd holding w, and nothing else changed. -/
def WritesV (d : VReg) (w : VecReg) (s t : State) : Prop :=
  t.rv d = w ∧ (∀ r, r ≠ d → t.rv r = s.rv r) ∧ SameX s t ∧ SameP s t ∧ SameK s t ∧ Unchanged s t

/-- t is s with kd holding m (k0 keeps reading all ones), and nothing else changed. -/
def WritesK (d : KReg) (m : BitVec 32) (s t : State) : Prop :=
  t.rk d = (if d = 0 then BitVec.allOnes 32 else m) ∧ (∀ r, r ≠ d → t.rk r = s.rk r) ∧ SameX s t ∧ SameP s t ∧ SameV s t ∧
    Unchanged s t

/-- No register, no memory and no special register changed. -/
def WritesNothing (s t : State) : Prop := SameX s t ∧ SameP s t ∧ SameV s t ∧ SameK s t ∧ Unchanged s t

/-- INSTRET after a retirement (R17): one more in program mode. -/
def Counted (s t : State) : Prop :=
  t.core.csr.instret = (if s.core.mode = .program then s.core.csr.instret + 1 else s.core.csr.instret)

/-- No kill point of TKMODE EAGER can end a task here (R280): none runs, or the mode is another. -/
def NoKill (s : State) : Prop := s.core.csr.taskValid = false ∨ bitsOf s.core.csr.tkmode 1 0 ≠ 1

/-- A retirement that would pass to next: INSTRET as R17 says, the loop counts and the pc as the back-edge rule R65
leaves them (the pc unless a task may be killed). -/
def Passes (next : Word) (taken : Bool) (s t : State) : Prop :=
  let b := backEdge s.core.csr s.core.pc next taken
  Counted s t ∧ t.core.csr.lpc0 = b.1.lpc0 ∧ t.core.csr.lpc1 = b.1.lpc1 ∧ (NoKill s → t.core.pc = b.2.1)

/-- A fall-through retirement of n bytes; outside loops the pc moves past the instruction. -/
def Advances (n : Word) (s t : State) : Prop :=
  Passes (s.core.pc + n) false s t ∧ (s.core.csr.lpc0 = 0 ∧ s.core.csr.lpc1 = 0 → t.core.pc = s.core.pc + n)

/-- A retirement of a transfer taken to an address: the pc goes there, also at the end of a loop's body (R65). -/
def Jumps (target : Word) (s t : State) : Prop :=
  Passes target true s t ∧ (NoKill s → t.core.pc = target)

/-- The bytes with the keys ks hold data in t, and every other byte of memory is as in s. -/
def StoresBytes (ks : List Nat) (data : List Byte) (s t : State) : Prop :=
  (∀ a, a ∉ ks.map hostKey → t.mem.get a = s.mem.get a) ∧
    ((ks.map hostKey).Nodup → (ks.map fun k => t.mem.get (hostKey k)) = data)

/-- What a weak load of the bytes with the keys ks at a may read (R184, R185, R191): the bytes as they were before some of the
latest writes to them, each of which nothing orders before the load. -/
def State.MayRead (s : State) (a : Word) (ks : List Nat) (v : Nat) : Prop :=
  let hs := ks.map hostKey
  ∃ n, n ≤ ((s.writesTo hs).takeWhile (s.core.misses (s.unordered a) hs)).length ∧
    v = natOfBytes (ks.map fun k => before ((s.writesTo hs).take n) (s.readKey k) (hostKey k))

/-- Every write to these bytes is ordered before a weak load of them by the core in focus: it reads them as they are. -/
def State.Current (s : State) (a : Word) (ks : List Nat) : Prop :=
  ∀ e ∈ s.hist, (e.touched (ks.map hostKey)).isEmpty = false → s.core.misses (s.unordered a) (ks.map hostKey) e = false

/-- The latest writes that nothing orders before an access of an operation under a view, of those to one aligned 8-byte unit of
the bytes with the keys hs (R192). -/
def State.unseenIn (s : State) (o : Op) (v : View) (hs : List Nat) (q : Nat) : List Write :=
  let us := hs.filter fun k => k / 8 == q
  (s.writesTo us).takeWhile (o.misses v us)

/-- What an engine operation may read of the bytes with the keys ks (R184, R191, R192): of each aligned 8-byte unit, the bytes
as they were before some of the latest writes to it that nothing orders before the operation; registers as they are. -/
def State.EngineReads (s : State) (o : Op) (ks : List Nat) (data : List Byte) : Prop :=
  let hs := ks.map hostKey
  (ks.any inRegs = true → data = ks.map s.readKey) ∧
  (ks.any inRegs = false → ∃ n : Nat → Nat, (∀ q, n q ≤ (s.unseenIn o o.fenced.rd hs q).length) ∧
    data = hs.map fun k => before ((s.unseenIn o o.fenced.rd hs (k / 8)).take (n (k / 8))) (s.mem.get k) k)

/-- What an engine operation's write of data to the bytes with the keys ks leaves in memory (R192): every other byte as it was,
and of each aligned 8-byte unit its own bytes, but those of some of the latest writes that nothing orders before it. -/
def State.EngineWrites (s : State) (o : Op) (ks : List Nat) (data : List Byte) (t : State) : Prop :=
  let hs := ks.map hostKey
  (∀ a, a ∉ hs → t.mem.get a = s.mem.get a) ∧
    (hs.Nodup → ∃ n : Nat → Nat, (∀ q, n q ≤ (s.unseenIn o o.fenced.landing hs q).length) ∧
      ∀ (i k : Nat) (b : Byte), hs[i]? = some k → data[i]? = some b →
        t.mem.get k =
          if ((s.unseenIn o o.fenced.landing hs (k / 8)).take (n (k / 8))).any fun e => !(e.touched [k]).isEmpty then s.mem.get k else b)

/-- u is s but for what its engines note as they read: translation misses, single-bit errors corrected and logged (R165), free
values drawn, what an operation acquires, and what the issuers' later fences order (R181). -/
def NotesOnly (s u : State) : Prop :=
  u = { s with core := u.core, others := u.others, misses := u.misses, heldMisses := u.heldMisses, freeCount := u.freeCount
               ops := u.ops, singles := u.singles, sec := { s.sec with events := u.sec.events } } ∧
    (∃ f : Op → Fenced, u.ops = s.ops.map fun o => { o with fenced := f o }) ∧
    ∀ n, ∃ l, u.getCore n = { s.getCore n with views := { (s.getCore n).views with reads := l } }

/-- The instruction's effect is a next state of which P holds. -/
def Answers (i : Instr) (s : State) (P : State → Prop) : Prop := ∃ t, exec i s = .next t ∧ P t

/-- An event at core c: with c in focus it takes the state s.focus c to a u of which P holds, and the focus returns. -/
def AnswersOn (c : Nat) (i : Instr) (s : State) (P : State → State → Prop) : Prop :=
  ∃ u : State, exec i s = .next (u.focus s.core.num) ∧ P (s.focus c) u

/-- The core in focus waits at a blocking point, its instruction still to retire; nothing else changed. -/
def Blocks (w : Wait) (s t : State) : Prop :=
  t.core.wait = some w ∧ t.core.pc = s.core.pc ∧ t.core.csr = s.core.csr ∧ WritesNothing s t

/-- The core in focus stalls, its instruction still to execute; nothing else changed. -/
def Stalls (on : StallOn) (s t : State) : Prop :=
  (∃ since, t.core.stall = some ⟨on, since⟩) ∧ t.core.pc = s.core.pc ∧ t.core.csr = s.core.csr ∧ WritesNothing s t

/-- The core in focus has the instruction i at its pc and stalls on it; u is the state with i fetched again. -/
def StalledAt (on : StallOn) (i : Instr) (s u : State) : Prop :=
  (∃ since, s.core.stall = some ⟨on, since⟩) ∧ s.issues = true ∧ s.decodeNext = (u, .run i)

/-- Core n holds the owner of an operation, a thread that is neither ended nor evicted or the core itself, and no save area holds
its context as well. -/
def Resident (s : State) (o : Owner) (n : Nat) : Prop :=
  (s.getCore n).inArea = none ∧
    (o = .bare n ∨ ∃ t, o = .thread t.tid ∧ s.thread? t.tid = some t ∧ t.ended = false ∧ t.evicted = none ∧ t.home = n)

/-- The completion of operation o, held by core n, with a status and a count (R138, R139): the completion word is in its
token register, which is pending no more, its counter has fallen, and the operation is gone. -/
def Completes (o : Op) (status count n : Nat) (s t : State) : Prop :=
  (t.getCore n).rx o.tok = (if o.tok = 0 then 0 else BitVec.ofNat 64 (count * 2 ^ 16 + o.cls * 2 ^ 8 + status)) ∧
    (∀ r, r ≠ o.tok → (t.getCore n).rx r = (s.getCore n).rx r) ∧
    (o.tok ≠ 0 → (t.getCore n).pendX.getLsbD o.tok.val = false) ∧
    (∀ i, o.ctr = some i → (t.getCore n).csr.cnt.get i = (s.getCore n).csr.cnt.get i - 1) ∧
    (∀ p ∈ t.ops, p.id ≠ o.id)

/-- The issue of an operation (R139, R215): it is the last of the operations, its token is pending, its counter has risen,
and the instruction has retired with no other effect. -/
def Issues (cls : Nat) (tok : XReg) (body : Body) (s t : State) : Prop :=
  (∃ o, t.ops = s.ops ++ [o] ∧ o.owner = s.core.owner ∧ o.cls = cls ∧ o.tok = tok ∧ o.body = body ∧ o.pc = s.core.pc ∧
      o.rights = s.rightsOf s.core ∧ o.phase = .issued ∧ o.discard = false) ∧
    (tok ≠ 0 → t.core.pendX.getLsbD tok.val = true) ∧
    (let i : Fin 16 := Fin.ofNat 16 (bitsOf s.core.csr.ccsel 3 0)
     t.core.csr.cnt.get i = s.core.csr.cnt.get i + (if bitOf s.core.csr.ccsel 4 then 1 else 0)) ∧
    SameX s t ∧ SameP s t ∧ SameV s t ∧ SameK s t ∧ (∀ a, t.mem.get a = s.mem.get a) ∧
    Counted s t ∧ (s.core.csr.lpc0 = 0 ∧ s.core.csr.lpc1 = 0 → t.core.pc = s.core.pc + 4)

end Sys2Proof.Machine
end

