-- ==== Sys2Proof/Certificates/Slice0/Obligations.lean ====
section
/-! DEFINITION. The statements about the Z1 that the provers prove. -/
open Sys2Proof Sys2Proof.Machine

/-- R47, R48: each OPR instruction writes xd with its row's value and changes nothing else, but that a division by zero sets
FCSR.DZ (bit 4, R14), even when xd is x0; quotients round toward zero, with the overflow case. -/
def Obligations.AluRegister : Prop :=
  ∀ (s : State) (d ra rb : XReg),
    let a := s.rx ra
    let b := s.rx rb
    let k := b.toNat % 64
    (∀ e ∈ [(Instr.add d ra rb, a + b), (.sub d ra rb, a - b), (.and d ra rb, a &&& b), (.or d ra rb, a ||| b),
        (.xor d ra rb, a ^^^ b), (.sll d ra rb, a <<< k), (.srl d ra rb, a >>> k), (.sra d ra rb, a.sshiftRight k),
        (.rol d ra rb, a <<< k ||| a >>> (64 - k)), (.ror d ra rb, a >>> k ||| a <<< (64 - k)),
        (.slt d ra rb, if a.toInt < b.toInt then 1 else 0), (.sltu d ra rb, if a.toNat < b.toNat then 1 else 0),
        (.min d ra rb, BitVec.ofInt 64 (min a.toInt b.toInt)), (.max d ra rb, BitVec.ofInt 64 (max a.toInt b.toInt)),
        (.minu d ra rb, BitVec.ofNat 64 (min a.toNat b.toNat)), (.maxu d ra rb, BitVec.ofNat 64 (max a.toNat b.toNat)),
        (.mul d ra rb, BitVec.ofNat 64 (a.toNat * b.toNat)),
        (.mulh d ra rb, (BitVec.ofInt 128 (a.toInt * b.toInt)).extractLsb' 64 64),
        (.mulhu d ra rb, (BitVec.ofNat 128 (a.toNat * b.toNat)).extractLsb' 64 64),
        (.popc d ra, BitVec.ofNat 64 ((List.range 64).filter fun i => a.getLsbD i).length)],
      Answers e.1 s fun t => WritesX d e.2 s t ∧ Advances 4 s t) ∧
    (∃ n ≤ 64, (∀ i < n, a.getMsbD i = false) ∧ (n < 64 → a.getMsbD n = true) ∧
      Answers (.clz d ra) s fun t => WritesX d (BitVec.ofNat 64 n) s t ∧ Advances 4 s t) ∧
    (∃ n ≤ 64, (∀ i < n, a.getLsbD i = false) ∧ (n < 64 → a.getLsbD n = true) ∧
      Answers (.ctz d ra) s fun t => WritesX d (BitVec.ofNat 64 n) s t ∧ Advances 4 s t) ∧
    (let qs : Word :=
       if b = 0 then 0
       else if a = 0x8000000000000000 ∧ b = 0xFFFFFFFFFFFFFFFF then 0x8000000000000000
       else BitVec.ofInt 64 (a.toInt.tdiv b.toInt)
     let qu : Word := BitVec.ofNat 64 (a.toNat / b.toNat)
     let s0 := if b = 0 then s.setCsr { s.core.csr with fcsr := s.core.csr.fcsr ||| 16 } else s
     ∀ e ∈ [(Instr.div d ra rb, qs), (.divu d ra rb, qu), (.rem d ra rb, a - qs * b), (.remu d ra rb, a - qu * b)],
       Answers e.1 s fun t => WritesX d e.2 s0 t ∧ Advances 4 s0 t)

/-- The OPI instructions, LIH and ADDPC write xd, with the immediate sign-extended, and change nothing else; the 16-bit
scalar instructions but h.ld, h.sd and h.jmp write the value of their expansion and pass two bytes. -/
def Obligations.AluImmediateAndShort : Prop :=
  ∀ (s : State) (d ra : XReg) (imm : BitVec 12) (sh : BitVec 6) (u : BitVec 20) (f : BitVec 5),
    let a := s.rx ra
    let x := s.rx d
    let i := imm.signExtend 64
    let big := BitVec.ofInt 64 ((BitVec.ofNat 32 (u.toNat * 0x1000)).toInt)
    (∀ e ∈ [(Instr.addi d ra imm, a + i), (.andi d ra imm, a &&& i), (.ori d ra imm, a ||| i), (.xori d ra imm, a ^^^ i),
        (.slli d ra sh, a <<< sh.toNat), (.srli d ra sh, a >>> sh.toNat), (.srai d ra sh, a.sshiftRight sh.toNat),
        (.slti d ra imm, if a.toInt < imm.toInt then 1 else 0), (.sltiu d ra imm, if a.toNat < i.toNat then 1 else 0),
        (.lih d u, big), (.addpc d u, s.core.pc + big)],
      Answers e.1 s fun t => WritesX d e.2 s t ∧ Advances 4 s t) ∧
    (∀ e ∈ [(Instr.hMov d ra, a), (.hAdd d ra, x + a), (.hSub d ra, x - a), (.hAnd d ra, x &&& a), (.hOr d ra, x ||| a),
        (.hXor d ra, x ^^^ a), (.hAddi d f, x + f.signExtend 64), (.hLi d f, f.signExtend 64), (.hSlli d f, x <<< f.toNat),
        (.hSrli d f, x >>> f.toNat), (.hSrai d f, x.sshiftRight f.toNat), (.hMul d ra, x * a), (.hNeg d ra, 0 - a)],
      Answers e.1 s fun t => WritesX d e.2 s t ∧ Advances 2 s t)

/-- CMP, CMPI, the PLOG instructions and SEL: the predicate or register each writes, and nothing else. -/
def Obligations.PredicatesAndSelect : Prop :=
  ∀ (s : State) (p pa pb : PReg) (d ra rb : XReg) (imm : BitVec 12) (g : Guard),
    let a := s.rx ra
    let b := s.rx rb
    let i := imm.signExtend 64
    (∀ e ∈ [(Instr.cmpEq p ra rb, decide (a = b)), (.cmpNe p ra rb, decide (a ≠ b)),
        (.cmpLt p ra rb, decide (a.toInt < b.toInt)), (.cmpGe p ra rb, decide (a.toInt ≥ b.toInt)),
        (.cmpLtu p ra rb, decide (a.toNat < b.toNat)), (.cmpGeu p ra rb, decide (a.toNat ≥ b.toNat)),
        (.cmpiEq p ra imm, decide (a = i)), (.cmpiNe p ra imm, decide (a ≠ i)),
        (.cmpiLt p ra imm, decide (a.toInt < i.toInt)), (.cmpiGe p ra imm, decide (a.toInt ≥ i.toInt)),
        (.cmpiLtu p ra imm, decide (a.toNat < i.toNat)), (.cmpiGeu p ra imm, decide (a.toNat ≥ i.toNat)),
        (.pand p pa pb, s.rp pa && s.rp pb), (.por p pa pb, s.rp pa || s.rp pb), (.pxor p pa pb, xor (s.rp pa) (s.rp pb)),
        (.pnot p pa, !s.rp pa), (.pmov p pa, s.rp pa), (.setp p ra, decide (a ≠ 0))],
      Answers e.1 s fun t => WritesP p e.2 s t ∧ Advances 4 s t) ∧
    (∀ e ∈ [(Instr.movp d pa, if s.rp pa then 1 else 0),
        (.sel g d ra rb, if xor (s.rp g.p) g.neg then a else b)],
      Answers e.1 s fun t => WritesX d e.2 s t ∧ Advances 4 s t)

/-- R54, R55, R56: BR, JAL, JALR and h.jmp set the pc to their target; BR whose condition is false falls through; the
link is PC + 4; an odd target of JALR and h.jmp traps with ALIGN, the target reported and xd unchanged. -/
def Obligations.BranchesAndJumps : Prop :=
  ∀ (s : State) (g : Guard) (off : BitVec 21) (joff : BitVec 20) (imm : BitVec 12) (d ra : XReg),
    let t0 := s.rx ra + imm.signExtend 64
    (Answers (.br g off) s fun t => WritesNothing s t ∧
      if xor (s.rp g.p) g.neg then Jumps (s.core.pc + BitVec.ofInt 64 (off.toInt * 2)) s t else Advances 4 s t) ∧
    (Answers (.jal d joff) s fun t =>
      WritesX d (s.core.pc + 4) s t ∧ Jumps (s.core.pc + BitVec.ofInt 64 (joff.toInt * 2)) s t) ∧
    (t0.toNat % 2 = 0 → Answers (.jalr d ra imm) s fun t => WritesX d (s.core.pc + 4) s t ∧ Jumps t0 s t) ∧
    (t0.toNat % 2 = 1 → exec (.jalr d ra imm) s = .next (s.trap .align t0)) ∧
    ((s.rx ra).toNat % 2 = 0 → Answers (.hJmp ra) s fun t => WritesNothing s t ∧ Jumps (s.rx ra) s t) ∧
    ((s.rx ra).toNat % 2 = 1 → exec (.hJmp ra) s = .next (s.trap .align (s.rx ra)))

/-- R65's while loop, at most n times round: the counts LPC0 and LPC1 and the pc, from the level tested next. -/
def Sys2Proof.loopRule (c : Csrs) (a next : Word) (taken : Bool) : Nat → Word → Word → Option (Fin 2) → Word × Word × Word
  | n + 1, l0, l1, some 0 =>
    if c.lpe0 = a then
      if taken then (l0 - 1, l1, next)
      else if l0 - 1 ≠ 0 then (l0 - 1, l1, c.lps0)
      else loopRule c a next taken n (l0 - 1) l1 none
    else (l0, l1, next)
  | n + 1, l0, l1, some 1 =>
    if c.lpe1 = a then
      if taken then (l0, l1 - 1, next)
      else if l1 - 1 ≠ 0 then (l0, l1 - 1, c.lps1)
      else loopRule c a next taken n l0 (l1 - 1) (if l0 ≠ 0 then some 0 else none)
    else (l0, l1, next)
  | _, l0, l1, _ => (l0, l1, next)

/-- R65: at the retirement of every instruction that falls through (GATE stands for it) or takes a transfer (JAL), the
core applies the back-edge rule, its loop written out as the rule has it. Unless a task may be killed, the pc is the
rule's. -/
def Obligations.BackEdge : Prop :=
  ∀ (s : State) (taken : Bool) (d : XReg) (off : BitVec 20),
    let c := s.core.csr
    let i : Instr := if taken then .jal d off else .gate
    let next := if taken then s.core.pc + BitVec.ofInt 64 (off.toInt * 2) else s.core.pc + 4
    let r := loopRule c s.core.pc next taken 2 c.lpc0 c.lpc1
      (if c.lpc1 ≠ 0 then some 1 else if c.lpc0 ≠ 0 then some 0 else none)
    Answers i s fun t =>
      t.core.csr.lpc0 = r.1 ∧ t.core.csr.lpc1 = r.2.1 ∧ (NoKill s → t.core.pc = r.2.2) ∧ Counted s t ∧
        if taken then WritesX d (s.core.pc + 4) s t else WritesNothing s t

/-- R64: LOOP and LOOPI start the lower inactive level with their count, PC + 4 and the end, fault with LOOPST in the
three cases, and with a count of 0 go on past the last instruction of the body. END is 2 or more (R63). -/
def Obligations.HardwareLoops : Prop :=
  ∀ (s : State) (ra : XReg) (e12 : BitVec 12) (c12 : BitVec 12) (e10 : BitVec 10),
    s.core.pc.toNat + 0x4000 < 2 ^ 64 → 2 ≤ e12.toNat → 2 ≤ e10.toNat →
    let c := s.core.csr
    let a := s.core.pc
    ∀ p ∈ [(Instr.loop ra e12, (s.rx ra).toNat, a.toNat + e12.toNat * 2), (.loopi c12 e10, c12.toNat, a.toNat + e10.toNat * 2)],
      let count := p.2.1
      let last := p.2.2
      let bad := c.lpc1 ≠ 0 ∨ 2 ^ 32 ≤ count ∨ (c.lpc0 ≠ 0 ∧ c.lpe0.toNat < last)
      (bad → exec p.1 s = .next (s.trap .loopst 0)) ∧
      (¬bad → count ≠ 0 → c.lpc0 = 0 → Answers p.1 s fun t =>
        WritesNothing (s.setCsr { c with lps0 := a + 4, lpe0 := BitVec.ofNat 64 last }) t ∧ Counted s t ∧
          t.core.csr.lpc0 = BitVec.ofNat 64 count ∧ t.core.csr.lpc1 = 0 ∧ t.core.pc = a + 4) ∧
      (¬bad → count ≠ 0 → c.lpc0 ≠ 0 → Answers p.1 s fun t =>
        WritesNothing (s.setCsr { c with lps1 := a + 4, lpe1 := BitVec.ofNat 64 last }) t ∧ Counted s t ∧
          t.core.csr.lpc1 = BitVec.ofNat 64 count ∧ t.core.csr.lpc0 = c.lpc0 ∧ t.core.pc = a + 4) ∧
      (¬bad → count = 0 → ∀ u h tag, s.fetchHalf (BitVec.ofNat 64 last) = .ok (u, h, tag) → Answers p.1 s fun t =>
        WritesNothing s t ∧ Counted s t ∧ t.core.csr.lpc0 = c.lpc0 ∧ t.core.csr.lpc1 = c.lpc1 ∧
          t.core.pc = BitVec.ofNat 64 last + (if h % 2 = 1 then 4 else 2)) ∧
      (¬bad → count = 0 → ∀ f v, s.fetchHalf (BitVec.ofNat 64 last) = .error (f, v) →
        exec p.1 s = .next (s.trap f (BitVec.ofNat 64 last)))

/-- R222 of bits [20:0] of a shape: all of its fields are 0, or its rows, its tag with a number of columns, and its scales are
as the rule has them. -/
def Sys2Proof.ShapeOk (v : Word) : Prop :=
  let rows := bitsOf v 5 0
  let cols := bitsOf v 15 8
  let tag := bitsOf v 19 16
  let pairs : List (Fmt × Nat) := [(.i8, 32), (.fp8e4, 32), (.fp8e5, 32), (.fp8e4s, 32), (.fp8e5s, 32), (.bf16, 16),
    (.fp16, 16), (.fp32, 8), (.t2, 128), (.t5, 160)]
  (rows = 0 ∧ cols = 0 ∧ tag = 0 ∧ bitOf v 20 = false) ∨
    (1 ≤ rows ∧ rows ≤ 32 ∧ (∃ e ∈ pairs, tag = fmtNum e.1 ∧ 1 ≤ cols ∧ cols ≤ e.2) ∧
      (bitOf v 20 = true ↔ tag = fmtNum .fp8e4s ∨ tag = fmtNum .fp8e5s))

/-- Who may name a CSR (R13): all in monitor mode; in program mode no monitor CSR, and 0x200 to 0x205 in domain 255
alone. -/
def Sys2Proof.mayName (s : State) (n : Nat) : Prop :=
  s.core.mode = .monitor ∨ (n < 0x300 ∧ (0x200 ≤ n ∧ n ≤ 0x205 → s.core.domain = 255))

/-- The CSRs of R12 and their values. -/
def Sys2Proof.csrTable (s : State) : List (Nat × Word) :=
  let k := s.core.csr
  let vtags (n : Nat) : Word :=
    BitVec.ofNat 64 (((List.finRange 16).map fun i => fmtNum (s.rv (Fin.ofNat 32 (n + i.val))).tag * 16 ^ i.val).sum)
  [(0x000, k.fcsr), (0x001, k.vl), (0x002, k.ccsel), (0x003, k.lpc0), (0x004, k.lps0), (0x005, k.lpe0), (0x006, k.lpc1),
    (0x007, k.lps1), (0x008, k.lpe1), (0x010, k.tkmode), (0x011, k.tbnd), (0x030, k.redmask), (0x031, k.redtmo),
    (0x032, k.mstat), (0x033, k.xbar), (0x100, BitVec.ofNat 64 (s.clock - s.core.resetAt)),
    (0x101, BitVec.ofNat 64 (s.clock / 2)), (0x102, k.instret), (0x110, k.rank), (0x111, k.teamsz), (0x112, k.stage),
    (0x113, k.gangid), (0x114, BitVec.ofNat 64 s.core.num), (0x120, 32), (0x121, 32), (0x122, 1024), (0x123, 0x3F)] ++
  [(0x124, vtags 0), (0x125, vtags 16), (0x126, k.bargen), (0x127, k.baradr), (0x128, k.ttask), (0x130, s.core.domain.setWidth 64),
    (0x131, BitVec.ofNat 64 s.core.gdepth), (0x132, k.accbase), (0x133, k.acclim), (0x200, k.tvec), (0x201, k.tcause),
    (0x202, k.tpc), (0x203, k.tval), (0x204, k.tring), (0x205, k.tflags), (0x300, k.dkentry), (0x301, k.dkresume),
    (0x302, k.dkdata), (0x303, k.dkctx)] ++
  (List.finRange 8).map (fun j => (0x020 + j.val, k.tc.get j)) ++
  (List.finRange 16).map (fun j => (0x040 + j.val, k.tkillv.get j)) ++
  (List.finRange 16).map (fun j => (0x140 + j.val, BitVec.ofNat 64 (k.cnt.get j))) ++
  (List.finRange 4).map (fun j => (0x304 + j.val, k.dkwork.get j))

/-- What a write of v leaves in the CSRs outside the loop levels: their fields, and nothing of a read-only one (R9, R12,
R14, R221, R229, R241, R347). -/
def Sys2Proof.csrWrites (k : Csrs) (v : Word) : List (Nat × Csrs) :=
  [(0x000, { k with fcsr := v &&& 0x1FF }), (0x001, { k with vl := if v.toNat ≤ 32 then v else 32 }),
    (0x002, { k with ccsel := v &&& 0x1F }), (0x010, { k with tkmode := v &&& 3 }), (0x011, { k with tbnd := v }),
    (0x030, { k with redmask := v &&& 0xFFFFFFFF }), (0x031, { k with redtmo := v &&& 0xFFFFF }),
    (0x032, { k with mstat := (v &&& 3) ||| (k.mstat &&& 4) }), (0x033, { k with xbar := v &&& ~~~0xE }),
    (0x200, { k with tvec := v }), (0x201, { k with tcause := v &&& 0xFF }), (0x202, { k with tpc := v }),
    (0x203, { k with tval := v }), (0x204, { k with tring := v }), (0x205, { k with tflags := v &&& 0xFF03 }), (0x300, k),
    (0x301, { k with dkresume := v }), (0x302, { k with dkdata := v }),
    (0x303, { k with dkctx := v &&& 0xFFF000000000003F })] ++
  (List.finRange 8).map (fun j => (0x020 + j.val, { k with tc := k.tc.set j (v &&& 0xFFFFFFFF001FFF3F) })) ++
  (List.finRange 4).map (fun j => (0x304 + j.val, { k with dkwork := k.dkwork.set j v })) ++
  (List.finRange 16).map (fun j => (0x040 + j.val, { k with tkillv := k.tkillv.set j (v &&& ~~~1) })) ++
  ([0x100, 0x101, 0x102, 0x110, 0x111, 0x112, 0x113, 0x114, 0x120, 0x121, 0x122, 0x123, 0x124, 0x125, 0x126, 0x127, 0x128,
    0x130, 0x131, 0x132, 0x133] ++ (List.range 16).map (0x140 + ·)).map (fun n => (n, k))

/-- What a write of v leaves in a loop CSR. -/
def Sys2Proof.loopCsrWrites (k : Csrs) (v : Word) : List (Nat × Csrs) :=
  [(0x003, { k with lpc0 := v &&& 0xFFFFFFFF }), (0x004, { k with lps0 := v &&& ~~~1 }), (0x005, { k with lpe0 := v &&& ~~~1 }),
    (0x006, { k with lpc1 := v &&& 0xFFFFFFFF }), (0x007, { k with lps1 := v &&& ~~~1 }), (0x008, { k with lpe1 := v &&& ~~~1 })]

/-- CSRR puts the value of R12's map into xd; CSRW, CSRS and CSRC put the old value into xd and write xa, old or xa, old
and not xa, in the fields of the CSR alone; a write of a loop CSR replaces what the instruction's own back-edge leaves
(R66), one of a read-only CSR is dropped; the faults of R13, R14, R229 and R274 report the number or the value, and a number that
R12's map does not have faults with ILLEGAL. That TIME and CYCLE show one clock without skew, and that INSTRET reads the count before
the reading instruction, are the model's choices (log 7, log 34). -/
def Obligations.CsrAccess : Prop :=
  ∀ (s : State) (d ra : XReg) (n : BitVec 12),
    let forms (old : Word) : List (Instr × Word) :=
      [(.csrw d n ra, s.rx ra), (.csrs d n ra, old ||| s.rx ra), (.csrc d n ra, old &&& ~~~s.rx ra)]
    let all : List Instr := [.csrr d n, .csrw d n ra, .csrs d n ra, .csrc d n ra]
    let shape : Prop := 0x020 ≤ n.toNat ∧ n.toNat ≤ 0x027
    (∀ old, (n.toNat, old) ∈ csrTable s → mayName s n.toNat →
      (Answers (.csrr d n) s fun t => WritesX d old s t ∧ Advances 4 s t) ∧
      ∀ i ∈ forms old,
        (∀ k, (n.toNat, k) ∈ csrWrites s.core.csr i.2 → (n = 0 → i.2.toNat % 8 < 5) → (n = 0x010 → i.2.toNat % 4 < 2) →
            (shape → ShapeOk i.2) →
          Answers i.1 s fun t => WritesX d old (s.setCsr k) t ∧ Advances 4 (s.setCsr k) t) ∧
        (∀ k, (n.toNat, k) ∈ loopCsrWrites s.core.csr i.2 → ∃ u, WritesX d old s u ∧ Advances 4 s u ∧
          ∃ k', (n.toNat, k') ∈ loopCsrWrites u.core.csr i.2 ∧ exec i.1 s = .next (u.setCsr k')) ∧
        (n = 0 → 5 ≤ i.2.toNat % 8 → exec i.1 s = .next (s.trap .illegal i.2)) ∧
        (n = 0x010 → 2 ≤ i.2.toNat % 4 → exec i.1 s = .next (s.trap .illegal i.2)) ∧
        (shape → ¬ShapeOk i.2 → exec i.1 s = .next (s.trap .illegal i.2))) ∧
    (∀ old, (n.toNat, old) ∈ csrTable s → ¬mayName s n.toNat → ∀ i ∈ all,
      exec i s = .next (s.trap (if 0x300 ≤ n.toNat then .illegal else .rights) (n.setWidth 64))) ∧
    (n.toNat ∉ (csrTable s).map (·.1) → ∀ i ∈ all, exec i s = .next (s.trap .illegal (n.setWidth 64)))

/-- A scalar load: the instruction, xd, its address, its bytes, whether they are sign-extended, its length, and whether it
is strong. -/
abbrev Sys2Proof.LoadForm := Instr × XReg × Word × Nat × Bool × Word × Bool

/-- The scalar loads with their addresses (R40, R58, R176). -/
def Sys2Proof.loadForms (s : State) (d ra : XReg) (imm : BitVec 12) (off : BitVec 10) (sc : Scope) : List LoadForm :=
  let a := s.rx ra + imm.signExtend 64
  let w := s.rx ra + BitVec.ofInt 64 (off.toInt * 4)
  let q := s.rx ra + BitVec.ofInt 64 (off.toInt * 8)
  [(.lb d ra imm, d, a, 1, true, 4, false), (.lbu d ra imm, d, a, 1, false, 4, false), (.lh d ra imm, d, a, 2, true, 4, false),
    (.lhu d ra imm, d, a, 2, false, 4, false), (.lw d ra imm, d, a, 4, true, 4, false),
    (.lwu d ra imm, d, a, 4, false, 4, false), (.ld d ra imm, d, a, 8, false, 4, false),
    (.hLd d ra, d, s.rx ra, 8, false, 2, false), (.lwS sc d ra off, d, w, 4, true, 4, true),
    (.lwA sc d ra off, d, w, 4, true, 4, true), (.ldS sc d ra off, d, q, 8, true, 4, true),
    (.ldA sc d ra off, d, q, 8, true, 4, true)]

/-- A store: the instruction, its condition, xb, its address, its bytes and its length. -/
abbrev Sys2Proof.StoreForm := Instr × Bool × XReg × Word × Nat × Word

/-- The scalar stores with their addresses (R40, R59, R177). -/
def Sys2Proof.storeForms (s : State) (g : Guard) (b ra : XReg) (off : BitVec 8) (soff : BitVec 7) (sc : Scope) : List StoreForm :=
  let go := xor (s.rp g.p) g.neg
  let a (n : Int) := s.rx ra + BitVec.ofInt 64 (off.toInt * n)
  let w (n : Int) := s.rx ra + BitVec.ofInt 64 (soff.toInt * n)
  [(.sb g b ra off, go, b, a 1, 1, 4), (.sh g b ra off, go, b, a 2, 2, 4), (.sw g b ra off, go, b, a 4, 4, 4),
    (.sd g b ra off, go, b, a 8, 8, 4), (.hSd ra b, true, b, s.rx ra, 8, 2), (.swS g sc b ra soff, go, b, w 4, 4, 4),
    (.sdS g sc b ra soff, go, b, w 8, 8, 4), (.swL g sc b ra soff, go, b, w 4, 4, 4), (.sdL g sc b ra soff, go, b, w 8, 8, 4)]

/-- The atomics with their widths and what they write, of the old value, xb and the old xd (R178). -/
def Sys2Proof.atomicForms (p : PReg) (os : AmoOrder) (d b a : XReg) : List (Instr × Amo × Nat) :=
  [(.amoaddW p os d b a, .add, 4), (.amoandW p os d b a, .and, 4), (.amoorW p os d b a, .or, 4), (.amoxorW p os d b a, .xor, 4),
    (.amominW p os d b a, .min, 4), (.amomaxW p os d b a, .max, 4), (.amominuW p os d b a, .minu, 4),
    (.amomaxuW p os d b a, .maxu, 4), (.amoswapW p os d b a, .swap, 4), (.casW p os d b a, .cas, 4),
    (.amoaddD p os d b a, .add, 8), (.amoandD p os d b a, .and, 8), (.amoorD p os d b a, .or, 8), (.amoxorD p os d b a, .xor, 8),
    (.amominD p os d b a, .min, 8), (.amomaxD p os d b a, .max, 8), (.amominuD p os d b a, .minu, 8),
    (.amomaxuD p os d b a, .maxu, 8), (.amoswapD p os d b a, .swap, 8), (.casD p os d b a, .cas, 8)]

/-- The table of R178 at a width of m bits: the value written, if any, of the old value, b and the expected value. -/
def Sys2Proof.amoWrites (m : Nat) (f : Amo) (old b want : BitVec m) : Option (BitVec m) :=
  match f with
  | .add => some (old + b)
  | .and => some (old &&& b)
  | .or => some (old ||| b)
  | .xor => some (old ^^^ b)
  | .min => some (if b.toInt < old.toInt then b else old)
  | .max => some (if old.toInt < b.toInt then b else old)
  | .minu => some (if b.toNat < old.toNat then b else old)
  | .maxu => some (if old.toNat < b.toNat then b else old)
  | .swap => some b
  | .cas => if old = want then some b else none

/-- The value of n bytes as a load writes it to xd. -/
def Sys2Proof.loadedValue (signed : Bool) (n v : Nat) : Word :=
  if signed then BitVec.ofInt 64 (BitVec.ofNat (8 * n) v).toInt else BitVec.ofNat 64 v

/-- The scalar loads write xd with the bytes of their address, lowest first, sign- or zero-extended, and change nothing
else. A strong load, any load from an SO page, and a weak load before which every write is ordered read the bytes as they
are; another weak load reads them as they were before some of the latest writes that nothing orders before it (R184, R185,
R188; that the accesses of cores to RC pages and local stores are performed in program order is the model's choice, log 5). Their checks' faults are taken, and a halting watchpoint halts the core. -/
def Obligations.ScalarLoads : Prop :=
  ∀ (s : State) (d ra : XReg) (imm : BitVec 12) (off : BitVec 10) (sc : Scope),
    ∀ f ∈ loadForms s d ra imm off sc,
      let (i, _, adr, n, signed, len, strong) := f
      (∀ ks, s.access .load adr n = .ok ks →
        ∃ v, s.MayRead adr ks v ∧
          (strong = true ∨ s.pageKindIs 0 adr = true ∨ s.Current adr ks → v = natOfBytes (ks.map s.readKey)) ∧
          Answers i s fun t => WritesX d (loadedValue signed n v) s t ∧ Advances len s t) ∧
      (∀ c v, s.access .load adr n = .fault c v → exec i s = .next (s.trap c v)) ∧
      (∀ w, s.access .load adr n = .halt w → exec i s = .next (s.watchHalt w))

/-- The scalar stores write the low bytes of xb to their address, lowest first, and change nothing else; one whose
condition is false makes no access; an 8-byte store to the register window is one write of that register. -/
def Obligations.ScalarStores : Prop :=
  ∀ (s : State) (g : Guard) (b ra : XReg) (off : BitVec 8) (soff : BitVec 7) (sc : Scope), s.memWf →
    ∀ f ∈ storeForms s g b ra off soff sc,
      let (i, go, _, adr, n, len) := f
      (go = false → Answers i s fun t => WritesNothing s t ∧ Advances 4 s t) ∧
      (go = true → ∀ ks, s.access .store adr n = .ok ks → (∀ k ∈ ks, inRegs k = false) → Answers i s fun t =>
        StoresBytes ks (bytesOfNat n (s.rx b).toNat) s t ∧ WritesNothing { s with mem := t.mem } t ∧ Advances len s t) ∧
      (go = true → ∀ off, n = 8 → off % 8 = 0 → off < 0x100000000 →
        s.access .store adr n = .ok ((List.range 8).map (0x10000000000 + off + ·)) → ∃ u : State, WritesNothing s u ∧
          exec i s = .next ((u.regWrite (.core (s.homeOf s.core.owner)) off (s.rx b)).retire len)) ∧
      (go = true → ∀ c v, s.access .store adr n = .fault c v → exec i s = .next (s.trap c v)) ∧
      (go = true → ∀ w, s.access .store adr n = .halt w → exec i s = .next (s.watchHalt w))

/-- R178, R179: an atomic reads its location into xd, sign-extended from 32 bits, and in the same step writes what the
table says; CAS compares with the old xd. A predicate that is false suppresses it; a window that does not admit it
faults with NOATOMIC. -/
def Obligations.Atomics : Prop :=
  ∀ (s : State) (p : PReg) (os : AmoOrder) (d b a : XReg), s.memWf →
    ∀ f ∈ atomicForms p os d b a,
      let (i, f, n) := f
      let adr := s.rx a
      (s.rp p = false → Answers i s fun t => WritesNothing s t ∧ Advances 4 s t) ∧
      (s.rp p = true → adr.toNat % n ≠ 0 → exec i s = .next (s.trap .align adr)) ∧
      (s.rp p = true → adr.toNat % n = 0 → ∀ c v, s.resolveSteps (s.rightsOf s.core) .atomic adr n = .error (c, v) →
        exec i s = .next (s.trap c v)) ∧
      (s.rp p = true → adr.toNat % n = 0 → ∀ ks, s.resolveSteps (s.rightsOf s.core) .atomic adr n = .ok ks →
        (ks.any inRegs = true → exec i s = .next (s.trap .noatomic adr)) ∧
        (ks.any inRegs = false →
          (f ∈ [Amo.and, .or, .xor, .min, .max, .minu, .maxu] ∨ Config.hostAtomicOps = false) → ks.any inCxlIo = true →
          exec i s = .next (s.trap .noatomic adr)) ∧
        (ks.any inRegs = false → ks.any inCxlIo = false ∨ (f ∈ [Amo.add, .swap, .cas] ∧ Config.hostAtomicOps = true) →
          s.access .atomic adr n = .ok ks →
          let old : BitVec (8 * n) := BitVec.ofNat (8 * n) (natOfBytes (ks.map s.readKey))
          let new := amoWrites (8 * n) f old ((s.rx b).setWidth (8 * n)) ((s.rx d).setWidth (8 * n))
          Answers i s fun t =>
            WritesX d (old.signExtend 64) { s with mem := t.mem } t ∧ Advances 4 s t ∧
              match new with
              | some v => StoresBytes ks (bytesOfNat n v.toNat) s t
              | none => StoresBytes [] [] s t))

/-- R19, R60, R20: what a load or a store whose condition is true checks first. An address that is no multiple of the
size faults with ALIGN, then one in a LOCAL range of R20 with LOCAL; the reported value is the effective address. -/
def Obligations.AlignmentAndHoles : Prop :=
  ∀ (s : State) (d b ra : XReg) (imm : BitVec 12) (off : BitVec 10) (soff : BitVec 8) (toff : BitVec 7) (sc : Scope) (g : Guard),
    let forms : List (Instr × Word × Nat) :=
      (loadForms s d ra imm off sc).map (fun f => (f.1, f.2.2.1, f.2.2.2.1)) ++
        ((storeForms s g b ra soff toff sc).filter fun f => f.2.1).map (fun f => (f.1, f.2.2.2.1, f.2.2.2.2.1))
    ∀ f ∈ forms,
      let (i, adr, n) := f
      (adr.toNat % n ≠ 0 → exec i s = .next (s.trap .align adr)) ∧
      (adr.toNat % n = 0 →
        (0x30000 ≤ adr.toNat ∧ adr.toNat < 0x100000000) ∨
          (0x100000000 ≤ adr.toNat ∧ adr.toNat < 0x110000000 ∧ 0x30000 ≤ adr.toNat % 2 ^ 18) →
        exec i s = .next (s.trap .loc adr))

/-- Program mode in the own local store: a KIND 1 entry of the context that covers the page and a reach of the tag admit
the access, whose bytes are those of the local store; without either it faults with RIGHTS (R166, R204, R351). -/
def Obligations.OwnStoreAccess : Prop :=
  ∀ (s : State) (need : Need) (adr : Word) (n : Nat), n ∈ [1, 2, 4, 8] → adr.toNat % n = 0 → adr.toNat < 0x30000 →
    need ≠ .fetch → s.core.mode = .program →
    let c := s.core
    let home := s.homeOf c.owner
    let page := adr.toNat / 4096
    let tag := (s.getCore home).pageTag page
    let x := s.ctx c.cid
    let reads := need = .load ∨ need = .atomic
    let writes := need = .store ∨ need = .atomic
    let entry := page ≠ 47 ∧ ∃ w ∈ (s.getCore home).pe.toList, peKind w = 1 ∧ peCid w = c.cid ∧ peFirst w ≤ page ∧ page ≤ peLast w
    let reach := (reads → x.reaches false c.domain tag = true) ∧ (writes → x.reaches true c.domain tag = true)
    let keys := (List.range n).map fun j => localKey home (adr.toNat + j)
    (entry ∧ reach → (∀ k ∈ keys, s.poisoned k 1 = false) → (∀ w, bitOf (c.dbg.wctl.get w) 15 = false) →
      s.access need adr n = .ok keys) ∧
    (¬entry ∨ (¬reach ∧ c.inForce = []) → s.access need adr n = .fault .rights adr)

/-- What a FENCE that names path C leaves of the core's place in the order: nothing it read or wrote stays unordered. -/
def Sys2Proof.OrdersSeen (s t : State) : Prop :=
  t.core.views.late = [] ∧ t.core.views.seen.trivial = true ∧
    ∀ e k, s.core.views.seen.covers e k = true → t.core.views.ordered.covers e k = true

/-- FENCE retires once no earlier operation of the core on a path it names is still to be performed, and stalls until
then; it writes no register (R180, R181). With path C it orders what the core has read and written before what follows, and leaves
no load late: that it does so for every KIND, where R181 gives an acquire and a release less, is the model's choice (log 114, log 26). -/
def Obligations.Fences : Prop :=
  ∀ (s : State) (kind : FenceKind) (sc : Scope) (q : Paths),
    let open_ := (s.opsOf s.core.owner).any fun o => o.onPath q
    (open_ = false → Answers (.fence kind sc q) s fun t =>
      WritesNothing s t ∧ Advances 4 s t ∧ (q.c = true → OrdersSeen s t)) ∧
    (open_ = true → Answers (.fence kind sc q) s fun t =>
      Stalls .fence s t) ∧
    (∀ c u, StalledAt .fence (.fence kind sc q) (s.focus c) u →
      ((u.opsOf u.core.owner).any fun o => o.onPath q) = false →
      AnswersOn c (.fenceDrain c) s fun _ t => WritesNothing u t ∧ Advances 4 u t ∧ (q.c = true → OrdersSeen u t))

/-- What a core keeps over a trap, a monitor entry or a return: registers, predicates, masks, vectors, tiles, loans, the
gate frames and the tables. -/
def Sys2Proof.CoreStays (s t : State) : Prop :=
  SameX s t ∧ SameP s t ∧ SameV s t ∧ SameK s t ∧ (∀ i, (t.core.loans.get i).kept = (s.core.loans.get i).kept) ∧
    t.core.gateHw = s.core.gateHw ∧ t.core.gateSpill = s.core.gateSpill ∧ t.core.tiles = s.core.tiles ∧
    t.core.scales = s.core.scales ∧ t.core.lpt = s.core.lpt ∧ t.core.pe = s.core.pe ∧ t.core.pendV = s.core.pendV ∧
    t.core.cid = s.core.cid ∧ t.core.tid = s.core.tid ∧ t.poison = s.poison ∧ t.acc = s.acc ∧ t.accTags = s.accTags

/-- R304 from the state s in which the trap is entered: TCAUSE, TPC, TVAL and TFLAGS, the pc at TVEC in domain 255, and
everything else of the core as it was; without a ring NOREC is set and no byte of memory changes. -/
def Sys2Proof.EntersTrap (cause : Nat) (pcAt val : Word) (s t : State) : Prop :=
  (∃ norec, t.core.csr = { s.core.csr with
      tcause := BitVec.ofNat 64 cause, tpc := pcAt, tval := val
      tflags := BitVec.ofNat 64 (s.core.domain.toNat * 256) ||| norec ||| 1 } ∧ (norec = 0 ∨ norec = 2) ∧
      (s.core.csr.tring = 0 → norec = 2 ∧ t.mem = s.mem)) ∧
    t.core.pc = s.core.csr.tvec ∧ t.core.domain = 255 ∧ t.core.mode = .program ∧ t.core.pfb = [] ∧ CoreStays s t

/-- R305 from the state s in which the trap is entered: no entry at TVEC; the thread passes to Deckle with monitor event
2, the trap's cause, value and pc, and its gang is FAILED. -/
def Sys2Proof.DoubleTraps (cause : Nat) (pcAt val : Word) (s t : State) : Prop :=
  t.core.csr = { s.core.csr with
      dkentry := BitVec.ofNat 64 (2 * 2 ^ 40 + cause * 2 ^ 32 + (bitsOf s.core.csr.dkentry 31 0 + 1) % 2 ^ 32)
      dkdata := val, dkresume := (pcAt &&& ~~~1) ||| 1 } ∧
    t.core.pc = 0x2F100 ∧ t.core.mode = .monitor ∧ t.core.domain = s.core.domain ∧ CoreStays s t ∧
    (∀ u, s.coreThread s.core = some u → ∀ g ∈ t.gangs, g.id = u.gang → g.state ≠ .running)

/-- A fault in monitor mode stops the core, and every interface whose context holds it moves to ERROR (R346): those of
protected contexts, which alone have one (R357). -/
def Sys2Proof.StopsCore (s t : State) : Prop :=
  t.core.stopped = true ∧ t.core.pc = s.core.pc ∧ t.core.csr = s.core.csr ∧ t.core.mode = .monitor ∧ CoreStays s t ∧
    t.mem = s.mem ∧
    ∀ l, (Thing.core s.core.num, Own.assigned l) ∈ s.sec.owned → ∀ x ∈ t.sec.contexts, x.cid ∈ l → x.protect = true → x.iface = .error

/-- The 64 bytes of the record of a trap of core c, delivered, at the index seq (R304, R308). -/
def Sys2Proof.trapRecord (c : Core) (cause seq : Nat) (pcAt val time : Word) : List Byte :=
  bytesOfNat 1 cause ++ [0, 2, c.domain] ++ bytesOfNat 2 (bitsOf c.csr.rank 9 0) ++ [0, 0] ++ bytesOfNat 8 pcAt.toNat ++
    bytesOfNat 8 val.toNat ++ bytesOfNat 4 c.num ++ bytesOfNat 4 (bitsOf c.csr.gangid 31 0) ++ bytesOfNat 8 time.toNat ++
    List.replicate 8 0 ++ bytesOfNat 4 seq ++ List.replicate 12 0

/-- R308 of the bytes h of a ring's header: its fields are in range. -/
def Sys2Proof.RingHeader (h : List Byte) : Prop :=
  fieldAt h 0 8 % 64 = 0 ∧ 1 ≤ fieldAt h 8 1 ∧ fieldAt h 8 1 ≤ 16 ∧ fieldAt h 9 7 = 0 ∧ fieldAt h 20 4 = 0 ∧
    fieldAt h 28 4 < 2 ∧ fieldAt h 32 32 = 0

/-- R304, R308, R310 of the ring of state s, whose header has the keys ks: with room the record is written under domain 255 and PROD
goes past it, NOREC clear; a full ring, and one whose header is out of range, takes LOST and the trap NOREC. -/
def Sys2Proof.WritesTrapRecord (cause : Nat) (pcAt val : Word) (ks : List Nat) (s t : State) : Prop :=
  let h := ks.map s.readKey
  let n := 2 ^ fieldAt h 8 1
  let prod := fieldAt h 16 4
  let full := (prod + 2 ^ 32 - fieldAt h 24 4) % 2 ^ 32 = n
  let lost : Prop := bitOf t.core.csr.tflags 1 = true ∧ StoresBytes ((ks.drop 28).take 1) [BitVec.ofNat 8 (fieldAt h 28 1) ||| 1] s t
  (¬RingHeader h ∨ full → lost) ∧
  ∀ es, RingHeader h → ¬full →
    s.resolveAll (s.rightsOf s.core).runtime .store (BitVec.ofNat 64 (fieldAt h 0 8 + 64 * (prod % n))) 64 = .ok es →
    (∀ k ∈ es, inRegs k = false) → bitOf t.core.csr.tflags 1 = false ∧
      StoresBytes (es ++ (ks.drop 16).take 4)
        (trapRecord s.core cause prod pcAt val (BitVec.ofNat 64 (s.clock / 2)) ++ bytesOfNat 4 (prod + 1)) s t

/-- R304, R305, R308, R310, R346: trap entry on the core in focus; a convoy follower detaches first. R6, R42, R21: a reserved encoding
faults with ILLEGAL and reports itself, a failed fetch with its cause and value; the fault is entered as a trap at the
instruction's own address, with nothing of the instruction done. A thread in a calender run first ends the run (R296). -/
def Obligations.TrapEntry : Prop :=
  ∀ (s : State) (cause : Cause) (pcAt val : Word) (w : BitVec 32),
    let e := s.detach
    (s.core.mode = .program → bitOf e.core.csr.tflags 0 = false → e.tvecOk e.core = true →
      EntersTrap (causeCode cause) pcAt val s (s.trapEntry cause pcAt val)) ∧
    (s.core.mode = .program → bitOf e.core.csr.tflags 0 = false → e.tvecOk e.core = true → s.memWf → ∀ ks,
      s.core.csr.tring ≠ 0 → s.core.csr.tring.toNat % 64 = 0 →
      e.resolveAll (e.rightsOf e.core).runtime .atomic s.core.csr.tring 64 = .ok ks → (∀ k ∈ ks, e.poisoned k 1 = false) →
      (∀ k ∈ ks, inRegs k = false) →
      WritesTrapRecord (causeCode cause) pcAt val ks e (s.trapEntry cause pcAt val)) ∧
    (s.core.mode = .program → bitOf e.core.csr.tflags 0 = true ∨ e.tvecOk e.core = false →
      DoubleTraps (causeCode cause) pcAt val s (s.trapEntry cause pcAt val)) ∧
    (s.core.mode = .monitor → StopsCore s (s.trapEntry cause pcAt val) ∧ StopsCore s (s.trap cause val)) ∧
    exec (.reservedEncoding w) s = .next (s.trap .illegal (w.setWidth 64)) ∧
    exec (.instructionFetchFault cause val) s = .next (s.trap cause val) ∧
    (s.core.mode = .program → (∀ x v, s.calFault s.core x v = s) → bitOf e.core.csr.tflags 0 = false → e.tvecOk e.core = true →
      (Answers (.reservedEncoding w) s fun t => EntersTrap 1 s.core.pc (w.setWidth 64) s t) ∧
        Answers (.instructionFetchFault cause val) s fun t => EntersTrap (causeCode cause) s.core.pc val s t)

/-- R70, R71, R346: TRAP, BRK and MCALL retire and count once, with the back-edge; then the trap is entered, or monitor
mode, at the address that comes next; only an entry that installs a new Deckle image changes memory (R358). In monitor mode each
faults with ILLEGAL. -/
def Obligations.TrapRequests : Prop :=
  ∀ (s : State) (imm : BitVec 12),
    let r := s.retire 4
    let e := r.detach
    let v := imm.setWidth 64
    WritesNothing s r ∧ Advances 4 s r ∧
    (s.core.mode = .program → bitOf e.core.csr.tflags 0 = false → e.tvecOk e.core = true →
      (Answers (.trap imm) s fun t => EntersTrap 0x11 r.core.pc v r t) ∧
        Answers (.brk imm) s fun t => EntersTrap 0x10 r.core.pc v r t) ∧
    (s.core.mode = .program → bitOf e.core.csr.tflags 0 = true ∨ e.tvecOk e.core = false →
      (Answers (.trap imm) s fun t => DoubleTraps 0x11 r.core.pc v r t) ∧
        Answers (.brk imm) s fun t => DoubleTraps 0x10 r.core.pc v r t) ∧
    (s.core.mode = .program → Answers (.mcall imm) s fun t =>
      t.core.csr = { r.core.csr with
        dkentry := BitVec.ofNat 64 (2 ^ 40 + 0x12 * 2 ^ 32 + (bitsOf s.core.csr.dkentry 31 0 + 1) % 2 ^ 32)
        dkdata := v, dkresume := (r.core.pc &&& ~~~1) ||| 1 } ∧
      t.core.pc = 0x2F080 ∧ t.core.mode = .monitor ∧ t.core.domain = s.core.domain ∧
        (r.core.deckle = r.sec.deckle.1 → t.mem = s.mem) ∧ CoreStays s t) ∧
    (s.core.mode = .monitor → ∀ i ∈ [Instr.trap imm, .brk imm, .mcall imm], exec i s = .next (s.trap .illegal v))

/-- R348: MRET returns to program mode at DKRESUME, clears its ARM bit and takes the domain of the page there, local or global;
unarmed it stops the core, in program mode it faults with ILLEGAL and reports its word. That DOMAIN stays where no leaf maps the
page is the model's choice (log 42). -/
def Obligations.MonitorReturn : Prop :=
  ∀ (s : State),
    let t0 := s.core.csr.dkresume &&& ~~~1
    (s.core.mode = .monitor → bitOf s.core.csr.dkresume 0 = true → Answers .mret s fun t =>
      t.core.mode = .program ∧ t.core.pc = t0 ∧ bitOf t.core.csr.dkresume 0 = false ∧ t.core.pfb = [] ∧
        t.core.csr.instret = s.core.csr.instret ∧ t.mem = s.mem ∧ CoreStays s t ∧
        (t0.toNat < 0x30000 →
          t.core.domain = (s.getCore (s.homeOf s.core.owner)).lpt.toList[t0.toNat / 4096]?.getD 0) ∧
        (0x110000000 ≤ t0.toNat → t.core.domain =
          match s.leafFor s.core.num s.core.cid t0.toNat with | .ok (leaf, _) => leafTag leaf | .error _ => s.core.domain)) ∧
    (s.core.mode = .monitor → bitOf s.core.csr.dkresume 0 = false → Answers .mret s fun t => StopsCore s t) ∧
    (s.core.mode = .program → exec .mret s = .next (s.trap .illegal 0x000C002B))

/-- R205, R207, R208, R307: GATE only retires; CALLG pushes a frame and enters the target's domain; RETG pops it, ends
the loans of the gate it leaves and returns; TRET leaves the trap's domain for PDOM and clears INTRAP. Their checks come
before any change, in order, with the value each reports. No transfer of theirs is an eager kill point (R280). -/
def Obligations.Gates : Prop :=
  ∀ (s : State) (ra : XReg) (imm : BitVec 12),
    let t0 := s.rx ra + imm.signExtend 64
    let c := s.core
    let pdom : Byte := BitVec.ofNat 8 (bitsOf c.csr.tflags 15 8)
    (Answers .gate s fun t => WritesNothing s t ∧ Advances 4 s t) ∧
    (t0.toNat % 2 = 1 → exec (.callg ra imm) s = .next (s.trap .align t0)) ∧
    (t0.toNat % 2 = 0 → ∀ f, s.fetchWordAt t0 = .error f → exec (.callg ra imm) s = .next (s.trap f t0)) ∧
    (t0.toNat % 2 = 0 → ∀ u w tag, s.fetchWordAt t0 = .ok (u, w, tag) →
      (w ≠ 0x2D → exec (.callg ra imm) s = .next (u.trap .gate t0)) ∧
      (w = 0x2D → c.gdepth = 256 → exec (.callg ra imm) s = .next (u.trap .gstack 256)) ∧
      (w = 0x2D → c.gdepth < 256 → Answers (.callg ra imm) s fun t =>
        t.core.pc = t0 ∧ t.core.domain = tag ∧ t.core.gdepth = c.gdepth + 1 ∧ t.core.gateHw.head? = some ⟨c.pc + 4, c.domain⟩ ∧
          Counted s t ∧ t.mem = s.mem ∧ SameX s t ∧ SameP s t ∧ SameV s t ∧ SameK s t)) ∧
    (c.gdepth = 0 → exec .retg s = .next (s.trap .gstack 0)) ∧
    (∀ f rest, c.gateHw = f :: rest →
      (∀ g v, s.fetchTag (s.rightsOf c) f.ret = .error (g, v) → exec .retg s = .next (s.trap g f.ret)) ∧
      (∀ tag, s.fetchTag (s.rightsOf c) f.ret = .ok tag → tag ≠ f.caller → exec .retg s = .next (s.trap .gate f.ret)) ∧
      (s.fetchTag (s.rightsOf c) f.ret = .ok f.caller → Answers .retg s fun t =>
        t.core.pc = f.ret ∧ t.core.domain = f.caller ∧ t.core.gdepth + 1 = c.gdepth ∧ Counted s t ∧ t.mem = s.mem ∧
          SameX s t ∧ SameP s t ∧ SameV s t ∧ SameK s t ∧
          ∀ i, (t.core.loans.get i).state =
            if (c.loans.get i).state = .active ∧ c.gdepth - 1 ≤ (c.loans.get i).depth then .ended else (c.loans.get i).state)) ∧
    (c.domain ≠ 255 → exec .tret s = .next (s.trap .rights c.csr.tpc)) ∧
    (c.domain = 255 → c.csr.tpc.toNat % 2 = 1 → exec .tret s = .next (s.trap .align c.csr.tpc)) ∧
    (c.domain = 255 → c.csr.tpc.toNat % 2 = 0 →
      (∀ g v, s.fetchTag (s.rightsOf c) c.csr.tpc = .error (g, v) → exec .tret s = .next (s.trap g c.csr.tpc)) ∧
      (∀ tag, s.fetchTag (s.rightsOf c) c.csr.tpc = .ok tag → tag ≠ pdom → exec .tret s = .next (s.trap .gate c.csr.tpc)) ∧
      (s.fetchTag (s.rightsOf c) c.csr.tpc = .ok pdom → Answers .tret s fun t =>
        t.core.pc = c.csr.tpc ∧ t.core.domain = pdom ∧ bitOf t.core.csr.tflags 0 = false ∧
          bitsOf t.core.csr.tflags 15 8 = pdom.toNat ∧ Counted s t ∧ t.mem = s.mem ∧
          SameX s t ∧ SameP s t ∧ SameV s t ∧ SameK s t))

/-- R212: LEND.R and LEND.RW. The lowest FREE entry takes the loan, with the in-force loan of greatest depth that covers it
as parent; no FREE entry gives all ones; the length and the range are checked first. -/
def Obligations.Lend : Prop :=
  ∀ (s : State) (d ra rb : XReg),
    let c := s.core
    let base := s.rx ra
    let len := (s.rx rb).toNat
    let fits (rw : Bool) (i : Fin 8) : Prop :=
      i ∈ c.inForce ∧ (c.loans.get i).base.toNat ≤ base.toNat ∧
        base.toNat + len ≤ (c.loans.get i).base.toNat + (c.loans.get i).len ∧ (rw = true → (c.loans.get i).rw = true)
    let parentRule (rw : Bool) (p : Option (Fin 8)) : Prop :=
      match p with
      | none => ∀ i, ¬fits rw i
      | some p => fits rw p ∧ ∀ i, fits rw i →
          (c.loans.get i).depth < (c.loans.get p).depth ∨ ((c.loans.get i).depth = (c.loans.get p).depth ∧ p ≤ i)
    let region : Prop := base.toNat + len ≤ 0x30000 ∨
      (0x100000000 ≤ base.toNat ∧ base.toNat < 0x110000000 ∧ base.toNat % 2 ^ 18 + len ≤ 0x30000) ∨
      (0x110000000 ≤ base.toNat ∧ base.toNat + len ≤ 2 ^ 56)
    ∀ f ∈ [(Instr.lendR d ra rb, false), (.lendRw d ra rb, true)],
      (len = 0 ∨ 2 ^ 32 < len → exec f.1 s = .next (s.trap .illegal (s.rx rb))) ∧
      (0 < len ∧ len ≤ 2 ^ 32 → ¬region → exec f.1 s = .next (s.trap .rights base)) ∧
      (0 < len ∧ len ≤ 2 ^ 32 → region → (∀ i, (c.loans.get i).state ≠ .free) →
        Answers f.1 s fun t => WritesX d (BitVec.allOnes 64) s t ∧ Advances 4 s t) ∧
      (0 < len ∧ len ≤ 2 ^ 32 → region → ∀ e, (c.loans.get e).state = .free → (∀ i < e, (c.loans.get i).state ≠ .free) →
        ∃ p, parentRule f.2 p ∧ Answers f.1 s fun t =>
          WritesX d (BitVec.ofNat 64 e.val)
            { s with core := { c with loans := c.loans.set e ⟨.active, base, len, f.2, c.domain, c.gdepth, p, 0⟩ } } t ∧
            Advances 4 s t)

/-- R213, R214: RECL ends a loan of its lender for code at once and, once nothing holds it, frees it with every entry whose
parent chain reaches it; LOANQ writes the status word. -/
def Obligations.ReclAndLoanq : Prop :=
  ∀ (s : State) (d ra : XReg),
    let v := s.rx ra
    let freed (u : State) (e : Fin 8) : State := { u with core := { u.core with
      loans := Vector.ofFn fun i => if e ∈ parentChain u.core.loans 8 i then Loan.empty else u.core.loans.get i } }
    (8 ≤ v.toNat → exec (.recl ra) s = .next (s.trap .illegal v)) ∧
    (∀ e : Fin 8, v.toNat = e.val →
      let l := s.core.loans.get e
      (l.state = .free → Answers (.recl ra) s fun t => WritesNothing s t ∧ Advances 4 s t) ∧
      (l.state ≠ .free → l.lender ≠ s.core.domain → exec (.recl ra) s = .next (s.trap .rights v)) ∧
      (l.state ≠ .free → l.lender = s.core.domain → l.holds = 0 →
        Answers (.recl ra) s fun t => WritesNothing (freed s e) t ∧ Advances 4 s t) ∧
      (l.state ≠ .free → l.lender = s.core.domain → l.holds ≠ 0 → Answers (.recl ra) s fun t =>
        Stalls .recl { s with core := { s.core with loans := s.core.loans.set e { l with state := .ended } } } t)) ∧
    (∀ c u e, StalledAt .recl (.recl ra) (s.focus c) u → (u.rx ra).toNat = e.val → (u.core.loans.get e).holds = 0 →
      AnswersOn c (.reclFree c) s fun _ t => WritesNothing (freed u e) t ∧ Advances 4 u t) ∧
    (∀ e : Fin 8, v.toNat = e.val → Answers (.loanq d ra) s fun t =>
      let l := s.core.loans.get e
      let st := match l.state with | .free => 0 | .active => 1 | .ended => 2
      let parent := match l.parent with | some p => p.val | none => 15
      WritesX d (BitVec.ofNat 64 (st + (if l.rw then 8 else 0) + l.lender.toNat * 2 ^ 8 + l.depth * 2 ^ 16 + parent * 2 ^ 32 +
        l.holds * 2 ^ 48)) s t ∧ Advances 4 s t) ∧
    (8 ≤ v.toNat → Answers (.loanq d ra) s fun t => WritesX d 0 s t ∧ Advances 4 s t)

/-- R147: the fields of a barrier record of 16 bytes, and that its bytes are those of its fields. -/
def Sys2Proof.recordFields (l : List Byte) (r : BarRec) : Prop :=
  let w0 := wordOfBytes (l.take 8)
  let w1 := wordOfBytes (l.drop 8)
  r.gen = bitsOf w0 31 0 ∧ r.expect = bitsOf w0 47 32 ∧ r.arrived = bitsOf w0 63 48 ∧ r.beats = bitsOf w1 31 0 ∧
    r.scope = bitsOf w1 33 32 ∧ r.stray = bitOf w1 34 ∧ r.tmo = bitsOf w1 63 40 ∧ r.bytes = l

/-- R147, R148, R149: the fields of a barrier record; BAR.INIT, BAR.ARR and BAR.SYNC update it as one operation and
change no other byte; BARGEN and BARADR keep the arrival; BAR.SYNC goes on when its own arrival releases the generation,
else it waits; the address is aligned to 16 bytes and checked as R60 does, EXPECT before it: a hole faults with LOCAL, a page of
the own store that no entry gives the context with RIGHTS. That BAR.WAIT is checked as a load and the others as atomics is the model's
reading (log 52). -/
def Obligations.BarrierUpdates : Prop :=
  (∀ l : List Byte, l.length = 16 → recordFields l (BarRec.ofBytes l)) ∧
  ∀ (s : State) (ra rb : XReg), s.memWf →
    let a := s.rx ra
    let v := s.rx rb
    let csr := s.core.csr
    (bitsOf v 15 0 = 0 → exec (.barInit ra rb) s = .next (s.trap .illegal v)) ∧
    (∀ i ∈ [Instr.barInit ra rb, .barArr ra, .barSync ra, .barWait ra], i ≠ .barInit ra rb ∨ bitsOf v 15 0 ≠ 0 →
      a.toNat % 16 ≠ 0 → exec i s = .next (s.trap .align a)) ∧
    (∀ i ∈ [(Instr.barInit ra rb, Need.atomic), (.barArr ra, .atomic), (.barSync ra, .atomic), (.barWait ra, .load)],
      i.1 ≠ .barInit ra rb ∨ bitsOf v 15 0 ≠ 0 →
      (∀ f w, s.access i.2 a 16 = .fault f w → exec i.1 s = .next (s.trap f w)) ∧
      (a.toNat % 16 = 0 → (0x30000 ≤ a.toNat ∧ a.toNat < 0x100000000) ∨
        (0x100000000 ≤ a.toNat ∧ a.toNat < 0x110000000 ∧ 0x30000 ≤ a.toNat % 2 ^ 18) → exec i.1 s = .next (s.trap .loc a)) ∧
      (a.toNat % 16 = 0 → a.toNat < 0x30000 → s.core.mode = .program →
        (¬∃ w ∈ (s.getCore (s.homeOf s.core.owner)).pe.toList, peKind w = 1 ∧ peCid w = s.core.cid ∧
          peFirst w ≤ a.toNat / 4096 ∧ a.toNat / 4096 ≤ peLast w) → exec i.1 s = .next (s.trap .rights a))) ∧
    (∀ ks, s.access .atomic a 16 = .ok ks → (∀ k ∈ ks, inRegs k = false) →
      let r := BarRec.ofBytes (ks.map s.readKey)
      let init : BarRec :=
        ⟨(r.gen + 1) % 2 ^ 32, bitsOf v 15 0, 0, 0, bitsOf v 33 32, false, bitsOf v 63 40 * 32⟩
      let n := (r.arrived + 1) % 2 ^ 16
      let arr : BarRec :=
        if r.expect ≤ n ∧ r.beats = 0 then { r with gen := (r.gen + 1) % 2 ^ 32, arrived := n - r.expect }
        else { r with arrived := n }
      let noted := s.setCsr { csr with bargen := BitVec.ofNat 64 (2 ^ 32 + r.gen), baradr := a }
      (bitsOf v 15 0 ≠ 0 → Answers (.barInit ra rb) s fun t =>
        StoresBytes ks init.bytes s t ∧ WritesNothing { s with mem := t.mem } t ∧ Advances 4 s t) ∧
      (Answers (.barArr ra) s fun t =>
        StoresBytes ks arr.bytes s t ∧ WritesNothing { noted with mem := t.mem } t ∧ Advances 4 noted t) ∧
      (bitOf csr.bargen 32 = false ∨ csr.baradr ≠ a → (ks.map hostKey).Nodup → s.histOk → s.core.wait = none →
        (r.expect ≤ n ∧ r.beats = 0 → Answers (.barSync ra) s fun t =>
          StoresBytes ks arr.bytes s t ∧
            WritesNothing { s.setCsr { csr with bargen := BitVec.ofNat 64 r.gen, baradr := a } with mem := t.mem } t ∧
            Advances 4 (s.setCsr { csr with bargen := BitVec.ofNat 64 r.gen, baradr := a }) t) ∧
        (¬(r.expect ≤ n ∧ r.beats = 0) → csr.taskValid = false → Answers (.barSync ra) s fun t =>
          StoresBytes ks arr.bytes s t ∧ Blocks (.barrier a s.clock r.tmo) { noted with mem := t.mem } t)))

/-- GEN of the record at the keys as the writes to it before a deadline left it: TMO microseconds of 2,000 cycles after the
cycle a wait began, or none where TMO is 0 (R150). -/
def Sys2Proof.genInTime (s : State) (ks : List Nat) (since tmo : Nat) : Nat :=
  let late := (s.writesTo (ks.map hostKey)).filter fun e => tmo != 0 && decide (since + 2000 * tmo ≤ e.clock)
  natOfBytes ((ks.take 4).map fun k => before late (s.readKey k) (hostKey k))

/-- R149, R150: BAR.WAIT retires without an arrival at its record; it, and BAR.SYNC that has arrived there, ends once GEN
has moved, with BARGEN.VALID cleared, and until then the core waits; BAR_WAIT_WAKE and BAR_TIMEOUT end a wait whose GEN has
moved within TMO microseconds, and fault with TIMEOUT one that has lasted them. A read of the record corrects its single-bit errors (R165); a watchpoint on it
halts the core, which is stable once the wait is over (R321). -/
def Obligations.BarrierWaits : Prop :=
  ∀ (s : State) (ra : XReg) (ks : List Nat),
    let a := s.rx ra
    let csr := s.core.csr
    let here := bitOf csr.bargen 32 = true ∧ csr.baradr = a
    let done (u : State) := u.setCsr { u.core.csr with bargen := u.core.csr.bargen &&& 0xFFFFFFFF }
    let overdue (since tmo : Nat) : Prop := tmo ≠ 0 ∧ since + 2000 * tmo ≤ s.clock
    (s.access .load a 16 = .ok ks → ¬here → Answers (.barWait ra) s fun t => WritesNothing s t ∧ Advances 4 s t) ∧
    (∀ f ∈ [(Instr.barWait ra, Need.load), (.barSync ra, .atomic)], s.access f.2 a 16 = .ok ks → here → s.core.wait = none →
      s.histOk →
      let r := BarRec.ofBytes (ks.map s.readKey)
      (r.gen ≠ bitsOf csr.bargen 31 0 → Answers f.1 s fun t => WritesNothing (done s) t ∧ Advances 4 (done s) t) ∧
      (r.gen = bitsOf csr.bargen 31 0 → csr.taskValid = false → Answers f.1 s fun t => Blocks (.barrier a s.clock r.tmo) s t)) ∧
    (∀ c adr since tmo, (s.focus c).core.wait = some (.barrier adr since tmo) →
      let moved : Prop := genInTime (s.focus c) ks since tmo ≠ bitsOf (s.focus c).core.csr.bargen 31 0
      ((s.focus c).access .load adr 16 = .ok ks →
        (moved → AnswersOn c (.barWaitWake c) s fun u t => WritesNothing (done u) t ∧ Advances 4 (done u) t) ∧
        (moved → overdue since tmo → AnswersOn c (.barTimeout c) s fun u t => WritesNothing (done u) t ∧ Advances 4 (done u) t) ∧
        (¬moved → overdue since tmo → ∀ i ∈ [Instr.barWaitWake c, .barTimeout c], AnswersOn c i s fun u t =>
          t = (u.correct ks).trap .timeout adr) ∧
        (¬moved → ¬overdue since tmo → AnswersOn c (.barWaitWake c) s fun u t => t = u.correct ks)) ∧
      (∀ w, (s.focus c).access .load adr 16 = .halt w → AnswersOn c (.barWaitWake c) s fun u t =>
        t = u.watchHalt w ∧ t.core.dbg.halted = true ∧ t.core.dbg.stable = false) ∧
      (¬overdue since tmo → AnswersOn c (.barTimeout c) s fun u t => t = u) ∧
      (overdue since tmo → (∀ l, (s.focus c).access .load adr 16 ≠ .ok l) → AnswersOn c (.barTimeout c) s fun u t =>
        t = u.trap .timeout adr))

/-- R72, R73, R153, R154, R155: IDLE, YIELD, WAITA, WAITA.GE and CWAIT retire when what they wait for holds, wait or
stall until then, and the events that end each wait retire them; YIELD at any time from 16 cycles on, where R73 says 16, which is the model's
reading (log 50). R139: an instruction stalls on a pending register, or an
issue on a counter at 63, until the register is written, or the counter has fallen; that one whose guard is false names no register is
the model's reading (log 32). -/
def Obligations.Waits : Prop :=
  ∀ (s : State) (ra rb : XReg) (cn : Fin 16) (n : Fin 32) (c : Nat),
    let k := s.focus c
    let holds (ge : Bool) (m v : Word) : Prop := if ge then 0 ≤ (m - v).toInt else m ≠ v
    (s.core.wake = true → Answers .idle s fun t => WritesNothing s t ∧ Advances 4 s t ∧ t.core.wake = false) ∧
    (s.core.wake = false → s.core.csr.taskValid = false → Answers .idle s fun t => Blocks .idle s t) ∧
    (k.core.wait = some .idle → k.core.wake = true → AnswersOn c (.idleWake ⟨c, false⟩) s fun u t =>
      WritesNothing u t ∧ Advances 4 u t ∧ t.core.wake = false ∧ t.core.wait = none) ∧
    (k.core.wait = some .idle → AnswersOn c (.idleWake ⟨c, true⟩) s fun u t =>
      WritesNothing u t ∧ Advances 4 u t ∧ t.core.wake = false ∧ t.core.wait = none) ∧
    (Answers .yield s fun t => Blocks (.yield s.clock) s t) ∧
    (∀ since, k.core.wait = some (.yield since) → since + 16 ≤ s.clock → AnswersOn c (.yieldEnd c) s fun u t =>
      WritesNothing u t ∧ Advances 4 u t ∧ t.core.wait = none) ∧
    (∀ f ∈ [(Instr.waita ra rb, false), (.waitaGe ra rb, true)],
      ((s.rx ra).toNat % 8 ≠ 0 → exec f.1 s = .next (s.trap .align (s.rx ra))) ∧
      ∀ ks, s.access .load (s.rx ra) 8 = .ok ks →
        let m := wordOfBytes (ks.map s.readKey)
        (holds f.2 m (s.rx rb) → Answers f.1 s fun t => WritesNothing s t ∧ Advances 4 s t) ∧
        (¬holds f.2 m (s.rx rb) → s.core.csr.taskValid = false → Answers f.1 s fun t => Blocks (.waita f.2 (s.rx ra) (s.rx rb)) s t)) ∧
    (∀ ge a v ks, k.core.wait = some (.waita ge a v) → k.access .load a 8 = .ok ks → holds ge (wordOfBytes (ks.map k.readKey)) v →
      AnswersOn c (.waitaWake c) s fun u t => WritesNothing u t ∧ Advances 4 u t ∧ t.core.wait = none) ∧
    (s.core.csr.cnt.get cn ≤ n.val → Answers (.cwait cn n) s fun t => WritesNothing s t ∧ Advances 4 s t) ∧
    (n.val < s.core.csr.cnt.get cn → Answers (.cwait cn n) s fun t => Stalls .cwait s t) ∧
    (∀ u, StalledAt .cwait (.cwait cn n) k u → u.core.csr.cnt.get cn ≤ n.val →
      AnswersOn c (.cwaitWake c) s fun _ t => WritesNothing u t ∧ Advances 4 u t) ∧
    (∀ i u, StalledAt .register i k u → AnswersOn c (.tokenStallRelease c) s fun _ t =>
      t = { u with core := { u.core with stall := none } }) ∧
    (∀ i u, StalledAt .counter i k u →
      (u.core.counterFull = false → AnswersOn c (.counterRoom c) s fun _ t =>
        t = { u with core := { u.core with stall := none } }) ∧
      (u.core.counterFull = true → AnswersOn c (.counterRoom c) s fun _ t => t = u)) ∧
    (∀ i : Instr, k.core.namesPending i = true ↔
      (∀ g, i.guard? = some g → xor (k.rp g.p) g.neg = true) ∧
        ((∃ r ∈ i.xregs, k.core.pendX.getLsbD r.val = true) ∨ ∃ r ∈ i.vregs, k.core.pendV.getLsbD r.val = true))

/-- R144: FORK reads its record, each word by its own page's kind (R175), writes the number of workers to its cell and to xd, and gives
the forker subrange 0 and each recruit, a parked member of the team by increasing rank, the next: its x10 to x13 and its pc are written
at once. FORK checks BODY as the forker fetches it; a BODY that the recruit cannot fetch faults there. That x10 to x13 are written at
once, a pending one too, is the model's choice (log 122), and so is which writes a read of an RC page may miss (log 5). -/
def Obligations.Fork : Prop :=
  ∀ (s : State) (d ra : XReg) (ks cell : List Nat) (dom : Byte), s.memWf →
    let xa := s.rx ra
    let ps := s.recruitable s.core
    let adr : Word := if xa.toNat < 0x30000 then
      BitVec.ofNat 64 (0x100000000 + bitsOf s.core.csr.rank 9 0 * 0x40000 + xa.toNat + 24) else xa + 24
    let word (i : Nat) := (ks.drop (8 * i)).take 8
    let at_ (i : Nat) : Word := xa + BitVec.ofNat 64 (8 * i)
    (xa.toNat % 8 ≠ 0 → exec (.fork d ra) s = .next (s.trap .align xa)) ∧
    (∀ f v, s.accessAs (s.rightsOf s.core) .load xa 32 8 = .fault f v → exec (.fork d ra) s = .next (s.trap f v)) ∧
    (∀ c r f v, (s.focus c).core.wait = some .parked → (s.focus c).core.recruit = some r →
      AnswersOn c (.joinRecruited c) s fun _ u => u.core.pc = r.body ∧
        (u.fetchHalf r.body = .error (f, v) → u.issues = true → u.runCore = .next (u.trap f v))) ∧
    (s.accessAs (s.rightsOf s.core) .load xa 32 8 = .ok ks → s.access .store (xa + 24) 8 = .ok cell →
      ∃ val : Nat → Nat, (∀ i < 4, s.MayRead (at_ i) (word i) (val i) ∧
        (s.pageKindIs 0 (at_ i) = true ∨ s.Current (at_ i) (word i) → val i = natOfBytes ((word i).map s.readKey))) ∧
      let rec_ := ((List.range 4).map fun i => bytesOfNat 8 (val i)).flatten
      let body : Word := wordOfBytes (rec_.take 8)
      let n := fieldAt rec_ 8 4
      let g := max (fieldAt rec_ 12 4) 1
      let arg : Word := wordOfBytes ((rec_.drop 16).take 8)
      let w := max 1 (min (ps.length + 1) ((n + g - 1) / g))
      let lo (j : Nat) := j * (n / w) + min j (n % w)
      let hi (j : Nat) := lo j + n / w + (if j < n % w then 1 else 0)
      (body.toNat % 2 = 1 → exec (.fork d ra) s = .next (s.trap .align body)) ∧
      (body.toNat % 2 = 0 → ∀ f v, s.fetchTag (s.rightsOf s.core) body = .error (f, v) →
        exec (.fork d ra) s = .next (s.trap f body)) ∧
      (body.toNat % 2 = 0 → s.fetchTag (s.rightsOf s.core) body = .ok dom → dom ≠ s.core.domain →
        exec (.fork d ra) s = .next (s.trap .gate body)) ∧
      (body.toNat % 2 = 0 → s.fetchTag (s.rightsOf s.core) body = .ok s.core.domain → (∀ k ∈ cell, inRegs k = false) →
        (∀ u ∈ ps, s.thread? u.tid = some u ∧ u.evicted = none ∧ (s.getCore u.home).inArea = none) → (ps.map (·.home)).Nodup → s.core.num ∉ ps.map (·.home) →
        NoKill s → Answers (.fork d ra) s fun t =>
          t.rx d = (if d = 0 then 0 else BitVec.ofNat 64 w) ∧
          (∀ r ∈ [((10 : XReg), BitVec.ofNat 64 (lo 0)), (11, BitVec.ofNat 64 (hi 0)), (12, arg), (13, adr)],
            r.1 ≠ d → t.rx r.1 = r.2) ∧
          (∀ r : XReg, r ≠ d → r < 10 ∨ 13 < r → t.rx r = s.rx r) ∧ SameP s t ∧ SameV s t ∧ SameK s t ∧ Advances 4 s t ∧
          StoresBytes cell (bytesOfNat 8 w) s t ∧ Unchanged { s with mem := t.mem } t ∧
          ∀ j u, j + 1 < w → ps[j]? = some u →
            let k := t.getCore u.home
            k.rx 10 = BitVec.ofNat 64 (lo (j + 1)) ∧ k.rx 11 = BitVec.ofNat 64 (hi (j + 1)) ∧ k.rx 12 = arg ∧ k.rx 13 = adr ∧
              k.pc = body ∧ (∀ x : XReg, x < 10 ∨ 13 < x → k.rx x = (s.getCore u.home).rx x) ∧
              (k.recruit.map fun r => (r.lo, r.hi, r.arg, r.cell, r.body)) =
                some (BitVec.ofNat 64 (lo (j + 1)), BitVec.ofNat 64 (hi (j + 1)), arg, adr, body)))

/-- R144, R145: JOIN decrements its cell; the last to come goes on, every other, and JOIN x0, parks; a recruited member
starts at BODY with its subrange and its other state as it was; a cell that admits no atomic faults with NOATOMIC (R174). That x10 to x13 are written at once, a pending one too, and that the
member's JOIN does not count in INSTRET, are the model's choices (log 122). -/
def Obligations.Join : Prop :=
  ∀ (s : State) (ra : XReg) (ks : List Nat), s.memWf →
    let xa := s.rx ra
    let v := wordOfBytes (ks.map s.readKey) - 1
    (s.core.csr.taskValid = false → Answers (.join 0) s fun t => Blocks .parked s t) ∧
    (ra ≠ 0 → xa.toNat % 8 ≠ 0 → exec (.join ra) s = .next (s.trap .align xa)) ∧
    (ra ≠ 0 → xa.toNat % 8 = 0 → s.resolveSteps (s.rightsOf s.core) .atomic xa 8 = .ok ks → ks.all (amoAdmitted .add) = false →
      exec (.join ra) s = .next (s.trap .noatomic xa)) ∧
    (ra ≠ 0 → s.access .atomic xa 8 = .ok ks → ks.all (amoAdmitted .add) = true →
      (v = 0 → Answers (.join ra) s fun t =>
        StoresBytes ks (bytesOfNat 8 0) s t ∧ WritesNothing { s with mem := t.mem } t ∧ Advances 4 s t) ∧
      (v ≠ 0 → s.core.csr.taskValid = false → Answers (.join ra) s fun t =>
        StoresBytes ks (bytesOfNat 8 v.toNat) s t ∧ Blocks .parked { s with mem := t.mem } t)) ∧
    (∀ c r, (s.focus c).core.wait = some .parked → (s.focus c).core.recruit = some r →
      AnswersOn c (.joinRecruited c) s fun u t =>
        t.rx 10 = r.lo ∧ t.rx 11 = r.hi ∧ t.rx 12 = r.arg ∧ t.rx 13 = r.cell ∧ t.core.pc = r.body ∧ t.core.wait = none ∧
          t.core.recruit = none ∧ (∀ x : XReg, x < 10 ∨ 13 < x → t.rx x = u.rx x) ∧ SameP u t ∧ SameV u t ∧ SameK u t ∧
          Unchanged u t)

/-- R140, R141, R142: CVY.LEAD nominates and detaches a follower; CVY.LEAVE leaves; CVY.JOIN passes at once on a core
without a team, else waits until every member of the group has arrived; a release makes the nominee, or the lowest rank, the
leader, every member at its address ATTACHED and the others ALONE, and each goes on; a follower that has stalled more than 64
cycles is ALONE. That a core without a team passes CVY.JOIN at once, and that a member not started yet counts, are the model's choices
(log 54, log 125). -/
def Obligations.Convoys : Prop :=
  ∀ (s : State) (c team group : Nat),
    (Answers .cvyLead s fun t => WritesNothing s t ∧ Advances 4 s t ∧
      t.core.convoy = (if s.core.convoy = .attached then .alone else s.core.convoy)) ∧
    (∀ th T, NoKill s → s.coreThread s.core = some th → s.team? th.team = some T → Answers .cvyLead s fun t =>
      ∃ T', t.team? th.team = some T' ∧ T'.nominees.find? (fun e => e.1 == th.rank / 8) = some (th.rank / 8, th.rank)) ∧
    (Answers .cvyLeave s fun t => WritesNothing s t ∧ Advances 4 s t ∧ t.core.convoy = .left) ∧
    (s.core.csr.taskValid = false → s.coreThread s.core = none → Answers .cvyJoin s fun t =>
      WritesNothing s t ∧ Advances 4 s t ∧ t.core.convoy = .leader) ∧
    (∀ th, s.core.csr.taskValid = false → s.coreThread s.core = some th →
      (∃ w, Blocks .cvyJoin s w ∧ w.core.convoy = (if s.core.convoy = .attached then .attached else .alone) ∧
        exec .cvyJoin s = if w.convoyArrived th.team (th.rank / 8) then exec (.convoyRelease th.team (th.rank / 8)) w else .next w) ∧
      ((∃ u ∈ s.convoyMembers th.team (th.rank / 8), u.home ≠ s.core.num ∧
          (u.evicted = none → (s.getCore u.home).wait ≠ some .cvyJoin)) →
        Answers .cvyJoin s (Blocks .cvyJoin s))) ∧
    (∀ ld, s.convoyArrived team group = true → s.convoyLeader team group (s.convoyMembers team group) = some ld →
      ((s.convoyMembers team group).map (·.home)).Nodup → ((s.convoyMembers team group).map (·.tid)).Nodup →
      (∀ th ∈ s.convoyMembers team group, (s.getCore th.home).csr.lpc0 = 0 ∧ (s.getCore th.home).csr.lpc1 = 0) →
      Answers (.convoyRelease team group) s fun t => ∀ th ∈ s.convoyMembers team group,
        let k := s.getCore th.home
        let k' := t.getCore th.home
        k'.convoy = (if th.tid = ld.tid then .leader else if k.pc = (s.getCore ld.home).pc then .attached else .alone) ∧
          k'.wait = none ∧ k'.pc = k.pc + 4 ∧ k'.x = k.x ∧ k'.p = k.p ∧ k'.v = k.v ∧ k'.k = k.k) ∧
    (s.convoyArrived team group = false → exec (.convoyRelease team group) s = .next s) ∧
    (∀ th, s.convoyMembers team group = [th] → th.evicted = none → (s.getCore th.home).wait = some .cvyJoin →
      let k := s.getCore th.home
      k.csr.lpc0 = 0 → k.csr.lpc1 = 0 → Answers (.convoyRelease team group) s fun t =>
        (t.getCore th.home).convoy = .leader ∧ (t.getCore th.home).wait = none ∧ (t.getCore th.home).pc = k.pc + 4 ∧
          (t.getCore th.home).x = k.x) ∧
    (∀ l th T, s.team? team = some T → th ∈ l → (T.nominees.find? fun e => e.1 == group) = some (group, th.rank) →
      (∀ u ∈ l, u.rank = th.rank → u = th) → s.convoyLeader team group l = some th) ∧
    (∀ l th, (∀ T, s.team? team = some T → (T.nominees.find? fun e => e.1 == group) = none) → th ∈ l →
      (∀ u ∈ l, u = th ∨ th.rank < u.rank) → s.convoyLeader team group l = some th) ∧
    (∀ on since, (s.focus c).core.convoy = .attached → (s.focus c).core.stall = some ⟨on, since⟩ →
      on ∈ [StallOn.register, .counter, .cwait] → since + 64 < s.clock → AnswersOn c (.followerStallDetach c) s fun u t =>
        t.core.convoy = .alone ∧ t.core.trail = [] ∧ t.core.pc = u.core.pc ∧ WritesNothing u t)

/-- R156, R157, R161: RED checks the tags of its source group, stalls while one on its tree is outstanding, sends its
packet and holds its token and its vd group pending; on a core without a team it completes with its own packet, which is the model's
reading (log 54). -/
def Obligations.ReductionIssue : Prop :=
  ∀ (s : State) (tok : XReg) (tree : Bool) (f : RedFmt) (vd va : VGroup),
    let src (q : Fin 4) := s.rv (groupReg va q)
    let tag : Fmt := match f with | .fp32 => .fp32 | .fp64 => .fp64 | .i32 => .i32 | .i16 => .i16
    let busy := (s.opsOf s.core.owner).any fun o => match o.body with | .red _ t _ _ => t == tree | _ => false
    let data := ((List.finRange 4).map fun q => bytesOfNat 32 (src q).bits.toNat).flatten
    let k := if tree then s.core.red1 else s.core.red0
    ∀ e ∈ [(Instr.redAdd tok tree f vd va, 0), (.redMin tok tree f vd va, 1), (.redMax tok tree f vd va, 2)],
      (∀ q, (src q).tag ≠ tag → (∀ p < q, (src p).tag = tag) →
        exec e.1 s = .next (s.trap .format (BitVec.ofNat 64 (fmtNum (src q).tag)))) ∧
      ((∀ q, (src q).tag = tag) → busy = true → Answers e.1 s fun t => Stalls .reduction s t) ∧
      ((∀ q, (src q).tag = tag) → busy = false → s.core.counterFull = true → Answers e.1 s fun t => Stalls .counter s t) ∧
      ((∀ q, (src q).tag = tag) → busy = false → s.core.counterFull = false → NoKill s →
        (∀ th T, s.coreThread s.core = some th → s.team? th.team = some T →
          (T.reduction tree k).all (fun r => r.closed.isNone && !r.expired s.clock) →
          Answers e.1 s fun t =>
            Issues 5 tok (.red th.team tree k vd) s t ∧
            (∀ q, t.core.pendV.getLsbD (groupReg vd q).val = true) ∧
            (t.core.red0, t.core.red1) = (if tree then (s.core.red0, k + 1) else (k + 1, s.core.red1)) ∧
            ∃ T' r, t.team? th.team = some T' ∧ T'.reduction tree k = some r ∧ r.closed = none ∧
              ∃ view, r.packets = ((T.reduction tree k).map (·.packets)).getD [] ++
                [⟨th.rank, e.2, f, data, s.clock, max (bitsOf s.core.csr.redtmo 19 0) 1, s.nextId, view⟩]) ∧
        (∀ th T r, s.coreThread s.core = some th → s.team? th.team = some T → T.reduction tree k = some r → r.closed ≠ none →
          Answers e.1 s fun t => Issues 5 tok (.red th.team tree k vd) s t ∧ t.team? th.team = some T) ∧
        (∀ th T r, s.coreThread s.core = some th → s.team? th.team = some T → T.reduction tree k = some r → r.closed = none →
          (∃ p ∈ r.packets, p.since + 2000 * p.tmo ≤ s.clock) → Answers e.1 s fun t =>
            ∃ T' r', t.team? th.team = some T' ∧ T'.reduction tree k = some r' ∧ r'.closed = some (r.close T.size) ∧
              r'.packets = r.packets) ∧
        (s.core.tid = none → Answers e.1 s fun t =>
          (∀ q, t.rv (groupReg vd q) = ⟨(src q).bits, tag⟩) ∧ t.core.csr.redmask = 1 ∧
          t.rx tok = (if tok = 0 then 0 else BitVec.ofNat 64 (128 * 2 ^ 16 + 5 * 2 ^ 8)) ∧ (∀ r, r ≠ tok → t.rx r = s.rx r) ∧
          SameP s t ∧ SameK s t ∧ Counted s t ∧ ∀ a, t.mem.get a = s.mem.get a))

/-- The array s of R159 after some of its m levels, with the packet of a contributing rank under p. -/
def Sys2Proof.combineRule (comb : List Byte → List Byte → List Byte) (tree : Bool) (m : Nat) (p : Nat → Option (List Byte)) :
    Nat → Nat → Option (List Byte)
  | 0, r => p r
  | l + 1, r =>
    match combineRule comb tree m p l r, combineRule comb tree m p l (r + 2 ^ (if tree then m - 1 - l else l)) with
    | none, c => c
    | a, none => a
    | some a, some c => some (comb a c)

/-- R161: what the completion of a RED with a status and the group vd writes at core c, where the reduction has closed with an
outcome: the completion word, REDMASK, the flags, and on OK and TIMEOUT the combined value, tagged with the format. -/
def Sys2Proof.RedDelivers (o : Op) (vd : VGroup) (status : Nat) (oc : RedOutcome) (c : Nat) (s t : State) : Prop :=
  Completes o status (if oc.status = .format then 0 else 128) c s t ∧ (t.getCore c).csr.redmask = oc.mask ∧
    (oc.status = .format → (t.getCore c).v = (s.getCore c).v) ∧
    (oc.status ≠ .format → (t.getCore c).csr.fcsr = (s.getCore c).csr.fcsr ||| oc.flags ∧
      ∀ q : Fin 4, (t.getCore c).rv (groupReg vd q) = ⟨BitVec.ofNat 256 (fieldAt oc.result (32 * q.val) 32), redFmt oc.fmt⟩)

/-- R158 to R161, R163: how a reduction closes, by full contribution or by timeout, and what each contributor's core gets
then: the status (FORMAT where packets disagree, TIMEOUT where some are missing, else OK), the mask of complete groups of
ranks, and the value combined lane by lane in R159's order; a late member completes with the closed outcome, its vd group tagged with
the closed reduction's format, which is the model's choice (log 123). -/
def Obligations.ReductionClose : Prop :=
  (∀ (s : State) (team n : Nat) (tree : Bool) (T : Team) (r : Reduction) (place : Packet → Nat), s.team? team = some T →
    T.reduction tree n = some r → r.closed = none →
    let oc := r.close T.size
    let done (t : State) : Prop :=
      (∃ T' r', t.team? team = some T' ∧ T'.reduction tree n = some r' ∧ r'.closed = some oc) ∧
      ((r.packets.map place).Nodup → (r.packets.map (·.opId)).Nodup →
        (∀ p ∈ r.packets, ∃ o vd, s.op? p.opId = some o ∧ o.body = .red team tree n vd ∧ Resident s o.owner (place p) ∧
          o.discard = false ∧ (oc.status = .ok ∨ o.tok ≠ 0)) →
        ∀ p ∈ r.packets, ∀ o vd, s.op? p.opId = some o → o.body = .red team tree n vd →
          RedDelivers o vd (causeCode oc.status) oc (place p) s t)
    (r.packets.length = T.size → Answers (.redClose team tree n) s done) ∧
    ((∃ p ∈ r.packets, p.since + 2000 * p.tmo ≤ s.clock) → Answers (.redTimeout team tree n) s done)) ∧
  (∀ (r : Reduction) (p : Packet) (rest : List Packet) (n : Nat), r.packets = p :: rest →
    ((∃ q ∈ rest, q.op ≠ p.op ∨ q.fmt ≠ p.fmt) → (r.close n).status = .format) ∧
    ((∀ q ∈ rest, q.op = p.op ∧ q.fmt = p.fmt) →
      (r.close n).status = (if r.packets.length < n then .timeout else .ok) ∧ (r.close n).fmt = p.fmt ∧
        ((r.close n).result, (r.close n).flags) = redResult r.tree p.op (redFmt p.fmt) n (r.packets.map fun q => (q.rank, q.data))) ∧
    (let g := (n + 31) / 32
     ∀ i < 64, (r.close n).mask.getLsbD i = true ↔ i < 32 ∧ i * g < n ∧
       ∀ k, i * g ≤ k → k < min ((i + 1) * g) n → ∃ q ∈ r.packets, q.rank = k)) ∧
  (∀ (tree : Bool) (op n m : Nat) (f : Fmt) (ps : List (Nat × List Byte)), 1 ≤ n → n ≤ 1024 → n ≤ 2 ^ m →
    (∀ j < m, 2 ^ j < n) → (ps.map (·.1)).Nodup → (∀ e ∈ ps, e.1 < n) →
    (redResult tree op f n ps).1 = (combineRule (fun x y => (packetComb op f x y).1) tree m
      (fun r => (ps.find? fun e => e.1 == r).map (·.2)) m 0).getD []) ∧
  (∀ (op : Nat) (f : RedFmt) (x y : List Byte), op < 3 →
    let w := lanewidth (redFmt f)
    let lane (l : List Byte) (i : Nat) := fieldAt l (w / 8 * i) (w / 8)
    let sg (v : Nat) : Int := (BitVec.ofNat w v).toInt
    (packetComb op (redFmt f) x y).1.length = 128 ∧
    ∀ i < 128 / (w / 8),
      let a := lane x i
      let c := lane y i
      let z := lane (packetComb op (redFmt f) x y).1 i
      (∀ g, fpFmt (redFmt f) = some g → z = (if op = 0 then g.deliver .rne (addNum .rne (g.decode a) (g.decode c))
        else g.minMax (op == 2) a c).1 % 2 ^ w) ∧
      (fpFmt (redFmt f) = none → (op = 0 → z = (a + c) % 2 ^ w) ∧
        (op = 1 → z = if sg c < sg a then c else a) ∧ (op = 2 → z = if sg a < sg c then c else a))) ∧
  (∀ (tree : Bool) (op : Nat) (f : Fmt) (a b c d : List Byte),
    let comb x y := (packetComb op f x y).1
    (redResult tree op f 2 [(0, a), (1, b)]).1 = comb a b ∧ (redResult tree op f 2 [(1, b), (0, a)]).1 = comb a b ∧
    (redResult tree op f 1 [(0, a)]).1 = a ∧
    (redResult false op f 4 [(0, a), (1, b), (2, c), (3, d)]).1 = comb (comb a b) (comb c d) ∧
    (redResult true op f 4 [(0, a), (1, b), (2, c), (3, d)]).1 = comb (comb a c) (comb b d) ∧
    (redResult false op f 4 [(0, a), (2, c), (3, d)]).1 = comb a (comb c d)) ∧
  (∀ (s : State) (c : Nat) (tree : Bool) (o : Op) (team n : Nat) (vd : VGroup) (T : Team) (r : Reduction) (oc : RedOutcome),
    o ∈ s.ops → (∀ p ∈ s.ops, s.homeOf p.owner = c → p = o) → o.body = .red team tree n vd → o.phase = .issued → s.team? team = some T →
    T.reduction tree n = some r → r.closed = some oc → Resident s o.owner c → o.tok ≠ 0 → o.discard = false →
    Answers (.redLateComplete c tree) s (RedDelivers o vd (if oc.status = .format then 3 else 0x0C) oc c s))

/-- The frame of R97 over lane values op x y z of va, vb and vd: the lanes of vd below min(VL, lanes) and set in k[K] take
them, every other lane stays, vd is tagged like va, and FCSR collects the flags of the active lanes; nothing else changes. -/
def Sys2Proof.vectorFrame (len : Word) (i : Instr) (k : KReg) (d a b : VReg) (op : Nat → Nat → Nat → Nat × Word) (s : State) : Prop :=
  let f := (s.rv a).tag
  let w := lanewidth f
  let on : Nat → Bool := fun l => decide (l < min s.core.csr.vl.toNat (lanes f)) && (s.rk k).getLsbD l
  let val : Nat → Nat × Word := fun l =>
    op (getLane (s.rv a).bits w l) (getLane (s.rv b).bits w l) (getLane (s.rv d).bits w l)
  let flags := orAll (((List.range (lanes f)).filter on).map fun l => (val l).2)
  Answers i s fun t => ∃ v : VecReg, v.tag = f ∧
    (∀ l < lanes f, getLane v.bits w l = if on l then (val l).1 % 2 ^ w else getLane (s.rv d).bits w l) ∧
    WritesV d v (s.setCsr { s.core.csr with fcsr := s.core.csr.fcsr ||| flags }) t ∧ Advances len s t

/-- R98: the integer lane operations of one or two operands at width w; the Bool says that vb is an operand. -/
def Sys2Proof.intOps (w : Nat) : List (Bool × (KReg → VReg → VReg → VReg → Instr) × Option (VReg → VReg → Instr) ×
    (Nat → Nat → Nat × Word)) :=
  let sg : Nat → Int := fun x => if x < 2 ^ (w - 1) then (x : Int) else (x : Int) - 2 ^ w
  let wrap : Int → Nat := fun v => (v % 2 ^ w).toNat
  let clamp : Int → Nat := fun v => wrap (max (-(2 ^ (w - 1))) (min v (2 ^ (w - 1) - 1)))
  [(true, .vadd, some .hVadd, fun x y => (wrap (x + y), 0)), (true, .vsub, some .hVsub, fun x y => (wrap (x - y), 0)),
    (true, .vmul, some .hVmul, fun x y => (wrap (x * y), 0)),
    (true, .vmin, some .hVmin, fun x y => (wrap (min (sg x) (sg y)), 0)),
    (true, .vmax, some .hVmax, fun x y => (wrap (max (sg x) (sg y)), 0)),
    (true, .vminu, some .hVminu, fun x y => (min x y, 0)), (true, .vmaxu, some .hVmaxu, fun x y => (max x y, 0)),
    (false, fun k d a _ => .vabs k d a, none, fun x _ => (wrap (sg x).natAbs, 0)),
    (false, fun k d a _ => .vneg k d a, none, fun x _ => (wrap (-(x : Int)), 0)),
    (true, .vand, some .hVand, fun x y => (x &&& y, 0)), (true, .vor, some .hVor, fun x y => (x ||| y, 0)),
    (true, .vxor, some .hVxor, fun x y => (x ^^^ y, 0)), (false, fun k d a _ => .vnot k d a, none, fun x _ => (2 ^ w - 1 - x, 0)),
    (true, .vsll, some .hVsll, fun x y => (wrap (x * 2 ^ (y % w)), 0)),
    (true, .vsrl, some .hVsrl, fun x y => (x / 2 ^ (y % w), 0)), (true, .vsra, some .hVsra, fun x y => (wrap (sg x / 2 ^ (y % w)), 0)),
    (true, .vadds, some .hVadds, fun x y => (clamp (sg x + sg y), 0)),
    (true, .vsubs, some .hVsubs, fun x y => (clamp (sg x - sg y), 0)),
    (true, .vdiv, none, fun x y => if y = 0 then (0, 16) else (wrap ((sg x).tdiv (sg y)), 0))]

/-- The integer lane operations and their 16-bit forms (K = 0, va = vd), in the frame of R97: sums, differences, products
and shifts modulo 2^w, signed and unsigned extremes, saturation, and division by zero giving 0 and DZ. -/
def Obligations.VectorInteger : Prop :=
  ∀ (s : State) (k : KReg) (d a b : VReg), (s.rv a).tag ∈ [Fmt.i8, .i16, .i32, .i64] →
    let w := lanewidth (s.rv a).tag
    (∀ e ∈ intOps w, (e.1 = true → (s.rv b).tag = (s.rv a).tag) →
      vectorFrame 4 (e.2.1 k d a b) k d a (if e.1 then b else a) (fun x y _ => e.2.2.2 x y) s ∧
      (a = d → ∀ h, e.2.2.1 = some h → vectorFrame 2 (h d b) 0 d d b (fun x y _ => e.2.2.2 x y) s)) ∧
    ((s.rv b).tag = (s.rv a).tag → (s.rv d).tag = (s.rv a).tag →
      ∀ e ∈ [(Instr.vfma k d a b, fun x y z : Int => x * y + z), (.vfms k d a b, fun x y z => x * y - z),
          (.vfnma k d a b, fun x y z => z - x * y)],
        vectorFrame 4 e.1 k d a b (fun x y z => ((e.2 x y z % 2 ^ w).toNat, 0)) s)

/-- The magnitude of pattern n of a format, in units of 2^-(bias + p + 2); the pattern above the largest finite one stands
for the next value that an unbounded exponent would give (R76, R78). -/
def Sys2Proof.magnitude (g : FpFmt) (n : Nat) : Nat :=
  if n < 2 ^ g.p then n * 8 else (2 ^ g.p + n % 2 ^ g.p) * 2 ^ (n / 2 ^ g.p + 2)

/-- R77, R79, R99, R374: what the arithmetic of a format delivers for NaNs, infinities, zeros and the results that are exactly
zero, the fused forms too (VFMS is VFMA of the other sign of z, VFNMA of the other sign of x), and VMIN and VMAX of every pair:
patterns of w bits, canon the canonical NaN. -/
def Sys2Proof.SpecialResults (g : FpFmt) (rm : Rm) (w canon : Nat) : Prop :=
  ∀ x y z : Nat, x < 2 ^ w → y < 2 ^ w → z < 2 ^ w →
    let n := g.decode
    let out : Exact → Nat × Word := g.deliver rm
    let top := 2 ^ (w - 1)
    let inf (x : Nat) : Prop := x % top = g.infBits false
    let nan (x : Nat) : Prop := g.infBits false < x % top
    let sig (x : Nat) : Prop := nan x ∧ x / 2 ^ (g.p - 1) % 2 = 0
    let zero (x : Nat) : Prop := x % top = 0
    let signs : Nat := if (x < top ↔ y < top) then 0 else top
    let noZeroInf : Prop := ¬(zero x ∧ inf y) ∧ ¬(inf x ∧ zero y)
    let add := out (addNum rm (n x) (n y))
    let sub := out (addNum rm (n x) (n y).negate)
    let mul := out (mulNum (n x) (n y))
    let div := out (divNum (n x) (n y))
    let sqrt := out (sqrtNum (n x))
    let fma := out (fmaNum rm (n x) (n y) (n z))
    let flip (x : Nat) : Nat := if x < top then x + top else x - top
    let mag (x : Nat) : Nat := magnitude g (x % top)
    let opposite : Prop := signs = 0 ↔ top ≤ z
    (n z).negate = n (flip z) ∧
    -- a NaN operand
    (nan x ∨ nan y → (sig x ∨ sig y → ∀ r ∈ [add, sub, mul, div], r = (canon, 8)) ∧
      (¬(sig x ∨ sig y) → ∀ r ∈ [add, sub, mul, div], r = (canon, 0))) ∧
    (sig x → sqrt = (canon, 8)) ∧ (nan x → ¬sig x → sqrt = (canon, 0)) ∧
    (nan x ∨ nan y ∨ nan z → (sig x ∨ sig y ∨ sig z ∨ ¬noZeroInf → fma = (canon, 8)) ∧
      (¬(sig x ∨ sig y ∨ sig z) → noZeroInf → fma = (canon, 0))) ∧
    -- no NaN operand: invalid operations, division by zero, infinities
    (¬nan x → ¬nan y →
      (inf x → inf y → (x = y → add = (x, 0) ∧ sub = (canon, 8)) ∧ (x ≠ y → add = (canon, 8) ∧ sub = (x, 0))) ∧
      (inf x → ¬inf y → add = (x, 0) ∧ sub = (x, 0)) ∧ (¬inf x → inf y → add = (y, 0)) ∧
      (¬noZeroInf → mul = (canon, 8) ∧ (¬nan z → fma = (canon, 8))) ∧
      (noZeroInf → inf x ∨ inf y → mul = (signs + g.infBits false, 0)) ∧
      (noZeroInf → inf x ∨ inf y → ¬nan z → fma = if inf z ∧ z ≠ signs + g.infBits false then (canon, 8)
        else (signs + g.infBits false, 0)) ∧
      (¬inf x → ¬inf y → inf z → fma = (z, 0)) ∧
      ((zero x ∧ zero y) ∨ (inf x ∧ inf y) → div = (canon, 8)) ∧
      (inf x → ¬inf y → div = (signs + g.infBits false, 0)) ∧ (¬inf x → inf y → div = (signs, 0)) ∧
      (¬zero x → ¬inf x → zero y → div = (signs + g.infBits false, 16)) ∧
      -- exact zeros
      (zero x → zero y → add = ((if x = y then x else if rm = .rdn then top else 0), 0)) ∧
      (¬zero x → ¬inf x → x % top = y % top → x ≠ y → add = ((if rm = .rdn then top else 0), 0)) ∧
      (¬inf x → ¬inf y → zero x ∨ zero y → zero z → fma = ((if opposite then (if rm = .rdn then top else 0) else z), 0)) ∧
      (¬inf x → ¬inf y → ¬zero x → ¬zero y → ¬nan z → ¬inf z → opposite → mag x * mag y = mag z * 2 ^ (g.bias + g.p + 2) →
        fma = ((if rm = .rdn then top else 0), 0)) ∧
      (zero x → ¬inf y → mul = (signs, 0)) ∧ (zero y → ¬inf x → mul = (signs, 0)) ∧
      (zero x → ¬zero y → div = (signs, 0)) ∧
      (zero x → sqrt = (x, 0)) ∧ (¬zero x → top ≤ x → sqrt = (canon, 8)) ∧ (x = g.infBits false → sqrt = (x, 0))) ∧
    -- VMIN and VMAX; the patterns of numbers compare by sign and magnitude, -0 below +0
    (let key (x : Nat) : Int := if x < top then x else (top : Int) - 1 - x
     let nv : Word := if x / 2 ^ (g.p - 1) % 2 = 0 ∧ nan x ∨ y / 2 ^ (g.p - 1) % 2 = 0 ∧ nan y then 8 else 0
     (nan x → nan y → g.minMax false x y = (canon, nv) ∧ g.minMax true x y = (canon, nv)) ∧
     (nan x → ¬nan y → g.minMax false x y = (y, nv) ∧ g.minMax true x y = (y, nv)) ∧
     (¬nan x → nan y → g.minMax false x y = (x, nv) ∧ g.minMax true x y = (x, nv)) ∧
     (¬nan x → ¬nan y → g.minMax false x y = ((if key y < key x then y else x), 0) ∧
       g.minMax true x y = ((if key x < key y then y else x), 0)))

/-- R99: the floating-point lane operations and their 16-bit forms, in the frame of R97: the exact result of the decoded
operands, rounded once into va's format in FCSR.RM; VABS, VNEG, VMIN and VMAX work on the bits; and what is delivered for
NaNs, infinities, zeros and exact zero sums, and by VMIN and VMAX. RoundingRule says how the other results are rounded. -/
def Obligations.VectorFloat : Prop :=
  (∀ (f : Fmt) (g : FpFmt) (rm : Rm), f ∈ [Fmt.bf16, .fp16, .fp32, .fp64] → fpFmt f = some g →
    SpecialResults g rm (lanewidth f)
      (match f with | .bf16 => 0x7FC0 | .fp16 => 0x7E00 | .fp32 => 0x7FC00000 | _ => 0x7FF8000000000000)) ∧
  ∀ (s : State) (k : KReg) (d a b : VReg) (g : FpFmt), (s.rv a).tag ∈ [Fmt.bf16, .fp16, .fp32, .fp64] →
    fpFmt (s.rv a).tag = some g →
    let rm := rmOf (bitsOf s.core.csr.fcsr 2 0)
    let n := g.decode
    let top := 2 ^ (g.p + g.ebits)
    let out : Exact → Nat × Word := g.deliver rm
    let unary : Nat → Nat → Nat × Word := fun x y =>
      match n x with
      | .nan sig => (g.canonNaN, if sig then flNV else 0)
      | _ => (y, 0)
    ((s.rv b).tag = (s.rv a).tag →
      (∀ e ∈ [(Instr.vadd k d a b, fun x y : Nat => out (addNum rm (n x) (n y))),
          (.vsub k d a b, fun x y => out (addNum rm (n x) (n y).negate)), (.vmul k d a b, fun x y => out (mulNum (n x) (n y))),
          (.vdiv k d a b, fun x y => out (divNum (n x) (n y))), (.vmin k d a b, g.minMax false), (.vmax k d a b, g.minMax true)],
        vectorFrame 4 e.1 k d a b (fun x y _ => e.2 x y) s) ∧
      (a = d → ∀ e ∈ [(Instr.hVadd d b, fun x y : Nat => out (addNum rm (n x) (n y))),
          (.hVsub d b, fun x y => out (addNum rm (n x) (n y).negate)), (.hVmul d b, fun x y => out (mulNum (n x) (n y))),
          (.hVmin d b, g.minMax false), (.hVmax d b, g.minMax true)],
        vectorFrame 2 e.1 0 d d b (fun x y _ => e.2 x y) s) ∧
      ((s.rv d).tag = (s.rv a).tag →
        ∀ e ∈ [(Instr.vfma k d a b, fun x y z : Nat => fmaNum rm (n x) (n y) (n z)),
            (.vfms k d a b, fun x y z => fmaNum rm (n x) (n y) (n z).negate),
            (.vfnma k d a b, fun x y z => fmaNum rm (n x).negate (n y) (n z))],
          vectorFrame 4 e.1 k d a b (fun x y z => out (e.2 x y z)) s)) ∧
    (∀ e ∈ [(Instr.vsqrt k d a, fun x : Nat => out (sqrtNum (n x))), (.vabs k d a, fun x => unary x (x % top)),
        (.vneg k d a, fun x => unary x (if x < top then x + top else x - top))],
      vectorFrame 4 e.1 k d a a (fun x _ _ => e.2 x) s)

/-- R78, R79: what a value between the magnitudes of the patterns n and n + 1, n included, rounds to; in a format that saturates the
largest finite number stands for what overflows. Of the value's magnitude v, le q says whether q is at most v, and ge q whether v is
at most q. -/
def Sys2Proof.roundedAt (g : FpFmt) (rm : Rm) (neg : Bool) (le ge : Nat → Bool) (n : Nat) : Nat × Word :=
  let mag := magnitude g
  let sign := if neg then 2 ^ (g.p + g.ebits) else 0
  let away (mid : Nat) (odd : Bool) : Bool :=
    match rm with
    | .rtz => false
    | .rdn => neg
    | .rup => !neg
    | .rne => le mid && (!ge mid || odd)
    | .rna => le mid
  let minNormal := mag (2 ^ g.p)
  -- with an unbounded exponent the values below the smallest normal number stand twice as close
  let tiny := !le minNormal && !(le (minNormal - 4) && !ge (minNormal - 4) && away (minNormal - 2) true)
  let r := if away ((mag n + mag (n + 1)) / 2) (n % 2 == 1) then n + 1 else n
  let past := g.maxBits + 1
  if ge (mag n) then (sign + n, 0)
  else (sign + (if r = past ∧ g.sat = true then n else r), 128 ||| (if r = past then 32 else 0) ||| (if tiny then 64 else 0))

/-- R78, R79: the result r is a value of a sign and a magnitude, as roundedAt takes it, rounded into a format, with overflow to
infinity or, where the format saturates, to the largest finite number. -/
def Sys2Proof.RoundsTo (g : FpFmt) (rm : Rm) (neg : Bool) (le ge : Nat → Bool) (r : Nat × Word) : Prop :=
  let past := g.maxBits + 1
  (∀ n < past, le (magnitude g n) = true → le (magnitude g (n + 1)) = false → r = roundedAt g rm neg le ge n) ∧
    (le (magnitude g past) = true →
      r = ((if neg then 2 ^ (g.p + g.ebits) else 0) +
        (match g.sat, rm, neg with | true, _, _ | _, .rtz, _ | _, .rdn, false | _, .rup, true => past - 1 | _, _, _ => past), 160))

/-- R84, R79 of the pattern x of a source format: what the conversion into a target format delivers, and its flags. -/
def Sys2Proof.ConvertRule (src dst : Fmt) (rm : Rm) (x : Nat) : Prop :=
  let ws := lanewidth src
  let wd := lanewidth dst
  let r := convert src dst rm x
  let sg : Int := if x < 2 ^ (ws - 1) then (x : Int) else (x : Int) - 2 ^ ws
  let lo : Int := -(2 ^ (wd - 1))
  let hi : Int := 2 ^ (wd - 1) - 1
  let clamp (v : Int) : Nat := (max lo (min v hi) % 2 ^ wd).toNat
  let neg : Bool := decide (2 ^ (ws - 1) ≤ x)
  let m := x % 2 ^ (ws - 1)
  let units (g : FpFmt) : Nat := 2 ^ (g.bias + g.p + 2)
  let canon : Nat := match dst with
    | .fp8e4 => 0x7F | .fp8e5 => 0x7E | .bf16 => 0x7FC0 | .fp16 => 0x7E00 | .fp32 => 0x7FC00000 | _ => 0x7FF8000000000000
  (fpFmt src = none → fpFmt dst = none → r = (clamp sg, if lo ≤ sg ∧ sg ≤ hi then 0 else 160)) ∧
  (∀ g, fpFmt src = none → fpFmt dst = some g → (sg = 0 → r = (0, 0)) ∧
    (sg ≠ 0 → RoundsTo g rm (decide (sg < 0)) (fun q => decide (q ≤ sg.natAbs * units g))
      (fun q => decide (sg.natAbs * units g ≤ q)) r)) ∧
  ∀ f, fpFmt src = some f →
    let nan : Prop := (f.noInf = true ∧ m = f.maxBits + 1) ∨ f.maxBits + 1 < m
    let inf : Prop := f.noInf = false ∧ m = f.maxBits + 1
    let num : Prop := m ≤ f.maxBits
    let sig : Prop := f.noInf = false ∧ m / 2 ^ (f.p - 1) % 2 = 0
    let v := magnitude f m
    (∀ g, fpFmt dst = some g →
      let sign : Nat := if neg then 2 ^ (wd - 1) else 0
      (nan → sig → r = (canon, 8)) ∧ (nan → ¬sig → r = (canon, 0)) ∧ (inf ∨ num → src = dst → r = (x, 0)) ∧
      (inf → src ≠ dst → r = if g.noInf then (canon, 8) else (sign + g.maxBits + 1, 0)) ∧
      (num → src ≠ dst → m = 0 → r = (sign, 0)) ∧
      (num → src ≠ dst → m ≠ 0 → RoundsTo g rm neg (fun q => decide (q * units f ≤ v * units g))
        (fun q => decide (v * units g ≤ q * units f)) r)) ∧
    (fpFmt dst = none →
      let n := v / units f
      let rest := v % units f
      let up : Bool := match rm with
        | .rtz => false
        | .rdn => neg && rest != 0
        | .rup => !neg && rest != 0
        | .rne => decide (units f < 2 * rest ∨ (units f = 2 * rest ∧ n % 2 = 1))
        | .rna => decide (units f ≤ 2 * rest)
      let t : Int := (if neg then -1 else 1) * ((if up then n + 1 else n : Nat) : Int)
      (nan → r = (0, 8)) ∧ (inf → r = ((if neg then 2 ^ (wd - 1) else 2 ^ (wd - 1) - 1), 8)) ∧
      (num → lo ≤ t → t ≤ hi → r = (clamp t, if rest = 0 then 0 else 128)) ∧
      (num → t < lo ∨ hi < t → r = (clamp t, 8)))

/-- R78, R99: the results of the floating-point lane operations on finite operands that are not exactly zero are their exact
values rounded once; and rounding leaves what a format holds: in every format and mode, the value of a finite bit pattern
rounds to that pattern and raises no flag. -/
def Obligations.RoundingRule : Prop :=
  (∀ (f : Fmt) (g : FpFmt) (rm : Rm) (x : Nat) (neg : Bool) (m : Nat) (e : Int),
    fpFmt f = some g → x < 2 ^ lanewidth f → g.decode x = .fin neg m e → g.round rm neg m e false = (x, 0)) ∧
  (∀ (f : Fmt) (g : FpFmt) (rm : Rm) (x y z : Nat), f ∈ [Fmt.bf16, .fp16, .fp32, .fp64] → fpFmt f = some g →
    let top := 2 ^ (g.p + g.ebits)
    x < 2 * top → y < 2 * top → z < 2 * top → x % top < g.infBits false → y % top < g.infBits false → z % top < g.infBits false →
    let n := g.decode
    let out : Exact → Nat × Word := g.deliver rm
    let u := 2 ^ (g.bias + g.p + 2)
    let mag (x : Nat) : Nat := magnitude g (x % top)
    let val (x : Nat) : Int := if x < top then mag x else -mag x
    let rounds (neg : Bool) (le ge : Nat → Bool) (e : Exact) : Prop := RoundsTo g rm neg le ge (out e)
    let sums (v : Int) (d : Nat) (e : Exact) : Prop :=
      v ≠ 0 → rounds (decide (v < 0)) (fun q => decide (q * d ≤ v.natAbs)) (fun q => decide (v.natAbs ≤ q * d)) e
    sums (val x + val y) 1 (addNum rm (n x) (n y)) ∧ sums (val x - val y) 1 (addNum rm (n x) (n y).negate) ∧
    sums (val x * val y) u (mulNum (n x) (n y)) ∧ sums (val x * val y + val z * u) u (fmaNum rm (n x) (n y) (n z)) ∧
    sums (val x * val y - val z * u) u (fmaNum rm (n x) (n y) (n z).negate) ∧
    sums (val z * u - val x * val y) u (fmaNum rm (n x).negate (n y) (n z)) ∧
    (mag x ≠ 0 → mag y ≠ 0 → rounds (decide (val x * val y < 0)) (fun q => decide (q * mag y ≤ mag x * u))
      (fun q => decide (mag x * u ≤ q * mag y)) (divNum (n x) (n y))) ∧
    (0 < val x → rounds false (fun q => decide (q * q ≤ mag x * u)) (fun q => decide (mag x * u ≤ q * q)) (sqrtNum (n x))))

/-- R93: the vector instructions that check formats, each with its checks in the order vd, va, vb: the first that fails
faults with FORMAT, its operand's tag reported. VCVT checks its target first. -/
def Obligations.VectorFormatFaults : Prop :=
  ∀ (s : State) (k kd : KReg) (d a b : VReg) (x : XReg) (f : Fmt) (r : VRnd),
    let int : Fmt → Bool := fun f => [Fmt.i8, .i16, .i32, .i64].contains f
    let fpa : Fmt → Bool := fun f => [Fmt.bf16, .fp16, .fp32, .fp64].contains f
    let ari : Fmt → Bool := fun f => int f || fpa f
    let cvt : Fmt → Bool := fun f => ari f || f == .fp8e4 || f == .fp8e5
    let td := (s.rv d).tag
    let ta := (s.rv a).tag
    let tb := (s.rv b).tag
    let idx : Fmt → Bool := fun f => int tb && lanewidth tb == lanewidth f
    let two : (Fmt → Bool) → List (Bool × Fmt) := fun ok => [(ok ta, ta), (tb == ta, tb)]
    let both : (Fmt → Bool) → List (Bool × Fmt) := fun ok => [(ok td, td), (tb == td, tb)]
    let checked : List (List Instr × List (Bool × Fmt)) :=
      [([.vadd k d a b, .vsub k d a b, .vmul k d a b, .vmin k d a b, .vmax k d a b, .vdiv k d a b, .vcmpEq k kd a b,
          .vcmpNe k kd a b, .vcmpLt k kd a b, .vcmpGe k kd a b], two ari),
        ([.vfma k d a b, .vfms k d a b, .vfnma k d a b], (td == ta, td) :: two ari),
        ([.vabs k d a, .vneg k d a, .vredsum k d a, .vredmin k d a, .vredmax k d a], [(ari ta, ta)]),
        ([.vsqrt k d a], [(fpa ta, ta)]),
        ([.vminu k d a b, .vmaxu k d a b, .vand k d a b, .vor k d a b, .vxor k d a b, .vsll k d a b, .vsrl k d a b,
          .vsra k d a b, .vadds k d a b, .vsubs k d a b, .vcmpLtu k kd a b, .vcmpGeu k kd a b], two int),
        ([.vnot k d a], [(int ta, ta)]),
        ([.hVadd d b, .hVsub d b, .hVmul d b, .hVmin d b, .hVmax d b], both ari),
        ([.hVminu d b, .hVmaxu d b, .hVand d b, .hVor d b, .hVxor d b, .hVsll d b, .hVsrl d b, .hVsra d b, .hVadds d b,
          .hVsubs d b], both int),
        ([.vcvt r f k d a], [(cvt f, f), (cvt ta, ta)]), ([.viota k d], [(int td, td)]), ([.vsel k d a b], [(tb == ta, tb)]),
        ([.vperm k d a b], [(idx ta, tb)]), ([.vldx f k d x b], [(idx f, tb)]), ([.vstx k d x b], [(idx td, tb)])]
    ∀ e ∈ checked, ∀ c, (e.2.find? fun c => !c.1) = some c →
      ∀ i ∈ e.1, exec i s = .next (s.trap .format (BitVec.ofNat 64 (fmtNum c.2)))

/-- R100: a compare writes every bit of kd, the outcome on the active lanes and 0 elsewhere. Integers compare signed but
under LTU and GEU; -0 equals +0, a NaN answers 0, or 1 under NE, and sets NV where it signals or under LT and GE. -/
def Obligations.VectorCompares : Prop :=
  ∀ (s : State) (k d : KReg) (a b : VReg), (s.rv b).tag = (s.rv a).tag →
    let f := (s.rv a).tag
    let w := lanewidth f
    let on : Nat → Bool := fun l => decide (l < min s.core.csr.vl.toNat (lanes f)) && (s.rk k).getLsbD l
    let x : Nat → Nat := getLane (s.rv a).bits w
    let y : Nat → Nat := getLane (s.rv b).bits w
    let sg : Nat → Int := fun x => if x < 2 ^ (w - 1) then (x : Int) else (x : Int) - 2 ^ w
    let sets : Instr → (Nat → Bool × Word) → Prop := fun i c => Answers i s fun t =>
      ∃ m : BitVec 32, (∀ l < 32, m.getLsbD l = (on l && (c l).1)) ∧
        WritesK d m (s.setCsr { s.core.csr with
          fcsr := s.core.csr.fcsr ||| orAll (((List.range (lanes f)).filter on).map fun l => (c l).2) }) t ∧ Advances 4 s t
    (f ∈ [Fmt.i8, .i16, .i32, .i64] →
      ∀ e ∈ [(Instr.vcmpEq k d a b, fun l => decide (x l = y l)), (.vcmpNe k d a b, fun l => decide (x l ≠ y l)),
          (.vcmpLt k d a b, fun l => decide (sg (x l) < sg (y l))), (.vcmpGe k d a b, fun l => decide (sg (x l) ≥ sg (y l))),
          (.vcmpLtu k d a b, fun l => decide (x l < y l)), (.vcmpGeu k d a b, fun l => decide (x l ≥ y l))],
        sets e.1 fun l => (e.2 l, 0)) ∧
    (f ∈ [Fmt.bf16, .fp16, .fp32, .fp64] → ∀ g, fpFmt f = some g →
      let top := 2 ^ (w - 1)
      -- the numbers and infinities of a format stand in the order of sign and magnitude of their patterns
      let ord : Nat → Int := fun x => if x < top then (x : Int) else (top : Int) - x
      let nan : Nat → Bool := fun x => decide (g.infBits false < x % top)
      let sig : Nat → Bool := fun x => nan x && decide (x / 2 ^ (g.p - 1) % 2 = 0)
      ∀ e ∈ [(Instr.vcmpEq k d a b, false, false, fun p q : Int => decide (p = q)),
          (.vcmpNe k d a b, true, false, fun p q => decide (p ≠ q)), (.vcmpLt k d a b, false, true, fun p q => decide (p < q)),
          (.vcmpGe k d a b, false, true, fun p q => decide (p ≥ q))],
        sets e.1 fun l =>
          if nan (x l) || nan (y l) then (e.2.1, if sig (x l) || sig (y l) || e.2.2.1 then 8 else 0)
          else (e.2.2.2 (ord (x l)) (ord (y l)), 0))

/-- R84, R101 to R107: the moves, selections, permutations, conversion and retagging: the lanes each writes, the tag vd takes
(VBCAST, VINS and VIOTA keep it), every other lane kept, and nothing else changed. -/
def Obligations.VectorMoves : Prop :=
  ∀ (s : State) (k : KReg) (d a b : VReg) (x y : XReg) (f : Fmt) (r : VRnd),
    let ta := (s.rv a).tag
    let td := (s.rv d).tag
    let on : KReg → Nat → Nat → Bool := fun k n l => decide (l < min s.core.csr.vl.toNat n) && (s.rk k).getLsbD l
    let lane : VReg → Fmt → Nat → Nat := fun r f l => getLane (s.rv r).bits (lanewidth f) l
    let at' : Int → Nat := fun j => if 0 ≤ j ∧ j < lanes ta then lane a ta j.toNat else 0
    -- the lanes of vd for which put holds become val, under the tag f
    let writes : Word → Instr → Fmt → (Nat → Bool) → (Nat → Nat) → Word → Prop := fun len i f put val fl =>
      Answers i s fun t => ∃ v : VecReg, v.tag = f ∧
        (∀ l < lanes f, getLane v.bits (lanewidth f) l = if put l then val l % 2 ^ lanewidth f else lane d f l) ∧
        WritesV d v (s.setCsr { s.core.csr with fcsr := s.core.csr.fcsr ||| fl }) t ∧ Advances len s t
    writes 4 (.vmov k d a) ta (on k (lanes ta)) (lane a ta) 0 ∧
    (a = b → writes 2 (.hVmov d b) ta (on 0 (lanes ta)) (lane a ta) 0) ∧
    ((s.rv b).tag = ta → writes 4 (.vsel k d a b) ta (fun l => decide (l < min s.core.csr.vl.toNat (lanes ta)))
      (fun l => if (s.rk k).getLsbD l then lane a ta l else lane b ta l) 0) ∧
    writes 4 (.vbcast k d x) td (on k (lanes td)) (fun _ => (s.rx x).toNat) 0 ∧
    writes 4 (.vins d x y) td (fun l => decide (l = (s.rx y).toNat)) (fun _ => (s.rx x).toNat) 0 ∧
    writes 4 (.vslide k d a x) ta (on k (lanes ta)) (fun l => at' (l + (s.rx x).toInt)) 0 ∧
    ((s.rv b).tag ∈ [Fmt.i8, .i16, .i32, .i64] → lanewidth (s.rv b).tag = lanewidth ta →
      writes 4 (.vperm k d a b) ta (on k (lanes ta)) (fun l => at' (lane b ta l)) 0) ∧
    (td ∈ [Fmt.i8, .i16, .i32, .i64] → writes 4 (.viota k d) td (on k (lanes td))
      (fun l => ((List.range l).filter (on k (lanes td))).length) 0) ∧
    (isCvt f = true → isCvt ta = true →
      let rm := if r = .dyn then rmOf (bitsOf s.core.csr.fcsr 2 0) else s.core.vrnd r
      let put : Nat → Bool := on k (min (lanes ta) (lanes f))
      (∀ l, ConvertRule ta f rm (lane a ta l)) ∧
      writes 4 (.vcvt r f k d a) f put (fun l => (convert ta f rm (lane a ta l)).1)
        (orAll (((List.range (lanes f)).filter put).map fun l => (convert ta f rm (lane a ta l)).2))) ∧
    (Answers (.vtag f d a) s fun t => WritesV d ⟨(s.rv a).bits, f⟩ s t ∧ Advances 4 s t) ∧
    (Answers (.vextr x a y) s fun t =>
      WritesX x (if (s.rx y).toNat ≥ lanes ta then 0
        else if isInt ta then BitVec.ofInt 64 (BitVec.ofNat (lanewidth ta) (lane a ta (s.rx y).toNat)).toInt
        else BitVec.ofNat 64 (lane a ta (s.rx y).toNat)) s t ∧ Advances 4 s t)

/-- The array s of R87 after some levels, with the flags of the combinations performed: p is the active lanes' patterns. -/
def Sys2Proof.treeRule (comb : Nat → Nat → Nat × Word) (p : Nat → Option Nat) : Nat → Nat → Option Nat × Word
  | 0, j => (p j, 0)
  | l + 1, j =>
    let x := treeRule comb p l (2 * j)
    let y := treeRule comb p l (2 * j + 1)
    match x.1, y.1 with
    | none, b => (b, x.2 ||| y.2)
    | a, none => (a, x.2 ||| y.2)
    | some a, some b => (some (comb a b).1, x.2 ||| y.2 ||| (comb a b).2)

/-- R105: the reductions place the result in lane 0 and zero bits in every other lane, tagged like va. On integers it is
the sum modulo 2^w, or the smallest or largest active lane; with no lane active it is the neutral value of the table;
with one it is that lane's value, without a flag. On floating point it is the pairwise tree of R87 over the active lanes,
each step rounded in FCSR.RM, or VMIN's and VMAX's rule at each step, with the flags of the steps taken. -/
def Obligations.VectorReductions : Prop :=
  ∀ (s : State) (k : KReg) (d a : VReg), isInt (s.rv a).tag = true ∨ isFpa (s.rv a).tag = true →
    let f := (s.rv a).tag
    let w := lanewidth f
    let act := (List.range (min s.core.csr.vl.toNat (lanes f))).filter fun l => (s.rk k).getLsbD l
    let vals := act.map (getLane (s.rv a).bits w)
    let sg : Nat → Int := fun x => if x < 2 ^ (w - 1) then (x : Int) else (x : Int) - 2 ^ w
    let gives : Instr → (Nat → Word → Prop) → Prop := fun i ok => Answers i s fun t => ∃ r fl, r < 2 ^ w ∧ ok r fl ∧
      WritesV d ⟨BitVec.ofNat 256 r, f⟩ (s.setCsr { s.core.csr with fcsr := s.core.csr.fcsr ||| fl }) t ∧ Advances 4 s t
    (isInt f = true → gives (.vredsum k d a) (fun r fl => r = vals.sum % 2 ^ w ∧ fl = 0) ∧
      gives (.vredmin k d a) (fun r fl => fl = 0 ∧ (vals = [] → r = 2 ^ (w - 1) - 1) ∧
        (vals ≠ [] → r ∈ vals ∧ ∀ x ∈ vals, sg r ≤ sg x)) ∧
      gives (.vredmax k d a) (fun r fl => fl = 0 ∧ (vals = [] → r = 2 ^ (w - 1)) ∧
        (vals ≠ [] → r ∈ vals ∧ ∀ x ∈ vals, sg x ≤ sg r))) ∧
    (isFpa f = true → ∀ g, fpFmt f = some g →
      let rm := rmOf (bitsOf s.core.csr.fcsr 2 0)
      let p (l : Nat) : Option Nat := if l ∈ act then some (getLane (s.rv a).bits w l) else none
      let tree (comb : Nat → Nat → Nat × Word) (empty : Nat) (r : Nat) (fl : Word) : Prop :=
        ∀ m, lanes f = 2 ^ m → r = (treeRule comb p m 0).1.getD empty ∧ fl = (treeRule comb p m 0).2
      gives (.vredsum k d a) (tree (fun x y => g.deliver rm (addNum rm (g.decode x) (g.decode y))) 0) ∧
      gives (.vredmin k d a) (tree (g.minMax false) (g.infBits false)) ∧
      gives (.vredmax k d a) (tree (g.minMax true) (g.infBits true)) ∧
      gives (.vredsum k d a) (fun r fl => (vals = [] → r = 0 ∧ fl = 0) ∧ (∀ x, vals = [x] → r = x ∧ fl = 0)) ∧
      gives (.vredmin k d a) (fun r fl => (vals = [] → r = g.infBits false ∧ fl = 0) ∧ (∀ x, vals = [x] → r = x ∧ fl = 0)) ∧
      gives (.vredmax k d a) (fun r fl => (vals = [] → r = g.infBits true ∧ fl = 0) ∧ (∀ x, vals = [x] → r = x ∧ fl = 0)))

/-- R95, R108: the mask instructions work on all 32 bits and ignore VL; SETVL sets VL and xd to the smaller of xa and the
lanes of its format. -/
def Obligations.MaskAndLength : Prop :=
  ∀ (s : State) (d a b : KReg) (x y : XReg) (f : Fmt),
    (∀ e ∈ [(Instr.kand d a b, s.rk a &&& s.rk b), (.kor d a b, s.rk a ||| s.rk b), (.kxor d a b, s.rk a ^^^ s.rk b),
        (.knot d a, ~~~(s.rk a))],
      Answers e.1 s fun t => WritesK d e.2 s t ∧ Advances 4 s t) ∧
    (Answers (.kpop x a) s fun t =>
      WritesX x (BitVec.ofNat 64 ((List.range 32).filter fun i => (s.rk a).getLsbD i).length) s t ∧ Advances 4 s t) ∧
    (∃ n ≤ 32, (∀ i < n, (s.rk a).getLsbD i = false) ∧ (n < 32 → (s.rk a).getLsbD n = true) ∧
      Answers (.kfirst x a) s fun t => WritesX x (BitVec.ofNat 64 n) s t ∧ Advances 4 s t) ∧
    (let vl : Word := BitVec.ofNat 64 (min (s.rx y).toNat (256 / lanewidth f))
     Answers (.setvl f x y) s fun t => WritesX x vl (s.setCsr { s.core.csr with vl := vl }) t ∧ Advances 4 s t)

/-- R109 to R112: a vector load reads its active lanes only, each at its address; every other lane keeps its bits and vd
takes the tag; what a lane reads is a weak load's value, the bytes as they are where nothing may be missed, which rests on the model's
choice that cores access RC pages and local stores in program order (log 5). A vector store
writes its active lanes, the highest last. The first active lane whose checks fail decides the fault (R311: before it, no
uncorrectable data is reported), and then no lane is loaded and no byte stored. -/
def Obligations.VectorMemory : Prop :=
  ∀ (s : State) (k : KReg) (d b : VReg) (x y : XReg) (f : Fmt), s.memWf →
    let td := (s.rv d).tag
    let idxOk : Fmt → Bool := fun f => isInt (s.rv b).tag && lanewidth (s.rv b).tag == lanewidth f
    let unit : Fmt → Nat → Word := fun f l => s.rx x + BitVec.ofNat 64 (l * (lanewidth f / 8))
    let stride : Nat → Word := fun l => s.rx x + BitVec.ofNat 64 l * s.rx y
    let index : Fmt → Nat → Word := fun f l =>
      s.rx x + BitVec.ofInt 64 (BitVec.ofNat (lanewidth f) (getLane (s.rv b).bits (lanewidth f) l)).toInt
    let act : Fmt → List Nat := fun f => (List.range (min s.core.csr.vl.toNat (lanes f))).filter fun l => (s.rk k).getLsbD l
    let stops : Instr → Fmt → Need → (Nat → Word) → Prop := fun i f kind adr =>
      let n := lanewidth f / 8
      let check (l : Nat) : Acc := s.checkAs (s.rightsOf s.core) kind (adr l) n n
      (∀ l ∈ act f, (∀ j ∈ act f, j < l → ∃ ks, check j = .ok ks) →
        (∀ c v, check l = .fault c v → exec i s = .next (s.trap c v)) ∧
        (∀ w, check l = .halt w → exec i s = .next (s.watchHalt w))) ∧
      ((∀ l ∈ act f, ∃ ks, check l = .ok ks) → ∀ l ∈ act f,
        (∀ j ∈ act f, j < l → ∃ ks, s.access kind (adr j) n = .ok ks) →
        ∀ c v, s.access kind (adr l) n = .fault c v → exec i s = .next (s.trap c v))
    (∀ e ∈ [(Instr.vld f k d x, true, unit f), (.vlds f k d x y, true, stride), (.vldx f k d x b, idxOk f, index f),
        (.vldb f k d x, true, fun _ => s.rx x)], e.2.1 = true →
      stops e.1 f .load e.2.2 ∧
      ∀ keys : Nat → List Nat, (∀ l ∈ act f, s.access .load (e.2.2 l) (lanewidth f / 8) = .ok (keys l)) →
        ∃ val : Nat → Nat, (∀ l ∈ act f, s.MayRead (e.2.2 l) (keys l) (val l) ∧
            (s.Current (e.2.2 l) (keys l) ∨ s.pageKindIs 0 (e.2.2 l) = true → val l = natOfBytes ((keys l).map s.readKey))) ∧
          Answers e.1 s fun t => ∃ v : VecReg, v.tag = f ∧
            (∀ l < lanes f, getLane v.bits (lanewidth f) l =
              if l ∈ act f then val l % 2 ^ lanewidth f else getLane (s.rv d).bits (lanewidth f) l) ∧
            WritesV d v s t ∧ Advances 4 s t) ∧
    (∀ e ∈ [(Instr.vst k d x, true, unit td), (.vsts k d x y, true, stride), (.vstx k d x b, idxOk td, index td)], e.2.1 = true →
      stops e.1 td .store e.2.2 ∧
      ∀ keys : Nat → List Nat, (∀ l ∈ act td, s.access .store (e.2.2 l) (lanewidth td / 8) = .ok (keys l)) →
        (∃ t, exec e.1 s = .next t) ∧
        ((∀ l ∈ act td, (∀ c ∈ keys l, inRegs c = false) ∧ ((keys l).map hostKey).Nodup) → Answers e.1 s fun t =>
          (∀ adr, (∀ l ∈ act td, adr ∉ (keys l).map hostKey) → t.mem.get adr = s.mem.get adr) ∧
          (∀ l ∈ act td, ∀ j < lanewidth td / 8, ∀ c, (keys l)[j]? = some c →
            (∀ m ∈ act td, l < m → hostKey c ∉ (keys m).map hostKey) →
            t.mem.get (hostKey c) = BitVec.ofNat 8 (getLane (s.rv d).bits (lanewidth td) l / 256 ^ j)) ∧
          WritesNothing { s with mem := t.mem } t ∧ Advances 4 s t))

/-- R222, R229: TCFG checks the shape and writes it, reserved bits as zero, with DSEQ 0 and SSEQ 0xFFFF where scales are
attached; ACCFG checks its descriptor and its rows and tags them; neither changes anything else. -/
def Obligations.MatrixConfig : Prop :=
  ∀ (s : State) (tc : TReg) (ra : XReg),
    let v := s.rx ra
    let valid : Prop := ShapeOk v
    let shape : Word := (v &&& 0x1FFF3F) ||| if bitOf v 20 then 0xFFFF000000000000 else 0
    let nr := bitsOf v 29 24
    let row := bitsOf v 6 0
    let used : Prop := bitsOf v 63 32 = 0 ∧ bitsOf v 30 30 = 0 ∧ 1 ≤ nr ∧ nr ≤ 32 ∧ bitsOf v 23 7 = 0
    let region := s.core.csr.acclim.toNat - s.core.csr.accbase.toNat
    (bitsOf v 63 21 ≠ 0 ∨ ¬valid → exec (.tcfg tc ra) s = .next (s.trap .illegal v)) ∧
    (bitsOf v 63 21 = 0 → valid → Answers (.tcfg tc ra) s fun t =>
      let s0 := s.setCsr { s.core.csr with tc := s.core.csr.tc.set tc shape }
      WritesNothing s0 t ∧ Advances 4 s0 t) ∧
    (¬used → exec (.accfg ra) s = .next (s.trap .illegal v)) ∧
    (used → region < row + nr → exec (.accfg ra) s = .next (s.trap .rights v)) ∧
    (used → row + nr ≤ region → Memory.wf s.accTags = true → Answers (.accfg ra) s fun t => ∃ m : Memory,
      (∀ i < nr, m.get (s.core.num / 8 * 128 + s.core.csr.accbase.toNat + row + i) = (if bitOf v 31 then 9 else 3 : Byte)) ∧
      (∀ a, (∀ i < nr, a ≠ s.core.num / 8 * 128 + s.core.csr.accbase.toNat + row + i) → m.get a = s.accTags.get a) ∧
      WritesNothing { s with accTags := m } t ∧ Advances 4 s t)

/-- The job instructions of R225: the checks of each in the order of R226, its job, the shapes it leaves, and the rows it
tags at issue with their tag (R220). -/
def Sys2Proof.matrixForms (s : State) (tok : XReg) (tc tb : TReg) (ra rd : XReg) :
    List (Instr × List (Option (Cause × Word)) × Job × Vector Word 8 × Option (Nat × Nat × Fmt)) :=
  let c := s.core
  let tcs := c.csr.tc
  let t := tcs.get tc
  let u := tcs.get tb
  let a := s.rx ra
  let d := s.rx rd
  let str : Word := sextNat 32 (bitsOf d 31 0)
  let tag : Word := BitVec.ofNat 64 (bitsOf t 19 16)
  let w := elemSize (tTag t)
  let rows : Nat → List (Word × Nat) := rowRanges a str (tRows t)
  let acRows := rowRanges a (dStride d) (dNR d) (4 * dNC d)
  let acc := mmaAcc t
  let mma : Bool → List (Option (Cause × Word)) := fun zero =>
    [require (descOk ⟨false, false, false, false, false, false, true⟩ (tRows u) a) .illegal a, pairCheck t u,
      if zero then none else s.rowTags (dRow a) (tRows t) fun g => g == fmtNum acc, seqCheck t, seqCheck u,
      s.rowsIn (dRow a) (tRows t) a]
  [(.tld tok tc ra rd, [require (bitsOf d 63 48 == 0) .illegal d, require (tag != 0) .format 0, aligned w a str,
      s.localHole (rows (rowBytes t))], .tld tc t a str,
      tcs.set tc ((t &&& 0xFFFF0000FFFFFFFF) ||| BitVec.ofNat 64 (bitsOf d 47 32 * 2 ^ 32)), none),
    (.tst tok tc ra rd, [require (bitsOf d 63 32 == 0) .illegal d, require (tag != 0) .format 0, aligned w a str,
      s.localHole (rows (rowBytes t))], .tst tc t a str, tcs, none),
    (.tlds tok tc ra rd, [require (bitsOf d 63 48 == 0) .illegal d,
      require (tTag t == some .fp8e4s || tTag t == some .fp8e5s) .format tag, aligned 2 a str, s.localHole (rows 2)],
      .tlds tc t a str, tcs.set tc ((t &&& 0x0000FFFFFFFFFFFF) ||| BitVec.ofNat 64 (bitsOf d 47 32 * 2 ^ 48)), none),
    (.tzero tok tc, [], .tzero tc, tcs, none), (.mma tok tc tb ra, mma false, .mma false tc t tb u a, tcs, none),
    (.mmas tok tc tb ra, mma true, .mma true tc t tb u a, tcs, some (dRow a, tRows t, acc)),
    (.mtv tok tc ra rd, [require (descOk ⟨true, false, false, true, false, true, true⟩ 0 d) .illegal d,
      require (tTag t == some .i8) .format tag, s.rowTags (dRow d) 1 fun g => g == fmtNum .i32, s.rowsIn (dRow d) 1 d,
      ((rowRanges a (dStride d) (dNC d) (mtvRow t d)).find? fun e => !s.inCluster e.1 e.2).map fun e => (.loc, e.1)],
      .mtv tc t a d, tcs, none),
    (.acld tok ra rd, [require (descOk ⟨true, false, true, false, true, true, true⟩ 0 d) .illegal d,
      s.rowsIn (dRow d) (dNR d) d, aligned 4 a (dStride d), s.localHole acRows], .acld a d, tcs,
      some (dRow d, dNR d, if bitOf d 31 then .fp32 else .i32)),
    (.acst tok ra rd, [require (descOk ⟨true, false, false, false, true, true, true⟩ 0 d) .illegal d,
      s.rowTags (dRow d) (dNR d) (· != 0), s.rowsIn (dRow d) (dNR d) d, aligned 4 a (dStride d), s.localHole acRows],
      .acst a d, tcs, none),
    (.accvt tok tc ra, [require (descOk ⟨false, true, false, false, false, false, true⟩ (tCols t) a) .illegal a,
      require (cvtTarget t) .format tag, s.rowTags (dRow a) (tRows t) (· != 0), s.rowsIn (dRow a) (tRows t) a],
      .accvt tc t a ((List.range (tRows t)).map fun i => BitVec.ofNat 8 (s.accTag c (dRow a + i))) (rmCode (c.cvtRm a)), tcs, none),
    (.aczero tok ra, [require (descOk ⟨false, false, true, false, true, true, true⟩ 0 a) .illegal a,
      s.rowsIn (dRow a) (dNR a) a], .aczero a, tcs, some (dRow a, dNR a, if bitOf a 31 then .fp32 else .i32))]

/-- R216, R226: a matrix job instruction faults on the first of its checks that fails; with them passed it stalls while the
queue holds 32 jobs, or 12 of its core, and on a counter at 63; else it issues its job, with the shapes and row tags it
sets at issue, and nothing else changed. That the A tile's sequence numbers are checked before the B tile's, the address before the
stride, and operand tiles before accumulator rows, are the model's choices (log 131, log 144). -/
def Obligations.MatrixIssue : Prop :=
  ∀ (s : State) (tok : XReg) (tc tb : TReg) (ra rd : XReg),
    let jobs := s.ops.filter fun o => match o.body with | .matrix c _ _ _ => c == s.core.num / 8 | _ => false
    let room : Prop := jobs.length < 32 ∧ (jobs.filter fun o => o.owner == s.core.owner).length < 12
    ∀ e ∈ matrixForms s tok tc tb ra rd,
      let (i, checks, job, tcs, tags) := e
      (∀ (n : Nat) c v, checks[n]? = some (some (c, v)) → (∀ m < n, checks[m]? = some none) → exec i s = .next (s.trap c v)) ∧
      ((∀ x ∈ checks, x = none) →
        (¬room → Answers i s fun t => Stalls .matrixQueue s t) ∧
        (room → s.core.counterFull = true → Answers i s fun t => Stalls .counter s t) ∧
        (room → s.core.counterFull = false → NoKill s → Answers i s fun t =>
          Issues 1 tok (.matrix (s.core.num / 8) (bitOf s.core.csr.mstat 2) s.core.csr.accbase.toNat job) s t ∧
          Unchanged ((match tags with | some (r, n, f) => s.setAccTags r n f | none => s).setCsr
            { s.core.csr with tc := tcs }) t))

/-- What a job that reads the ranges rs holds once it has read them (R227): the check that failed, the uncorrectable data it
met, or the bytes of each range. -/
def Sys2Proof.FetchesJob (s : State) (o : Op) (rs : List (Word × Nat)) (ph : Phase) : Prop :=
  (∀ e v, s.checkRanges o.rights .load rs = .error (e, v) → ph = .fetched (some (true, e, v)) []) ∧
  ∀ kss, s.checkRanges o.rights .load rs = .ok kss →
    (∀ a, s.firstPoison rs kss = some a → ph = .fetched (some (false, .poison, a)) []) ∧
    (s.firstPoison rs kss = none → ∃ data : List (List Byte), ph = .fetched none data ∧ data.length = kss.length ∧
      ∀ (i : Nat) (ks : List Nat) (l : List Byte), kss[i]? = some ks → data[i]? = some l → s.EngineReads (s.homeFor o rs kss) ks l)

/-- R227, R228 of a job o that reads the ranges rs, held by core n: one whose check fails writes nothing, one that meets
uncorrectable data leaves zeros, each with its status and COUNT 0; else it completes with its count and leaves what the bytes of
each range make. -/
def Sys2Proof.ReadingJob (s : State) (o : Op) (cluster n : Nat) (tr : Bool) (rs : List (Word × Nat)) (count : Nat)
    (nothing zeros : State → Prop) (moved : (Nat → List Byte) → State → Prop) : Prop :=
  let run : (State → Prop) → Prop := Answers (.matrixJobComplete cluster tr) s
  (∀ e v l, o.tok ≠ 0 → o.phase = .fetched (some (true, e, v)) l ∨
      o.phase = .started ∧ s.checkRanges o.rights .load rs = .error (e, v) →
    run fun t => Completes o (causeCode e) 0 n s t ∧ nothing t) ∧
  (∀ a l, o.tok ≠ 0 → o.phase = .fetched (some (false, .poison, a)) l ∨
      o.phase = .started ∧ (∃ kss, s.checkRanges o.rights .load rs = .ok kss ∧ s.firstPoison rs kss = some a) →
    run fun t => Completes o (causeCode .poison) 0 n s t ∧ zeros t) ∧
  (∀ data, o.phase = .fetched none data → data.map List.length = rs.map (·.2) →
    run fun t => Completes o 0 count n s t ∧ moved (fun i => data[i]?.getD []) t) ∧
  (∀ kss, o.phase = .started → s.checkRanges o.rights .load rs = .ok kss → s.firstPoison rs kss = none →
    run fun t => Completes o 0 count n s t ∧ ∃ data : Nat → List Byte, moved data t ∧
      ∀ (i : Nat) (ks : List Nat), kss[i]? = some ks → s.EngineReads (s.homeFor o rs kss) ks (data i))

/-- R227, R228 of a job o that stores data to the ranges rs, held by core n: one whose check fails writes nothing; one that meets
uncorrectable data ends in POISON and writes nowhere else; else the bytes land and it completes with its count. -/
def Sys2Proof.StoringJob (s : State) (o : Op) (cluster n : Nat) (tr : Bool) (rs : List (Word × Nat)) (count : Nat)
    (data : List Byte) (kept : State → Prop) : Prop :=
  let run : (State → Prop) → Prop := Answers (.matrixJobComplete cluster tr) s
  (∀ e v, o.tok ≠ 0 → s.checkRanges o.rights .store rs = .error (e, v) → run fun t =>
    Completes o (causeCode e) 0 n s t ∧ kept t ∧ ∀ a, t.mem.get a = s.mem.get a) ∧
  ∀ kss, s.checkRanges o.rights .store rs = .ok kss → (∀ k ∈ kss.flatten, inRegs k = false) →
    (∀ a, o.tok ≠ 0 → s.firstPoison rs kss = some a → run fun t => (∃ part, Completes o (causeCode .poison) part n s t) ∧
      kept t ∧ ∀ a, a ∉ kss.flatten.map hostKey → t.mem.get a = s.mem.get a) ∧
    (s.firstPoison rs kss = none → run fun t =>
      Completes o 0 count n s t ∧ kept t ∧ s.EngineWrites (s.homeFor o rs kss) kss.flatten data t)

/-- A finite value in units of 2^-300: every element of a tile and every FP32 accumulator is a multiple of it. -/
def Sys2Proof.fixed : Machine.Num → Int
  | .fin neg m e => (if neg then -1 else 1) * ((m * 2 ^ (e + 300).toNat : Nat) : Int)
  | _ => 0

/-- R80, R85, R234, R374: the accumulator value with the bits c after the group of the products of xs and ys: their exact sum and
c, rounded once to nearest even into FP32, a subnormal result flushed; and the flags. -/
def Sys2Proof.GroupAdds (c : Nat) (xs ys : List Machine.Num) (r : Nat × Word) : Prop :=
  let ps := xs.zip ys
  let infs (neg : Bool) : Prop := ∃ p ∈ ps, mulNum p.1 p.2 = .inf neg 0
  let nan : Prop := ∃ p ∈ ps, p.1.isNaN = true ∨ p.2.isNaN = true ∨ (mulNum p.1 p.2).toNum.isNaN = true
  let invalid : Prop := ∃ p ∈ ps, p.1.isSig = true ∨ p.2.isSig = true ∨ (mulNum p.1 p.2).flags = 8
  let accNaN : Prop := 0x7F800000 < c % 2 ^ 31
  let accSig : Prop := accNaN ∧ c / 2 ^ 22 % 2 = 0
  let total : Int := fixed ((fpFmt .fp32).elim (.fin false 0 0) fun g => g.decode c) * 2 ^ 300 +
    (ps.map fun p => fixed p.1 * fixed p.2).sum
  let negZero : Prop := c = 0x80000000 ∧ ∀ p ∈ ps, fixed p.1 * fixed p.2 = 0 ∧ ∃ e, mulNum p.1 p.2 = .fin true 0 e false 0
  (nan ∨ accNaN → r.1 = 0x7FC00000 ∧ (invalid ∨ accSig → r.2 = 8) ∧
    (¬invalid → ¬accSig → ¬(infs true ∧ infs false) → r.2 = 0)) ∧
  (¬nan → ¬accNaN →
    (infs true → infs false → r = (0x7FC00000, 8)) ∧
    (∀ neg, infs neg → ¬infs (!neg) →
      r = if c = (if neg then 0x7F800000 else 0xFF800000) then (0x7FC00000, 8) else (if neg then 0xFF800000 else 0x7F800000, 0)) ∧
    (¬infs true → ¬infs false → c % 2 ^ 31 = 0x7F800000 → r = (c, 0)) ∧
    (¬infs true → ¬infs false → c % 2 ^ 31 < 0x7F800000 →
      (total = 0 → negZero → r = (0x80000000, 0)) ∧ (total = 0 → ¬negZero → r = (0, 0)) ∧
      (total ≠ 0 → ∃ q : Nat × Word,
        (∀ g, fpFmt .fp32 = some g → RoundsTo g .rne (decide (total < 0)) (fun m => decide (m * 2 ^ 448 ≤ total.natAbs))
          (fun m => decide (total.natAbs ≤ m * 2 ^ 448)) q) ∧
        r = if q.1 % 2 ^ 31 ≠ 0 ∧ q.1 % 2 ^ 31 < 2 ^ 23 then (q.1 - q.1 % 2 ^ 31, 256) else q)))

/-- R217, R218, R227, R228, R230, R232, R234, R236, R237: a stalled issue goes on once the queue has room; a free unit starts a
ready job, latency lane first, then by turn, which may read its memory at once; each job completes with its word, its count, its
flags and its effect, and leaves the tiles, scales, accumulators and memory beyond it as they were. VectorMoves states convert;
COUNT 0 where a job's read met uncorrectable data, and its count where a store did, are the model's choice (log 60); that an ACCVT
counts its rows (log 59) is the model's reading, and its choices are whose turn comes first on a unit that has served none (log 143), the
order of rows that overlap in an ACST (log 141), and that the first failing byte of a range decides (log 142). -/
def Obligations.MatrixJobs : Prop :=
  ∀ (s : State) (c cluster : Nat) (tr : Bool),
    let k := s.focus c
    let ready (p : Op) : Prop := p ∈ s.ops ∧ p.onUnit cluster tr = true ∧ p.phase = .issued ∧
      ∀ q ∈ s.ops, q.isMatrix = true → q.owner = p.owner → p.id ≤ q.id
    let turn (p : Op) : Nat := turnOf (lookupD s.served (2 * cluster + tr.toNat) 7) (s.homeOf p.owner % 8)
    (∀ i u, StalledAt .matrixQueue i k u → u.matrixRoom u.core = true → AnswersOn c (.matrixQueueRoom c) s fun _ t =>
      t = { u with core := { u.core with stall := none } }) ∧
    (∀ o, s.nextJob cluster tr = some o → ready o ∧
      ∀ p, ready p → (p.inLane = true → o.inLane = true) ∧ (p.inLane = o.inLane → turn o ≤ turn p)) ∧
    ((∃ p, ready p) → s.nextJob cluster tr ≠ none) ∧
    (∀ o, s.running cluster tr = none → s.nextJob cluster tr = some o → Answers (.matrixJobStart cluster tr) s fun t =>
      ∃ (u : State) (ph : Phase), NotesOnly s u ∧ t = { (u.modOp o.id fun p => { p with phase := ph }) with
          served := assign s.served (2 * cluster + tr.toNat) (s.homeOf o.owner % 8) } ∧
        (ph = .started ∨ ∃ lane base job rs, o.body = .matrix cluster lane base job ∧ job.reads = some rs ∧
          FetchesJob s o rs ph)) ∧
    (s.running cluster tr = none → exec (.matrixJobComplete cluster tr) s = .next s) ∧
    (∀ o lane base job n, s.running cluster tr = some o → o.body = .matrix cluster lane base job → Resident s o.owner n →
      o.discard = false → s.storesWf → Memory.wf (s.getCore n).tiles = true → Memory.wf (s.getCore n).scales = true →
      let g := s.getCore n
      let run : (State → Prop) → Prop := Answers (.matrixJobComplete cluster tr) s
      let sameMem : State → Prop := fun t => ∀ a, t.mem.get a = s.mem.get a
      let sameAcc : State → Prop := fun t => ∀ a, t.acc.get a = s.acc.get a
      let sameTiles : State → Prop := fun t => (t.getCore n).tiles = g.tiles
      let sameScales : State → Prop := fun t => (t.getCore n).scales = g.scales
      let flags : Word → Word → State → Prop := fun fl ms t =>
        (t.getCore n).csr.fcsr = g.csr.fcsr ||| fl ∧ (t.getCore n).csr.mstat = g.csr.mstat ||| ms
      let nothing : State → Prop := fun t => sameMem t ∧ sameAcc t ∧ sameTiles t ∧ sameScales t ∧ flags 0 0 t
      -- rows of len bytes of a tile, and nothing else of it
      let tile : TReg → Nat → Nat → (Nat → List Byte) → State → Prop := fun tc rows len data t =>
        sameMem t ∧ sameAcc t ∧ sameScales t ∧ flags 0 0 t ∧
          (∀ i < rows, ∀ b < len, (t.getCore n).tiles.get (tc.val * 1024 + 32 * i + b) = (data i)[b]?.getD 0) ∧
          ∀ a, (∀ i < rows, ¬(tc.val * 1024 + 32 * i ≤ a ∧ a < tc.val * 1024 + 32 * i + len)) → (t.getCore n).tiles.get a = g.tiles.get a
      let scale : TReg → Nat → (Nat → List Byte) → State → Prop := fun tc rows data t =>
        sameMem t ∧ sameAcc t ∧ sameTiles t ∧ flags 0 0 t ∧
          (∀ i < rows, natOfBytes ((t.getCore n).scales.read ((tc.val * 32 + i) * 2) 2) = natOfBytes (data i) % 4096) ∧
          ∀ a, (a < tc.val * 64 ∨ tc.val * 64 + 2 * rows ≤ a) → (t.getCore n).scales.get a = g.scales.get a
      -- the elements of rows by cols accumulators from a descriptor's row and column, and no other accumulator
      let accs : Nat → Word → Nat → Nat → (Nat → Nat → Nat) → State → Prop := fun base d rows cols v t =>
        sameMem t ∧ sameTiles t ∧ sameScales t ∧
          (∀ i < rows, ∀ j < cols, t.accGet cluster (base + dRow d + i) (dCol d + j) = v i j) ∧
          ∀ a, (∀ i < rows, ∀ j < cols, a / 4 * 4 ≠ accKey cluster (base + dRow d + i) (dCol d + j)) → t.acc.get a = s.acc.get a
      let old : Word → Nat → Nat → Nat := fun d i j => s.accGet cluster (base + dRow d + i) (dCol d + j)
      let clamp : Int → Nat := fun v => (BitVec.ofInt 32 (max (-(2 ^ 31)) (min v (2 ^ 31 - 1)))).toNat
      let tooBig : Int → Prop := fun v => v < -(2 ^ 31) ∨ 2 ^ 31 ≤ v
      let bit : Prop → Word → Word → Prop := fun p w ms => (p → ms = w) ∧ (¬p → ms = 0)
      (∀ tc, job = .tzero tc → run fun t => Completes o 0 1024 n s t ∧ tile tc 32 32 (fun _ => List.replicate 32 0) t) ∧
      (∀ d, job = .aczero d → dCol d + dNC d ≤ 128 → run fun t => Completes o 0 (dNR d) n s t ∧ flags 0 0 t ∧
        accs base d (dNR d) (dNC d) (fun _ _ => 0) t) ∧
      (∀ tc sh a str, job = .tld tc sh a str → rowBytes sh ≤ 32 →
        ReadingJob s o cluster n tr (rowRanges a str (tRows sh) (rowBytes sh)) (tRows sh * rowBytes sh) nothing
          (tile tc (tRows sh) (rowBytes sh) fun _ => List.replicate (rowBytes sh) 0) (tile tc (tRows sh) (rowBytes sh))) ∧
      (∀ tc sh a str, job = .tlds tc sh a str →
        ReadingJob s o cluster n tr (rowRanges a str (tRows sh) 2) (2 * tRows sh) nothing
          (scale tc (tRows sh) fun _ => [0, 0]) (scale tc (tRows sh))) ∧
      (∀ a d, job = .acld a d → dCol d + dNC d ≤ 128 →
        ReadingJob s o cluster n tr (rowRanges a (dStride d) (dNR d) (4 * dNC d)) (4 * dNR d * dNC d) nothing
          (fun t => flags 0 0 t ∧ accs base d (dNR d) (dNC d) (fun _ _ => 0) t)
          fun data t => flags 0 0 t ∧ accs base d (dNR d) (dNC d) (fun i j => natOfBytes (((data i).drop (4 * j)).take 4)) t) ∧
      (∀ tc sh a d, job = .mtv tc sh a d → dCol d + dNC d ≤ 128 →
        let sum : (Nat → List Byte) → Nat → Int := fun data j => (BitVec.ofNat 32 (old d 0 j)).toInt +
          ((List.range (tRows sh * tCols sh)).map fun q =>
            tritAt (bitOf d 30) (data j) q * g.tileInt tc .i8 (q / tCols sh) (q % tCols sh)).sum
        ReadingJob s o cluster n tr (rowRanges a (dStride d) (dNC d) (mtvRow sh d)) (dNC d) nothing
          (fun t => flags 0 0 t ∧ accs base d 1 (dNC d) (fun _ _ => 0) t)
          fun data t => accs base d 1 (dNC d) (fun _ j => clamp (sum data j)) t ∧ ∃ sat terr, flags 0 (sat ||| terr) t ∧
            bit (∃ j < dNC d, tooBig (sum data j)) 2 sat ∧
            bit (bitOf d 30 = false ∧ ∃ j < dNC d, ∃ b ∈ data j, 243 ≤ b.toNat) 1 terr) ∧
      (∀ zero ta sa tb sb d, job = .mma zero ta sa tb sb d → dCol d + tRows sb ≤ 128 →
        let from_ : Nat → Nat → Nat := fun i j => if zero then 0 else old d i j
        (mmaAcc sa = .i32 →
          let sum : Nat → Nat → Int := fun i j => (BitVec.ofNat 32 (from_ i j)).toInt +
            ((List.range (tCols sa)).map fun q => g.tileInt ta ((tTag sa).getD .none) i q *
              g.tileInt tb ((tTag sb).getD .none) j q).sum
          run fun t => Completes o 0 (tRows sa) n s t ∧ accs base d (tRows sa) (tRows sb) (fun i j => clamp (sum i j)) t ∧
            ∃ sat terr, flags 0 (sat ||| terr) t ∧ bit (∃ i < tRows sa, ∃ j < tRows sb, tooBig (sum i j)) 2 sat ∧
              bit (tTag sb = some .t5 ∧ ∃ i < tRows sb, ∃ b < rowBytes sb, 243 ≤ (g.tiles.get (tb.val * 1024 + 32 * i + b)).toNat) 1 terr) ∧
        (mmaAcc sa = .fp32 → tTag sb ≠ some .t5 → run fun t => Completes o 0 (tRows sa) n s t ∧ ∃ v : Nat → Nat → Nat × Word,
          (∀ i < tRows sa, ∀ j < tRows sb, GroupAdds (from_ i j)
            ((List.range (tCols sa)).map fun q => g.tileFp ta ((tTag sa).getD .none) i q)
            ((List.range (tCols sa)).map fun q => g.tileFp tb ((tTag sb).getD .none) j q) (v i j)) ∧
          accs base d (tRows sa) (tRows sb) (fun i j => (v i j).1) t ∧
          flags (orAll ((cells (tRows sa) (tRows sb)).map fun e => (v e.1 e.2).2)) 0 t)) ∧
      (∀ tc sh d rows rm dst, job = .accvt tc sh d rows rm → tTag sh = some dst → dst ∈ [Fmt.i8, .fp8e4, .fp8e5, .bf16, .fp16, .fp32] →
        rowBytes sh ≤ 32 →
        let src : Nat → Fmt := fun i => if rows[i]?.getD 0 = 9 then .fp32 else .i32
        let val : Nat → Nat → Nat × Word := fun i j => convert (src i) dst (rmOf rm) (old d i j)
        let w := lanewidth dst / 8
        rows.length = tRows sh → (∀ b ∈ rows, b = 3 ∨ b = 9) → run fun t => Completes o 0 (tRows sh) n s t ∧ sameMem t ∧ sameAcc t ∧ sameScales t ∧
          flags (orAll ((cells (tRows sh) (tCols sh)).map fun e => (val e.1 e.2).2)) 0 t ∧
          (∀ i < tRows sh, ∀ j < tCols sh,
            natOfBytes ((t.getCore n).tiles.read (tc.val * 1024 + 32 * i + w * j) w) = (val i j).1) ∧
          ∀ a, (∀ i < tRows sh, ¬(tc.val * 1024 + 32 * i ≤ a ∧ a < tc.val * 1024 + 32 * i + rowBytes sh)) →
            (t.getCore n).tiles.get a = g.tiles.get a) ∧
      (∀ tc sh a str, job = .tst tc sh a str →
        StoringJob s o cluster n tr (rowRanges a str (tRows sh) (rowBytes sh)) (tRows sh * rowBytes sh)
          ((List.range (tRows sh)).map fun i => g.tiles.read (tc.val * 1024 + 32 * i) (rowBytes sh)).flatten
          fun t => sameTiles t ∧ sameScales t ∧ sameAcc t) ∧
      (∀ a d, job = .acst a d → dCol d + dNC d ≤ 128 →
        StoringJob s o cluster n tr (rowRanges a (dStride d) (dNR d) (4 * dNC d)) (4 * dNR d * dNC d)
          ((List.range (dNR d)).map fun i => ((List.range (dNC d)).map fun j => bytesOfNat 4 (old d i j)).flatten).flatten
          fun t => sameTiles t ∧ sameScales t ∧ sameAcc t))

/-- R240, R243, R249: CPY, CPYF and TCPY fault on the first of their checks that fails, the range of the source before that
of the destination, the barrier's record last; they stall on the 17th operation, on a counter at 63 and on a record without
room; else they issue, their beats added, or a TCPY's hold, and nothing else changed. -/
def Obligations.CopyIssue : Prop :=
  ∀ (s : State) (tok d a b : XReg),
    let x := s.rx b
    let bar : Option Word := if bitOf s.core.csr.xbar 0 then some (s.core.csr.xbar &&& ~~~15) else none
    let r := s.rightsOf s.core
    let inRange : Word → Nat → Option (Cause × Word) := fun a n =>
      if n = 0 then none
      else if s.core.localBad a then some (.loc, a)
      else if regionEnd a < a.toNat + n then some (.loc, BitVec.ofNat 64 (regionEnd a))
      else none
    let record : Option (Cause × Word) := bar.bind fun p =>
      match s.resolveAll r .atomic p 16 with
      | .error (c, _) => some (c, p)
      | .ok ks => if ks.any fun k => s.poisoned k 1 then some (.poison, p) else none
    let long : Option (Cause × Word) := if bitsOf x 63 32 = 0 then none else some (.illegal, x)
    let room : Prop := ((s.opsOf s.core.owner).filter Op.isCopy).length < 16
    ∀ e ∈ [(Instr.cpy tok d a b, [long, inRange (s.rx a) x.toNat, inRange (s.rx d) x.toNat, record],
          Body.cpy (s.rx d) (s.rx a) x.toNat bar, beatsOf (s.rx d) x.toNat),
        (.cpyf tok d a b, [long, inRange (s.rx d) x.toNat, record], .cpyf (s.rx d) (s.rx a) x.toNat bar, beatsOf (s.rx d) x.toNat),
        (.tcpy tok d a b, [if x.toNat % 4 = 0 then none else some (.align, x), inRange x 1, record],
          .tcpy (s.rx d) (s.rx a) x bar, 1)],
      let (i, checks, body, beats) := e
      (∀ (n : Nat) c v, checks[n]? = some (some (c, v)) → (∀ m < n, checks[m]? = some none) → exec i s = .next (s.trap c v)) ∧
      ((∀ x ∈ checks, x = none) →
        (¬room → Answers i s fun t => Stalls .copySlot s t) ∧
        (room → s.core.counterFull = true → Answers i s fun t => Stalls .counter s t) ∧
        (∀ p, room → s.core.counterFull = false → bar = some p → beats ≠ 0 → s.barRoom r p beats = false →
          Answers i s fun t => Stalls .beats s t) ∧
        (room → s.core.counterFull = false → NoKill s → (bar = none ∨ beats = 0) → Answers i s fun t =>
          Issues 2 tok body s t ∧ Unchanged s t) ∧
        (∀ p ks, room → s.core.counterFull = false → NoKill s → bar = some p → beats ≠ 0 → s.barRoom r p beats = true →
          s.resolveAll r .atomic p 16 = .ok ks → (∀ k ∈ ks, inRegs k = false) → s.memWf → Answers i s fun t =>
            let rec_ := BarRec.ofBytes (ks.map s.readKey)
            StoresBytes ks ({ rec_ with beats := rec_.beats + beats } : BarRec).bytes s t ∧ Unchanged { s with mem := t.mem } t ∧
              ∃ o ∈ t.ops, o.id = s.nextId ∧ o.body = body ∧ o.beats = beats ∧ o.tok = tok))

/-- R151: what n landing beats make of a barrier record: they are subtracted, too few leave 0 and STRAY, and with none left and
the arrivals come the generation is released. -/
def Sys2Proof.landed (n : Nat) (r : BarRec) : BarRec :=
  let q : BarRec := { r with beats := r.beats - n, stray := r.stray || decide (r.beats < n) }
  if q.beats = 0 ∧ q.expect ≤ q.arrived then { q with gen := (q.gen + 1) % 2 ^ 32, arrived := q.arrived - q.expect } else q

/-- An operation's barrier record at p takes an update f, and nothing else of memory changes. -/
def Sys2Proof.UpdatesBar (s : State) (o : Op) (p : Word) (f : BarRec → BarRec) (t : State) : Prop :=
  ∀ ks, s.resolveAll o.rights .atomic p 16 = .ok ks → (∀ k ∈ ks, inRegs k = false) →
    StoresBytes ks (f (BarRec.ofBytes (ks.map s.readKey))).bytes s t

/-- R247: the geometry a TCPY descriptor's bytes state, if they are valid. -/
def Sys2Proof.geometry (l : List Byte) : Option Tensor :=
  let ndim := fieldAt l 0 1
  let dims := (List.range ndim).map fun d : Nat =>
    (⟨fieldAt l (16 + 20 * d) 4, BitVec.ofNat 64 (fieldAt l (20 + 20 * d) 8), BitVec.ofNat 64 (fieldAt l (28 + 20 * d) 8)⟩ : Dim)
  let total := (dims.map (·.ext)).prod * 2 ^ fieldAt l 1 1
  if 1 ≤ ndim ∧ ndim ≤ 14 ∧ fieldAt l 1 1 ≤ 3 ∧ fieldAt l 2 6 = 0 ∧ fieldAt l 8 8 = total ∧ total ≤ 2 ^ 32 then
    some ⟨2 ^ fieldAt l 1 1, total, dims⟩
  else none

/-- R244, R248: from state u the elements of a TCPY of a geometry are checked and moved, and operation o ends in t: an element's
source bytes are read before those of any are written, and a later element's bytes stand (the operation writes no source of its
own here). -/
def Sys2Proof.MovesElements (u : State) (o : Op) (dst src : Word) (g : Tensor) (t : State) : Prop :=
  let es := g.elems dst src
  let reads := es.map fun e => (e.1, g.size)
  let writes := es.map fun e => (e.2, g.size)
  let ends : Cause → Nat → Word → State → Prop := fun st n fa v => t = v.modOp o.id fun p => { p with phase := .moved st n fa }
  (∀ e a, u.checkCopy o.rights reads writes = .error (e, a) → ends e 0 a u) ∧
  (∀ ss ds, u.checkCopy o.rights reads writes = .ok (ss, ds) → u.firstPoison reads ss = none →
    (∀ k ∈ ds.flatten, inRegs k = false) → (∀ k ∈ ss.flatten, k ∉ ds.flatten) →
    let h := u.homeFor o (reads ++ writes) (ss ++ ds)
    ∃ (v : State) (data : Nat → List Byte), ends .ok g.total 0 v ∧
      (∀ (i : Nat) (ks : List Nat), ss[i]? = some ks → u.EngineReads h ks (data i)) ∧
      u.EngineWrites h ds.flatten ((List.range ss.length).map data).flatten v) ∧
  (∀ ss ds a, u.checkCopy o.rights reads writes = .ok (ss, ds) → u.firstPoison reads ss = some a →
    (∀ k ∈ ds.flatten, inRegs k = false) → ∃ v : State, ends .poison 0 a v ∧ ∀ p, p ∉ ds.flatten.map hostKey → v.mem.get p = u.mem.get p)

/-- R244 to R249: a copy reads all it reads before it writes, each aligned 8-byte unit as R191 and R192 order it; one refused
writes nothing; a TCPY reads its descriptor whole, ends where that cannot be read, is invalid or moves no byte, and counts its
beats for its hold before its elements move, or waits for room; its beats land as R151 says; it completes with its status and
count; stalls on the 17th operation end. That a TCPY which waits for room reads its descriptor again is the model's reading (log 63). -/
def Obligations.CopyOperations : Prop :=
  (∀ l : List Byte, tensorOf l = geometry l) ∧
  (∀ (g : Tensor) (dst src : Word) (idx : List Nat), idx.length = g.dims.length → 0 < g.size → (∀ p ∈ idx.zip g.dims, p.1 < p.2.ext) →
    g.total = (g.dims.map (·.ext)).prod * g.size →
    (g.elems dst src)[(idx.zip g.dims).foldr (fun p n => p.1 + p.2.ext * n) 0]? =
      some (src + ((idx.zip g.dims).map fun p => BitVec.ofNat 64 p.1 * p.2.src).sum,
        dst + ((idx.zip g.dims).map fun p => BitVec.ofNat 64 p.1 * p.2.dst).sum)) ∧
  ∀ (s : State) (c id : Nat) (o : Op), s.memWf → s.op? id = some o →
    let k := s.focus c
    let moved (st : Cause) (n : Nat) (fa : Word) (t u : State) : Prop :=
      t = u.modOp o.id fun p => { p with phase := .moved st n fa }
    let refused (e : Cause) (a : Word) : Prop := Answers (.copyOpStart id) s fun t => ∃ u : State, NotesOnly s u ∧ moved e 0 a t u
    let lands (h : Op) (n : Nat) (ds : List Nat) (data : List Byte) (t : State) : Prop :=
      ∃ u : State, moved .ok n 0 t u ∧ s.EngineWrites h ds data u ∧ u.ops = s.ops ∧ u.core.x = s.core.x
    (∀ i u, StalledAt .copySlot i k u → u.copyRoom u.core = true → AnswersOn c (.copySlotFree c) s fun _ t =>
      t = { u with core := { u.core with stall := none } }) ∧
    (o.phase = .issued → ∀ dst src n bar, o.body = .cpy dst src n bar →
      (∀ e a, s.checkCopy o.rights [(src, n)] [(dst, n)] = .error (e, a) → refused e a) ∧
      (∀ ks ds, s.checkCopy o.rights [(src, n)] [(dst, n)] = .ok ([ks], [ds]) → s.firstPoison [(src, n)] [ks] = none →
        (∀ k ∈ ds, inRegs k = false) →
        let h := s.homeFor o [(src, n), (dst, n)] [ks, ds]
        Answers (.copyOpStart id) s fun t => ∃ data, s.EngineReads h ks data ∧ lands h n ds data t) ∧
      (∀ ks ds a, s.checkCopy o.rights [(src, n)] [(dst, n)] = .ok ([ks], [ds]) → s.firstPoison [(src, n)] [ks] = some a →
        (∀ k ∈ ds, inRegs k = false) → Answers (.copyOpStart id) s fun t => ∃ u : State, moved .poison 0 a t u ∧
          ∀ p, p ∉ ds.map hostKey → u.mem.get p = s.mem.get p)) ∧
    (o.phase = .issued → ∀ dst pat n bar, o.body = .cpyf dst pat n bar →
      (∀ e a, s.checkCopy o.rights [] [(dst, n)] = .error (e, a) → refused e a) ∧
      (∀ ds, s.checkCopy o.rights [] [(dst, n)] = .ok ([], [ds]) → (∀ k ∈ ds, inRegs k = false) →
        Answers (.copyOpStart id) s (lands (s.homeFor o [(dst, n)] [ds]) n ds
          ((List.range n).map fun i => BitVec.ofNat 8 (pat.toNat / 256 ^ (i % 8)))))) ∧
    (∀ i dst src desc bar, o.body = .tcpy dst src desc bar →
      (i = .copyOpStart id ∧ o.phase = .issued) ∨ (i = .beatsRoom id ∧ o.phase = .started) →
      (∀ e a, s.resolveRead o.rights desc 16 = .error (e, a) → Answers i s fun t => ∃ u, NotesOnly s u ∧ moved e 0 a t u) ∧
      (∀ hs, s.resolveRead o.rights desc 16 = .ok hs → Answers i s fun t => ∃ (u : State) (h : List Byte), NotesOnly s u ∧
        s.EngineReads (s.homeFor o [(desc, 16)] [hs]) hs h ∧
        let ndim := fieldAt h 0 1
        let more := if 1 ≤ ndim ∧ ndim ≤ 14 then 20 * ndim else 0
        (∀ e a, s.resolveRead o.rights (desc + 16) more = .error (e, a) → moved e 0 a t u) ∧
        (∀ ks, s.resolveRead o.rights (desc + 16) more = .ok ks → ∃ l : List Byte,
          s.EngineReads (s.homeFor o [(desc + 16, more)] [ks]) ks l ∧
          (geometry (h ++ l) = none → ∃ fa, moved .illegal 0 fa t u) ∧
          (∀ g, geometry (h ++ l) = some g →
            let beats := ((g.elems dst src).map fun e => (List.range g.size).map fun i => (e.2 + BitVec.ofNat 64 i).toNat / 64).flatten.eraseDups.length
            (bar ≠ none → g.total = 0 → moved .ok 0 0 t u) ∧
            (bar = none → MovesElements u o dst src g t) ∧
            (∀ p, bar = some p → g.total ≠ 0 → s.barRoom o.rights p (beats - 1) = false →
              t = u.modOp o.id fun q => { q with phase := .started }) ∧
            (∀ p, bar = some p → g.total ≠ 0 → s.barRoom o.rights p (beats - 1) = true → ∃ v w : State,
              UpdatesBar u o p (fun r => { r with stray := r.stray || decide (r.beats = 0), beats := r.beats - 1 + beats }) v ∧
              w = v.modOp o.id (fun q => { q with beats := beats }) ∧ MovesElements w o dst src g t))))) ∧
    (∀ m fa n, o.phase = .moved .ok m fa → o.isCopy = true → n ≤ o.beats →
      ((o.bar = none ∨ n = 0) → Answers (.beatLanding id n) s fun t => t = s.modOp id fun p => { p with beats := p.beats - n }) ∧
      (∀ p, o.bar = some p → n ≠ 0 → Answers (.beatLanding id n) s fun t => ∃ u : State, UpdatesBar s o p (landed n) u ∧
        t = u.modOp id fun p => { p with beats := p.beats - n })) ∧
    (∀ st m fa n, o.phase = .moved st m fa → o.isCopy = true → o.beats = 0 ∨ o.bar = none → (∀ e ∈ s.asyncWaiting, e.1 ≠ id) →
      o.tok ≠ 0 ∨ st = .ok → o.discard = false → Resident s o.owner n → Answers (.copyComplete id) s fun t =>
        Completes o (causeCode st) m n s t ∧ ∀ a, t.mem.get a = s.mem.get a) ∧
    (∀ st m fa n p ks, o.phase = .moved st m fa → o.isCopy = true → o.beats ≠ 0 → o.bar = some p → (∀ e ∈ s.asyncWaiting, e.1 ≠ id) →
      o.tok ≠ 0 ∨ st = .ok → o.discard = false → Resident s o.owner n → s.resolveAll o.rights .atomic p 16 = .ok ks →
      (∀ k ∈ ks, inRegs k = false) → Answers (.copyComplete id) s fun t =>
        Completes o (causeCode st) m n s t ∧ StoresBytes ks (landed o.beats (BarRec.ofBytes (ks.map s.readKey))).bytes s t)

/-- R251, R254, R255, R259: BTE.GO and BTE.Q fault on a handle out of range or not held, BTE.GO on a misaligned chain or
ring; BTE.GO stalls with eight requests held, or issues; BTE.Q reads the channel's word. -/
def Obligations.BlockTransferIssue : Prop :=
  ∀ (s : State) (tok d a b : XReg) (c : Nat),
    let h := s.rx a
    let held := s.ops.filter fun o => match o.body with | .bte _ _ _ acc _ => s.homeOf o.owner == s.core.num && !acc | _ => false
    (∀ e ∈ [Instr.bteGo tok d a b, .bteQ d a],
      (64 ≤ h.toNat → exec e s = .next (s.trap .illegal h)) ∧
      (h.toNat < 64 → s.channelOf s.core h.toNat = none → exec e s = .next (s.trap .rights h))) ∧
    (∀ ch, h.toNat < 64 → s.channelOf s.core h.toNat = some ch →
      ((s.rx b).toNat % 64 ≠ 0 → exec (.bteGo tok d a b) s = .next (s.trap .align (s.rx b))) ∧
      ((s.rx b).toNat % 64 = 0 → (s.rx d).toNat % 8 ≠ 0 → exec (.bteGo tok d a b) s = .next (s.trap .align (s.rx d))) ∧
      ((s.rx b).toNat % 64 = 0 → (s.rx d).toNat % 8 = 0 →
        (8 ≤ held.length → Answers (.bteGo tok d a b) s fun t => Stalls .bteRequest s t) ∧
        (held.length < 8 → s.core.counterFull = true → Answers (.bteGo tok d a b) s fun t => Stalls .counter s t) ∧
        (held.length < 8 → s.core.counterFull = false → NoKill s → Answers (.bteGo tok d a b) s fun t =>
          Issues 3 tok (.bte ch (s.rx d) (s.rx b) false 0) s t ∧ Unchanged s t)) ∧
      (Answers (.bteQ d a) s fun t =>
        let st : Nat := match (s.channel ch).phase with | 0 => 0 | 3 => 2 | _ => 1
        let waits : Nat := if held.any fun o => o.chan == ch then 1 else 0
        WritesX d (BitVec.ofNat 64
          ((s.channel ch).lastId * 2 ^ 32 + causeCode (s.channel ch).last * 2 ^ 8 + waits * 2 ^ 2 + st)) s t ∧ Advances 4 s t)) ∧
    (∀ i u, StalledAt .bteRequest i (s.focus c) u → (u.heldRequests u.core.num).length < 8 →
      AnswersOn c (.bteRequestRoom c) s fun _ t => t = { u with core := { u.core with stall := none } })

/-- R256: from state u the chain of operation o ends with a status and the bytes it has moved: its completion word stands in the
token register of core n, where it was issued, its counter falls, and the channel is idle; s is the state the event began in. One without a token that fails is
idle once its record is written, and until then still runs (R309, R310). -/
def Sys2Proof.ChainEnds (s u : State) (o : Op) (chan : Channel) (st : Cause) (moved n : Nat) (t : State) : Prop :=
  let idle : Channel := { chan with phase := 0, moved := moved, last := st, bytes := [], entry := none }
  (o.tok ≠ 0 ∨ st = .ok → t.channel chan.ch = idle ∧ Completes o (causeCode st) moved n s t ∧ ∀ a, t.mem.get a = u.mem.get a) ∧
  (o.tok = 0 → st ≠ .ok → ((∀ p ∈ t.ops, p.id ≠ o.id) ∧ t.channel chan.ch = idle) ∨
    ((∃ p ∈ t.ops, p.id = o.id) ∧ t.channel chan.ch = { idle with phase := 5, last := chan.last }))

/-- R256: from state u, with a record's entry written, the chain goes on to the record's NEXT, or ends with the record's status. -/
def Sys2Proof.AfterRecord (s u : State) (o : Op) (chan : Channel) (st : Cause) (count n : Nat) (t : State) : Prop :=
  (st = .ok → t.channel chan.ch = { chan with
      recAdr := BitVec.ofNat 64 (fieldAt chan.bytes 0 8), moved := chan.moved + count, phase := 1, bytes := [], entry := none } ∧
    (∀ k, (t.getCore k).x = (s.getCore k).x) ∧ ∀ a, t.mem.get a = u.mem.get a) ∧
  (st ≠ .ok → ChainEnds s u o chan st chan.moved n t)

/-- R253, R258: from state u the engine emits the entry of a record: with no ring it goes on at once; a ring access that fails, or a
header out of range, ends the chain, with the record's own status if that had failed; on a full ring the channel waits; else the
entry is written, PROD advances after it, and the chain goes on. -/
def Sys2Proof.Emits (s u : State) (o : Op) (chan : Channel) (id : Nat) (st : Cause) (count : Nat) (fa adr : Word) (n : Nat) (t : State) :
    Prop :=
  let cut : State → Cause → Prop := fun v e => ChainEnds s v o chan (if st = .ok then e else st) (chan.moved + count) n t
  let bytes : List Byte := bytesOfNat 4 id ++ [BitVec.ofNat 8 (causeCode st), 3, 0, 0] ++ bytesOfNat 8 count ++ bytesOfWord fa ++
    bytesOfWord adr
  (o.ring = 0 → AfterRecord s u o chan st count n t) ∧
  (o.ring ≠ 0 →
    (∀ e a, u.bteRead o.rights (o.ring + 24) 4 = .error (e, a) → cut u e) ∧
    (∀ cons e a, u.bteRead o.rights (o.ring + 24) 4 = .ok cons → u.bteRead o.rights o.ring 32 = .error (e, a) → cut u e) ∧
    (∀ cons h, u.bteRead o.rights (o.ring + 24) 4 = .ok cons → u.bteRead o.rights o.ring 32 = .ok h →
      let log := fieldAt h 8 1
      let prod := fieldAt h 16 4
      let bad : Prop := log < 1 ∨ 20 < log ∨ fieldAt h 9 7 ≠ 0 ∨ fieldAt h 20 4 ≠ 0 ∨ fieldAt h 28 4 ≠ 0
      let full : Prop := (prod + 2 ^ 32 - natOfBytes cons) % 2 ^ 32 = 2 ^ log
      let slot : Word := BitVec.ofNat 64 (fieldAt h 0 8 + 32 * (prod % 2 ^ log))
      (bad → ChainEnds s u o chan .illegal (chan.moved + count) n t) ∧
      (¬bad → full → t.channel chan.ch = { chan with phase := 3, entry := some (id, st, count, fa, adr) } ∧
        ∀ a, t.mem.get a = u.mem.get a) ∧
      (¬bad → ¬full → (∀ e a, u.resolveAll o.rights .store slot 32 = .error (e, a) → cut u e) ∧
        ∀ es cs, u.resolveAll o.rights .store slot 32 = .ok es → (∀ k ∈ es, inRegs k = false) →
          u.resolveAll o.rights .load (o.ring + 24) 4 = .ok cs →
          let q := (u.op? o.id).getD o
          let acq := u.acquired .sys o.owner (messages (u.writesTo (cs.map hostKey)) (cs.map hostKey))
          ∃ v : State, u.EngineWrites (u.homeFor { q with fenced := q.fenced.join acq } [(slot, 32)] [es]) es bytes v ∧
            (∀ e a, v.resolveAll o.rights .store (o.ring + 16) 4 = .error (e, a) → cut v e) ∧
            (∀ ps, v.resolveAll o.rights .store (o.ring + 16) 4 = .ok ps → (∀ k ∈ ps, inRegs k = false) →
              ∃ w : State, StoresBytes ps (bytesOfNat 4 (prod + 1)) v w ∧ AfterRecord s w o chan st count n t))))

/-- R147, R149: an arrival at a barrier record. -/
def Sys2Proof.arrived (r : BarRec) : BarRec :=
  let c := (r.arrived + 1) % 2 ^ 16
  if r.expect ≤ c ∧ r.beats = 0 then { r with gen := (r.gen + 1) % 2 ^ 32, arrived := c - r.expect } else { r with arrived := c }

/-- R255 to R258: a busy channel turns a request away with a back-off after which it is sent again; an idle one accepts the oldest
request of its core for it; a chain ends at a null record, at one that is not OWN, and at the first record that fails, which is one
whose CTRL or bytes cannot be read, with a field at fault, or with a range, itself or its barrier not accessible; a record taken up
adds its beats, or waits for room; its bytes move, its beats land, it gives up OWN, arrives where it says so, has its entry written
where it asks for one, and the chain goes on; a chain of an ending context emits RIGHTS for the record it would take up, at its CTRL
(R362 of 22_security.md; log 104); a channel stalled on a full ring tries again, with CONS read anew. A byte outside CTRL
that cannot be read fails the record under its own ID: the model's reading (log 67). -/
def Obligations.BlockTransferChains : Prop :=
  ∀ (s : State) (c i ns ch n : Nat) (o : Op), s.memWf →
    let held := s.heldRequests c
    let chan := s.channel ch
    (held[i]? = some o → s.channelIdle o.chan = false → o.retryAt = 0 → 1 ≤ ns → ns ≤ 65535 →
      Answers (.bteRequestRefused c i ns) s fun t => t = s.modOp o.id fun p => { p with
        body := .bte o.chan o.ring o.chainHead false (s.clock + 2 * ns) }) ∧
    (held[i]? = some o → o.retryAt ≠ 0 → o.retryAt ≤ s.clock → Answers (.bteRetry c i) s fun t => t = s.modOp o.id fun p => { p with
      body := .bte o.chan o.ring o.chainHead false 0 }) ∧
    (held[i]? = some o → s.channelIdle o.chan = true → o.retryAt = 0 → (∀ p ∈ held.take i, p.chan ≠ o.chan) →
      Answers (.bteAccept c i) s fun t => (t.channel o.chan).op = some o.id ∧ (t.channel o.chan).recAdr = o.chainHead ∧
        (t.channel o.chan).phase = 1 ∧ (t.channel o.chan).moved = 0 ∧ (∀ a, t.mem.get a = s.mem.get a) ∧ t.core = s.core ∧
        ∀ k, k ≠ o.chan → t.channel k = s.channel k) ∧
    (chan.op.bind s.op? = some o → o.discard = false → Resident s o.owner n →
      let r := chan.recAdr
      let takes : (State → State → Prop) → Prop := fun P => Answers (.bteRecordTakeup ch) s fun t => ∃ u, NotesOnly s u ∧ P u t
      let ending := (s.ctx o.rights.cid).ending
      (chan.phase = 1 →
        (r = 0 → takes fun u t => ChainEnds s u o chan .ok chan.moved n t) ∧
        (r ≠ 0 → ending = true → takes fun u t => Emits s u o chan 0 .rights 0 (r + 8) r n t) ∧
        (r ≠ 0 → ending = false → r.toNat % 8 ≠ 0 → takes fun u t => Emits s u o chan 0 .align 0 (r + 8) r n t) ∧
        (r ≠ 0 → ending = false → r.toNat % 8 = 0 →
          (∀ e a, s.bteRead o.rights (r + 8) 8 = .error (e, a) → takes fun u t => Emits s u o chan 0 e 0 (r + 8) r n t) ∧
          (∀ ctl, s.bteRead o.rights (r + 8) 8 = .ok ctl →
            let id := fieldAt ctl 4 4
            let c1 : Channel := { chan with lastId := id }
            (natOfBytes ctl % 2 = 0 → takes fun u t => ChainEnds s u o chan .ok chan.moved n t) ∧
            (natOfBytes ctl % 2 = 1 →
              (∀ e a, s.resolveRead o.rights r 64 = .error (e, a) → takes fun u t => Emits s u o c1 id e 0 a r n t) ∧
              (∀ ks, s.resolveRead o.rights r 64 = .ok ks → takes fun u t => ∃ rest : List Byte,
                u.EngineReads (u.homeFor ((u.op? o.id).getD o) [(r, 64)] [ks]) ks rest ∧
                let l := rest.take 8 ++ ctl ++ rest.drop 16
                let len := fieldAt l 32 8
                let dst : Word := BitVec.ofNat 64 (fieldAt l 24 8)
                let src : Word := BitVec.ofNat 64 (fieldAt l 16 8)
                let bar : Word := BitVec.ofNat 64 (fieldAt l 40 8)
                let w := fieldAt l 8 4
                let fill := w / 8 % 2 = 1
                let beats := beatsOf dst len
                let field : Option Nat :=
                  if w / 32 ≠ 0 ∨ w / 4 % 2 = 1 ∨ (w / 16 % 2 = 1 ∧ bar = 0) then some 8
                  else if 2 ^ 32 < len then some 32
                  else if bar.toNat % 16 ≠ 0 then some 40
                  else if fieldAt l 48 16 ≠ 0 then some 48
                  else none
                let check : Option (Cause × Word) :=
                  match s.checkCopy o.rights (if fill then [] else [(src, len)]) [(dst, len)], s.resolveAll o.rights .store r 64,
                    s.resolveAll o.rights .atomic bar 16 with
                  | .error e, _, _ => some e
                  | .ok _, .error e, _ => some e
                  | .ok _, .ok _, .error e => if bar = 0 then none else some e
                  | .ok _, .ok _, .ok bs => if bar = 0 then none else (s.firstPoison [(bar, 16)] [bs]).map fun a => (.poison, a)
                (∀ off, field = some off → Emits s u o c1 id .illegal 0 (r + BitVec.ofNat 64 off) r n t) ∧
                (∀ e a, field = none → check = some (e, a) → Emits s u o c1 id e 0 a r n t) ∧
                (field = none → check = none →
                  (bar = 0 ∨ beats = 0 → t = u.putChannel { c1 with phase := 2, bytes := l }) ∧
                  (bar ≠ 0 → beats ≠ 0 → s.barRoom o.rights bar beats = false → t = u.putChannel { c1 with phase := 4, bytes := l }) ∧
                  (bar ≠ 0 → beats ≠ 0 → s.barRoom o.rights bar beats = true → ∃ v : State,
                    UpdatesBar u o bar (fun b => { b with beats := b.beats + beats }) v ∧
                    t = v.putChannel { c1 with phase := 2, bytes := l }))))))) ∧
      let l := chan.bytes
      let len := fieldAt l 32 8
      let dst : Word := BitVec.ofNat 64 (fieldAt l 24 8)
      let src : Word := BitVec.ofNat 64 (fieldAt l 16 8)
      let bar : Word := BitVec.ofNat 64 (fieldAt l 40 8)
      let w := fieldAt l 8 4
      let id := fieldAt l 12 4
      let beats := beatsOf dst len
      let lands : State → State → Prop := fun u v =>
        (bar = 0 ∨ beats = 0 → v = u) ∧ (bar ≠ 0 → beats ≠ 0 → UpdatesBar u o bar (landed beats) v)
      -- what follows the bytes: beats, OWN, arrival, entry
      let goesOn : State → State → Prop := fun u t => ∃ v x y : State, lands u v ∧
        (∀ ws, v.resolveAll o.rights .store (r + 8) 8 = .ok ws → (∀ k ∈ ws, inRegs k = false) →
          StoresBytes ws (bytesOfNat 8 (fieldAt l 8 8 - 1)) v x) ∧
        (∀ e, v.resolveAll o.rights .store (r + 8) 8 = .error e → x = v) ∧
        (w / 16 % 2 = 0 → y = x) ∧ (w / 16 % 2 = 1 → UpdatesBar x o bar arrived y) ∧
        (w / 2 % 2 = 0 → AfterRecord s y o chan .ok len n t) ∧ (w / 2 % 2 = 1 → Emits s y o chan id .ok len 0 r n t)
      let moves : (State → Prop) → Prop := Answers (.bteRecordLanded ch) s
      (chan.phase = 2 →
        (w / 8 % 2 = 0 →
          (∀ e a, e ≠ .ok → s.checkCopy o.rights [(src, len)] [(dst, len)] = .error (e, a) → moves fun t => ∃ v, lands s v ∧
            Emits s v o chan id e 0 a r n t) ∧
          (∀ ks ds, s.checkCopy o.rights [(src, len)] [(dst, len)] = .ok ([ks], [ds]) → (∀ k ∈ ds, inRegs k = false) →
            let h := s.homeFor o [(src, len), (dst, len)] [ks, ds]
            (s.firstPoison [(src, len)] [ks] = none → moves fun t => ∃ (u : State) (data : List Byte),
              s.EngineReads h ks data ∧ s.EngineWrites h ds data u ∧ goesOn u t) ∧
            (∀ a, s.firstPoison [(src, len)] [ks] = some a → moves fun t => ∃ u v : State,
              (∀ p, p ∉ ds.map hostKey → u.mem.get p = s.mem.get p) ∧ lands u v ∧ Emits s v o chan id .poison 0 a r n t))) ∧
        (w / 8 % 2 = 1 →
          (∀ e a, e ≠ .ok → s.checkCopy o.rights [] [(dst, len)] = .error (e, a) → moves fun t => ∃ v, lands s v ∧
            Emits s v o chan id e 0 a r n t) ∧
          (∀ ds, s.checkCopy o.rights [] [(dst, len)] = .ok ([], [ds]) → (∀ k ∈ ds, inRegs k = false) → moves fun t => ∃ u : State,
            s.EngineWrites (s.homeFor o [(dst, len)] [ds]) ds ((List.range len).map fun i => BitVec.ofNat 8 (src.toNat / 256 ^ (i % 8))) u ∧
            goesOn u t))) ∧
      (∀ id st m fa adr, chan.phase = 3 → chan.entry = some (id, st, m, fa, adr) →
        Answers (.bteRingResume ch) s fun t => Emits s s o chan id st m fa adr n t) ∧
      (chan.phase = 4 → o.chan = ch → o.isCopy = false → bar ≠ 0 → beats ≠ 0 →
        (s.barRoom o.rights bar beats = false → Answers (.beatsRoom o.id) s fun t => ∀ k, t.channel k = s.channel k) ∧
        (s.barRoom o.rights bar beats = true → Answers (.beatsRoom o.id) s fun t => ∃ v : State,
          UpdatesBar s o bar (fun b => { b with beats := b.beats + beats }) v ∧ t = v.putChannel { chan with phase := 2 })))

/-- R269, R273, R277 to R280, R368: TSPAWN drops or sends a spawn and retires once its home has answered; the home counts a
passing one and places its record; TNEXT ends the task and pops the lowest bound, returns false on a closed slot, or waits;
TEND and TPOLL end a task; at a joined slot that a member's loss has closed each faults with PEERLOST, and the task running leaves.
A core in monitor mode is not killed: that mode runs Deckle alone (R10), so no task of a tenant runs there (the model's reading). -/
def Obligations.TasksAndSpawns : Prop :=
  ∀ (s : State) (sl : Slot) (a b d : XReg) (pd : PReg) (c : Nat),
    let w := s.slots.get sl
    let copy := w.copy (.core s.core.num)
    let slv : Word := BitVec.ofNat 64 sl.val
    let bound := (s.rx a).toInt
    let field := s.core.num / 1024
    let queue := s.records.filter fun r => r.field == field && r.slot == sl
    -- the running task was counted out when a loss closed its slot (R368)
    let orphan := (s.slots.get s.core.csr.taskSlot).orphans.contains (bitsOf s.core.csr.ttask 63 32)
    -- PEERLOST at a slot: the task of it that runs on the core is counted out, and its TTASK is no longer valid
    let lost : Slot → State → State := fun sl u =>
      let left : State := if u.core.csr.taskValid = true ∧ u.core.csr.taskSlot = sl then
          { u with
            slots := u.slots.set sl ((u.slots.get sl).taskEnds (bitsOf u.core.csr.ttask 63 32) u.core.view)
            core := { u.core with csr := { u.core.csr with ttask := u.core.csr.ttask &&& ~~~16 } } }
        else u
      left.trap .peerlost (BitVec.ofNat 64 ((u.slots.get sl).joined.getD 0))
    -- a refusal that has come back from the home is logged (R322)
    let told : Cause → State := fun e => s.logAnswer (.slot sl) (BitVec.ofNat 64 (causeCode e))
    (w.granted = some s.core.cid → w.lost = true →
      (s.core.request = none → exec (.tspawn sl a b) s = .next (lost sl s)) ∧ exec (.tnext pd d sl) s = .next (lost sl s)) ∧
    (∀ r, s.core.request = some r → s.core.reply = some (.refused .peerlost slv) →
      exec (.tspawn sl a b) s = .next (lost sl (told .peerlost))) ∧
    (∀ r e v, s.core.request = some r → s.core.reply = some (.refused e v) → e ≠ .peerlost →
      exec (.tspawn sl a b) s = .next ((told e).trap e v)) ∧
    ((s.focus c).core.wait = some (.tnext pd d sl) → w.lost = true → AnswersOn c (.tnextWake c) s fun u t => t = lost sl u) ∧
    (∀ failed x y, (s.getCore c).request = some (.spawn sl failed x y) → (s.getCore c).reply = none → w.lost = true →
      Answers (.homeSpawnCount c) s fun t => t.slots = s.slots ∧ t.records = s.records ∧
        (t.getCore c).reply = some (.refused .peerlost slv)) ∧
    (s.core.request = none → w.granted = some s.core.cid → w.lost = false → copy.phase = 2 → bound < copy.w - copy.g →
      4096 ≤ (s.records.filter fun r => r.field == field).length →
      (∀ f ∈ s.contextFields sl, 4096 ≤ (s.records.filter fun r => r.field == f).length) → w.area = none ∨ 65536 ≤ w.spill.length →
      exec (.tspawn sl a b) s = .next (s.trap .rights slv)) ∧
    (s.core.request = none →
      (w.granted ≠ some s.core.cid → exec (.tspawn sl a b) s = .next (s.trap .rights slv)) ∧
      (w.granted = some s.core.cid → w.lost = false →
        (copy.phase ≠ 2 → Answers (.tspawn sl a b) s fun t => WritesNothing s t ∧ Advances 4 s t) ∧
        (copy.phase = 2 → copy.w - copy.g ≤ bound → Answers (.tspawn sl a b) s fun t =>
          Stalls .home s t ∧ t.core.request = some (.spawn sl true (s.rx a) (s.rx b))) ∧
        (copy.phase = 2 → bound < copy.w - copy.g → (s.records.filter fun r => r.field == field).length < 4096 →
          Answers (.tspawn sl a b) s fun t =>
            Stalls .home s t ∧ t.core.request = some (.spawn sl false (s.rx a) (s.rx b))))) ∧
    (∀ r v, s.core.request = some r → s.core.reply = some (.spawn v) →
      Answers (.tspawn sl a b) s fun t => WritesNothing s t ∧ Advances 4 s t) ∧
    (∀ failed x y, (s.getCore c).request = some (.spawn sl failed x y) → (s.getCore c).reply = none → w.lost = false →
      let here : List TaskRec := s.records.filter fun r => r.field == c / 1024
      let done : (State → Prop) → Prop := Answers (.homeSpawnCount c) s
      (w.phase ≠ 2 → done fun t => t.slots = s.slots ∧ t.records = s.records ∧ (t.getCore c).reply = some (.spawn true)) ∧
      (w.phase = 2 → failed = true → done fun t => t.records = s.records ∧ (t.getCore c).reply = some (.spawn true) ∧
        t.slots.get sl = { w with spawned := true, phase := if w.queued = 0 ∧ w.running = 0 then 0 else 2 }) ∧
      (w.phase = 2 → failed = false → here.length < 4096 → (∀ r ∈ here, r.slot = sl → fails r.bound (w.copy (.segment (c / 1024))) = false) →
        fails x.toInt (w.copy (.segment (c / 1024))) = false → lookupD s.spawnCounters (c / 1024) 0 < 2 ^ 22 → done fun t =>
          (t.getCore c).reply = some (.spawn false) ∧
          t.slots.get sl = { w with queued := w.queued + 1, spawned := true } ∧
          ∃ r, t.records = s.records ++ [r] ∧ r.bound = x.toInt ∧ r.arg = y ∧ r.slot = sl ∧ r.field = c / 1024 ∧
            r.seq / 2 ^ 22 = c / 1024 % 1024 ∧ r.pseq = (if (s.getCore c).csr.taskValid then bitsOf (s.getCore c).csr.ttask 63 32
              else 0xFFFFFFFF))) ∧
    (w.granted ≠ some s.core.cid → exec (.tnext pd d sl) s = .next (s.trap .rights slv)) ∧
    (w.granted = some s.core.cid → w.lost = false → exec (.tnext pd d sl) s = .next (s.endTask.tnextTry pd d sl)) ∧
    (w.lost = false → (∀ r ∈ queue, fails r.bound (w.copy (.segment field)) = false) →
      (∀ r ∈ queue, (∀ q ∈ queue, q ≠ r → r.bound < q.bound ∨ (r.bound = q.bound ∧ r.order < q.order)) →
        s.core.csr.lpc0 = 0 → s.core.csr.lpc1 = 0 →
        let t := s.tnextTry pd d sl
        t.rx d = (if d = 0 then 0 else r.arg) ∧ (∀ x, x ≠ d → t.rx x = s.rx x) ∧
        t.rp pd = true ∧ (∀ p, p ≠ pd → t.rp p = s.rp p) ∧ SameV s t ∧ SameK s t ∧ t.core.pc = s.core.pc + 4 ∧
        t.core.csr.tbnd = BitVec.ofInt 64 r.bound ∧ t.core.csr.ttask = BitVec.ofNat 64 (r.seq * 2 ^ 32 + 16 + r.slot.val) ∧
        t.slots.get sl = { w with queued := w.queued - 1, running := w.running + 1 } ∧
        t.records = s.records.filter (fun q => q.order != r.order) ∧ ∀ x, t.mem.get x = s.mem.get x) ∧
      (queue = [] → copy.phase = 0 →
        let t := s.tnextTry pd d sl
        t.rx d = 0 ∧ (∀ x, x ≠ d → t.rx x = s.rx x) ∧ t.rp pd = decide (pd = 0) ∧ (∀ p, p ≠ pd → t.rp p = s.rp p) ∧
          SameV s t ∧ SameK s t ∧ Unchanged s t ∧ Advances 4 s t) ∧
      (queue = [] → copy.phase ≠ 0 → Blocks (.tnext pd d sl) s (s.tnextTry pd d sl))) ∧
    ((s.focus c).core.wait = some (.tnext pd d sl) → AnswersOn c (.tnextWake c) s fun u t => t = u.tnextTry pd d sl) ∧
    (s.core.csr.taskValid = false → Answers .tend s fun t => WritesNothing s t ∧ Advances 4 s t) ∧
    (s.core.csr.taskValid = true → orphan = false → Answers .tend s fun t =>
      let s0 := s.setCsr { s.core.csr with ttask := s.core.csr.ttask &&& ~~~16 }
      WritesNothing s0 t ∧ Advances 4 s0 t ∧
        (t.slots.get s.core.csr.taskSlot).running = (s.slots.get s.core.csr.taskSlot).running - 1) ∧
    (let k := (s.slots.get s.core.csr.taskSlot).copy (.core s.core.num)
     let killed : Prop := s.core.mode = .program ∧ s.core.csr.taskValid = true ∧ k.w - k.g ≤ s.core.csr.tbnd.toInt
     s.core.csr.lpc0 = 0 → s.core.csr.lpc1 = 0 →
      (¬killed → Answers .tpoll s fun t => WritesNothing s t ∧ Advances 4 s t) ∧
      (killed → Answers .tpoll s fun t => t.core.pc = s.core.csr.tkillv.get s.core.csr.taskSlot ∧
        t.core.csr.taskValid = false ∧ SameX s t ∧ SameP s t ∧ SameV s t ∧ SameK s t ∧ Counted s t ∧
        (orphan = false → (t.slots.get s.core.csr.taskSlot).running = (s.slots.get s.core.csr.taskSlot).running - 1) ∧
        (∀ i, (t.core.loans.get i).kept = (s.core.loans.get i).kept) ∧ t.core.gateHw = s.core.gateHw ∧ ∀ x, t.mem.get x = s.mem.get x))

/-- R267, R270, R272, R275, R281 to R283, R368: WMK.RD reads the core's copy and WMK.RD.S the home, lowering the copy; WMK.UPD and
WMK.SET ask the home and retire with its answer; the home accepts what is lower, its answer lowers the core's copy, and it sets
an idle slot; a SET opens its slot, an update reaches the copies, and records move towards waiting segments. A closing gives every copy
the home's values with CLOSED in one step, and what another member's module does at a joined slot's home, and which records its slice shares with
this module, is an operand: the model's readings (logs 72, from R327's WMK.RD row, and 134). -/
def Obligations.Watermarks : Prop :=
  ∀ (s : State) (sl : Slot) (a b d : XReg) (pd : PReg) (c : Nat) (h : CopyHolder),
    let w := s.slots.get sl
    let copy := w.copy (.core s.core.num)
    let granted : Prop := w.granted = some s.core.cid
    let slv : Word := BitVec.ofNat 64 sl.val
    let x := s.rx b
    let told : Cause → State := fun e => s.logAnswer (.slot sl) (BitVec.ofNat 64 (causeCode e))
    let lower : SlotCopy → SlotCopy → SlotCopy := fun p q => if q.w < p.w ∨ (q.w = p.w ∧ q.p < p.p) then q else p
    let home : SlotCopy := ⟨w.w, w.p, w.seq, w.g, w.phase⟩
    let reads : SlotCopy → State → Prop := fun v t =>
      t.rx d = (if d = 0 then 0 else BitVec.ofInt 64 v.w) ∧
      (b ≠ d → t.rx b = if b = 0 then 0 else BitVec.ofNat 64 (v.seq * 2 ^ 32 + v.p)) ∧
      (∀ r, r ≠ d → r ≠ b → t.rx r = s.rx r) ∧ SameP s t ∧ SameV s t ∧ SameK s t ∧ Unchanged s t ∧ Advances 4 s t
    (¬granted → ∀ i ∈ [Instr.wmkRd d b sl, .wmkRdS d b sl], exec i s = .next (s.trap .rights slv)) ∧
    (granted → Answers (.wmkRd d b sl) s (reads copy)) ∧
    (granted → Answers (.wmkRdS d b sl) s fun t =>
      reads home t ∧ (t.slots.get sl).copy (.core s.core.num) = lower copy home) ∧
    (s.core.request = none →
      (bitsOf x 63 36 ≠ 0 → ∀ i ∈ [Instr.wmkUpd pd a b, .wmkSet d a b], exec i s = .next (s.trap .illegal x)) ∧
      (bitsOf x 63 36 = 0 → (s.rx d).toInt < 0 → exec (.wmkSet d a b) s = .next (s.trap .illegal (s.rx d))) ∧
      (bitsOf x 63 36 = 0 → bitsOf x 35 32 = sl.val →
        (¬granted → exec (.wmkUpd pd a b) s = .next (s.trap .rights slv)) ∧
        (granted → w.lost = true → exec (.wmkUpd pd a b) s = .next (s.peerLost sl)) ∧
        (granted → w.lost = false → Answers (.wmkUpd pd a b) s fun t =>
          Stalls .home s t ∧ t.core.request = some (.update sl (s.rx a) (bitsOf x 31 0))) ∧
        (0 ≤ (s.rx d).toInt →
          (¬granted → exec (.wmkSet d a b) s = .next (s.trap .rights slv)) ∧
          (granted → Answers (.wmkSet d a b) s fun t =>
            Stalls .home s t ∧ t.core.request = some (.set sl (s.rx a) (bitsOf x 31 0) (s.rx d)))))) ∧
    (∀ r, s.core.request = some r → bitsOf x 35 32 = sl.val →
      (s.core.reply = some (.refused .peerlost slv) → exec (.wmkUpd pd a b) s = .next ((told .peerlost).peerLost sl)) ∧
      (∀ e v, s.core.reply = some (.refused e v) → e ≠ .peerlost → exec (.wmkUpd pd a b) s = .next ((told e).trap e v) ∧
        exec (.wmkSet d a b) s = .next ((told e).trap e v)) ∧
      (∀ acc, s.core.reply = some (.update acc) → Answers (.wmkUpd pd a b) s fun t => WritesP pd acc s t ∧ Advances 4 s t) ∧
      (s.core.reply = some .set → w.phase = 1 → Answers (.wmkSet d a b) s fun t => Stalls .home s t) ∧
      (s.core.reply = some .set → w.phase ≠ 1 → Answers (.wmkSet d a b) s fun t => WritesNothing s t ∧ Advances 4 s t)) ∧
    (∀ v p, (s.getCore c).request = some (.update sl v p) → (s.getCore c).reply = none → w.lost = true →
      Answers (.homeUpdate c) s fun t => t.slots = s.slots ∧ (t.getCore c).reply = some (.refused .peerlost slv)) ∧
    (∀ v p, (s.getCore c).request = some (.update sl v p) → (s.getCore c).reply = none → w.lost = false →
      (w.phase = 1 → exec (.homeUpdate c) s = .next s) ∧
      (w.phase ≠ 1 → v.toInt < w.w ∨ (v.toInt = w.w ∧ p < w.p) → Answers (.homeUpdate c) s fun t =>
        let q := t.slots.get sl
        let now : SlotCopy := ⟨v.toInt, p, (w.seq + 1) % 2 ^ 32, w.g, w.phase⟩
        (⟨q.w, q.p, q.seq, q.g, q.phase⟩ : SlotCopy) = now ∧ (q.queued, q.running, q.spawned) = (w.queued, w.running, w.spawned) ∧
          (∀ h, q.copy h = if h = .core c then lower (w.copy h) now else w.copy h) ∧
          (t.getCore c).reply = some (.update true)) ∧
      (w.phase ≠ 1 → ¬(v.toInt < w.w ∨ (v.toInt = w.w ∧ p < w.p)) → Answers (.homeUpdate c) s fun t =>
        let q := t.slots.get sl
        (⟨q.w, q.p, q.seq, q.g, q.phase⟩ : SlotCopy) = home ∧ (q.queued, q.running, q.spawned) = (w.queued, w.running, w.spawned) ∧
          (∀ h, q.copy h = if h = .core c then lower (w.copy h) home else w.copy h) ∧
          (t.getCore c).reply = some (.update false))) ∧
    (∀ v p gap, (s.getCore c).request = some (.set sl v p gap) → (s.getCore c).reply = none →
      let idle : Prop := (w.phase = 0 ∨ (w.phase = 2 ∧ w.spawned = false)) ∧ w.queued = 0 ∧ w.running = 0
      (idle → Answers (.homeSet c) s fun t =>
        let q := t.slots.get sl
        let now : SlotCopy := ⟨v.toInt, p, (w.seq + 1) % 2 ^ 32, gap.toNat, 1⟩
        (⟨q.w, q.p, q.seq, q.g, q.phase⟩ : SlotCopy) = now ∧ q.spawned = false ∧ (∀ h, q.copy h = now) ∧
          (t.getCore c).reply = some .set) ∧
      (¬idle → Answers (.homeSet c) s fun t => t.slots = s.slots ∧ (t.getCore c).reply = some (.refused .illegal slv))) ∧
    (w.phase ≠ 1 → exec (.wmkSetOpen sl) s = .next s) ∧
    (w.phase = 1 → s.setters sl = [] → Answers (.wmkSetOpen sl) s fun t =>
      (t.slots.get sl).phase = 2 ∧ (∀ h, (t.slots.get sl).copy h = { w.base with phase := 2 }) ∧ t.core = s.core) ∧
    ((∀ act, h ≠ .member act) → (∀ n, h = .core n → (s.focus n).core.wait = none) → Answers (.wmkPropagate sl h) s fun t =>
      let v := lower (w.copy h) home
      (t.slots.get sl).copy h = { v with phase := if w.phase = 0 then 0 else v.phase } ∧
        (∀ g, g ≠ h → (t.slots.get sl).copy g = w.copy g)) ∧
    (w.joined = none → ∀ act, exec (.wmkPropagate sl (.member act)) s = .next s) ∧
    (w.joined ≠ none → w.lost = false →
      let records := (s.records.filter fun r => r.slot == sl).length + w.spill.length
      let tasks := (s.tasksOf sl).length
      let closed : WSlot → WSlot := fun q =>
        if q.phase = 2 ∧ q.spawned = true ∧ q.queued = 0 ∧ q.running = 0 then { q with phase := 0 } else q
      (∀ (v : Word) (p : Nat), ∀ e ∈ [
          (MemberAct.update v p, if w.phase ≠ 1 ∧ (v.toInt < w.w ∨ (v.toInt = w.w ∧ p < w.p)) then
            { w with w := v.toInt, p := p, seq := (w.seq + 1) % 2 ^ 32 } else w),
          (.spawn, if w.phase = 2 then { w with queued := w.queued + 1, spawned := true } else w),
          (.failed, if w.phase = 2 then closed { w with spawned := true } else w),
          (.pop, if records < w.queued then { w with queued := w.queued - 1, running := w.running + 1 } else w),
          (.discard, if records < w.queued then closed { w with queued := w.queued - 1 } else w),
          (.ends, if tasks < w.running then closed { w with running := w.running - 1 } else w)],
        exec (.wmkPropagate sl (.member e.1)) s = .next { s with slots := s.slots.set sl e.2 }) ∧
      (∀ v p gap, let idle : Prop := (w.phase = 0 ∨ (w.phase = 2 ∧ w.spawned = false)) ∧ w.queued = 0 ∧ w.running = 0
        (¬idle → exec (.wmkPropagate sl (.member (.set v p gap))) s = .next { s with slots := s.slots.set sl w }) ∧
        (idle → Answers (.wmkPropagate sl (.member (.set v p gap))) s fun t =>
          let q := t.slots.get sl
          let now : SlotCopy := ⟨v.toInt, p, (w.seq + 1) % 2 ^ 32, gap.toNat, 1⟩
          (⟨q.w, q.p, q.seq, q.g, q.phase⟩ : SlotCopy) = now ∧ q.spawned = false ∧ ∀ h, q.copy h = now)) ∧
      -- its slice shares work with this module's (R272)
      (∀ f l, let due : Prop := s.waitingTnext sl f = true ∧ s.recordsAt sl (.segment f) = [] ∧
          l.length ≤ min 64 (min (w.queued - records) (4096 - (s.inSegment f).length))
        (¬due → exec (.wmkPropagate sl (.member (.give f l))) s = .next s) ∧
        (due → (∀ e ∈ l, fails e.bound.toInt (w.copy (.segment f)) = false) →
          Answers (.wmkPropagate sl (.member (.give f l))) s fun t => (t.slots.get sl).queued = w.queued ∧ ∃ rs, t.records = s.records ++ rs ∧
            rs.map (fun r => (r.bound, r.arg, r.pseq, r.seq, r.root)) =
              l.map (fun e => (e.bound.toInt, e.arg, e.pseq % 2 ^ 32, e.seq % 2 ^ 32, e.root)) ∧
            ∀ r ∈ rs, r.slot = sl ∧ r.field = f ∧ r.moved = true)) ∧
      (∀ src n, let m := (s.recordsAt sl src).length
        let due : Prop := (∀ p ∈ s.placesOf sl, (s.recordsAt sl p).length ≤ m) ∧ n ≤ min ((m + 1) / 2) 64
        (¬due → exec (.wmkPropagate sl (.member (.take src n))) s = .next s) ∧
        (∀ f, due → src = .segment f → (s.records.map (·.order)).Nodup →
          Answers (.wmkPropagate sl (.member (.take src n))) s fun t => t.slots = s.slots ∧ (t.recordsAt sl src).length = m - n))) ∧
    ((w.phase = 2 ∧ ¬(w.spawned = true ∧ w.queued = 0 ∧ w.running = 0)) ∨ w.phase = 1 →
      Answers (.slotClose sl) s fun t => t.slots.get sl = w ∧ t.core = s.core) ∧
    (w.phase = 2 → w.spawned = true → w.queued = 0 → w.running = 0 → (∀ k ∈ s.core :: s.others, k.inTnext sl = false) →
      Answers (.slotClose sl) s fun t => (t.slots.get sl).phase = 0 ∧ ∀ h, (t.slots.get sl).copy h = { home with phase := 0 }) ∧
    (∀ src dst, let l := s.recordsAt sl src
      let most : Prop := ∀ p ∈ s.placesOf sl, (s.recordsAt sl p).length ≤ l.length
      let due : Prop := s.waitingTnext sl dst = true ∧ s.recordsAt sl (.segment dst) = [] ∧ most
      (¬due → exec (.recordMove sl src dst) s = .next s) ∧
      (∀ f, due → src = .segment f → f ≠ dst → (∀ r ∈ s.records, r.order < s.nextId) → (s.records.map (·.order)).Nodup →
        Answers (.recordMove sl src dst) s fun t => (t.recordsAt sl src).length =
          l.length - min (min ((l.length + 1) / 2) 64) (4096 - (s.inSegment dst).length))) ∧
    (∀ f, w.spill ≠ [] → (∀ e ∈ w.spill, (s.spilled w e).slot = sl) → (s.contextFields sl).contains f = true → (s.inSegment f).length < 4096 →
      Answers (.spillReturn sl f) s fun t => ∃ e ∈ w.spill, (t.slots.get sl).spill = w.spill.filter fun x => x.1 != e.1)

/-- R291, R296: in state u the controller of a team's run writes data at an address, under rank 0's captured rights, and goes on as
next says; if the access fails the run ends with FAULT and the access's cause, t being that end. -/
def Sys2Proof.CalWrites (team : Nat) (u : State) (a : Word) (data : List Byte) (next : State → Prop) (t : State) : Prop :=
  ∀ r, (u.calRun team).rights = some r →
    (∀ e p, u.resolveAll r .store a data.length = .error (e, p) → t = u.calFinish team 4 e p false true) ∧
    (∀ ks, u.resolveAll r .store a data.length = .ok ks → (∀ k ∈ ks, inRegs k = false) →
      ∃ v : State, StoresBytes ks data u v ∧ v.teams = u.teams ∧ next v)

/-- The block fields of a list, at their offsets, written in turn. -/
def Sys2Proof.CalFields (team : Nat) : List (Nat × List Byte) → State → (State → Prop) → State → Prop
  | [], u, next, _ => next u
  | (off, data) :: rest, u, next, t =>
    CalWrites team u (BitVec.ofNat 64 ((u.calRun team).block + off)) data (fun v => CalFields team rest v next t) t

/-- R292, R296: the controller copies n bytes, all read before any is written. -/
def Sys2Proof.CalCopies (team : Nat) (u : State) (dst src : Word) (n : Nat) (next : State → Prop) (t : State) : Prop :=
  ∀ r, (u.calRun team).rights = some r →
    (∀ e p, e ≠ .ok → u.checkCopy r [(src, n)] [(dst, n)] = .error (e, p) → t = u.calFinish team 4 e p false true) ∧
    (∀ ks ds, u.checkCopy r [(src, n)] [(dst, n)] = .ok ([ks], [ds]) → (∀ k ∈ ds, inRegs k = false) →
      (u.firstPoison [(src, n)] [ks] = none → ∃ v : State, StoresBytes ds (ks.map u.readKey) u v ∧ v.teams = u.teams ∧ next v) ∧
      (∀ p, u.firstPoison [(src, n)] [ks] = some p → ∃ v : State, (∀ a, a ∉ ds.map hostKey → v.mem.get a = u.mem.get a) ∧
        v.teams = u.teams ∧ t = v.calFinish team 4 .poison p false true))

/-- R293, R294: from state u an exit takes its action, whose byte stands in the block: escalation goes on at the next rung with the
factor kernel, but not from the initial residual nor at the last rung, where it is as return; return and trap end the run. -/
def Sys2Proof.CalExits (team : Nat) (u : State) (exit : Nat) (t : State) : Prop :=
  let run := u.calRun team
  let act := fieldAt run.cfg (116 + exit) 1
  let escalates : Prop := act = 0 ∧ run.state = 5 ∧ run.rung + 1 < fieldAt run.cfg 72 1
  (escalates → t = (u.modCal team fun c => { c with rung := c.rung + 1, iter := 0 }).calDispatch team 3) ∧
  (¬escalates → t = u.calFinish team exit .ok 0 (decide (act = 2)) true)

/-- R292: the norm test on r, the bits of RNORM2, from state s to t: BEST and BESTX first, PREV at the initial residual, then the
tests in their order. Products are rounded once into FP64, and patterns of numbers compare by sign and magnitude. -/
def Sys2Proof.CalTests (team : Nat) (s : State) (r : Nat) (t : State) : Prop :=
  let run := s.calRun team
  let cfg (off n : Nat) : Nat := fieldAt run.cfg off n
  let w : Word := BitVec.ofNat 64 r
  let mul (a b : Nat) : Nat := match fpFmt .fp64 with
    | some g => (g.deliver .rne (mulNum (g.decode a) (g.decode b))).1
    | none => 0
  let nan (a : Nat) : Prop := 0x7FF0000000000000 < a % 2 ^ 63
  let ord (a : Nat) : Int := if a < 2 ^ 63 then a else 2 ^ 63 - (a : Int)
  let gt (a b : Nat) : Prop := ¬nan a ∧ ¬nan b ∧ ord b < ord a
  let le (a b : Nat) : Prop := ¬nan a ∧ ¬nan b ∧ ord a ≤ ord b
  let first : Prop := run.state = 2
  let x : Word := BitVec.ofNat 64 (cfg 24 8)
  let bestx : Word := BitVec.ofNat 64 (cfg 40 8)
  let n := 8 * cfg 0 8
  let field (off : Nat) : Word := BitVec.ofNat 64 (run.block + off)
  let diverges (u : State) : Prop := CalCopies team u x bestx n (fun v =>
    CalWrites team (v.modCal team fun c => { c with prev := c.best }) (field 136) (bytesOfWord (u.calRun team).best)
      (fun q => CalExits team q 2 t) t) t
  let keepsPrev (u : State) (next : State → Prop) : Prop :=
    CalWrites team (u.modCal team fun c => { c with prev := w }) (field 136) (bytesOfWord w) next t
  let tests (u : State) : Prop :=
    let p := (u.calRun team).prev.toNat
    let invalid : Prop := nan r ∨ r = 0x7FF0000000000000
    let converged : Prop := le r (mul (mul (cfg 80 8) (cfg 80 8)) (cfg 104 8))
    let diverged : Prop := gt r (mul (mul (cfg 96 8) (cfg 96 8)) p)
    let stagnates : Prop := gt r (mul (mul (cfg 88 8) (cfg 88 8)) p) ∨ run.iter = cfg 112 4
    (invalid → diverges u) ∧
    (¬invalid → converged → CalExits team u 0 t) ∧
    (¬invalid → ¬converged → first → t = u.calDispatch team 3) ∧
    (¬invalid → ¬converged → ¬first →
      (diverged → diverges u) ∧
      (¬diverged → stagnates → cfg 117 1 = 0 → keepsPrev u fun q => CalExits team q 1 t) ∧
      (¬diverged → stagnates → cfg 117 1 ≠ 0 → CalExits team u 1 t) ∧
      (¬diverged → ¬stagnates → keepsPrev u fun q => t = q.calDispatch team 4))
  let lowers : Prop := first ∨ gt run.best.toNat r
  (¬lowers → tests s) ∧
  (lowers → CalCopies team (s.modCal team fun c => { c with best := w, prev := if c.state = 2 then w else c.prev }) bestx x n (fun u =>
    CalWrites team u (field 128) (bytesOfWord w) (fun v =>
      (first → CalWrites team v (field 136) (bytesOfWord w) tests t) ∧ (¬first → tests v)) t) t)

/-- R289 to R297: CAL.QRY reads the run's state; CAL.RUN checks its block's address, counts, and waits for the run, or re-arrives
once the member's operations are complete; a gathered run is validated and started; each kernel follows as R294 says: out of FACTOR
and SOLVE the next one, out of INITRES and RESID what the norm test and its exit's action say; a dispatch reads ABORT and writes the
block's counts; it enters the kernel with its registers set; and at the end a member's registers take its results; reads of the block correct its single-bit errors (R165). The model's
readings: waiting while the team's last run is not over (log 79), waiting for ever without a team (log 80), the count of a pair at
its residual's re-arrival (log 77). -/
def Obligations.Calender : Prop :=
  ∀ (s : State) (tok d a : XReg) (team : Nat),
    let xa := s.rx a
    let run := s.calRun team
    let busy : Prop := ∃ o ∈ s.opsOf s.core.owner, (∀ t, o.body ≠ .cal t) ∧ ∀ r p n e l q, o.body ≠ .strong r p n e l q
    (∀ th, s.coreThread s.core = some th → th.team = team → Answers (.calQry d) s fun t => WritesX d (BitVec.ofNat 64
      (run.iters % 2 ^ 32 * 2 ^ 32 + run.iter % 2 ^ 16 * 2 ^ 16 + run.exit * 2 ^ 8 + run.rung % 4 * 2 ^ 4 + run.state)) s t ∧
        Advances 4 s t) ∧
    (s.coreThread s.core = none → Answers (.calQry d) s fun t => WritesX d 0xFF00 s t ∧ Advances 4 s t) ∧
    ((∀ th T m, s.coreThread s.core = some th → s.team? th.team = some T → T.calMember th.rank ≠ some m) →
      (xa.toNat % 8 ≠ 0 → exec (.calRun tok d a) s = .next (s.trap .align xa)) ∧
      (xa.toNat % 8 = 0 → s.core.localBad xa = true → exec (.calRun tok d a) s = .next (s.trap .loc xa)) ∧
      (xa.toNat % 8 = 0 → s.core.localBad xa = false →
        (s.core.counterFull = true → Answers (.calRun tok d a) s fun t => Stalls .counter s t) ∧
        (s.core.counterFull = false → s.core.csr.taskValid = false →
          (s.coreThread s.core = none → Answers (.calRun tok d a) s fun t => Blocks (.cal xa) s t) ∧
          (∀ th T, s.coreThread s.core = some th → s.team? th.team = some T →
            (2 ≤ T.cal.state ∨ T.cal.ending ≠ none → Answers (.calRun tok d a) s fun t => Blocks (.cal xa) s t) ∧
            (T.cal.state ≤ 1 → T.cal.ending = none → Answers (.calRun tok d a) s fun t =>
              t.core.wait = some (.cal xa) ∧ t.core.pc = s.core.pc ∧ SameX s t ∧ SameP s t ∧ SameV s t ∧ SameK s t ∧
              (∀ p, t.mem.get p = s.mem.get p) ∧ (t.calRun th.team).state = 1 ∧
              (∃ o, t.ops = s.ops ++ [o] ∧ o.cls = 4 ∧ o.tok = tok ∧ o.body = .cal th.team ∧ o.id = s.nextId) ∧
              (∃ m ∈ (t.calRun th.team).members, m.rank = th.rank ∧ m.opId = s.nextId ∧ m.xd = d ∧ m.waiting = some s.core.pc) ∧
              (th.rank = 0 → (t.calRun th.team).block = xa.toNat)))))) ∧
    (∀ th T m, s.coreThread s.core = some th → s.team? th.team = some T → T.calMember th.rank = some m →
      (busy → Answers (.calRun tok d a) s fun t => Stalls .drain s t) ∧
      (¬busy → s.core.csr.taskValid = false → T.cal.state ≠ 6 → m.due = false → Answers (.calRun tok d a) s fun t =>
        t.core.wait = some (.cal m.block) ∧ t.core.pc = s.core.pc ∧ SameX s t ∧ SameP s t ∧ SameV s t ∧ SameK s t ∧
          t.core.csr = s.core.csr ∧ ∀ p, t.mem.get p = s.mem.get p)) ∧
    (∀ T, s.team? team = some T →
      (T.calGathered = false → exec (.calRunStart team) s = .next s) ∧
      (∀ r, let v := s.correctAt r (BitVec.ofNat 64 T.cal.block) 256
        T.calGathered = true → (∀ u ∈ s.teams, u.field = T.field → u.id ≠ team →
          (u.cal.state < 2 ∨ 5 < u.cal.state) ∧ (u.calGathered = true → T.cal.lastArrival ≤ u.cal.lastArrival)) →
        T.cal.rights = some r →
        (∀ e p, s.calValidate r (BitVec.ofNat 64 T.cal.block) = .error (e, some p) →
          exec (.calRunStart team) s = .next (v.calFinish team 255 e p false false)) ∧
        (∀ e, s.calValidate r (BitVec.ofNat 64 T.cal.block) = .error (e, none) → ∃ (n : Nat) (fa : Word),
          exec (.calRunStart team) s = .next (({ v with freeCount := n } : State).calFinish team 255 e fa false false)) ∧
        (∀ l, s.calValidate r (BitVec.ofNat 64 T.cal.block) = .ok l → exec (.calRunStart team) s =
          .next ((v.modCal team fun c => { c with cfg := l.take 119, state := 2, exit := 255, rung := 0, iter := 0, iters := 0,
                                                  riters := [0, 0, 0, 0] }).calDispatch team 2))) ∧
      (T.cal.ending = none → T.calArrived = true →
        (T.cal.state = 3 → exec (.calKernelDone team) s = .next (s.calDispatch team 4)) ∧
        (T.cal.state = 4 → exec (.calKernelDone team) s = .next (s.calDispatch team 5)) ∧
        (T.cal.state = 2 → exec (.calKernelDone team) s = .next (s.calTest team)) ∧
        (T.cal.state = 5 → ∃ u : State, exec (.calKernelDone team) s = .next (u.calTest team) ∧ u = s.modCal team fun c => { c with
          iters := c.iters + 1, riters := c.riters.set c.rung (c.riters[c.rung]?.getD 0 + 1) })) ∧
      (∀ e, T.cal.ending = some e → T.cal.state ≠ 0 → T.cal.state ≠ 6 → exec (.calKernelDone team) s =
        .next (s.calFinish team e.1 e.2.1 e.2.2 false (decide (2 ≤ T.cal.state)))) ∧
      -- the norm test
      (∀ r, T.cal.rights = some r → s.memWf → s.histOk → T.cal.state = 2 ∨ T.cal.state = 5 →
        (∀ e p, s.bteRead r (BitVec.ofNat 64 (T.cal.block + 120)) 8 = .error (e, p) →
          s.calTest team = s.calFinish team 4 e p false true) ∧
        (∀ l, s.bteRead r (BitVec.ofNat 64 (T.cal.block + 120)) 8 = .ok l →
          CalTests team (s.correctAt r (BitVec.ofNat 64 (T.cal.block + 120)) 8) (natOfBytes l) (s.calTest team))) ∧
      -- a dispatch
      (∀ r st, T.cal.rights = some r → s.memWf → s.histOk → (∀ e ∈ s.hist, e.stamp ≤ T.cal.asOf) →
        (∀ e p, s.bteRead r (BitVec.ofNat 64 (T.cal.block + 119)) 1 = .error (e, p) →
          s.calDispatch team st = s.calFinish team 4 e p false true) ∧
        (∀ l, s.bteRead r (BitVec.ofNat 64 (T.cal.block + 119)) 1 = .ok l →
          let w := s.correctAt r (BitVec.ofNat 64 (T.cal.block + 119)) 1
          (natOfBytes l ≠ 0 → s.calDispatch team st = w.calFinish team 5 .ok 0 false true) ∧
          (natOfBytes l = 0 →
            let u := w.modCal team fun c => { c with state := st, iter := if st = 4 then c.iter + 1 else c.iter, asOf := s.stamp }
            let c := T.cal
            CalFields team ([(144, bytesOfNat 1 c.exit), (145, bytesOfNat 1 c.rung), (148, bytesOfNat 4 c.iters)] ++
                (c.riters.zipIdx.map fun e => (152 + 4 * e.2, bytesOfNat 4 e.1))) u
              (fun v => s.calDispatch team st = (v.modCal team fun c => { c with
                members := c.members.map fun m => { m with due := !m.done } }).calDeliverAll team)
              (s.calDispatch team st))))) ∧
    (∀ T m, s.team? team = some T →
      let kern : Nat := if T.cal.state = 3 then 0 else if T.cal.state = 4 then 1 else 2
      let iter : Nat := if T.cal.state = 4 ∨ T.cal.state = 5 then T.cal.iter else 0
      let t := s.calEnter team m s.core.num
      t.core.pc = BitVec.ofNat 64 (fieldAt T.cal.cfg (48 + 8 * kern) 8) ∧ t.rx 1 = s.core.pc ∧
        t.rx 10 = BitVec.ofNat 64 T.cal.block ∧ t.rx 11 = BitVec.ofNat 64 (fieldAt T.cal.cfg (73 + T.cal.rung) 1) ∧
        t.rx 12 = BitVec.ofNat 64 iter ∧ t.rx 13 = BitVec.ofNat 64 kern ∧
        (∀ r ∉ [(1 : XReg), 10, 11, 12, 13], t.rx r = s.rx r) ∧ SameP s t ∧ SameV s t ∧ SameK s t) ∧
    -- the end of a member's part: result, token, counter; a run ended by trap makes rank 0 take CALEXIT
    (∀ T m o st th, s.team? team = some T → s.memberThread team m.rank = some th → th.home = s.core.num → Resident s o.owner s.core.num →
      o.discard = false → o.body = .cal team → s.core.csr.lpc0 = 0 → s.core.csr.lpc1 = 0 → s.core.mode = .program →
      let word : Word := BitVec.ofNat 64 (T.cal.exit + T.cal.rung * 2 ^ 8 + T.cal.iters % 2 ^ 32 * 2 ^ 16)
      let ends : State → Prop := fun t => t.core.pc = s.core.pc + 4 ∧ SameP s t ∧ SameV s t ∧ SameK s t ∧
        (∀ r, t.rx r = if r = 0 then 0 else if r = o.tok then BitVec.ofNat 64 (T.cal.iters * 2 ^ 16 + o.cls * 2 ^ 8 + causeCode st)
          else if r = m.xd then word else s.rx r) ∧
        (∀ i, o.ctr = some i → t.core.csr.cnt.get i = s.core.csr.cnt.get i - 1) ∧ (∀ p ∈ t.ops, p.id ≠ o.id)
      (T.cal.trapExit = false ∨ m.rank ≠ 0 → ends (s.calRetire team m o st)) ∧
      (T.cal.trapExit = true → m.rank = 0 → ∃ u : State, ends u ∧
        s.calRetire team m o st = u.trapEntry .calexit u.core.pc (BitVec.ofNat 64 (T.cal.rung * 2 ^ 8 + T.cal.exit))))

/-- R10, R352: in program mode the MON instructions fault with ILLEGAL and report their words; in monitor mode PROT.SET and
LPT.SET check and write their entry; CTX.SAVE waits for matrix jobs and writes the save area; CTX.LOAD reads it back. The model's
readings: an entry of KIND 0 overlaps none (log 43), the saved pc is DKRESUME's and the loaded one goes there (log 41), and operations
in flight stay with the context they were issued in, those of an evicted thread with whoever loads its area (log 81), while what the
monitor issues after CTX.SAVE or CTX.LOAD is no part of the context that lies in the area (log 127). -/
def Obligations.MonitorInstructions : Prop :=
  ∀ (s : State) (ra rb : XReg),
    let i := s.rx ra
    let v := s.rx rb
    let c := s.core
    let kind (w : Word) := bitsOf w 17 16
    let first (w : Word) := bitsOf w 5 0
    let last (w : Word) := bitsOf w 13 8
    let valid : Prop := bitsOf v 51 18 = 0 ∧ bitsOf v 15 14 = 0 ∧ bitsOf v 7 6 = 0 ∧ kind v ≠ 3 ∧ first v ≤ last v ∧
      ¬(last v = 47 ∧ kind v ≠ 0) ∧ (kind v ≠ 0 → ∀ j : Fin 8, j.val ≠ i.toNat → kind (c.pe.get j) ≠ 0 →
        last v < first (c.pe.get j) ∨ last (c.pe.get j) < first v)
    let jobs : Prop := ∃ o ∈ s.ops, o.owner = c.owner ∧ o.isMatrix = true
    let area : Prop := i.toNat % 4096 = 0 ∧ i.toNat ≤ 0x2C000
    let key := localKey c.num i.toNat
    -- an operation that now delivers nowhere, and one that is part of the context the core goes on with
    let stray (o : Op) : Op := { o with owner := .saved 0, discard := true, holds := [] }
    let joined := s.ops.map fun o => if o.owner = c.owner then { o with apart := false } else o
    (c.mode = .program → ∀ e ∈ [Instr.protSet ra rb, .lptSet ra rb, .ctxSave ra, .ctxLoad ra],
      exec e s = .next (s.trap .illegal (BitVec.ofNat 64 (encode e)))) ∧
    (c.mode = .monitor →
      (8 ≤ i.toNat → exec (.protSet ra rb) s = .next (s.trap .illegal i)) ∧
      (i.toNat < 8 → ¬valid → exec (.protSet ra rb) s = .next (s.trap .illegal v)) ∧
      (∀ n : Fin 8, i.toNat = n.val → valid → Answers (.protSet ra rb) s fun t =>
        WritesNothing { s with core := { c with pe := c.pe.set n v } } t ∧ Advances 4 s t) ∧
      (47 ≤ i.toNat → exec (.lptSet ra rb) s = .next (s.trap .illegal i)) ∧
      (i.toNat < 47 → bitsOf v 63 8 ≠ 0 → exec (.lptSet ra rb) s = .next (s.trap .illegal v)) ∧
      (∀ n : Fin 48, i.toNat = n.val → n.val < 47 → bitsOf v 63 8 = 0 → Answers (.lptSet ra rb) s fun t =>
        WritesNothing { s with core := { c with lpt := c.lpt.set n (BitVec.ofNat 8 v.toNat) } } t ∧ Advances 4 s t) ∧
      (¬area → ∀ e ∈ [Instr.ctxSave ra, .ctxLoad ra], exec e s = .next (s.trap .align i)) ∧
      (area → jobs → Answers (.ctxSave ra) s fun t => Stalls .drain s t) ∧
      (area → ¬jobs → s.memWf → Answers (.ctxSave ra) s fun t =>
        let image := saveBytes { c with pc := c.csr.dkresume &&& ~~~1 }
          (joined.filter fun o => o.owner == s.areaOwner key c.owner && !o.apart)
        (∀ a, t.mem.get a = if key ≤ a ∧ a < key + image.length then image.getD (a - key) 0 else s.mem.get a) ∧
        (t.gateSpills.find? fun e => e.1 == key) = some (key, c.gateSpill) ∧
        t.core.inArea = some key ∧ t.ops = joined.map (fun o => if o.owner = s.areaHolder key then stray o else o) ∧
        -- over the area of an evicted thread: that is what it resumes with
        (∀ th img, s.areaThread key = some (th, img) → ∀ y ∈ t.threads, y.tid = th.tid → ∃ m, y.evicted = some m ∧ m.x = c.x ∧
          m.pc = c.csr.dkresume &&& ~~~1 ∧ m.wait = img.wait) ∧
        WritesNothing { s with mem := t.mem } t ∧ Advances 4 s t) ∧
      (area → s.savePoisoned key = true → exec (.ctxLoad ra) s = .next (s.trap .poison i)) ∧
      (area → s.savePoisoned key = false → Answers (.ctxLoad ra) s fun t =>
        let spilled := ((s.gateSpills.find? fun e => e.1 == key).map (·.2)).getD []
        let k := loadBytes { c with gateSpill := spilled } (s.mem.read key 12288)
        let own := t.ops.filter fun o => o.owner == c.owner && o.apart
        t.core.gateHw = k.gateHw ∧ t.core.gateSpill = k.gateSpill ∧
        (∀ r : XReg, t.core.pendX.getLsbD r.val = (k.pendX.getLsbD r.val || own.any fun o => o.target == r && r != 0)) ∧
        (∀ n, t.core.csr.cnt.get n = k.csr.cnt.get n + (own.filter fun o => o.ctr == some n).length) ∧
        (∀ r, t.rx r = k.rx r) ∧ (∀ r, t.rp r = k.rp r) ∧ (∀ r, t.rv r = k.rv r) ∧ (∀ r, t.rk r = k.rk r) ∧
          t.core.cid = bitsOf c.csr.dkctx 63 52 ∧ t.core.mode = .monitor ∧ t.core.domain = k.domain ∧ t.core.icache = [] ∧
          t.core.csr.dkresume = ((k.pc &&& ~~~1) ||| (c.csr.dkresume &&& 1)) ∧ (∀ a, t.mem.get a = s.mem.get a) ∧
          t.core.inArea = some key ∧ t.ops = s.ops.map (fun o =>
            if o.owner = s.areaHolder key then { o with owner := c.owner }
            else if o.owner = c.owner ∧ o.apart = false ∧ c.inArea.map s.areaHolder ≠ some (s.areaHolder key) then
              match c.inArea with
              | some a => { o with owner := s.areaHolder a }
              | none => stray o
            else o) ∧
          (k.csr.lpc0 = 0 → k.csr.lpc1 = 0 → t.core.pc = c.pc + 4))) ∧
    (∀ k : Core, c.delivered = [] → c.gateHw.length ≤ 16 → c.gateSpill = [] → (∀ f ∈ c.gateHw, f.ret &&& 1 = 0) →
      let k' := loadBytes k (saveBytes c [])
      (∀ r, k'.rx r = c.rx r) ∧ (∀ r, k'.rp r = c.rp r) ∧ (∀ r, k'.rk r = c.rk r) ∧ (∀ r, k'.rv r = c.rv r) ∧
        k'.pc = c.pc &&& ~~~1 ∧ k'.gateHw = c.gateHw)

/-- Deckle's return from a service (R349): its status in x10, program mode at DKRESUME, and every other register kept. -/
def Sys2Proof.Returns (status : Nat) (s t : State) : Prop :=
  t.rx 10 = BitVec.ofNat 64 status ∧ (∀ r, r ≠ 10 → t.rx r = s.rx r) ∧ SameP s t ∧ SameV s t ∧ SameK s t ∧
    t.core.mode = .program ∧ t.core.pc = s.core.csr.dkresume &&& ~~~1 ∧
    t.core.csr = { s.core.csr with dkresume := s.core.csr.dkresume &&& ~~~1 }

/-- R25, R133, R139, R310, R345 to R347, R349, R358, R373: power-on of a core, its first monitor entry, with the image measured at boot
and the live one after; Deckle's services with their checks and status, once no register they name is pending; the end of a thread
once its operations have drained; a waiting record written once its ring has room; a request of the security core. The model's
choices: that power-on keeps every byte but the image (log 45), event 6 of a refused image (log 112), DKENTRY 1 after it, event 0 with
the count 1, and which image a core may get (logs 137, 45), and the services as single steps at 0x2F080 (log 40). -/
def Obligations.Services : Prop :=
  ∀ (s : State) (c : Nat) (v : Word),
    let k := s.focus c
    let called (n : Nat) : Prop := k.core.mode = .monitor ∧ k.core.stopped = false ∧ bitsOf k.core.csr.dkentry 47 40 = 1 ∧
      bitOf k.core.csr.dkresume 0 = true ∧ k.core.pc = 0x2F080 ∧ k.core.csr.dkdata.toNat = n
    let idle (xs : List XReg) : Prop := ∀ r ∈ xs, k.core.pendX.getLsbD r.val = false
    let x12 : List XReg := [10, 11, 12]
    let x13 : List XReg := [10, 11, 12, 13]
    -- the state once a service has used the registers it names: a load into one of them has its last performance (R184)
    let w3 := k.useNamed x12 []
    let w4 := k.useNamed x13 []
    let w (n : Nat) := if n = 1 then w3 else w4
    let runtime : Prop := k.core.domain = 255
    let page := (w3.rx 11).toNat
    let tag := (w3.rx 12).toNat
    let dom := (w4.rx 11).toNat
    let which := (w4.rx 12).toNat
    let named : Prop := 1 ≤ dom ∧ dom ≤ 255 ∧ which ≤ 1
    let key := 64 * dom + 32 * which
    (∀ e ∈ [(Instr.svcUnknown c, 4, [10]), (.svcSetPageTag c, 1, x12), (.svcWriteReach c, 2, x13), (.svcReadReach c, 3, x13)],
      (∃ n, called n ∧ (n = e.2.1 ∨ 4 ≤ e.2.1 ∧ 4 ≤ n)) → ¬idle e.2.2 → AnswersOn c e.1 s fun u t => t = u) ∧
    (∀ n, 4 ≤ n → called n → idle [10] → AnswersOn c (.svcUnknown c) s fun _ t =>
      Returns 3 (k.useNamed [10] []) t ∧ t.mem = (k.useNamed [10] []).mem) ∧
    (∀ n, (1 ≤ n ∧ n ≤ 3) → called n → idle (if n = 1 then x12 else x13) → ¬runtime →
      AnswersOn c (if n = 1 then .svcSetPageTag c else if n = 2 then .svcWriteReach c else .svcReadReach c) s fun _ t =>
        Returns 1 (w n) t ∧ t.core.lpt = (w n).core.lpt ∧ t.sec = (w n).sec ∧ t.mem = (w n).mem) ∧
    (called 1 → idle x12 → runtime →
      (47 ≤ page ∨ k.core.peAllows k.core.cid page = false ∨ 256 ≤ tag → AnswersOn c (.svcSetPageTag c) s fun _ t =>
        Returns 2 w3 t ∧ t.core.lpt = w3.core.lpt) ∧
      (∀ n : Fin 48, page = n.val → n.val < 47 → k.core.peAllows k.core.cid page = true → tag < 256 →
        AnswersOn c (.svcSetPageTag c) s fun _ t => Returns 0 w3 t ∧ t.core.lpt = w3.core.lpt.set n (BitVec.ofNat 8 tag))) ∧
    (runtime → idle x13 →
      (¬named → (called 2 → AnswersOn c (.svcWriteReach c) s fun _ t => Returns 2 w4 t ∧ t.sec = w4.sec) ∧
        (called 3 → AnswersOn c (.svcReadReach c) s fun _ t => Returns 2 w4 t ∧ t.mem = w4.mem)) ∧
      (named → called 2 →
        (∀ e a, w4.resolveAll w4.svcRights .load (w4.rx 13) 32 = .error (e, a) → AnswersOn c (.svcWriteReach c) s fun _ t =>
          Returns (if e = .rights then 1 else 2) w4 t ∧ t.sec = w4.sec) ∧
        (∀ ks, w4.resolveAll w4.svcRights .load (w4.rx 13) 32 = .ok ks →
          ((∃ q ∈ ks, w4.poisoned q 1 = true) → AnswersOn c (.svcWriteReach c) s fun _ t => Returns 2 w4 t ∧ t.sec = w4.sec) ∧
          ((∀ q ∈ ks, w4.poisoned q 1 = false) → AnswersOn c (.svcWriteReach c) s fun _ t => Returns 0 w4 t ∧
            (t.ctx w4.core.cid).reach = (w4.ctx w4.core.cid).reach.write key (ks.map w4.readKey)))) ∧
      (named → called 3 →
        (∀ e a, w4.resolveAll w4.svcRights .store (w4.rx 13) 32 = .error (e, a) → AnswersOn c (.svcReadReach c) s fun _ t =>
          Returns (if e = .rights then 1 else 2) w4 t ∧ t.mem = w4.mem) ∧
        (∀ ks, w4.memWf → w4.resolveAll w4.svcRights .store (w4.rx 13) 32 = .ok ks → (∀ q ∈ ks, inRegs q = false) →
          AnswersOn c (.svcReadReach c) s fun _ t => Returns 0 w4 t ∧
            StoresBytes ks ((w4.ctx w4.core.cid).bitmap (BitVec.ofNat 8 dom) (which == 1)) w4 t))) ∧
    (∀ th, called 0 → k.coreThread k.core = some th → AnswersOn c (.svcEndThread c) s fun _ t =>
      (∀ y ∈ t.threads, y.tid = th.tid → y.ending = true) ∧
        (∀ o ∈ t.ops, o.owner = .thread th.tid → o.discard = true) ∧ t.core.csr.taskValid = false) ∧
    ((∀ th ∈ s.threads, th.home = c → th.ending = true → th.ended = true) → exec (.threadEnd c) s = .next s) ∧
    (∀ th, (s.threads.find? fun t => t.home == c && t.ending && !t.ended) = some th →
      let busy : Prop := ∃ o ∈ s.opsOf (.thread th.tid), (∀ n, o.body ≠ .cal n) ∨ ∃ e ∈ s.asyncWaiting, e.1 = o.id
      (busy → exec (.threadEnd c) s = .next s) ∧
      (¬busy → Answers (.threadEnd c) s fun t => ∀ y ∈ t.threads, y.tid = th.tid → y.ended = true)) ∧
    (let g := s.getCore c
     let first : Prop := ∀ q ∈ s.core :: s.others, q.held = true
     let keyed : Prop := ∀ n < 61, (s.sec.link n).keyed = true
     let digest (image : List Byte) : FwPart × Nat := (.deckle, Config.digest image)
     -- the image stands in page 47, and the core is as after reset, released
     let released (image : List Byte) (t : State) : Prop :=
       t.getCore c = { Core.reset c with
         held := false, deckle := s.sec.deckle.1, resetAt := s.clock, csr := { (Core.reset c).csr with dkentry := 1 } } ∧
       t.sec.released = s.sec.released + (if g.held then 1 else 0) ∧
       (∀ a < 0x30000, t.poisoned (localKey c a) 1 = false) ∧
       (s.memWf → ∀ a, t.mem.get a = if localKey c 0x2F000 ≤ a ∧ a < localKey c 0x2F000 + image.length
         then image.getD (a - localKey c 0x2F000) 0 else s.mem.get a)
     ∀ (image : List Byte) version,
      (1048576 ≤ c ∨ 4096 < image.length ∨ g.tid ≠ none ∨ (first ∧ ¬keyed) → exec (.powerOn c ⟨image, version⟩) s = .next s) ∧
      (c < 1048576 → image.length ≤ 4096 → g.tid = none → (first → keyed) →
        (version < s.sec.fuses →
          exec (.powerOn c ⟨image, version⟩) s = .next (s.logEvent c 6 (BitVec.ofNat 64 version))) ∧
        (s.sec.fuses ≤ version → first → s.sec.window = none → (∀ q ∈ s.core :: s.others, q.mode = .monitor) →
          Answers (.powerOn c ⟨image, version⟩) s fun t => released image t ∧ t.sec.deckle = (s.sec.deckle.1, image) ∧
            t.sec.measured = (s.sec.measured.filter fun e => e.1 != .deckle) ++ [digest image] ∧
            (∀ x ∈ s.sec.contexts, x.iface = .locked ∨ x.iface = .run → digest image ∉ x.policy.accept →
              (t.ctx x.cid).iface = .error)) ∧
        (s.sec.fuses ≤ version → ¬(first ∧ s.sec.window = none) →
          (image = s.sec.deckle.2 → Answers (.powerOn c ⟨image, version⟩) s fun t => released image t ∧ t.sec.measured = s.sec.measured) ∧
          (image ≠ s.sec.deckle.2 → exec (.powerOn c ⟨image, version⟩) s = .next s)))) ∧
    (∀ i, s.asyncWaiting[i]? = none → exec (.trapRingResume i) s = .next s) ∧
    (∀ i oid st n fa o, s.asyncWaiting[i]? = some (oid, st, n, fa) → s.op? oid = some o → o.isCopy = true →
      let w := s.writeRecord { s.ownerCore o.owner with cid := o.rights.cid } (causeCode st) o.cls 1 o.rights.domain o.pc fa
        (completionWord st o.cls n.toNat)
      (w.2 = .full → exec (.trapRingResume i) s = .next w.1) ∧
      (w.2 ≠ .full → Answers (.trapRingResume i) s fun t =>
        let u := (w.1.finishOp o st n.toNat fun k => k).chainDone o st
        t = { u with asyncWaiting := u.asyncWaiting.filter fun e => e.1 != oid })) ∧
    (∀ i oid st n fa o ch x y z q, s.asyncWaiting[i]? = some (oid, st, n, fa) → s.op? oid = some o → o.body = .bte x y z q ch →
      (s.writeRecord { s.ownerCore o.owner with cid := o.rights.cid } (causeCode st) o.cls 1 o.rights.domain o.pc fa
        (completionWord st o.cls n.toNat)).2 ≠ .full →
      ∀ d ∈ s.channels, d.op = some oid → d.phase = 5 → (s.channels.map (·.ch)).Nodup → Answers (.trapRingResume i) s fun t =>
        t.channel d.ch = { d with phase := 0, last := st }) ∧
    (k.core.mode = .program → k.core.stopped = false → holdsWait k.core.wait = false → k.core.request = none →
      AnswersOn c (.securityCoreRequest c v) s fun u t => t.core.mode = .monitor ∧ t.core.pc = 0x2F200 ∧
        t.core.csr = { u.core.csr with
          dkentry := BitVec.ofNat 64 (4 * 2 ^ 40 + (bitsOf u.core.csr.dkentry 31 0 + 1) % 2 ^ 32)
          dkdata := v, dkresume := (u.core.pc &&& ~~~1) ||| 1 } ∧
        t.core.domain = u.core.domain ∧ SameX u t ∧ SameP u t ∧ SameV u t ∧ SameK u t ∧
        (u.core.deckle = u.sec.deckle.1 → t.mem = u.mem))

/-- R312 to R319, R325, R357: a strong load to host memory or a peer module that does not return waits, its register pending,
and retires with its value, or with its fault; a waiting thread that may be evicted is, into its save area, resumed on its core once
its wake condition holds, and moved with its region, its ownership and its accumulator rows between free cores of its gang's plan, unless its context is halted or in ERROR. The model's
readings: each of these as one whole step, with the KIND 2 save area and the ownership at the new place (log 81), the field named for a
waiting TNEXT (log 75), and the loads that fail (log 82). -/
def Obligations.SlicesAndStrongLoads : Prop :=
  ∀ (s : State) (c field : Nat),
    let k := s.focus c
    let isStrong : Op → Bool := fun o => match o.body with | .strong _ _ _ _ _ _ => true | _ => false
    let gangOf (th : Thread) : Option Gang := s.gangs.find? fun q => q.id == th.gang
    let inPlan (th : Thread) (f : Nat) : Prop := ∃ q, gangOf th = some q ∧ ∃ p ∈ q.plan, p.field = f
    -- R135, R313, R314: a thread that waits at a blocking point, of a class other than CONCURRENT, with a save area
    let mayEvict (th : Thread) (g : Core) : Prop :=
      (∃ w, g.wait = some w ∧ ∀ y, w ≠ .yield y) ∧ th.ending = false ∧ th.ended = false ∧ g.dbg.halted = false ∧ g.stopped = false ∧
      g.mode = .program ∧ (∃ q, gangOf th = some q ∧ q.cls ≠ 2) ∧ (∀ o ∈ s.opsOf (.thread th.tid), o.isMatrix = false) ∧
      bitsOf g.csr.dkctx 5 0 * 4096 ≤ 0x2C000 ∧
      ∀ i < 3, ∃ w ∈ g.pe.toList, bitsOf w 17 16 = 2 ∧ bitsOf w 63 52 = th.cid ∧
        bitsOf w 5 0 ≤ bitsOf g.csr.dkctx 5 0 + i ∧ bitsOf g.csr.dkctx 5 0 + i ≤ bitsOf w 13 8
    -- R325: a waiting TNEXT is named a field of its gang
    let named (th : Thread) (g : Core) : Prop := ∀ pd d sl, g.wait = some (.tnext pd d sl) → field = th.home / 1024 ∨ inPlan th field
    let word (g : Core) (a : Word) (n : Nat) (P : List Byte → Prop) : Prop :=
      ∀ ks, s.resolveAll (s.rightsOf g) .load a n = .ok ks → P (ks.map s.readKey)
    -- R313, R317: the wake condition
    let wakes (th : Thread) (g : Core) : Prop :=
      match g.wait with
      | some .idle => g.wake = true
      | some (.barrier a _ _) => word g a 16 fun l => fieldAt l 0 4 ≠ bitsOf g.csr.bargen 31 0
      | some (.waita ge a v) => word g a 8 fun l => if ge then v.toNat ≤ natOfBytes l else natOfBytes l ≠ v.toNat
      | some .parked => g.recruit ≠ none
      | some .cvyJoin => True
      | some (.tnext _ _ sl) => (∃ r ∈ s.records, r.field = th.named ∧ r.slot = sl) ∨ (s.slots.get sl).phase = 0 ∨
          (s.slots.get sl).lost = true ∨ g.reply ≠ none
      | some (.cal _) => ∀ tm m, s.team? th.team = some tm → tm.calMember th.rank = some m → tm.cal.state = 6 ∨ m.due = true
      | some (.strongLoad id _ _) => ∀ o ∈ s.ops, o.id ≠ id
      | _ => False
    let stray (o : Op) : Op := { o with owner := .saved 0, discard := true, holds := [] }
    -- the operations of a core without a thread when one comes to it
    let left (o : Op) : Op :=
      if o.owner = .bare c then
        match (s.getCore c).inArea with
        | some key => if o.apart then stray o else { o with owner := s.areaHolder key }
        | none => stray o
      else o
    let free (d : Nat) : Prop := (s.getCore d).tid = none ∧ (s.getCore d).stopped = false ∧ (s.getCore d).held = false ∧
      (s.getCore d).mode = .monitor ∧ d < 1048576
    (∀ sc d ra off u ks, ∀ e ∈ [(Instr.ldS sc d ra off, none), (.ldA sc d ra off, some sc)],
      k.issues = true → k.core.wait = none → k.decodeNext = (u, .run e.1) →
      let adr := u.rx ra + BitVec.ofInt 64 (off.toInt * 8)
      u.access .load adr 8 = .ok ks → (∀ q ∈ ks, 2 ^ 50 ≤ q ∧ q < 2 ^ 52) → u.core.csr.taskValid = false →
      AnswersOn c (.strongLoadTimeout c) s fun _ t =>
        t.core.wait = some (.strongLoad u.nextId d adr) ∧ t.core.pc = u.core.pc ∧ SameX u t ∧
          (d ≠ 0 → t.core.pendX.getLsbD d.val = true) ∧
          ∃ o, t.ops = u.ops ++ [o] ∧ o.id = u.nextId ∧ o.body = .strong d adr 8 true ks e.2) ∧
    ((∀ o ∈ s.ops, s.homeOf o.owner = c → isStrong o = false) → exec (.strongLoadArrive c) s = .next s) ∧
    (∀ o d adr n sext ks acq, (s.ops.find? fun o => s.homeOf o.owner == c && isStrong o) = some o →
      o.body = .strong d adr n sext ks acq → Resident s o.owner c →
      let v : Word := if sext then sextNat (8 * n) (natOfBytes (ks.map s.readKey)) else BitVec.ofNat 64 (natOfBytes (ks.map s.readKey))
      let comes (t : State) : Prop := (t.getCore c).rx d = (if d = 0 then 0 else v) ∧
        (∀ r, r ≠ d → (t.getCore c).rx r = (s.getCore c).rx r) ∧
        (d ≠ 0 → (t.getCore c).pendX.getLsbD d.val = false) ∧ (∀ p ∈ t.ops, p.id ≠ o.id) ∧ t.mem = s.mem
      let fails (e : Cause) (val : Word) : Prop := s.core.num = c → (s.getCore c).wait = some (.strongLoad o.id d adr) →
        ∃ u : State, exec (.strongLoadArrive c) s = .next (u.trap e val) ∧ SameX s u ∧ u.core.pc = s.core.pc ∧ u.core.mode = s.core.mode ∧
          (∀ p ∈ u.ops, p.id ≠ o.id) ∧ u.mem = s.mem
      -- its member was lost while it was on its way (R368)
      (∀ e m val, o.phase = .moved e m val → fails e val) ∧
      ((∀ e m val, o.phase ≠ .moved e m val) → ∀ g, ks.findSome? s.lostAt = some g → fails .peerlost (BitVec.ofNat 64 g)) ∧
      ((∀ e m val, o.phase ≠ .moved e m val) → ks.findSome? s.lostAt = none →
        ((∃ q ∈ ks, s.poisoned q 1 = true) → fails .poison adr) ∧
        ((∀ q ∈ ks, s.poisoned q 1 = false) →
          ((s.getCore c).wait ≠ some (.strongLoad o.id d adr) → Answers (.strongLoadArrive c) s comes) ∧
          (s.core.num = c → (s.getCore c).wait = some (.strongLoad o.id d adr) → s.core.csr.lpc0 = 0 → s.core.csr.lpc1 = 0 →
            Answers (.strongLoadArrive c) s fun t => comes t ∧ t.core.wait = none ∧ Counted s t ∧
              ∃ u : State, u.core.x = t.core.x ∧ u.core.pc = s.core.pc ∧ t.core.pc = s.core.pc + u.lenHere)))) ∧
    (s.coreThread (s.getCore c) = none → exec (.sliceEvict ⟨c, field⟩) s = .next s) ∧
    (∀ th, s.coreThread (s.getCore c) = some th → ¬mayEvict th (s.getCore c) ∨ ¬named th (s.getCore c) →
      exec (.sliceEvict ⟨c, field⟩) s = .next s) ∧
    (∀ th, s.coreThread (s.getCore c) = some th → mayEvict th (s.getCore c) → named th (s.getCore c) →
      s.memWf → Answers (.sliceEvict ⟨c, field⟩) s fun t =>
        let g := s.getCore c
        let key := localKey th.home (bitsOf g.csr.dkctx 5 0 * 4096)
        let image := saveBytes g ((s.opsOf (s.areaOwner key (.thread th.tid))).filter fun o => !o.apart)
        t.ops = s.ops.map (fun o => if o.owner = .saved key then stray o else o) ∧
        (∀ y ∈ t.threads, y.tid = th.tid → y.evicted = some g ∧ ((∃ pd d sl, g.wait = some (.tnext pd d sl)) → y.named = field)) ∧ (t.getCore c).mode = .monitor ∧ (t.getCore c).tid = none ∧
        (t.getCore c).wait = none ∧ (t.gateSpills.find? fun e => e.1 == key) = some (key, g.gateSpill) ∧
        (g.deckle = s.sec.deckle.1 →
          ∀ a, t.mem.get a = if key ≤ a ∧ a < key + image.length then image.getD (a - key) 0 else s.mem.get a)) ∧
    (∀ i, s.thread? i = none → exec (.sliceResume i c) s = .next s) ∧
    (∀ i th img, s.thread? i = some th → th.unstarted = false → th.evicted = some img →
      (th.ended = true ∨ th.ending = true ∨ (s.ctx th.cid).halted = true ∨ th.home ≠ c ∨ ¬free c ∨ ¬wakes th img ∨
          ((∃ pd d sl, img.wait = some (.tnext pd d sl)) ∧ th.named ≠ c / 1024) →
        exec (.sliceResume i c) s = .next s) ∧
      (th.ended = false → th.ending = false → (s.ctx th.cid).halted = false → th.home = c → free c → wakes th img →
        s.savePoisoned (localKey c (bitsOf img.csr.dkctx 5 0 * 4096)) = false →
        let s0 : State := { s with ops := s.ops.map left }
        (s0.resumed th img (s.getCore c)).csr.taskValid = false → img.wait = some .idle → Answers (.sliceResume i c) s fun t =>
          (∀ y ∈ t.threads, y.tid = i → y.evicted = none) ∧ t.ops = s0.ops ∧ t.getCore c = s0.resumed th img (s.getCore c))) ∧
    (∀ is cs, is.length ≠ cs.length → exec (.sliceMigrate is cs) s = .next s) ∧
    (∀ i th img tm d, s.thread? i = some th → th.evicted = some img → s.team? th.team = some tm →
      let rows := s.assignRows (fun u => !([th].any fun t => t.tid == u.tid)) tm.accn [(th, img, d)] []
      let pages := (List.range 47).filter fun p => (s.getCore th.home).pe.toList.any fun w =>
        decide (bitsOf w 17 16 ≠ 0 ∧ bitsOf w 63 52 = th.cid ∧ bitsOf w 5 0 ≤ p ∧ p ≤ bitsOf w 13 8)
      let others := (s.getCore d).pe.toList.filter fun w => decide (bitsOf w 17 16 ≠ 0 ∧ bitsOf w 63 52 ≠ th.cid)
      let mine := (s.getCore th.home).pe.toList.filter fun w => decide (bitsOf w 17 16 ≠ 0 ∧ bitsOf w 63 52 = th.cid)
      let ownable (x : Thing) : Prop :=
        (s.sec.own x = .free ∨ ∃ l, s.sec.own x = .assigned l ∧ if x = .core d then th.cid ∈ l ∨ l.length < 4 else l = [th.cid])
      let live (u : Thread) : Prop := u ∈ s.threads ∧ u.team = tm.id ∧ u.ended = false ∧ u.unstarted = false
      let to' (u : Thread) : Nat := if u.tid = th.tid then d else u.home
      -- R319, R345, R353, R289, R357: where the slice may move a thread
      let may : Prop := (s.ctx tm.cid).halted = false ∧ (s.ctx tm.cid).iface ≠ .error ∧ th.team = tm.id ∧ tm.cid = th.cid ∧ th.ended = false ∧ th.unstarted = false ∧ free d ∧
        ownable (.core d) ∧ (∀ p ∈ pages, ownable (.page d p)) ∧
        (th.home / 1024 ≠ d / 1024 → 2 ≤ tm.cal.state → tm.cal.state ≤ 5 →
          ∀ u ∈ s.teams, u.field = d / 1024 → u.id ≠ tm.id → u.cal.state < 2 ∨ 5 < u.cal.state) ∧
        (∀ u ∈ s.threads, u.home = d → u.cid = tm.cid → u.ended = false → u.unstarted = false → u.tid = th.tid) ∧
        others.length + mine.length ≤ 8 ∧
        (∀ p ∈ pages, ∀ w ∈ others, ¬(bitsOf w 5 0 ≤ p ∧ p ≤ bitsOf w 13 8)) ∧
        (∀ u, live u → u.rank / 8 = th.rank / 8 → u.evicted ≠ none) ∧
        (th.home / 1024 ≠ d / 1024 → ∀ u, live u → u.tid = th.tid) ∧
        (∃ q, s.gangs.find? (fun q => q.id == tm.gang) = some q ∧ ∃ p ∈ q.plan, p.field = d / 1024) ∧
        (∀ u v, live u → live v → to' u / 1024 = to' v / 1024 ∧ (u.rank / 8 = v.rank / 8 ↔ to' u / 8 = to' v / 8) ∧
          (u.rank = v.rank ∨ to' u ≠ to' v))
      ((tm.cid = th.cid ∧ ¬may) ∨ rows = none → exec (.sliceMigrate [i] [d]) s = .next s) ∧
      (∀ base n, may → rows = some [(base, n)] → Answers (.sliceMigrate [i] [d]) s fun t =>
        (∀ y ∈ t.threads, y.tid = i → y.home = d ∧ ∃ img', y.evicted = some img' ∧ img'.num = d ∧ img'.x = img.x ∧
          img'.csr.accbase = BitVec.ofNat 64 base ∧ img'.csr.acclim = BitVec.ofNat 64 (base + n)) ∧
        (∃ l, t.sec.own (.core d) = .assigned l ∧ th.cid ∈ l) ∧ (∀ p ∈ pages, t.sec.own (.page d p) = .assigned [th.cid]) ∧
        (s.memWf → ∀ p ∈ pages, p < bitsOf img.csr.dkctx 5 0 ∨ bitsOf img.csr.dkctx 5 0 + 3 ≤ p → ∀ b < 4096,
          t.mem.get (localKey d (4096 * p + b)) = s.mem.get (localKey th.home (4096 * p + b)))))


/-- R130, R166, R172, R173, R191, R321, R322, R350: a peer's store performs at its home only what its rights allow there; a
write from outside performs what it names of HBM and registers; walks end and held requests go on; a station drops a leaf;
halts, stability and logging as management asks. The model's readings: an invalidation makes walks in flight find the tables as they
then stand (log 21), a walk's result is fixed when it starts (log 22), that a write from outside to a sealed line leaves free bytes
in it (log 133), that STABLE comes only where no wait and no request is open (log 136), and that a debug block is reached only through
a mapping the security core has activated (log 145); and its choice is that walks merge by spans of 64 KiB (log 130). -/
def Obligations.MemorySideAndDebug : Prop :=
  ∀ (s : State) (c home off i cid va src : Nat) (need : Need) (data : List Byte) (chk : Bool),
    let r := s.rightsOf (s.getCore c)
    let mate : Thread → Bool := fun u => some u.team == (s.coreThread (s.getCore c)).map (·.team) && u.home == home
    let rank := ((s.threads.find? mate).map (·.rank)).getD 0
    let adr : Word := BitVec.ofNat 64 (0x100000000 + rank * 2 ^ 18 + off)
    (s.threads.any (fun u => mate u && !u.ended) = false → exec (.peerAccessArrival c home off need data) s = .next s) ∧
    (∀ e, s.resolveAll r need adr data.length = .error e → exec (.peerAccessArrival c home off need data) s = .next s) ∧
    (∀ ks, need = .store → r.monitor = false → s.threads.any (fun u => mate u && !u.ended) = true → s.memWf →
      s.resolveAll r .store adr data.length = .ok ks → ks.length = data.length →
      Answers (.peerAccessArrival c home off .store data) s fun t => StoresBytes ks data s t ∧ t.core.x = s.core.x) ∧
    (let ks := (List.range data.length).map (off + ·)
     let inside : Prop := inHbm off = true ∧ inHbm (off + data.length - 1) = true
     let hbm : Prop := inside ∧ s.monitorBytes off data.length = false
     let host : Prop := src < 2 ∧ inHost off = true ∧ inHost (off + data.length - 1) = true
     let old := ks.map fun a => s.mem.get (hostKey a)
     let writes (op : InboundOp) (d : List Byte) : Prop := Answers (.inboundWrite ⟨src, op, off, chk⟩ data) s fun t =>
       StoresBytes ks d s t ∧ t.core.x = s.core.x
     let sealed : Prop := ∃ j < data.length, s.sealedAt (off + j) = true
     let sized (op : InboundOp) : Prop := op = .store ∨ data.length = 4 ∨ data.length = 8
     (inRegs off = true → src < 2 ∨ chk = false → ∀ op, exec (.inboundWrite ⟨src, op, off, chk⟩ data) s = .next s) ∧
     (inside → s.monitorBytes off data.length = true → ∀ op, exec (.inboundWrite ⟨src, op, off, chk⟩ data) s = .next s) ∧
     (∀ op, data ≠ [] → hbm → sealed → sized op → s.memWf → Answers (.inboundWrite ⟨src, op, off, chk⟩ data) s fun t => t.core.x = s.core.x ∧
       ∀ a, (∀ j < data.length, hostKey (off + j) ≠ a) → (∀ j < data.length, s.sealedAt (off + j) = true → a / 64 ≠ (off + j) / 64) →
         t.mem.get a = s.mem.get a) ∧
     (data = [] → ∀ op, exec (.inboundWrite ⟨src, op, off, chk⟩ data) s = .next s) ∧
     (data ≠ [] → hbm ∨ host → ¬sealed → (∀ j < data.length, inRegs (off + j) = false) → s.memWf →
       writes .store data ∧
       (data.length = 4 ∨ data.length = 8 →
         writes .swap data ∧
         writes .add (bytesOfNat data.length (natOfBytes old + natOfBytes data)) ∧
         ∀ e, (natOfBytes old = e → writes (.cas e) data) ∧
           (natOfBytes old ≠ e → exec (.inboundWrite ⟨src, .cas e, off, chk⟩ data) s = .next (s.correct ks))))) ∧
    (s.misses[i]? = none → exec (.translationWalkDone i) s = .next s) ∧
    (∀ m f, s.misses[i]? = some m → m.found = .inl f →
      exec (.translationWalkDone i) s = .next { s with misses := s.misses.eraseIdx i }) ∧
    (∀ m e bits, s.misses[i]? = some m → m.found = .inr (e, bits) →
      (s.leaves.filter fun y => y.station == m.station).length < 4096 → exec (.translationWalkDone i) s =
        .next { s with misses := s.misses.eraseIdx i
                       leaves := s.leaves ++ [⟨m.station, m.cid, m.page * 65536 / 2 ^ bits, bits, e⟩] }) ∧
    (let merges (m : Miss) : Prop := ∃ n ∈ s.misses, n.station = m.station ∧ n.cid = m.cid ∧ n.page = m.page
     let room (m : Miss) : Prop := merges m ∨ (s.misses.filter fun n => n.station == m.station).length < 512
     ((∀ m ∈ s.heldMisses, ¬room m) → exec .translationRetry s = .next s) ∧
     (∀ before m after, s.heldMisses = before ++ m :: after → (∀ n ∈ before, ¬room n) → room m →
      (merges m → exec .translationRetry s = .next { s with heldMisses := before ++ after }) ∧
      (¬merges m → exec .translationRetry s = .next (({ s with
          misses := s.misses ++ [{ m with found := s.walk m.cid (m.page * 65536) }], heldMisses := before ++ after } : State).correct
        (s.walkKeys m.cid (m.page * 65536)))))) ∧
    (Answers (.stationInvalidate cid va) s fun t =>
      t = ({ s with leaves := t.leaves, misses := s.misses.map fun m =>
        if m.cid = cid then { m with found := s.walk cid (m.page * 65536) } else m } : State).correct
          (((s.misses.filter fun m => m.cid == cid).map fun m => s.walkKeys cid (m.page * 65536)).flatten) ∧ ∀ l, l ∈ t.leaves ↔ l ∈ s.leaves ∧ ¬(l.cid = cid ∧ l.page = va / 2 ^ l.bits)) ∧
    (s.debugMapped c = false ∨ s.debugAllowed c = false → ∀ e ∈ [Instr.debugRun c, .debugPlainHalt c, .debugQuiesceHalt c], exec e s = .next s) ∧
    (c < 1048576 → s.debugMapped c = true → s.debugAllowed c = true →
      let g := s.getCore c
      let turns (d : DebugBlock) (t : State) : Prop := t.getCore c = { g with dbg := d } ∧ t.mem = s.mem
      (Answers (.debugRun c) s (turns { g.dbg with dctl := 0, halted := false, stable := false })) ∧
      (Answers (.debugPlainHalt c) s (turns { g.dbg with
        dctl := 1, halted := true, stable := decide (g.wait = none ∧ g.request = none), whit := false })) ∧
      (Answers (.debugQuiesceHalt c) s (turns { g.dbg with dctl := 2, halted := true, stable := false, whit := false }))) ∧
    (let g := s.getCore c
     let quiet : Prop := g.dbg.halted = true ∧ g.wait = none ∧ g.request = none ∧
       (g.dbg.dctl = 1 ∨ (g.dbg.dctl = 2 ∧ (∀ n, g.csr.cnt.get n = 0) ∧ g.pendX = 0))
     (quiet → Answers (.debugStable c) s fun t => t.getCore c = { g with dbg := { g.dbg with stable := true } } ∧ t.mem = s.mem) ∧
     (¬quiet → exec (.debugStable c) s = .next s)) ∧
    (Answers (.loggingEnable cid) s fun t => (t.ctx cid).logging = true ∧ t.core = s.core ∧ t.mem = s.mem)

/-- The queue q of t, with its only packet completed: DONE is its sequence number, and nothing is pending (R337). -/
def Sys2Proof.PacketDone (q : Nat) (p : TakenPacket) (s t : State) : Prop :=
  let k := s.queue q
  t.queue q = { k with taken := [], done := p.seq, state := if k.state = 1 ∨ k.state = 2 then 1 else k.state }

/-- R329, R330, R332 to R335, R337, R341, R342, R361: what a write of the owner to a queue register does, when it is dropped,
and that another host's write of any register is refused; what enabling refuses or starts; what the fetcher takes of a ring, a
LAUNCH with the JOINPREV LAUNCH behind it among them, and what it refuses with which REASON; notify words; and the restart of the
Headbox, which latches tails and holds reports back. The model's choices: a bad format goes before a bad sequence number (log 83);
packets taken before an enable run on outside the new count, but for those that failed (log 86); a host that is not the owner, also
of a module without one, is refused (log 100). Its readings: the packet after a LAUNCH is taken with it whatever QTAIL says (log 84),
and the copies that AHEAD holds, with what discards one (log 85). -/
def Obligations.Queues : Prop :=
  ∀ (s : State) (q c h : Nat) (v : Word), q < 1024 → c < 1048576 →
    let k := s.queue q
    let ctl := (v &&& 0xFFF00F0000000007) ||| (if k.priv then 8 else 0)
    let bad : Prop := bitsOf v 43 40 < 2 ∨ 1 < bitsOf v 2 1 ∨ (bitsOf v 2 1 = 1 ∧ k.priv = false)
    let started : Queue := { k with
      ctl := ctl, head := 0, tail := 0, done := (k.seq + 2 ^ 32 - 1) % 2 ^ 32, state := 1, reason := 0, ahead := []
      latch := none, taken := (k.taken.filter fun p => !p.failed).map fun p => { p with counted := false } }
    let reg (off : Nat) : Instr := .registerWrite ⟨h, 64 * q + off⟩ v
    let owned : Prop := s.sec.owner = some h
    let waits : Bool := s.restarting || s.exchanging
    let adr : Word := k.base + BitVec.ofNat 64 (128 * (k.head % 2 ^ bitsOf k.ctl 43 40))
    let d := (k.tail + 2 ^ 32 - k.head) % 2 ^ 32
    let beyond : Prop := 0 < d ∧ d < 2 ^ 31
    let works : Prop := bitOf k.ctl 0 = true ∧ k.state ≠ 3 ∧ s.restarting = false
    let taken (b : List Byte) (seq : Nat) (late : Bool) : TakenPacket :=
      ⟨seq, b, false, false, none, false, true, bitsOf k.ctl 63 52, late⟩
    (bitOf k.ctl 0 = true →
      exec (.queueEnable q v) s = .next s ∧
      (bitOf v 0 = false →
        exec (.queueDisable q v) s = .next (s.putQueue { k with ctl := ctl, state := 0, ahead := [] })) ∧
      (owned → exec (reg 8) s = (if bitOf v 0 then .next s else exec (.queueDisable q v) s)) ∧
      (owned → ∀ off ∈ [0, 16, 40], exec (reg off) s = .next (s.putQueue k)) ∧
      exec (.qtailWrite q v) s = .next (s.putQueue
        (if waits then { k with latch := some (bitsOf v 31 0) } else { k with tail := bitsOf v 31 0 }))) ∧
    (bitOf k.ctl 0 = false →
      exec (.queueDisable q v) s = .next s ∧
      (bitOf v 0 = true → bad → exec (.queueEnable q v) s = .next (s.putQueue { k with state := 0, reason := 1 })) ∧
      (bitOf v 0 = true → ¬bad → k.donea = 0 → exec (.queueEnable q v) s = .next (s.putQueue started)) ∧
      (∀ ks, bitOf v 0 = true → ¬bad → k.donea ≠ 0 → s.memWf →
        (s.putQueue started).headboxKeys started.cid .store k.donea 8 = .ok ks → (∀ j ∈ ks, inRegs j = false) →
        ks.length = 8 → Answers (.queueEnable q v) s fun t =>
          t.queue q = started ∧ StoresBytes ks (bytesOfNat 8 started.done) s t) ∧
      (owned →
        exec (reg 8) s = (if bitOf v 0 then exec (.queueEnable q v) s else .next (s.putQueue { k with ctl := ctl })) ∧
        exec (reg 0) s = .next (s.putQueue { k with base := v &&& ~~~127 }) ∧
        exec (reg 16) s = .next (s.putQueue { k with seq := bitsOf v 31 0 }) ∧
        exec (reg 40) s = .next (s.putQueue { k with donea := v })) ∧
      exec (.qtailWrite q v) s = .next (s.putQueue k)) ∧
    (owned → exec (reg 24) s = exec (.qtailWrite q v) s ∧ ∀ off ∈ [32, 48, 56], exec (reg off) s = .next s) ∧
    (¬owned → ∀ off, off % 8 = 0 → off < 2 ^ 32 → exec (.registerWrite ⟨h, off⟩ v) s = .next (s.answer .refused)) ∧
    (owned → (∀ off ∈ [0x800000, 0x800008], exec (.registerWrite ⟨h, off⟩ v) s = .next s) ∧
      exec (.registerWrite ⟨h, 0x10000000 + 8 * c⟩ v) s = exec (.notifyWrite c) s) ∧
    (s.gated.contains (c / 1024) = true → exec (.notifyWrite c) s = .next { s with
      gatedWrites := if s.gatedWrites.contains c then s.gatedWrites else s.gatedWrites ++ [c] }) ∧
    (s.gated.contains (c / 1024) = false → Answers (.notifyWrite c) s fun t =>
      (t.getCore c).wake = true ∧ (t.getCore c).csr = (s.getCore c).csr ∧ (t.getCore c).pc = (s.getCore c).pc ∧
      ((∀ th ∈ s.threads, th.home = c → th.evicted = none) → t.mem = s.mem) ∧
      (∀ th img, s.threads = [th] → th.home = c → th.ended = false → th.unstarted = false → th.evicted = some img →
        t.threads = [{ th with evicted := some { img with wake := true } }])) ∧
    (∀ f, (∀ n ∈ s.gatedWrites, n / 1024 ≠ f) →
      exec (.notifyGatedDeliver f) s = .next { s with gated := s.gated.filter (· != f) }) ∧
    (∀ f, s.gatedWrites = [c] → c / 1024 = f → Answers (.notifyGatedDeliver f) s fun t =>
      (t.getCore c).wake = true ∧ t.gatedWrites = [] ∧ f ∉ t.gated) ∧
    (¬works → ∀ i ∈ [Instr.packetFetch q, .packetPoll q], exec i s = .next s) ∧
    (beyond → exec (.packetPoll q) s = exec (.packetFetch q) s) ∧
    (¬beyond → exec (.packetPoll q) s = .next s) ∧
    (works → bitsOf k.ctl 2 1 = 0 →
      (¬beyond → Answers (.packetFetch q) s fun t => (t.queue q).taken = k.taken ∧ (t.queue q).head = k.head) ∧
      (beyond →
        (∀ e, s.headboxRead k.cid adr 8 = .error e → Answers (.packetFetch q) s fun t =>
          (t.queue q).state = 3 ∧ (t.queue q).reason = 4 ∧ (t.queue q).taken = k.taken) ∧
        (∀ h, s.headboxRead k.cid adr 8 = .ok h →
          let type := fieldAt h 1 1
          let join : Prop := fieldAt h 2 1 % 2 = 1
          let format : Prop := fieldAt h 0 1 / 2 = 0 ∧ fieldAt h 2 2 / 2 = 0 ∧ 1 ≤ type ∧ type ≤ 7 ∧ (join → type = 1)
          let here : Prop := fieldAt h 0 1 % 2 = (k.head / 2 ^ bitsOf k.ctl 43 40 + 1) % 2
          (¬here → Answers (.packetFetch q) s fun t => (t.queue q).taken = k.taken ∧ (t.queue q).head = k.head ∧
            (t.queue q).reason = k.reason) ∧
          (here → ¬format → Answers (.packetFetch q) s fun t =>
            (t.queue q).state = 3 ∧ (t.queue q).reason = 3 ∧ (t.queue q).taken = k.taken) ∧
          (here → format → fieldAt h 4 4 ≠ k.seq → Answers (.packetFetch q) s fun t =>
            (t.queue q).state = 3 ∧ (t.queue q).reason = 2 ∧ (t.queue q).taken = k.taken) ∧
          (∀ b, here → format → fieldAt h 4 4 = k.seq → type ≠ 1 → s.headboxRead k.cid (adr + 8) 120 = .ok b →
            Answers (.packetFetch q) s fun t =>
              (t.queue q).taken = k.taken ++ [taken (h ++ b) k.seq false] ∧
              (t.queue q).head = (k.head + 1) % 2 ^ 32 ∧ (t.queue q).seq = (k.seq + 1) % 2 ^ 32 ∧ t.mem = s.mem) ∧
          (∀ b, here → format → fieldAt h 4 4 = k.seq → join → k.taken = [] → s.headboxRead k.cid (adr + 8) 120 = .ok b →
            Answers (.packetFetch q) s fun t => (t.queue q).taken = [taken (h ++ b) k.seq true] ∧
              (t.queue q).head = (k.head + 1) % 2 ^ 32 ∧ t.mem = s.mem) ∧
          (∀ b, here → format → fieldAt h 4 4 = k.seq → type = 1 → ¬join → k.ahead = [] →
            s.headboxRead k.cid (adr + 8) 120 = .ok b →
            let n := (k.head + 1) % 2 ^ 32
            let adr2 : Word := k.base + BitVec.ofNat 64 (128 * (n % 2 ^ bitsOf k.ctl 43 40))
            let s1 : State := s.putQueue { k with
              head := n, seq := (k.seq + 1) % 2 ^ 32, taken := k.taken ++ [taken (h ++ b) k.seq false] }
            let alone (t : State) : Prop := (t.queue q).taken = k.taken ++ [taken (h ++ b) k.seq false] ∧ (t.queue q).head = n
            (∀ e, s1.headboxRead k.cid adr2 8 = .error e → Answers (.packetFetch q) s fun t =>
              alone t ∧ (t.queue q).state = 3 ∧ (t.queue q).reason = 4) ∧
            (∀ h2, s1.headboxRead k.cid adr2 8 = .ok h2 →
              let follows : Prop := fieldAt h2 0 1 = (n / 2 ^ bitsOf k.ctl 43 40 + 1) % 2 ∧ fieldAt h2 2 2 = 1 ∧
                fieldAt h2 1 1 = 1 ∧ fieldAt h2 4 4 = (k.seq + 1) % 2 ^ 32
              (∀ b2, follows → s1.headboxRead k.cid (adr2 + 8) 120 = .ok b2 → Answers (.packetFetch q) s fun t =>
                (t.queue q).taken = k.taken ++ [taken (h ++ b) k.seq false, taken (h2 ++ b2) ((k.seq + 1) % 2 ^ 32) false] ∧
                (t.queue q).head = (n + 1) % 2 ^ 32 ∧ t.mem = s.mem) ∧
              (fieldAt h2 0 1 % 2 ≠ (n / 2 ^ bitsOf k.ctl 43 40 + 1) % 2 ∨ fieldAt h2 1 1 ≠ 1 ∨ fieldAt h2 2 1 % 2 = 0 →
                (∃ b2, s1.headboxRead k.cid (adr2 + 8) 120 = .ok b2) → Answers (.packetFetch q) s alone)))))) ∧
    (∀ h b, works → bitsOf k.ctl 2 1 = 1 → k.ahead = [] → k.head < 2 ^ 32 → s.headboxRead k.cid adr 8 = .ok h →
      fieldAt h 0 1 = (k.head / 2 ^ bitsOf k.ctl 43 40 + 1) % 2 → fieldAt h 2 2 = 0 → 1 ≤ fieldAt h 1 1 → fieldAt h 1 1 ≤ 7 →
      fieldAt h 4 4 = k.seq → s.headboxRead k.cid (adr + 8) 120 = .ok b → Answers (.packetFetch q) s fun t =>
        (t.queue q).ahead = [(k.head, h ++ b)] ∧ (t.queue q).taken = k.taken ∧ (t.queue q).head = k.head) ∧
    (∀ b, works → bitsOf k.ctl 2 1 = 1 → k.ahead = [(k.head, b)] → k.head < 2 ^ 32 → k.taken = [] → fieldAt b 1 1 ∈ [2, 3, 4, 5, 6, 7] →
      s.headboxRead k.cid adr 8 = .ok (b.take 8) → Answers (.packetFetch q) s fun t => (t.queue q).ahead = [] ∧
        (t.queue q).taken = [taken b (fieldAt b 4 4) (fieldAt b 2 1 % 2 == 1)] ∧ (t.queue q).head = (k.head + 1) % 2 ^ 32) ∧
    (s.restarting = false → exec .headboxRestart s = .next { s with restarting := true, restartAt := s.clock } ∧
      exec .headboxResume s = .next s) ∧
    (s.restarting = true → exec .headboxRestart s = .next s ∧
      (let r : State := { s with
         restarting := false, reports := []
         queues := if s.exchanging then s.queues else s.queues.map fun k => match k.latch with | some n => { k with tail := n, latch := none } | none => k }
       exec .headboxResume s = .next (s.reports.foldl (fun u g => u.reportGang g) r)))

/-- R336, R337, R338, R375: NOP, SIGNAL, WAIT, QFENCE, UNLOAD and LOAD, each as the only packet of its queue or behind one
that has not completed: what it does to memory and to objects, and when it completes. The model's choices: the loader's page-table
entries are an operand of LOAD, and UNLOAD waits in ERROR (log 91); a handle's references are a set of queues (log 92); LOAD waits
after an alarm of level 2 or 3 (log 95); what parseObject rejects is INVALID (log 120); a LOAD waits whose sections do not lie each on
pages of its own domain (log 128). -/
def Obligations.Packets : Prop :=
  ∀ (s : State) (q : Nat) (p p0 : TakenPacket),
    let k := s.queue q
    let type := fieldAt p.bytes 1 1
    let fresh (x : TakenPacket) : Prop := x.completed = false ∧ x.failed = false ∧ x.counted = true ∧ x.bytes.length = 128
    let only : Prop := k.taken = [p] ∧ fresh p
    let behind : Prop := k.taken = [p0, p] ∧ fresh p0 ∧ fresh p
    let quiet : Prop := k.donea = 0
    let frozen : Prop := (s.ctx p.cid).iface = .error
    let works : Prop := ¬frozen ∧ s.workAccepted = true
    let adr : Word := BitVec.ofNat 64 (fieldAt p.bytes 8 8)
    let held (t : State) : Prop := t.queue q = { k with
      taken := k.taken.map fun x => if x = p then { p with started := true } else x
      state := if k.state = 1 ∨ k.state = 2 then 2 else k.state }
    let inError (t : State) : Prop := (t.queue q).state = 3 ∧ (t.queue q).reason = 4 ∧ (t.queue q).done = k.done ∧ t.mem = s.mem
    (k.taken = [] → ∀ i ∈ [Instr.nop q, .signal q, .wait q, .waitSatisfied q, .qfence q, .unload q, .load q [], .launch q],
      exec i s = .next s) ∧
    (only → type = 7 →
      (quiet → Answers (.nop q) s fun t => PacketDone q p s t ∧ t.mem = s.mem) ∧
      (∀ ks, k.donea ≠ 0 → p.seq ≠ k.done → s.memWf →
        (s.putQueue { k with taken := [], done := p.seq }).headboxKeys p.cid .store k.donea 8 = .ok ks →
        (∀ j ∈ ks, inRegs j = false) → ks.length = 8 →
        Answers (.nop q) s fun t => PacketDone q p s t ∧ StoresBytes ks (bytesOfNat 8 p.seq) s t)) ∧
    (only → type = 4 → quiet →
      (∀ ks, s.headboxKeys p.cid .store adr 8 = .ok ks → (∀ j ∈ ks, inRegs j = false) → ks.length = 8 → s.memWf →
        Answers (.signal q) s fun t => PacketDone q p s t ∧ StoresBytes ks ((p.bytes.drop 16).take 8) s t) ∧
      (∀ e, s.headboxKeys p.cid .store adr 8 = .error e → Answers (.signal q) s inError)) ∧
    (behind → type = 4 → fieldAt p0.bytes 1 1 ∈ [2, 3, 7] → exec (.signal q) s = .next s) ∧
    (only → type = 5 → quiet → ∀ i, (p.started = false ∧ i = Instr.wait q) ∨ (p.started = true ∧ i = Instr.waitSatisfied q) →
      (∀ e, s.headboxRead p.cid adr 8 = .error e → Answers i s inError) ∧
      (∀ b, s.headboxRead p.cid adr 8 = .ok b →
        let m := wordOfBytes b
        let x : Word := BitVec.ofNat 64 (fieldAt p.bytes 16 8)
        let holds : Prop := if fieldAt p.bytes 24 1 = 1 then 0 ≤ (m - x).toInt else m ≠ x
        (holds → Answers i s fun t => PacketDone q p s t ∧ t.mem = s.mem) ∧
        (¬holds → Answers i s fun t => held t ∧ t.mem = s.mem))) ∧
    (only → type = 5 → (p.started = true → exec (.wait q) s = .next s) ∧
      (p.started = false → exec (.waitSatisfied q) s = .next s)) ∧
    (only → type = 6 → quiet → Answers (.qfence q) s fun t => PacketDone q p s t ∧ t.mem = s.mem) ∧
    (behind → type = 6 → fieldAt p0.bytes 1 1 ∈ [2, 3, 4, 7] → p0 ≠ p → Answers (.qfence q) s fun t => held t ∧ t.mem = s.mem) ∧
    (only → type = 3 → frozen → exec (.unload q) s = .next s) ∧
    (only → type = 2 → ¬works → ∀ ptes, exec (.load q ptes) s = .next s) ∧
    (only → type = 3 → quiet → ¬frozen →
      let h := fieldAt p.bytes 8 4
      (s.object? p.cid h = none → Answers (.unload q) s fun t => PacketDone q p s t ∧ t.objects = s.objects ∧ t.mem = s.mem) ∧
      (∀ o, s.object? p.cid h = some o →
        let refs := o.refs.filter (· != q)
        (refs ≠ [] → Answers (.unload q) s fun t =>
          PacketDone q p s t ∧ t.object? p.cid h = some { o with refs := refs } ∧ t.mem = s.mem) ∧
        (refs = [] → (∀ g ∈ s.gangs, g.cid = p.cid → g.handle ≠ h) → s.memWf → Answers (.unload q) s fun t =>
          PacketDone q p s t ∧ t.object? p.cid h = none ∧
          (∀ a, t.mem.get a = if ∃ e ∈ o.ptes, e ≤ a ∧ a < e + 8 then 0 else s.mem.get a) ∧
          (t.core.cid = p.cid → t.core.icache = [])))) ∧
    (only → type = 2 → quiet → works → fieldAt p.bytes 32 8 = 0 → ∀ ptes,
      let h := fieldAt p.bytes 24 4
      let src := s.headboxRead p.cid adr (fieldAt p.bytes 16 8)
      (∀ e, src = .error e → Answers (.load q ptes) s fun t => PacketDone q p s t ∧ t.objects = s.objects ∧ t.mem = s.mem) ∧
      (∀ file, src = .ok file →
        (parseObject file = none ∨ 64 ≤ fieldAt file 8 4 ∨ (∃ o, s.object? p.cid h = some o ∧ o.bytes ≠ file) →
          Answers (.load q ptes) s fun t => PacketDone q p s t ∧ t.objects = s.objects ∧ t.mem = s.mem) ∧
        (∀ l, parseObject file = some l → fieldAt file 8 4 < 64 →
          (∀ o, s.object? p.cid h = some o → o.bytes = file → Answers (.load q ptes) s fun t =>
            PacketDone q p s t ∧ t.mem = s.mem ∧ t.object? p.cid h =
              some { o with refs := if o.refs.contains q then o.refs else o.refs ++ [q] }) ∧
          (s.object? p.cid h = none →
            (s.placeObject p.cid l ptes = none → Answers (.load q ptes) s fun t =>
              t.queue q = k ∧ t.objects = s.objects ∧ t.mem = s.mem) ∧
            (∀ x, l = [x] → x.kind = 0 → x.domain = 0 → x.size ≠ 0 → s.placeObject p.cid l ptes = none) ∧
            (∀ u, s.placeObject p.cid l ptes = some u → u.queue q = k → u.object? p.cid h = none →
              Answers (.load q ptes) s fun t => PacketDone q p u t ∧ t.mem = u.mem ∧
                t.object? p.cid h = some (makeObject p.cid h q file l ptes) ∧
                (u.core.cid = p.cid → t.core.icache = [])))))) ∧
    (∀ ks, only → type = 2 → quiet → works →
      let st := fieldAt p.bytes 32 8
      let u : State := { s with freeCount := s.freeCount + 2 }
      st ≠ 0 → (∀ file, s.headboxRead p.cid adr (fieldAt p.bytes 16 8) = .ok file → parseObject file = none) →
      u.headboxKeys p.cid .store (BitVec.ofNat 64 st) 32 = .ok ks → (∀ j ∈ ks, inRegs j = false) → ks.length = 32 → s.memWf →
      ks.Nodup → Answers (.load q []) s fun t => ∃ cause tstart tend, StoresBytes ks
        ([3, cause, 0, 0] ++ bytesOfNat 4 p.seq ++ [0, 0, 0, 0, 0, 0, 0, 0] ++ bytesOfWord tstart ++ bytesOfWord tend) s t)

/-- Core c runs member `rank` of a team with plan p of gang g in the state R132 gives it at its start. -/
def Sys2Proof.StartsMember (g : Gang) (o : CodeObject) (p : TeamPlan) (rank c : Nat) (t : State) : Prop :=
  let m := t.getCore c
  m.rx 10 = g.arg ∧ (∀ r, r ≠ 10 → m.rx r = 0) ∧ (∀ r, r ≠ 0 → m.rp r = false) ∧ m.pc = o.entry ∧ m.mode = .program ∧
    m.cid = g.cid ∧ m.declared = o.profiles ∧ m.csr.rank = BitVec.ofNat 64 rank ∧ m.csr.teamsz = BitVec.ofNat 64 p.size ∧
    m.csr.stage = BitVec.ofNat 64 p.stage ∧ m.csr.gangid = BitVec.ofNat 64 g.gangid ∧ m.csr.lpc0 = 0 ∧ m.csr.tvec = 0 ∧
    m.csr.instret = 0 ∧ m.gateHw = [] ∧ m.wait = none ∧
    ∃ th ∈ t.threads, m.tid = some th.tid ∧ th.home = c ∧ th.rank = rank ∧ th.gang = g.id ∧ th.cid = g.cid ∧
      th.ended = false ∧ th.unstarted = false ∧ th.evicted = none

/-- R128, R129, R132, R134, R136, R328, R335, R338, R339, R340: a LAUNCH with a ground of refusal is refused and reserves
nothing; one without reserves its gang and is HELD; a commit that may not happen yet changes nothing, and only a gang that is RESERVING
commits; the commit of a gang starts its members with dense ranks on the cores named, which lie in the field that its team table entry
names, or in another field of its table where all of those have the cores (R324), each in the state R132 gives it, on a core whose
pages are its context's (R345, R353), and counts the packet as started; a returned permit is spent no longer. The model's choices: a nonzero byte of the
body that R335 does not list is REFUSED (log 87); a gang that awaits cores is RESERVING from the next LAUNCH step on, and a commit
takes two permits of its field (log 94); launches are held in ERROR and after an alarm, and refused in a teardown (log 95); a WEAK
member starts later where the slice finds a core (log 93); INSTRET starts at 0 (log 126). -/
def Obligations.Launches : Prop :=
  ∀ (s : State) (q id f c : Nat) (p : TakenPacket) (gs : List Nat) (places : List (List (List Nat))),
    let k := s.queue q
    let h := fieldAt p.bytes 8 4
    let object := s.object? p.cid h
    let only : Prop := k.taken = [p] ∧ p.started = false ∧ p.completed = false ∧ p.failed = false ∧ p.counted = true ∧
      p.gang = none ∧ p.bytes.length = 128 ∧ fieldAt p.bytes 1 1 = 1 ∧ fieldAt p.bytes 2 1 % 2 = 0
    let held : Prop := (s.ctx p.cid).iface = .error ∨ s.workAccepted = false
    let refused (t : State) : Prop := PacketDone q p s t ∧ t.gangs = s.gangs ∧ t.threads = s.threads
    let illFormed : Prop := 2 < fieldAt p.bytes 12 1 ∨ 1 < fieldAt p.bytes 13 1 ∨
      (fieldAt p.bytes 13 1 = 1 ∧ fieldAt p.bytes 12 1 ≠ 2) ∨ fieldAt p.bytes 14 2 < 1 ∨ 1024 < fieldAt p.bytes 14 2 ∨
      64 < fieldAt p.bytes 38 1 ∨ fieldAt p.bytes 39 1 ≠ 0 ∨ fieldAt p.bytes 48 80 ≠ 0
    let table := s.headboxRead p.cid (BitVec.ofNat 64 (fieldAt p.bytes 24 8)) (16 * fieldAt p.bytes 14 2)
    let cores (field : Nat) := s.coresIn p.cid field
    (only → k.donea = 0 → fieldAt p.bytes 40 8 = 0 → (s.ctx p.cid).ending = true → Answers (.launch q) s refused) ∧
    (only → held → (s.ctx p.cid).ending = false → exec (.launch q) s = .next s) ∧
    (only → k.donea = 0 → fieldAt p.bytes 40 8 = 0 → ¬held →
      (object = none ∨ illFormed → Answers (.launch q) s refused) ∧
      (∀ o, object = some o → q ∉ o.refs → Answers (.launch q) s refused) ∧
      (∀ e, table = .error e → Answers (.launch q) s refused) ∧
      (∀ o b, object = some o → table = .ok b → fieldAt p.bytes 14 2 = 1 →
        let size := fieldAt b 2 2
        let accn := fieldAt b 6 1
        let plan : TeamPlan := ⟨fieldAt b 0 1 * 32 + fieldAt b 1 1, size, fieldAt b 4 2, accn⟩
        let entryBad : Prop := 32 ≤ fieldAt b 0 1 ∨ 32 ≤ fieldAt b 1 1 ∨ size < 1 ∨ 1024 < size ∨ size < o.teamLo ∨
          o.teamHi < size ∨ fieldAt b 7 9 ≠ 0 ∨ accn ∉ [0, 8, 16, 32, 64, 128] ∨ 128 < accn * min size 8
        let small : Prop := fieldAt p.bytes 12 1 ≠ 0 ∧ cores plan.field < size
        (entryBad ∨ small → Answers (.launch q) s refused) ∧
        (¬illFormed → q ∈ o.refs → (s.ctx p.cid).ending = false → ¬entryBad → ¬small → Answers (.launch q) s fun t =>
          t.gangs = s.gangs ++ [makeGang s.nextId k p [plan]] ∧ t.threads = s.threads ∧ t.mem = s.mem ∧
            t.queue q = { k with taken := [{ p with gang := some s.nextId }]
                                 state := if k.state = 1 ∨ k.state = 2 then 2 else k.state }))) ∧
    (∀ g, k.taken = [p] → p.started = false → p.completed = false → p.failed = false → fieldAt p.bytes 1 1 = 1 →
      fieldAt p.bytes 2 1 % 2 = 0 → p.gang = some g → ¬held → (s.ctx p.cid).ending = false → Answers (.launch q) s fun t =>
        t.gangs = s.gangs.map (fun y => if y.id = g then { y with state := .reserving } else y) ∧ t.queue q = k ∧
        t.threads = s.threads ∧ t.mem = s.mem) ∧
    (∀ g pl cs, g.plan = [pl] → s.mayCommit [g] [[cs]] = true → cs.length = pl.size ∧ (∀ d ∈ cs, d / 1024 = pl.field) ∧
      g.state = .reserving ∧ s.workAccepted = true ∧ (s.ctx g.cid).iface ≠ .error ∧
      (s.ctx g.cid).ending = false ∧ (pl.size ≠ 0 → lookupD s.permits pl.field 0 ≤ 6)) ∧
    (∀ g o pl cs, g.plan = [pl] → g.cls ≠ 0 → s.object? g.cid g.handle = some o → s.mayCommit [g] [[cs]] = true →
      ∀ d ∈ cs, ∀ n ∈ o.imagePages, ∃ l, s.sec.own (.page d n) = .assigned l ∧ o.cid ∈ l) ∧
    (s.mayCommit (gs.filterMap s.gang?) places = false → exec (.gangCommit gs places) s = .next s) ∧
    (∀ g o a b ca cb d e, s.gang? id = some g → g.plan = [a, b] → s.object? g.cid g.handle = some o →
      ca.head? = some d → cb.head? = some e → s.mayCommit [g] [[ca, cb]] = true →
      (∀ x ∈ ca, x / 1024 = d / 1024) ∧ (∀ x ∈ cb, x / 1024 = e / 1024) ∧
      (d / 1024 = a.field ∨ (s.reservable g = true ∧ d / 1024 = b.field)) ∧
      (e / 1024 = b.field ∨ (s.reservable g = true ∧ e / 1024 = a.field)) ∧
      Answers (.gangCommit [id] [[ca, cb]]) s fun t =>
        t.threads.length = s.threads.length + a.size + b.size ∧
        t.teams.map (·.field) = s.teams.map (·.field) ++ [d / 1024, e / 1024]) ∧
    (∀ g o pl cs, s.gang? id = some g → g.plan = [pl] → s.object? g.cid g.handle = some o → s.mayCommit [g] [[cs]] = true →
      Answers (.gangCommit [id] [[cs]]) s fun t =>
        (g.cls ≠ 0 → ∀ j d, cs[j]? = some d → StartsMember g o pl j d t) ∧
        t.threads.length = s.threads.length + pl.size ∧
        (∀ y ∈ t.gangs, y.id = id → y.state = .running ∧ y.channels.length = min g.nchan s.freeChannels.length) ∧
        (∀ y ∈ (t.queue g.queue).taken, y.gang = some id → y.started = true) ∧
        (∀ d, cs.head? = some d → lookupD t.permits (d / 1024) 0 = lookupD s.permits (d / 1024) 0 + 2)) ∧
    (∀ th g m o, s.thread? id = some th → th.unstarted = true → th.ended = false → th.ending = false →
      s.gangOf th = some g → s.team? th.team = some m → s.object? g.cid g.handle = some o →
      (c / 1024 ≠ m.field ∨ s.mayHost o m.id m.accn th.rank c = false ∨ (s.ctx th.cid).halted = true →
        exec (.sliceResume id c) s = .next s) ∧
      (c / 1024 = m.field → (s.ctx th.cid).halted = false → s.mayHost o m.id m.accn th.rank c = true → th.gang = g.id → th.cid = g.cid →
        Answers (.sliceResume id c) s (StartsMember g o ⟨m.field, m.size, m.stage, m.accn⟩ th.rank c))) ∧
    (let failed (u : Thread) : Prop := u.home / 1024 = f ∧ u.ended = false ∧ ∃ g ∈ s.gangs, g.id = u.gang ∧ g.state = .failed
     let waits : Prop := (∃ u ∈ s.threads, failed u ∧ u.ending = false) ∧ s.exchanging = false
     let left := lookupD s.permits f 0 - 1
     (¬waits → exec (.slicePermitReturn f) s = .next { s with permits := assign s.permits f left }) ∧
     (waits → left < 8 → Answers (.slicePermitReturn f) s fun t => lookupD t.permits f 0 = left + 1 ∧
       (∀ e, e ≠ f → lookupD t.permits e 0 = lookupD s.permits e 0) ∧ (∀ u ∈ t.threads, failed u → u.ending = true) ∧
       t.gangs = s.gangs ∧ t.mem = s.mem))

/-- R353, R354, R355, R357, R361, R362, R363: proposals with the three answers, and what an accepted one sets; a checked leaf
becomes usable to its context alone; the first key slot of a context; owners, whose claim is answered once every core has been
released; and teardown with its scrub, a unit at a time. The model's choices: BUSY and
REFUSED without an owner (log 100); leaves that wait for activation, and their zero fill (log 101); what a teardown frees (log
104); claims at boot and takeovers without an owner (log 106); what becomes of the bytes and leaves from before a first key slot, and that the monitor area is mapped to no context (log
133). -/
def Obligations.MappingsAndOwners : Prop :=
  ∀ (s : State) (m : Mapping) (pa cid h : Nat),
    let x := s.ctx (mappingCid m)
    let things := mappingThings m
    let refused : Host.Outcome State Fault Refusal := .next (s.answer .refused)
    let said (a : Answer) (t : State) : Prop := t.sec.answers = s.sec.answers ++ [a]
    let mine : Prop := s.sec.boot = false ∧ s.sec.owner = some h
    let current : Prop := ∀ k ∈ s.core :: s.others, k.deckle = s.sec.deckle.1
    let busy : Prop := (∃ y ∈ things, y ∈ s.sec.scrub) ∨ s.workAccepted = false
    let sound : Prop := mappingCid m < 4096 ∧ x.ending = false ∧ x.iface ≠ .error ∧
      (∀ y ∈ things, s.sec.mayOwn (mappingCid m) y = true) ∧
      (∀ g, Thing.granule g ∈ things → s.monitorBytes (65536 * g) 65536 = false) ∧ s.mappingOk m = true
    (∀ y, s.sec.own y = .dirty → s.sec.mayOwn cid y = false) ∧
    (∀ y l, s.sec.own y = .assigned l → (∀ c, y ≠ .core c) → (s.sec.mayOwn cid y = true ↔ l = [cid])) ∧
    (∀ y, s.sec.own y = .free → s.sec.mayOwn cid y = true) ∧
    (s.sec.boot = true ∨ (mine ∧ busy) → Answers (.mappingProposal ⟨h, m⟩) s fun t =>
      (∃ hint, said (.busy hint) t) ∧ t.sec.owned = s.sec.owned ∧ t.mem = s.mem) ∧
    (s.sec.boot = false → s.sec.owner ≠ some h → exec (.mappingProposal ⟨h, m⟩) s = refused) ∧
    (mine → ¬busy → ¬sound → exec (.mappingProposal ⟨h, m⟩) s = refused) ∧
    (mine → ¬busy → sound → s.memWf → Answers (.mappingProposal ⟨h, m⟩) s fun t =>
      said .ok t ∧ (∀ y ∈ things, ∃ l, t.sec.own y = .assigned l ∧ mappingCid m ∈ l) ∧
      match m with
      | .leaf cid pa e =>
        let maps : Prop := bitOf e 0 = true ∧ bitsOf e 15 14 ≠ 3
        let e' := if bitOf e 0 = true ∧ bitsOf e 15 14 ≠ 3 then e ||| (1#64 <<< 63) else e
        (∀ l ∈ t.sec.activated, l.1 ≠ pa) ∧ (maps → (pa, cid, e') ∈ t.sec.checked) ∧ ∀ a, t.mem.get a = if pa ≤ a ∧ a < pa + 8 then BitVec.ofNat 8 (e'.toNat / 256 ^ (a - pa)) else s.mem.get a
      | .protEntry _ c i v => (t.getCore c).pe.get i = v ∧ t.mem = s.mem
      | .lptTag _ c p tag => (t.getCore c).lpt.toList[p]? = some tag ∧ t.mem = s.mem
      | .queueBlock _ q priv => (t.queue q).priv = priv ∧ bitOf (t.queue q).ctl 3 = priv ∧ t.mem = s.mem
      | .keySlot cid n =>
        let mapped (g : Nat) : Prop := g ∈ s.sec.granulesOf cid ∧ ∃ l : Nat × Nat × Word, (l ∈ s.sec.activated ∨ l ∈ s.sec.checked) ∧
          l.2.1 = cid ∧ bitsOf l.2.2 51 16 ≤ g ∧ g < bitsOf l.2.2 51 16 + leafSize l.2.2 / 65536
        (t.ctx cid).keySlot = some n ∧ (t.ctx cid).protect = true ∧ n ∈ t.sec.keys ∧
        (x.keySlot ≠ none → t.mem = s.mem ∧ t.sec.activated = s.sec.activated) ∧
        (∀ a, ¬(inHbm a = true ∧ mapped (a / 65536)) → t.mem.get a = s.mem.get a) ∧
        (x.keySlot = none → ∀ l ∈ s.sec.activated, l.2.1 = cid → mapped (bitsOf l.2.2 51 16) →
          l ∈ t.sec.checked ∧ l ∉ t.sec.activated)
      | .root cid pa => (t.ctx cid).root = some pa ∧ t.mem = s.mem
      | .coreOwn _ _ => t.mem = s.mem) ∧
    ((∀ l ∈ s.sec.checked, l.1 ≠ pa) → exec (.leafActivate pa) s = .next s) ∧
    (∀ l, (s.sec.checked.find? fun l => l.1 == pa) = some l → (s.ctx l.2.1).iface = .error → exec (.leafActivate pa) s = .next s) ∧
    (∀ l, (s.sec.checked.find? fun l => l.1 == pa) = some l → (s.ctx l.2.1).iface ≠ .error → s.memWf →
      Answers (.leafActivate pa) s fun t =>
        let target := bitsOf l.2.2 51 16 * 65536
        (pa, l.2.1, l.2.2) ∈ t.sec.activated ∧ (∀ k ∈ t.sec.checked, k.1 ≠ pa) ∧
        ∀ a, t.mem.get a = if (s.ctx l.2.1).protect = true ∧ inHbm target = true ∧ target ≤ a ∧ a < target + leafSize l.2.2 then 0
          else s.mem.get a) ∧
    (s.sec.released ≠ 1048576 → exec (.ownerClaim h) s = .next s) ∧
    (s.sec.released = 1048576 → s.sec.boot = true → Answers (.ownerClaim h) s fun t => (∃ hint, said (.busy hint) t) ∧ t.sec.owner = s.sec.owner) ∧
    (s.sec.released = 1048576 → s.sec.boot = false → s.sec.owner ≠ none → exec (.ownerClaim h) s = refused) ∧
    (s.sec.released = 1048576 → s.sec.boot = false → s.sec.owner = none → Answers (.ownerClaim h) s fun t =>
      said .ok t ∧ t.sec.owner = some h ∧ t.sec.heartbeat = s.clock ∧ h ∉ t.sec.former) ∧
    (s.sec.owner ≠ some h → exec (.ownerHeartbeat h) s = refused ∧ exec (.ownerRelease h) s = refused) ∧
    (s.sec.owner = some h →
      exec (.ownerHeartbeat h) s = .next { s with sec := { s.sec with heartbeat := s.clock, answers := s.sec.answers ++ [.ok] } } ∧
      exec (.ownerRelease h) s = .next { s with sec := { s.sec with
        owner := none, former := s.sec.former ++ [h], answers := s.sec.answers ++ [.ok] } } ∧
      exec (.ownerTakeover h) s = refused) ∧
    (s.sec.owner = none → exec (.ownerTakeover h) s = refused) ∧
    (∀ o, s.sec.owner = some o → o ≠ h →
      (s.clock ≤ s.sec.heartbeat + 10000000000 → exec (.ownerTakeover h) s = refused) ∧
      (s.sec.heartbeat + 10000000000 < s.clock → Answers (.ownerTakeover h) s fun t =>
        said .ok t ∧ t.sec.owner = some h ∧ t.sec.heartbeat = s.clock ∧ o ∈ t.sec.former ∧
        ∀ y ∈ s.sec.contexts, y.protect = true → h ∉ y.policy.owners → (t.ctx y.cid).iface = .error)) ∧
    ((s.ctx cid).protect = false ∨ (s.ctx cid).ending = true → exec (.interfaceStop cid) s = .next s) ∧
    ((s.ctx cid).protect = true → (s.ctx cid).ending = false → Answers (.interfaceStop cid) s fun t =>
      (t.ctx cid).ending = true ∧ (t.ctx cid).halted = true ∧ (current → t.mem = s.mem) ∧ t.sec.owned = s.sec.owned) ∧
    (let y := s.ctx cid
     let runs : Prop := ∃ o ∈ s.ops, o.rights.cid = cid ∧ ∀ n, o.body ≠ .cal n
     (y.ending = false ∨ y.drained = true ∨ runs → exec (.teardownDrained cid) s = .next s) ∧
     (y.ending = true → y.drained = false → ¬runs → Answers (.teardownDrained cid) s fun t =>
       (∀ th ∈ t.threads, th.cid = cid → th.ended = true) ∧ (∀ l ∈ t.leaves, l.cid ≠ cid) ∧
       (∀ l ∈ t.sec.activated, l.2.1 ≠ cid) ∧ (∀ o ∈ t.objects, o.cid ≠ cid) ∧
       (t.ctx cid).keySlot = none ∧ (t.ctx cid).root = none ∧ (∀ n, y.keySlot = some n → n ∉ t.sec.keys) ∧
       (∀ thing l, t.sec.own thing = .assigned l → cid ∉ l) ∧
       (current → (∀ sl, (s.slots.get sl).granted ≠ some cid) → t.mem = s.mem))) ∧
    (s.sec.scrub = [] → s.sec.scrubActive = false → exec .scrubUnit s = .next s) ∧
    (s.sec.boot = true → s.sec.released ≠ 1048576 → exec .scrubUnit s = .next s) ∧
    (∀ c n rest, (s.sec.boot = true → s.sec.released = 1048576) → s.sec.scrub = .page c n :: rest → s.memWf → Answers .scrubUnit s fun t =>
      (∀ a, t.mem.get a = if localKey c (4096 * n) ≤ a ∧ a < localKey c (4096 * n) + 4096 then 0 else s.mem.get a) ∧
      t.sec.own (.page c n) = .free ∧ t.sec.scrub = rest ∧ t.sec.scrubDone = s.sec.scrubDone + 1 ∧
      t.sec.scrubActive = (if rest = [] then false else s.sec.scrubActive)) ∧
    (∀ g rest, (s.sec.boot = true → s.sec.released = 1048576) → s.sec.scrub = .granule g :: rest → s.memWf → Answers .scrubUnit s fun t =>
      let first := 65536 * g + 4096 * s.sec.scrubPart
      (∀ a, t.mem.get a = if first ≤ a ∧ a < first + 4096 then 0 else s.mem.get a) ∧
      t.sec.scrubDone = s.sec.scrubDone + 1 ∧
      (s.sec.scrubPart < 15 → t.sec.scrub = s.sec.scrub ∧ t.sec.scrubPart = s.sec.scrubPart + 1 ∧ t.sec.owned = s.sec.owned) ∧
      (s.sec.scrubPart = 15 → t.sec.scrub = rest ∧ t.sec.own (.granule g) = .free))

/-- R355 to R360, R365 to R368, R370, R371, R373: attestation and measurements, interfaces, live activation, alarms, links,
module numbers, collective groups, the power governor, and a module reset. The model's choices: an alarm before its level is
configured is only logged (log 103); what lets a link recover in time is a free value (log 107); how a LOST member attests anew (log
109), with the pairs of log 135; a sample over the limit lowers one class by a step, and one below it raises every class (log 110);
a Deckle image holds at most 4 KiB (log 105); what a reset keeps and what is measured anew (log 108). -/
def Obligations.InterfacesLinksAndResets : Prop :=
  ∀ (s : State) (cid n lk g m : Nat) (nonce : Word) (part : FwPart) (digest version : Nat) (policy : Policy) (kind : Tamper)
    (routes : List ModuleRoute) (members : List Nat) (slots : List Slot) (image : List Byte)
    (measured : List (FwPart × Nat)) (checker : Nat) (reset : Bool) (primary level : Nat) (sample : PowerSample),
    let said (a : Answer) (t : State) : Prop := t.sec.answers = s.sec.answers ++ [a]
    let refused : Host.Outcome State Fault Refusal := .next (s.answer .refused)
    let apart : Prop := (s.sec.contexts.map (·.cid)).Nodup
    (∀ p d v opened, s.sec.window = some (p, d, v, opened) →
      let busy := s.answer (.busy ((opened + 4000000 - s.clock + 1999) / 2000))
      exec (.attestRequest nonce) s = .next busy ∧ exec (.measurementRequest part) s = .next busy ∧
      ∀ signed, exec (.activateImage ⟨part, image⟩ digest version signed) s = refused) ∧
    (s.sec.window = none →
      (s.sec.seedErased = true ∨ 2 ^ 25 ≤ s.sec.sigIndex → exec (.attestRequest nonce) s = refused) ∧
      (s.sec.seedErased = false → s.sec.sigIndex < 2 ^ 25 → Answers (.attestRequest nonce) s fun t =>
        t.sec.sigIndex = s.sec.sigIndex + 1 ∧
        ∃ sig, said (.report s.sec.measured s.sec.fuses nonce (s.sec.contexts.map fun x => (x.cid, x.iface)) sig) t) ∧
      (∀ e, (s.sec.measured.find? fun e => e.1 == part) = some e →
        exec (.measurementRequest part) s = .next (s.answer (.measurement e.2))) ∧
      ((∀ e ∈ s.sec.measured, e.1 ≠ part) → Answers (.measurementRequest part) s fun t =>
        ∃ d, said (.measurement d) t ∧ t.sec.measured = s.sec.measured ++ [(part, d)]) ∧
      (exec (.activateImage ⟨part, image⟩ digest version false) s = refused) ∧
      (version < s.sec.fuses ∨ 64 < version ∨ (part = .deckle ∧ 4096 < image.length) →
        exec (.activateImage ⟨part, image⟩ digest version true) s = refused) ∧
      (s.sec.fuses ≤ version → version ≤ 64 → (part = .deckle → image.length ≤ 4096) →
        exec (.activateImage ⟨part, image⟩ digest version true) s = .next { s with sec := { s.sec with
          window := some (part, digest, version, s.clock)
          deckle := if part = .deckle then (s.sec.deckle.1 + 1, image) else s.sec.deckle
          answers := s.sec.answers ++ [.ok] } }) ∧
      exec .activationCommit s = .next s) ∧
    (∀ opened, s.sec.window = some (part, digest, version, opened) → Answers .activationCommit s fun t =>
      t.sec.window = none ∧ t.sec.fuses = max s.sec.fuses version ∧
      t.sec.measured = s.sec.measured.filter (fun e => e.1 != part) ++ [(part, digest)] ∧
      (part, version) ∈ t.sec.versions ∧
      (apart → ∀ x ∈ s.sec.contexts, (t.ctx x.cid).iface =
        if (x.iface = .locked ∨ x.iface = .run) ∧ (part, digest) ∉ x.policy.accept then .error else x.iface)) ∧
    (∀ p d v o, s.tick.sec.window = some (p, d, v, o) → s.tick.clock < o + 4000000) ∧
    (let x := s.ctx cid
     let locks : Prop := x.protect = true ∧ x.iface = .unlocked ∧ x.ending = false
     (locks → exec (.interfaceLock cid policy) s = .next (s.modCtx cid fun x => { x with iface := .locked, policy := policy })) ∧
     (¬locks → exec (.interfaceLock cid policy) s = .next s) ∧
     (x.iface = .locked → exec (.interfaceStart cid) s = .next (s.modCtx cid fun x => { x with iface := .run })) ∧
     (x.iface ≠ .locked → exec (.interfaceStart cid) s = .next s)) ∧
    (s.sec.alarm = none → 1 ≤ level → level ≤ 3 → exec (.alarmLevelConfig level) s =
      .next { s with sec := { s.sec with alarm := some level } }) ∧
    (s.sec.alarm ≠ none → exec (.alarmLevelConfig level) s = .next s) ∧
    (s.sec.alarm = none → exec (.tamperEvent kind) s = .next (s.logEvent 0 3 (BitVec.ofNat 64 (tamperCode kind)))) ∧
    (∀ l, s.sec.alarm = some l → 1 ≤ l → l ≤ 3 → Answers (.tamperEvent kind) s fun t =>
      t.sec.alarmed = true ∧ t.sec.events.length = s.sec.events.length + 1 ∧
      (∀ x ∈ s.sec.contexts, (t.ctx x.cid).halted = true) ∧
      (∀ k ∈ s.core :: s.others, k.mode = .program → (t.ctx k.cid).halted = true) ∧
      (l = 1 → t.sec.keys = s.sec.keys ∧ t.sec.links = s.sec.links) ∧
      (2 ≤ l → t.sec.keys = [] ∧ (∀ k, (t.sec.link k).keyed = false) ∧ (∀ x ∈ t.sec.contexts, x.keySlot = none) ∧
        (apart → ∀ x ∈ s.sec.contexts, x.protect = true →
          (t.ctx x.cid).iface = .error ∧ (t.ctx x.cid).ending = true ∧ (t.ctx x.cid).keySlot = none)) ∧
      t.sec.seedErased = (s.sec.seedErased || decide (l = 3))) ∧
    (Answers (.linkRekey lk) s fun t => (t.sec.link lk).keyed = true ∧ (t.sec.link lk).sent = 0 ∧ (t.sec.link lk).got = 0 ∧
      (∀ k, k ≠ lk → t.sec.link k = s.sec.link k) ∧ t.mem = s.mem) ∧
    (let recent := (s.sec.link lk).fails.filter fun t => decide (s.clock ≤ t + 2000000000)
     (recent.length < 7 → Answers (.sealTagFail lk) s fun t =>
       (t.sec.link lk).sent < 2 ^ 64 ∧ (t.sec.link lk).got < 2 ^ 64 ∧ (t.sec.link lk).fails = recent ++ [s.clock] ∧
       (t.sec.link lk).keyed = (s.sec.link lk).keyed ∧ t.sec.alarmed = s.sec.alarmed ∧ t.mem = s.mem) ∧
     (∀ l, 7 ≤ recent.length → s.sec.alarm = some l → 1 ≤ l → Answers (.sealTagFail lk) s fun t => t.sec.alarmed = true)) ∧
    (lk < 52 → Answers (.ucieLinkError lk) s fun t => t.core = s.core ∧ t.others = s.others ∧ t.mem = s.mem ∧
      (t.sec.link lk).sent < 2 ^ 64 ∧ (t.sec.link lk).got < 2 ^ 64 ∧
      (t.recovering = s.recovering.filter (fun e => e.1 != lk) ∨
        t.recovering = if s.recovering.any (fun e => e.1 == lk) then s.recovering else assign s.recovering lk s.clock)) ∧
    (lk < 8 → Answers (.causewayCrcFail lk) s fun t => t.core = s.core ∧ t.others = s.others ∧ t.mem = s.mem ∧
      (t.sec.link (52 + lk)).sent < 2 ^ 64 ∧ (t.sec.link (52 + lk)).got < 2 ^ 64 ∧ t.recovering = s.recovering) ∧
    (∀ since, lk < 52 → (s.recovering.find? fun e => e.1 == lk) = some (lk, since) →
      (s.clock < since + 20000 → exec (.linkRecoveryTimeout lk) s = .next s) ∧
      (since + 20000 ≤ s.clock → exec (.linkRecoveryTimeout lk) s = exec .moduleReset s)) ∧
    ((∀ e ∈ s.recovering, e.1 ≠ lk) → exec (.linkRecoveryTimeout lk) s = .next s) ∧
    (let fine : Prop := n < 256 ∧ (routes.map (·.dest)).Nodup ∧ ∀ r ∈ routes, r.dest < 256 ∧ r.port < 8 ∧ r.via.length ≤ 3 ∧
       ∀ x ∈ r.via, x < 256 ∧ x ≠ r.dest
     (fine → exec (.moduleNumberAssign n routes) s = .next { s with moduleNumber := n, routes := routes }) ∧
     (¬fine → exec (.moduleNumberAssign n routes) s = .next s)) ∧
    (let forms : Prop := g < 256 ∧ 2 ≤ members.length ∧ members.length ≤ 64 ∧ members.Nodup ∧ primary ∈ members ∧
       (∀ x ∈ members, x < 256) ∧ ∀ x ∈ s.groups, x.g ≠ g
     (forms → exec (.groupForm g members primary ⟨policy, slots⟩) s = .next { s with
       groups := s.groups ++ [⟨g, members.map fun x => (x, .attesting), primary, policy, slots, [], []⟩] }) ∧
     (¬forms → exec (.groupForm g members primary ⟨policy, slots⟩) s = .next s)) ∧
    (∀ x, s.groups = [x] → x.g = g → (x.members.map (·.1)).Nodup →
      let fits : Prop := (∀ p, ∃ e ∈ measured, e.1 = p) ∧ ∀ e ∈ measured, e ∈ x.policy.accept
      let lost : Prop := (m, .lost) ∈ x.members
      let admits : Prop := fits ∧ checker ≠ m ∧ (∃ e ∈ x.members, e.1 = checker) ∧ (∃ e ∈ x.members, e.1 = m) ∧
        (lost → reset = true)
      let pair (a b : Nat) : Prop := (a = checker ∧ b = m) ∨ ((a, b) ∈ x.pairs ∧ ¬(lost ∧ (a = m ∨ b = m)))
      let gone (e : Nat × MemberState) : Prop := e.2 = .lost ∧ e.1 ≠ m
      let tells (e : Nat × MemberState) : Prop := (e.2 = .attesting ∨ (lost ∧ e.1 = m)) ∧
        ∀ d ∈ x.members, d.1 = e.1 ∨ gone d ∨ (pair d.1 e.1 ∧ pair e.1 d.1)
      Answers (.memberVerified g ⟨m, measured, checker, reset⟩) s fun t =>
        (¬admits → t.groups = [x]) ∧
        (admits → ∃ (y : Group) (f : Nat × MemberState → MemberState), t.groups = [y] ∧ y.g = g ∧ y.policy = x.policy ∧ y.slots = x.slots ∧
          y.members = x.members.map (fun e => (e.1, f e)) ∧ (∀ a b, (a, b) ∈ y.pairs ↔ pair a b) ∧
          ∀ e ∈ x.members, (tells e → f e = .active ∧ e.1 ∈ y.keyed) ∧
            (¬tells e → f e = if lost ∧ e.1 = m then .attesting else e.2)) ∧
        ∀ sl, (t.slots.get sl).joined = (s.slots.get sl).joined ∨
          ((s.slots.get sl).granted.isSome = true ∧ (s.slots.get sl).joined = none ∧ ((t.slots.get sl).joined = some g →
            ∀ y ∈ t.groups, sl ∈ y.slots ∧ ∀ e ∈ y.members, e.2 = .active))) ∧
    (∀ x, s.groups = [x] → x.g = g → (∃ e ∈ x.members, e.1 = m ∧ e.2 ≠ .lost) → Answers (.memberLost g m) s fun t =>
      t.ops.length = s.ops.length ∧
      (∀ (o : Op) rd n sg at_ ks sc, o ∈ s.ops → o.body = .strong rd n sg at_ ks sc →
        (∃ k ∈ ks, 0xC000000000000 ≤ k ∧ k < 2 ^ 52 ∧ k / 2 ^ 42 % 256 = m) →
        { o with phase := .moved .peerlost 0 (BitVec.ofNat 64 g) } ∈ t.ops) ∧
      (∀ y ∈ t.groups, (∀ e ∈ y.members, e.1 = m → e.2 = .lost) ∧ m ∉ y.keyed ∧ ∀ e ∈ y.pairs, e.1 ≠ m ∧ e.2 ≠ m) ∧
      ∀ sl, ((s.slots.get sl).joined = some g → (∀ r ∈ t.records, r.slot ≠ sl) ∧ (t.slots.get sl).phase = 0 ∧
          (t.slots.get sl).queued = 0 ∧ (t.slots.get sl).running = 0 ∧ (t.slots.get sl).spill = [] ∧ (t.slots.get sl).lost = true) ∧
        ((s.slots.get sl).joined ≠ some g → t.slots.get sl = s.slots.get sl ∧ ∀ r ∈ s.records, r.slot = sl → r ∈ t.records)) ∧
    (sample.hot = [] →
      (∀ c rest, sample.overLimit = true → sample.order = c :: rest → c ∉ sample.latency → (s.throttle.get c).val < 15 →
        exec (.governorSample sample) s =
          .next { s with throttle := s.throttle.set c (s.throttle.get c + 1), belowSince := none }) ∧
      (sample.overLimit = true → (∀ c ∈ sample.order, (s.throttle.get c).val = 15) →
        exec (.governorSample sample) s = .next { s with belowSince := none }) ∧
      (sample.overLimit = false → s.belowSince = none → exec (.governorSample sample) s = .next { s with belowSince := some s.clock }) ∧
      (∀ since, sample.overLimit = false → s.belowSince = some since →
        (s.clock < since + 200000 → exec (.governorSample sample) s = .next s) ∧
        (since + 200000 ≤ s.clock → Answers (.governorSample sample) s fun t =>
          ∀ c, (t.throttle.get c).val = (s.throttle.get c).val - 1))) ∧
    (∀ c rest, sample.hot = c :: rest → sample.overLimit = false → s.belowSince = none → c ∉ sample.latency →
      (s.throttle.get c).val < 15 → exec (.governorSample sample) s =
        .next { s with throttle := s.throttle.set c (s.throttle.get c + 1), belowSince := some s.clock }) ∧
    (Answers .moduleReset s fun t => t.core = Core.reset 0 ∧ t.others = [] ∧ t.acc = [] ∧ t.accTags = [] ∧ t.ops = [] ∧
      t.threads = [] ∧ t.queues = [] ∧ t.sec.keys = [] ∧ t.sec.links = [] ∧ t.sec.contexts = [] ∧ t.sec.fuses = s.sec.fuses ∧
      t.sec.sigIndex = s.sec.sigIndex ∧ t.sec.owner = none ∧ t.sec.released = 0 ∧ (∀ y l, t.sec.own y ≠ .assigned l) ∧
      (∀ sl b n, (s.slots.get sl).area = some b → b ≤ 65536 * n → 65536 * n < b + 2097152 → t.sec.own (.granule n) = .dirty) ∧
      (s.memWf → ∀ a, inHbm a = false → a < 2 ^ 52 → t.mem.get a = s.mem.get a) ∧
      (∀ r ∈ t.sec.versions, s.sec.fuses ≤ r.2) ∧
      t.sec.measured.map (·.1) = s.sec.measured.map (·.1) ∧
      ∀ e ∈ s.sec.measured, (∀ r ∈ s.sec.versions, r.1 = e.1 → s.sec.fuses ≤ r.2) → e ∈ t.sec.measured)

/-- R26 to R42: decoding an instruction's own word gives the instruction back with every field, for every instruction that
has an encoding and no reserved value in a field; its length is told by bit 0; and nothing with a reserved value decodes. -/
def Obligations.EncodeDecode : Prop :=
  (∀ i : Instr, i.isEvent = false → i.wellFormed = true →
    decodeWord (encode i) = .ok i ∧ decodeBytes (leBytes i.length (encode i)) = .ok (i, i.length) ∧
    ((i.length = 4 ∧ encode i < 2 ^ 32 ∧ encode i % 2 = 1) ∨ (i.length = 2 ∧ encode i < 2 ^ 16 ∧ encode i % 2 = 0))) ∧
  (∀ i j : Instr, i.isEvent = false → j.isEvent = false → i.wellFormed = true → j.wellFormed = true → encode i = encode j → i = j) ∧
  (∀ (w : Nat) (i : Instr), decodeWord w = .ok i → i.wellFormed = true)

/-- Words the spec writes out with what they stand for, of every family, decode so; the reserved ones do not decode. -/
def Obligations.SpecWords : Prop :=
  let always : Guard := ⟨false, 0⟩
  (∀ e ∈ [(0xF52C, Instr.hAddi 9 (BitVec.ofInt 5 (-3))), (0x000E6283, .add 5 6 7), (0x0608209D, .sd always 4 2 1),
      (0xAFFFFE13, .br ⟨true, 2⟩ 0x1FFFFC), (0x00CC72A3, .amoaddD 0 .acqDev 5 6 7), (0x01CC72A3, .amoaddD 0 .arSys 5 6 7),
      (0x008A418B, .cmpLt 3 4 5), (0x300E6291, .sel ⟨false, 3⟩ 5 6 7), (0x00020095, .jal 1 0x20), (0x010C2219, .ld 4 2 16),
      (0x100003A7, .csrr 7 0x100), (0x00420329, .loopi 4 6), (0x0006002B, .idle), (0x000C002B, .mret), (0x000A002B, .tret),
      (0x0000002D, .gate), (0x0102502D, .callg 5 16), (0x0004002D, .retg), (0x000E62AF, .lendR 5 6 7), (0x0200502F, .recl 5),
      (0x010C5031, .waita 5 6), (0x01803031, .cwait 3 0), (0x000044B3, .fork 9 4), (0x0040D033, .join 13),
      (0x200411C1, .vadd 1 3 1 2), (0x00CC5241, .vfma 0 4 5 6), (0x009062CB, .setvl .fp32 5 6), (0x00841143, .vcmpLt 0 2 1 2),
      (0x02408147, .vld .fp32 0 2 8), (0x050024C5, .kpop 9 2), (0x00005051, .tcfg 0 5), (0x000063D3, .tld 0 0 6 7),
      (0x48144055, .mma 9 1 2 4), (0x0180B057, .aczero 0 11), (0x60169559, .cpy 12 10 9 11), (0x004043DB, .bteQ 7 4),
      (0x000C515D, .tspawn 2 5 6), (0x0042255D, .tnext 1 10 2), (0x011023DD, .wmkRd 7 8 2), (0xA00084DF, .calRun 20 9 8)],
    decodeWord e.1 = .ok e.2 ∧ encode e.2 = e.1) ∧
  (∀ w ∈ [0, 0xFFFFFFFF, 0x80000013, 0x00000DCB], ∃ e, decodeWord w = .error e)

/-- One step: the next turn of the agenda, or, with none, the core in focus. The core runs what its bytes decode to, after
the clock has moved on by a free value, through fetching, R43's checks and the pending registers of R139; a reserved encoding, a
failed fetch and a failed check trap. In monitor mode, where the fetch is from the own local store, the bytes at the pc decide. A
monitor entry installs a live Deckle image (R358). The model's choices: the place of the image, and that each core installs it at
its next entry by any event (log 105); the agenda, which says whose turn a step is (log 2); and the fault of a stopped core (log
38). -/
def Obligations.StepRunsDecoded : Prop :=
  ∀ (s : State),
    let r := s.tick
    (∀ (u : State) (n : Nat) (cause : Cause) (v w : Word), n < 5 →
      let t := u.enterMonitor n cause v w
      t.core.mode = .monitor ∧ t.core.pc.toNat = 0x2F000 + 0x80 * n ∧ t.core.deckle = u.sec.deckle.1 ∧
      t.mem = if u.core.deckle = u.sec.deckle.1 then u.mem
        else u.mem.write (localKey u.core.num 0x2F000) u.sec.deckle.2) ∧
    (s.agenda = [] → s.core.stopped = true → step s = .fault .coreStopped) ∧
    (∀ e rest, s.agenda = .event e :: rest → e.isEvent = true → (∀ w, e ≠ .reservedEncoding w) →
      (∀ c v, e ≠ .instructionFetchFault c v) → step s = exec e ({ s with agenda := rest }.tick)) ∧
    (∀ c rest, s.agenda = .core c :: rest → step s = (({ s with agenda := rest }.tick).focus c).runCore) ∧
    (s.agenda = [] → s.core.stopped = false →
      step s = r.runCore ∧
      (r.issues = false → step s = .next r) ∧
      (r.issues = true →
        (∀ f v, r.fetch = .error (f, v) → step s = exec (.instructionFetchFault f v) r) ∧
        (∀ u w, r.fetch = .ok (u, w) →
          (∀ e, decodeWord w = .error e → step s = exec (.reservedEncoding (BitVec.ofNat 32 w)) u) ∧
          (∀ i, decodeWord w = .ok i →
            (∀ f v, u.core.precheck i w = some (f, v) → step s = u.fault f v) ∧
            (u.core.precheck i w = none → u.core.namesPending i = true → step s = .next (u.stallOn .register)) ∧
            (u.core.precheck i w = none → u.core.namesPending i = false → step s = exec i (u.useRegs i)))) ∧
        (let c := r.core
         ∀ i n, c.mode = .monitor → c.tid = none → c.pc.toNat + 4 ≤ 0x30000 → c.pfb = [] →
          c.icache = [] → r.poison = [] → r.singles = [] → c.views.late = [] → c.views.fresh = [] → c.csr.lpc0 = 0 → c.csr.lpc1 = 0 →
          decodeBytes (r.mem.read (localKey c.num c.pc.toNat) 4) = .ok (i, n) →
          (∀ x ∈ i.xregs, c.pendX.getLsbD x.val = false) → (∀ x ∈ i.vregs, c.pendV.getLsbD x.val = false) →
          (∀ b, i.profile = some b → c.declared.getLsbD b = true) → step s = exec i r)))

/-- What every step keeps: memory, the accumulators and their tags stay in their one canonical form, keys rising and no
entry of the value an unlisted key reads as; and no write of the history is later than the module's clock and stamp. -/
def Obligations.StoresStayCanonical : Prop :=
  ∀ (s t : State), step s = .next t → (s.storesWf → t.storesWf) ∧ (s.histOk → t.histOk)

/-- R11, R12, R25, R306, R347: the values the spec gives after reset, read as an instruction reads them, and the canonical
form of the empty memories. -/
def Obligations.ResetState : Prop :=
  let s := State.reset
  let c := s.core
  (∀ r, s.rx r = 0) ∧ (∀ r, s.rp r = decide (r = 0)) ∧ (∀ r, s.rv r = ⟨0, .none⟩) ∧
  (∀ r, s.rk r = if r = 0 then BitVec.allOnes 32 else 0) ∧ c.pc = 0x2F000 ∧ c.mode = .monitor ∧ c.domain = 255 ∧
  c.gdepth = 0 ∧ c.csr.redtmo = 100 ∧
  (c.csr.lpc0 = 0 ∧ c.csr.lps0 = 0 ∧ c.csr.lpe0 = 0 ∧ c.csr.lpc1 = 0 ∧ c.csr.lps1 = 0 ∧ c.csr.lpe1 = 0) ∧
  (c.csr.fcsr = 0 ∧ c.csr.vl = 0 ∧ c.csr.ccsel = 0 ∧ c.csr.tkmode = 0 ∧ c.csr.tbnd = 0 ∧ c.csr.redmask = 0) ∧
  (c.csr.instret = 0 ∧ c.csr.rank = 0 ∧ c.csr.teamsz = 0 ∧ c.csr.stage = 0 ∧ c.csr.gangid = 0) ∧
  (c.csr.accbase = 0 ∧ c.csr.acclim = 0 ∧ c.csr.tvec = 0 ∧ c.csr.tcause = 0 ∧ c.csr.tpc = 0 ∧ c.csr.tval = 0 ∧
    c.csr.tring = 0 ∧ c.csr.tflags = 0 ∧ c.csr.dkentry = 0 ∧ c.csr.dkresume = 0 ∧ c.csr.dkdata = 0 ∧ c.csr.dkctx = 0) ∧
  (∀ i, c.csr.tc.get i = 0) ∧ (∀ i, c.csr.tkillv.get i = 0) ∧ (∀ i, c.csr.cnt.get i = 0) ∧ (∀ i, c.csr.dkwork.get i = 0) ∧
  (∀ a, c.tiles.get a = 0) ∧ (∀ i, (c.loans.get i).state = .free) ∧ (∀ i, c.pe.get i = 0) ∧
  (∀ q, s.queue q = Queue.reset q) ∧ s.sec.scrubprog = 0 ∧ s.govstat = 0 ∧ s.storesWf ∧ s.histOk
end

