-- ==== Sys2Proof/Laws/Memory.lean ====
section
/-! SUPPORT. The sparse memory: a read after a write, and that every operation keeps the canonical form. -/
namespace Sys2Proof.Machine
open Sys2Proof

/-- Every key of m lies above a. -/
def Memory.above (a : Nat) (m : Memory) : Prop := ∀ e ∈ m, a < e.1

theorem Memory.wf_cons (a : Nat) (b : Byte) (m : Memory) :
    Memory.wf ((a, b) :: m) = true ↔ b ≠ 0 ∧ Memory.above a m ∧ Memory.wf m = true := by
  induction m generalizing a b with
  | nil => simp [Memory.wf, Memory.above]
  | cons e t ih =>
    obtain ⟨k, c⟩ := e
    constructor
    · intro h
      simp only [Memory.wf, Bool.and_eq_true, bne_iff_ne, decide_eq_true_eq] at h
      obtain ⟨⟨h0, h1⟩, h2⟩ := h
      refine ⟨h0, ?_, h2⟩
      have h3 := ((ih k c).1 h2).2.1
      intro e he
      rcases List.mem_cons.1 he with rfl | he
      · exact h1
      · exact Nat.lt_trans h1 (h3 e he)
    · rintro ⟨h0, h1, h2⟩
      simp only [Memory.wf, Bool.and_eq_true, bne_iff_ne, decide_eq_true_eq]
      exact ⟨⟨h0, h1 (k, c) (by simp)⟩, h2⟩

theorem Memory.get_of_above (m : Memory) (a : Nat) (h : Memory.above a m) : m.get a = 0 := by
  induction m with
  | nil => rfl
  | cons e t ih =>
    obtain ⟨k, c⟩ := e
    have h1 : a < k := h (k, c) (by simp)
    have h2 : Memory.above a t := fun e he => h e (by simp [he])
    simp [Memory.get, Nat.ne_of_gt h1, ih h2]

theorem Memory.above_set (m : Memory) (z a : Nat) (b : Byte) (hz : z < a) (h : Memory.above z m) :
    Memory.above z (m.set a b) := by
  induction m with
  | nil =>
    simp only [Memory.set]
    split <;> simp [Memory.above, hz]
  | cons e t ih =>
    obtain ⟨k, c⟩ := e
    have h1 : z < k := h (k, c) (by simp)
    have h2 : Memory.above z t := fun e he => h e (by simp [he])
    simp only [Memory.set]
    split
    · split
      · exact h
      · intro e he
        rcases List.mem_cons.1 he with rfl | he
        · exact hz
        · exact h e he
    · split
      · split
        · exact h2
        · intro e he
          rcases List.mem_cons.1 he with rfl | he
          · exact hz
          · exact h2 e he
      · intro e he
        rcases List.mem_cons.1 he with rfl | he
        · exact h1
        · exact ih h2 e he

/-- A write of one byte keeps the canonical form. -/
theorem Memory.wf_set (m : Memory) (a : Nat) (b : Byte) (h : m.wf = true) : (m.set a b).wf = true := by
  induction m with
  | nil =>
    simp only [Memory.set]
    split
    · rfl
    · simpa [Memory.wf] using ‹_›
  | cons e t ih =>
    obtain ⟨k, c⟩ := e
    obtain ⟨hc, ha, ht⟩ := (Memory.wf_cons k c t).1 h
    simp only [Memory.set]
    split
    · rename_i hlt
      split
      · exact h
      · rename_i hb
        refine (Memory.wf_cons _ _ _).2 ⟨hb, ?_, h⟩
        intro e he
        rcases List.mem_cons.1 he with rfl | he
        · exact hlt
        · exact Nat.lt_trans hlt (ha e he)
    · split
      · rename_i heq
        split
        · exact ht
        · rename_i hb
          exact (Memory.wf_cons _ _ _).2 ⟨hb, heq ▸ ha, ht⟩
      · rename_i h1 h2
        have hz : k < a := by omega
        exact (Memory.wf_cons _ _ _).2 ⟨hc, Memory.above_set t k a b hz ha, ih ht⟩

/-- A byte read after a byte written, on a canonical memory. -/
theorem Memory.get_set (m : Memory) (a q : Nat) (b : Byte) (h : m.wf = true) :
    (m.set a b).get q = if q = a then b else m.get q := by
  induction m with
  | nil =>
    simp only [Memory.set]
    split
    · rename_i hb
      simp [Memory.get, hb]
    · by_cases hq : q = a
      · simp [Memory.get, hq]
      · simp [Memory.get, hq, Ne.symm hq]
  | cons e t ih =>
    obtain ⟨k, c⟩ := e
    obtain ⟨-, ha, ht⟩ := (Memory.wf_cons k c t).1 h
    simp only [Memory.set]
    split
    · rename_i hlt
      have hab : Memory.above a ((k, c) :: t) := by
        intro e he
        rcases List.mem_cons.1 he with rfl | he
        · exact hlt
        · exact Nat.lt_trans hlt (ha e he)
      split
      · rename_i hb
        by_cases hq : q = a
        · subst hq; simp [hb, Memory.get_of_above _ _ hab]
        · simp [hq]
      · by_cases hq : q = a
        · simp [Memory.get, hq]
        · simp [Memory.get, hq, Ne.symm hq]
    · split
      · rename_i heq
        subst heq
        split
        · rename_i hb
          by_cases hq : q = a
          · subst hq; simp [hb, Memory.get_of_above _ _ ha]
          · simp [Memory.get, hq, Ne.symm hq]
        · by_cases hq : q = a
          · simp [Memory.get, hq]
          · simp [Memory.get, hq, Ne.symm hq]
      · rename_i h1 h2
        by_cases hk : k = q
        · subst hk
          simp [Memory.get, Ne.symm h2]
        · simp [Memory.get, hk, ih ht]

/-- A write of bytes keeps the canonical form. -/
theorem Memory.wf_write (m : Memory) (a : Nat) (l : List Byte) (h : m.wf = true) : (m.write a l).wf = true := by
  induction l generalizing m a with
  | nil => exact h
  | cons b t ih => exact ih _ _ (Memory.wf_set m a b h)

/-- A byte read after bytes written. -/
theorem Memory.get_write (m : Memory) (a q : Nat) (l : List Byte) (h : m.wf = true) :
    (m.write a l).get q = if a ≤ q ∧ q < a + l.length then l.getD (q - a) 0 else m.get q := by
  induction l generalizing m a with
  | nil =>
    have : ¬ (a ≤ q ∧ q < a) := by omega
    simp [Memory.write, this]
  | cons b t ih =>
    rw [Memory.write, ih _ _ (Memory.wf_set m a b h), Memory.get_set m a q b h]
    by_cases h1 : q = a
    · subst h1
      have h2 : ¬ (q + 1 ≤ q ∧ q < q + 1 + t.length) := by omega
      simp [h2]
    · by_cases h2 : a + 1 ≤ q ∧ q < a + 1 + t.length
      · have h3 : a ≤ q ∧ q < a + (b :: t).length := by simp only [List.length_cons]; omega
        have h4 : q - a = (q - (a + 1)) + 1 := by omega
        rw [if_pos h2, if_pos h3, h4]
        simp
      · have h3 : ¬ (a ≤ q ∧ q < a + (b :: t).length) := by simp only [List.length_cons]; omega
        rw [if_neg h2, if_neg h3, if_neg h1]

/-- Dropping entries keeps the canonical form. -/
theorem Memory.wf_filter (m : Memory) (p : Host.Cell → Bool) (h : m.wf = true) : Memory.wf (m.filter p) = true := by
  induction m with
  | nil => rfl
  | cons e t ih =>
    obtain ⟨k, c⟩ := e
    obtain ⟨hc, ha, ht⟩ := (Memory.wf_cons k c t).1 h
    simp only [List.filter_cons]
    split
    · exact (Memory.wf_cons _ _ _).2 ⟨hc, fun e he => ha e (List.mem_filter.1 he).1, ih ht⟩
    · exact ih ht

/-- Writing bytes one by one keeps the canonical form. -/
theorem Memory.wf_foldl_set (l : List (Nat × Byte)) (m : Memory) (h : m.wf = true) :
    Memory.wf (l.foldl (fun m e => m.set e.1 e.2) m) = true := by
  induction l generalizing m with
  | nil => exact h
  | cons e t ih => exact ih _ (Memory.wf_set m e.1 e.2 h)

/-- Writing runs of bytes one after another keeps the canonical form. -/
theorem Memory.wf_foldl_write {α : Type} (l : List α) (k : α → Nat) (d : α → List Byte) (m : Memory) (h : m.wf = true) :
    Memory.wf (l.foldl (fun m e => m.write (k e) (d e)) m) = true := by
  induction l generalizing m with
  | nil => exact h
  | cons e t ih => exact ih _ (Memory.wf_write m _ _ h)

@[simp] theorem Memory.length_read (m : Memory) (a n : Nat) : (m.read a n).length = n := by
  induction n generalizing a with
  | zero => rfl
  | succ n ih => simp [Memory.read, ih]

theorem length_bytesOfNat (n v : Nat) : (bytesOfNat n v).length = n := by
  induction n generalizing v with
  | zero => rfl
  | succ n ih => simp [bytesOfNat, ih]

/-- A value of n bytes is what its bytes say (R3). -/
theorem natOfBytes_bytesOfNat (n v : Nat) : natOfBytes (bytesOfNat n v) = v % 256 ^ n := by
  induction n generalizing v with
  | zero => simp [bytesOfNat, natOfBytes, Nat.mod_one]
  | succ n ih =>
    have h := @Nat.mod_mul 256 (256 ^ n) v
    have h2 : 256 ^ (n + 1) = 256 * 256 ^ n := by omega
    have h3 : (BitVec.ofNat 8 v).toNat = v % 256 := BitVec.toNat_ofNat v 8
    rw [bytesOfNat, natOfBytes, ih, h3, h2, h]

end Sys2Proof.Machine
end

