-- ==== Sys2Proof/Laws/State.lean ====
section
/-! SUPPORT. What each register and memory update leaves and changes: one lemma per field per update, and what a read
gives after a write. -/
namespace Sys2Proof.Machine
open Sys2Proof

/-! ### Writes of one register of a core -/

@[simp] theorem Core.wx_num (c : Core) (r : XReg) (v : Word) : (c.wx r v).num = c.num := by unfold Core.wx; split <;> rfl
@[simp] theorem Core.wx_pc (c : Core) (r : XReg) (v : Word) : (c.wx r v).pc = c.pc := by unfold Core.wx; split <;> rfl
@[simp] theorem Core.wx_p (c : Core) (r : XReg) (v : Word) : (c.wx r v).p = c.p := by unfold Core.wx; split <;> rfl
@[simp] theorem Core.wx_v (c : Core) (r : XReg) (v : Word) : (c.wx r v).v = c.v := by unfold Core.wx; split <;> rfl
@[simp] theorem Core.wx_k (c : Core) (r : XReg) (v : Word) : (c.wx r v).k = c.k := by unfold Core.wx; split <;> rfl
@[simp] theorem Core.wx_mode (c : Core) (r : XReg) (v : Word) : (c.wx r v).mode = c.mode := by unfold Core.wx; split <;> rfl
@[simp] theorem Core.wx_csr (c : Core) (r : XReg) (v : Word) : (c.wx r v).csr = c.csr := by unfold Core.wx; split <;> rfl
@[simp] theorem Core.wx_domain (c : Core) (r : XReg) (v : Word) : (c.wx r v).domain = c.domain := by unfold Core.wx; split <;> rfl
@[simp] theorem Core.wx_cid (c : Core) (r : XReg) (v : Word) : (c.wx r v).cid = c.cid := by unfold Core.wx; split <;> rfl
@[simp] theorem Core.wx_declared (c : Core) (r : XReg) (v : Word) : (c.wx r v).declared = c.declared := by unfold Core.wx; split <;> rfl
@[simp] theorem Core.wx_tid (c : Core) (r : XReg) (v : Word) : (c.wx r v).tid = c.tid := by unfold Core.wx; split <;> rfl
@[simp] theorem Core.wx_gateHw (c : Core) (r : XReg) (v : Word) : (c.wx r v).gateHw = c.gateHw := by unfold Core.wx; split <;> rfl
@[simp] theorem Core.wx_gateSpill (c : Core) (r : XReg) (v : Word) : (c.wx r v).gateSpill = c.gateSpill := by unfold Core.wx; split <;> rfl
@[simp] theorem Core.wx_loans (c : Core) (r : XReg) (v : Word) : (c.wx r v).loans = c.loans := by unfold Core.wx; split <;> rfl
@[simp] theorem Core.wx_lpt (c : Core) (r : XReg) (v : Word) : (c.wx r v).lpt = c.lpt := by unfold Core.wx; split <;> rfl
@[simp] theorem Core.wx_pe (c : Core) (r : XReg) (v : Word) : (c.wx r v).pe = c.pe := by unfold Core.wx; split <;> rfl
@[simp] theorem Core.wx_tiles (c : Core) (r : XReg) (v : Word) : (c.wx r v).tiles = c.tiles := by unfold Core.wx; split <;> rfl
@[simp] theorem Core.wx_scales (c : Core) (r : XReg) (v : Word) : (c.wx r v).scales = c.scales := by unfold Core.wx; split <;> rfl
@[simp] theorem Core.wx_wake (c : Core) (r : XReg) (v : Word) : (c.wx r v).wake = c.wake := by unfold Core.wx; split <;> rfl
@[simp] theorem Core.wx_convoy (c : Core) (r : XReg) (v : Word) : (c.wx r v).convoy = c.convoy := by unfold Core.wx; split <;> rfl
@[simp] theorem Core.wx_trail (c : Core) (r : XReg) (v : Word) : (c.wx r v).trail = c.trail := by unfold Core.wx; split <;> rfl
@[simp] theorem Core.wx_pendX (c : Core) (r : XReg) (v : Word) : (c.wx r v).pendX = c.pendX := by unfold Core.wx; split <;> rfl
@[simp] theorem Core.wx_pendV (c : Core) (r : XReg) (v : Word) : (c.wx r v).pendV = c.pendV := by unfold Core.wx; split <;> rfl
@[simp] theorem Core.wx_delivered (c : Core) (r : XReg) (v : Word) : (c.wx r v).delivered = c.delivered := by unfold Core.wx; split <;> rfl
@[simp] theorem Core.wx_loadFault (c : Core) (r : XReg) (v : Word) : (c.wx r v).loadFault = c.loadFault := by unfold Core.wx; split <;> rfl
@[simp] theorem Core.wx_wait (c : Core) (r : XReg) (v : Word) : (c.wx r v).wait = c.wait := by unfold Core.wx; split <;> rfl
@[simp] theorem Core.wx_stall (c : Core) (r : XReg) (v : Word) : (c.wx r v).stall = c.stall := by unfold Core.wx; split <;> rfl
@[simp] theorem Core.wx_request (c : Core) (r : XReg) (v : Word) : (c.wx r v).request = c.request := by unfold Core.wx; split <;> rfl
@[simp] theorem Core.wx_reply (c : Core) (r : XReg) (v : Word) : (c.wx r v).reply = c.reply := by unfold Core.wx; split <;> rfl
@[simp] theorem Core.wx_recruit (c : Core) (r : XReg) (v : Word) : (c.wx r v).recruit = c.recruit := by unfold Core.wx; split <;> rfl
@[simp] theorem Core.wx_inArea (c : Core) (r : XReg) (v : Word) : (c.wx r v).inArea = c.inArea := by unfold Core.wx; split <;> rfl
@[simp] theorem Core.wx_passer (c : Core) (r : XReg) (v : Word) : (c.wx r v).passer = c.passer := by unfold Core.wx; split <;> rfl
@[simp] theorem Core.wx_pfb (c : Core) (r : XReg) (v : Word) : (c.wx r v).pfb = c.pfb := by unfold Core.wx; split <;> rfl
@[simp] theorem Core.wx_icache (c : Core) (r : XReg) (v : Word) : (c.wx r v).icache = c.icache := by unfold Core.wx; split <;> rfl
@[simp] theorem Core.wx_views (c : Core) (r : XReg) (v : Word) : (c.wx r v).views = c.views := by unfold Core.wx; split <;> rfl
@[simp] theorem Core.wx_red0 (c : Core) (r : XReg) (v : Word) : (c.wx r v).red0 = c.red0 := by unfold Core.wx; split <;> rfl
@[simp] theorem Core.wx_red1 (c : Core) (r : XReg) (v : Word) : (c.wx r v).red1 = c.red1 := by unfold Core.wx; split <;> rfl
@[simp] theorem Core.wx_dbg (c : Core) (r : XReg) (v : Word) : (c.wx r v).dbg = c.dbg := by unfold Core.wx; split <;> rfl
@[simp] theorem Core.wx_stopped (c : Core) (r : XReg) (v : Word) : (c.wx r v).stopped = c.stopped := by unfold Core.wx; split <;> rfl
@[simp] theorem Core.wx_held (c : Core) (r : XReg) (v : Word) : (c.wx r v).held = c.held := by unfold Core.wx; split <;> rfl
@[simp] theorem Core.wx_deckle (c : Core) (r : XReg) (v : Word) : (c.wx r v).deckle = c.deckle := by unfold Core.wx; split <;> rfl
@[simp] theorem Core.wx_resetAt (c : Core) (r : XReg) (v : Word) : (c.wx r v).resetAt = c.resetAt := by unfold Core.wx; split <;> rfl

@[simp] theorem Core.wp_num (c : Core) (r : PReg) (v : Bool) : (c.wp r v).num = c.num := by unfold Core.wp; split <;> rfl
@[simp] theorem Core.wp_x (c : Core) (r : PReg) (v : Bool) : (c.wp r v).x = c.x := by unfold Core.wp; split <;> rfl
@[simp] theorem Core.wp_pc (c : Core) (r : PReg) (v : Bool) : (c.wp r v).pc = c.pc := by unfold Core.wp; split <;> rfl
@[simp] theorem Core.wp_v (c : Core) (r : PReg) (v : Bool) : (c.wp r v).v = c.v := by unfold Core.wp; split <;> rfl
@[simp] theorem Core.wp_k (c : Core) (r : PReg) (v : Bool) : (c.wp r v).k = c.k := by unfold Core.wp; split <;> rfl
@[simp] theorem Core.wp_mode (c : Core) (r : PReg) (v : Bool) : (c.wp r v).mode = c.mode := by unfold Core.wp; split <;> rfl
@[simp] theorem Core.wp_csr (c : Core) (r : PReg) (v : Bool) : (c.wp r v).csr = c.csr := by unfold Core.wp; split <;> rfl
@[simp] theorem Core.wp_domain (c : Core) (r : PReg) (v : Bool) : (c.wp r v).domain = c.domain := by unfold Core.wp; split <;> rfl
@[simp] theorem Core.wp_cid (c : Core) (r : PReg) (v : Bool) : (c.wp r v).cid = c.cid := by unfold Core.wp; split <;> rfl
@[simp] theorem Core.wp_declared (c : Core) (r : PReg) (v : Bool) : (c.wp r v).declared = c.declared := by unfold Core.wp; split <;> rfl
@[simp] theorem Core.wp_tid (c : Core) (r : PReg) (v : Bool) : (c.wp r v).tid = c.tid := by unfold Core.wp; split <;> rfl
@[simp] theorem Core.wp_gateHw (c : Core) (r : PReg) (v : Bool) : (c.wp r v).gateHw = c.gateHw := by unfold Core.wp; split <;> rfl
@[simp] theorem Core.wp_gateSpill (c : Core) (r : PReg) (v : Bool) : (c.wp r v).gateSpill = c.gateSpill := by unfold Core.wp; split <;> rfl
@[simp] theorem Core.wp_loans (c : Core) (r : PReg) (v : Bool) : (c.wp r v).loans = c.loans := by unfold Core.wp; split <;> rfl
@[simp] theorem Core.wp_lpt (c : Core) (r : PReg) (v : Bool) : (c.wp r v).lpt = c.lpt := by unfold Core.wp; split <;> rfl
@[simp] theorem Core.wp_pe (c : Core) (r : PReg) (v : Bool) : (c.wp r v).pe = c.pe := by unfold Core.wp; split <;> rfl
@[simp] theorem Core.wp_tiles (c : Core) (r : PReg) (v : Bool) : (c.wp r v).tiles = c.tiles := by unfold Core.wp; split <;> rfl
@[simp] theorem Core.wp_scales (c : Core) (r : PReg) (v : Bool) : (c.wp r v).scales = c.scales := by unfold Core.wp; split <;> rfl
@[simp] theorem Core.wp_wake (c : Core) (r : PReg) (v : Bool) : (c.wp r v).wake = c.wake := by unfold Core.wp; split <;> rfl
@[simp] theorem Core.wp_convoy (c : Core) (r : PReg) (v : Bool) : (c.wp r v).convoy = c.convoy := by unfold Core.wp; split <;> rfl
@[simp] theorem Core.wp_trail (c : Core) (r : PReg) (v : Bool) : (c.wp r v).trail = c.trail := by unfold Core.wp; split <;> rfl
@[simp] theorem Core.wp_pendX (c : Core) (r : PReg) (v : Bool) : (c.wp r v).pendX = c.pendX := by unfold Core.wp; split <;> rfl
@[simp] theorem Core.wp_pendV (c : Core) (r : PReg) (v : Bool) : (c.wp r v).pendV = c.pendV := by unfold Core.wp; split <;> rfl
@[simp] theorem Core.wp_delivered (c : Core) (r : PReg) (v : Bool) : (c.wp r v).delivered = c.delivered := by unfold Core.wp; split <;> rfl
@[simp] theorem Core.wp_loadFault (c : Core) (r : PReg) (v : Bool) : (c.wp r v).loadFault = c.loadFault := by unfold Core.wp; split <;> rfl
@[simp] theorem Core.wp_wait (c : Core) (r : PReg) (v : Bool) : (c.wp r v).wait = c.wait := by unfold Core.wp; split <;> rfl
@[simp] theorem Core.wp_stall (c : Core) (r : PReg) (v : Bool) : (c.wp r v).stall = c.stall := by unfold Core.wp; split <;> rfl
@[simp] theorem Core.wp_request (c : Core) (r : PReg) (v : Bool) : (c.wp r v).request = c.request := by unfold Core.wp; split <;> rfl
@[simp] theorem Core.wp_reply (c : Core) (r : PReg) (v : Bool) : (c.wp r v).reply = c.reply := by unfold Core.wp; split <;> rfl
@[simp] theorem Core.wp_recruit (c : Core) (r : PReg) (v : Bool) : (c.wp r v).recruit = c.recruit := by unfold Core.wp; split <;> rfl
@[simp] theorem Core.wp_inArea (c : Core) (r : PReg) (v : Bool) : (c.wp r v).inArea = c.inArea := by unfold Core.wp; split <;> rfl
@[simp] theorem Core.wp_passer (c : Core) (r : PReg) (v : Bool) : (c.wp r v).passer = c.passer := by unfold Core.wp; split <;> rfl
@[simp] theorem Core.wp_pfb (c : Core) (r : PReg) (v : Bool) : (c.wp r v).pfb = c.pfb := by unfold Core.wp; split <;> rfl
@[simp] theorem Core.wp_icache (c : Core) (r : PReg) (v : Bool) : (c.wp r v).icache = c.icache := by unfold Core.wp; split <;> rfl
@[simp] theorem Core.wp_views (c : Core) (r : PReg) (v : Bool) : (c.wp r v).views = c.views := by unfold Core.wp; split <;> rfl
@[simp] theorem Core.wp_red0 (c : Core) (r : PReg) (v : Bool) : (c.wp r v).red0 = c.red0 := by unfold Core.wp; split <;> rfl
@[simp] theorem Core.wp_red1 (c : Core) (r : PReg) (v : Bool) : (c.wp r v).red1 = c.red1 := by unfold Core.wp; split <;> rfl
@[simp] theorem Core.wp_dbg (c : Core) (r : PReg) (v : Bool) : (c.wp r v).dbg = c.dbg := by unfold Core.wp; split <;> rfl
@[simp] theorem Core.wp_stopped (c : Core) (r : PReg) (v : Bool) : (c.wp r v).stopped = c.stopped := by unfold Core.wp; split <;> rfl
@[simp] theorem Core.wp_held (c : Core) (r : PReg) (v : Bool) : (c.wp r v).held = c.held := by unfold Core.wp; split <;> rfl
@[simp] theorem Core.wp_deckle (c : Core) (r : PReg) (v : Bool) : (c.wp r v).deckle = c.deckle := by unfold Core.wp; split <;> rfl
@[simp] theorem Core.wp_resetAt (c : Core) (r : PReg) (v : Bool) : (c.wp r v).resetAt = c.resetAt := by unfold Core.wp; split <;> rfl

@[simp] theorem Core.wk_num (c : Core) (r : KReg) (v : BitVec 32) : (c.wk r v).num = c.num := by unfold Core.wk; split <;> rfl
@[simp] theorem Core.wk_x (c : Core) (r : KReg) (v : BitVec 32) : (c.wk r v).x = c.x := by unfold Core.wk; split <;> rfl
@[simp] theorem Core.wk_pc (c : Core) (r : KReg) (v : BitVec 32) : (c.wk r v).pc = c.pc := by unfold Core.wk; split <;> rfl
@[simp] theorem Core.wk_p (c : Core) (r : KReg) (v : BitVec 32) : (c.wk r v).p = c.p := by unfold Core.wk; split <;> rfl
@[simp] theorem Core.wk_v (c : Core) (r : KReg) (v : BitVec 32) : (c.wk r v).v = c.v := by unfold Core.wk; split <;> rfl
@[simp] theorem Core.wk_mode (c : Core) (r : KReg) (v : BitVec 32) : (c.wk r v).mode = c.mode := by unfold Core.wk; split <;> rfl
@[simp] theorem Core.wk_csr (c : Core) (r : KReg) (v : BitVec 32) : (c.wk r v).csr = c.csr := by unfold Core.wk; split <;> rfl
@[simp] theorem Core.wk_domain (c : Core) (r : KReg) (v : BitVec 32) : (c.wk r v).domain = c.domain := by unfold Core.wk; split <;> rfl
@[simp] theorem Core.wk_cid (c : Core) (r : KReg) (v : BitVec 32) : (c.wk r v).cid = c.cid := by unfold Core.wk; split <;> rfl
@[simp] theorem Core.wk_declared (c : Core) (r : KReg) (v : BitVec 32) : (c.wk r v).declared = c.declared := by unfold Core.wk; split <;> rfl
@[simp] theorem Core.wk_tid (c : Core) (r : KReg) (v : BitVec 32) : (c.wk r v).tid = c.tid := by unfold Core.wk; split <;> rfl
@[simp] theorem Core.wk_gateHw (c : Core) (r : KReg) (v : BitVec 32) : (c.wk r v).gateHw = c.gateHw := by unfold Core.wk; split <;> rfl
@[simp] theorem Core.wk_gateSpill (c : Core) (r : KReg) (v : BitVec 32) : (c.wk r v).gateSpill = c.gateSpill := by unfold Core.wk; split <;> rfl
@[simp] theorem Core.wk_loans (c : Core) (r : KReg) (v : BitVec 32) : (c.wk r v).loans = c.loans := by unfold Core.wk; split <;> rfl
@[simp] theorem Core.wk_lpt (c : Core) (r : KReg) (v : BitVec 32) : (c.wk r v).lpt = c.lpt := by unfold Core.wk; split <;> rfl
@[simp] theorem Core.wk_pe (c : Core) (r : KReg) (v : BitVec 32) : (c.wk r v).pe = c.pe := by unfold Core.wk; split <;> rfl
@[simp] theorem Core.wk_tiles (c : Core) (r : KReg) (v : BitVec 32) : (c.wk r v).tiles = c.tiles := by unfold Core.wk; split <;> rfl
@[simp] theorem Core.wk_scales (c : Core) (r : KReg) (v : BitVec 32) : (c.wk r v).scales = c.scales := by unfold Core.wk; split <;> rfl
@[simp] theorem Core.wk_wake (c : Core) (r : KReg) (v : BitVec 32) : (c.wk r v).wake = c.wake := by unfold Core.wk; split <;> rfl
@[simp] theorem Core.wk_convoy (c : Core) (r : KReg) (v : BitVec 32) : (c.wk r v).convoy = c.convoy := by unfold Core.wk; split <;> rfl
@[simp] theorem Core.wk_trail (c : Core) (r : KReg) (v : BitVec 32) : (c.wk r v).trail = c.trail := by unfold Core.wk; split <;> rfl
@[simp] theorem Core.wk_pendX (c : Core) (r : KReg) (v : BitVec 32) : (c.wk r v).pendX = c.pendX := by unfold Core.wk; split <;> rfl
@[simp] theorem Core.wk_pendV (c : Core) (r : KReg) (v : BitVec 32) : (c.wk r v).pendV = c.pendV := by unfold Core.wk; split <;> rfl
@[simp] theorem Core.wk_delivered (c : Core) (r : KReg) (v : BitVec 32) : (c.wk r v).delivered = c.delivered := by unfold Core.wk; split <;> rfl
@[simp] theorem Core.wk_loadFault (c : Core) (r : KReg) (v : BitVec 32) : (c.wk r v).loadFault = c.loadFault := by unfold Core.wk; split <;> rfl
@[simp] theorem Core.wk_wait (c : Core) (r : KReg) (v : BitVec 32) : (c.wk r v).wait = c.wait := by unfold Core.wk; split <;> rfl
@[simp] theorem Core.wk_stall (c : Core) (r : KReg) (v : BitVec 32) : (c.wk r v).stall = c.stall := by unfold Core.wk; split <;> rfl
@[simp] theorem Core.wk_request (c : Core) (r : KReg) (v : BitVec 32) : (c.wk r v).request = c.request := by unfold Core.wk; split <;> rfl
@[simp] theorem Core.wk_reply (c : Core) (r : KReg) (v : BitVec 32) : (c.wk r v).reply = c.reply := by unfold Core.wk; split <;> rfl
@[simp] theorem Core.wk_recruit (c : Core) (r : KReg) (v : BitVec 32) : (c.wk r v).recruit = c.recruit := by unfold Core.wk; split <;> rfl
@[simp] theorem Core.wk_inArea (c : Core) (r : KReg) (v : BitVec 32) : (c.wk r v).inArea = c.inArea := by unfold Core.wk; split <;> rfl
@[simp] theorem Core.wk_passer (c : Core) (r : KReg) (v : BitVec 32) : (c.wk r v).passer = c.passer := by unfold Core.wk; split <;> rfl
@[simp] theorem Core.wk_pfb (c : Core) (r : KReg) (v : BitVec 32) : (c.wk r v).pfb = c.pfb := by unfold Core.wk; split <;> rfl
@[simp] theorem Core.wk_icache (c : Core) (r : KReg) (v : BitVec 32) : (c.wk r v).icache = c.icache := by unfold Core.wk; split <;> rfl
@[simp] theorem Core.wk_views (c : Core) (r : KReg) (v : BitVec 32) : (c.wk r v).views = c.views := by unfold Core.wk; split <;> rfl
@[simp] theorem Core.wk_red0 (c : Core) (r : KReg) (v : BitVec 32) : (c.wk r v).red0 = c.red0 := by unfold Core.wk; split <;> rfl
@[simp] theorem Core.wk_red1 (c : Core) (r : KReg) (v : BitVec 32) : (c.wk r v).red1 = c.red1 := by unfold Core.wk; split <;> rfl
@[simp] theorem Core.wk_dbg (c : Core) (r : KReg) (v : BitVec 32) : (c.wk r v).dbg = c.dbg := by unfold Core.wk; split <;> rfl
@[simp] theorem Core.wk_stopped (c : Core) (r : KReg) (v : BitVec 32) : (c.wk r v).stopped = c.stopped := by unfold Core.wk; split <;> rfl
@[simp] theorem Core.wk_held (c : Core) (r : KReg) (v : BitVec 32) : (c.wk r v).held = c.held := by unfold Core.wk; split <;> rfl
@[simp] theorem Core.wk_deckle (c : Core) (r : KReg) (v : BitVec 32) : (c.wk r v).deckle = c.deckle := by unfold Core.wk; split <;> rfl
@[simp] theorem Core.wk_resetAt (c : Core) (r : KReg) (v : BitVec 32) : (c.wk r v).resetAt = c.resetAt := by unfold Core.wk; split <;> rfl

@[simp] theorem Core.wv_num (c : Core) (r : VReg) (w : VecReg) : (c.wv r w).num = c.num := rfl
@[simp] theorem Core.wv_x (c : Core) (r : VReg) (w : VecReg) : (c.wv r w).x = c.x := rfl
@[simp] theorem Core.wv_pc (c : Core) (r : VReg) (w : VecReg) : (c.wv r w).pc = c.pc := rfl
@[simp] theorem Core.wv_p (c : Core) (r : VReg) (w : VecReg) : (c.wv r w).p = c.p := rfl
@[simp] theorem Core.wv_k (c : Core) (r : VReg) (w : VecReg) : (c.wv r w).k = c.k := rfl
@[simp] theorem Core.wv_mode (c : Core) (r : VReg) (w : VecReg) : (c.wv r w).mode = c.mode := rfl
@[simp] theorem Core.wv_csr (c : Core) (r : VReg) (w : VecReg) : (c.wv r w).csr = c.csr := rfl
@[simp] theorem Core.wv_domain (c : Core) (r : VReg) (w : VecReg) : (c.wv r w).domain = c.domain := rfl
@[simp] theorem Core.wv_cid (c : Core) (r : VReg) (w : VecReg) : (c.wv r w).cid = c.cid := rfl
@[simp] theorem Core.wv_declared (c : Core) (r : VReg) (w : VecReg) : (c.wv r w).declared = c.declared := rfl
@[simp] theorem Core.wv_tid (c : Core) (r : VReg) (w : VecReg) : (c.wv r w).tid = c.tid := rfl
@[simp] theorem Core.wv_gateHw (c : Core) (r : VReg) (w : VecReg) : (c.wv r w).gateHw = c.gateHw := rfl
@[simp] theorem Core.wv_gateSpill (c : Core) (r : VReg) (w : VecReg) : (c.wv r w).gateSpill = c.gateSpill := rfl
@[simp] theorem Core.wv_loans (c : Core) (r : VReg) (w : VecReg) : (c.wv r w).loans = c.loans := rfl
@[simp] theorem Core.wv_lpt (c : Core) (r : VReg) (w : VecReg) : (c.wv r w).lpt = c.lpt := rfl
@[simp] theorem Core.wv_pe (c : Core) (r : VReg) (w : VecReg) : (c.wv r w).pe = c.pe := rfl
@[simp] theorem Core.wv_tiles (c : Core) (r : VReg) (w : VecReg) : (c.wv r w).tiles = c.tiles := rfl
@[simp] theorem Core.wv_scales (c : Core) (r : VReg) (w : VecReg) : (c.wv r w).scales = c.scales := rfl
@[simp] theorem Core.wv_wake (c : Core) (r : VReg) (w : VecReg) : (c.wv r w).wake = c.wake := rfl
@[simp] theorem Core.wv_convoy (c : Core) (r : VReg) (w : VecReg) : (c.wv r w).convoy = c.convoy := rfl
@[simp] theorem Core.wv_trail (c : Core) (r : VReg) (w : VecReg) : (c.wv r w).trail = c.trail := rfl
@[simp] theorem Core.wv_pendX (c : Core) (r : VReg) (w : VecReg) : (c.wv r w).pendX = c.pendX := rfl
@[simp] theorem Core.wv_pendV (c : Core) (r : VReg) (w : VecReg) : (c.wv r w).pendV = c.pendV := rfl
@[simp] theorem Core.wv_delivered (c : Core) (r : VReg) (w : VecReg) : (c.wv r w).delivered = c.delivered := rfl
@[simp] theorem Core.wv_loadFault (c : Core) (r : VReg) (w : VecReg) : (c.wv r w).loadFault = c.loadFault := rfl
@[simp] theorem Core.wv_wait (c : Core) (r : VReg) (w : VecReg) : (c.wv r w).wait = c.wait := rfl
@[simp] theorem Core.wv_stall (c : Core) (r : VReg) (w : VecReg) : (c.wv r w).stall = c.stall := rfl
@[simp] theorem Core.wv_request (c : Core) (r : VReg) (w : VecReg) : (c.wv r w).request = c.request := rfl
@[simp] theorem Core.wv_reply (c : Core) (r : VReg) (w : VecReg) : (c.wv r w).reply = c.reply := rfl
@[simp] theorem Core.wv_recruit (c : Core) (r : VReg) (w : VecReg) : (c.wv r w).recruit = c.recruit := rfl
@[simp] theorem Core.wv_inArea (c : Core) (r : VReg) (w : VecReg) : (c.wv r w).inArea = c.inArea := rfl
@[simp] theorem Core.wv_passer (c : Core) (r : VReg) (w : VecReg) : (c.wv r w).passer = c.passer := rfl
@[simp] theorem Core.wv_pfb (c : Core) (r : VReg) (w : VecReg) : (c.wv r w).pfb = c.pfb := rfl
@[simp] theorem Core.wv_icache (c : Core) (r : VReg) (w : VecReg) : (c.wv r w).icache = c.icache := rfl
@[simp] theorem Core.wv_views (c : Core) (r : VReg) (w : VecReg) : (c.wv r w).views = c.views := rfl
@[simp] theorem Core.wv_red0 (c : Core) (r : VReg) (w : VecReg) : (c.wv r w).red0 = c.red0 := rfl
@[simp] theorem Core.wv_red1 (c : Core) (r : VReg) (w : VecReg) : (c.wv r w).red1 = c.red1 := rfl
@[simp] theorem Core.wv_dbg (c : Core) (r : VReg) (w : VecReg) : (c.wv r w).dbg = c.dbg := rfl
@[simp] theorem Core.wv_stopped (c : Core) (r : VReg) (w : VecReg) : (c.wv r w).stopped = c.stopped := rfl
@[simp] theorem Core.wv_held (c : Core) (r : VReg) (w : VecReg) : (c.wv r w).held = c.held := rfl
@[simp] theorem Core.wv_deckle (c : Core) (r : VReg) (w : VecReg) : (c.wv r w).deckle = c.deckle := rfl
@[simp] theorem Core.wv_resetAt (c : Core) (r : VReg) (w : VecReg) : (c.wv r w).resetAt = c.resetAt := rfl

/-! ### Writes of one register of the core in focus -/

@[simp] theorem State.wx_core (s : State) (r : XReg) (v : Word) : (s.wx r v).core = s.core.wx r v := rfl
@[simp] theorem State.wx_others (s : State) (r : XReg) (v : Word) : (s.wx r v).others = s.others := rfl
@[simp] theorem State.wx_mem (s : State) (r : XReg) (v : Word) : (s.wx r v).mem = s.mem := rfl
@[simp] theorem State.wx_poison (s : State) (r : XReg) (v : Word) : (s.wx r v).poison = s.poison := rfl
@[simp] theorem State.wx_singles (s : State) (r : XReg) (v : Word) : (s.wx r v).singles = s.singles := rfl
@[simp] theorem State.wx_acc (s : State) (r : XReg) (v : Word) : (s.wx r v).acc = s.acc := rfl
@[simp] theorem State.wx_accTags (s : State) (r : XReg) (v : Word) : (s.wx r v).accTags = s.accTags := rfl
@[simp] theorem State.wx_hist (s : State) (r : XReg) (v : Word) : (s.wx r v).hist = s.hist := rfl
@[simp] theorem State.wx_stamp (s : State) (r : XReg) (v : Word) : (s.wx r v).stamp = s.stamp := rfl
@[simp] theorem State.wx_clock (s : State) (r : XReg) (v : Word) : (s.wx r v).clock = s.clock := rfl
@[simp] theorem State.wx_freeCount (s : State) (r : XReg) (v : Word) : (s.wx r v).freeCount = s.freeCount := rfl
@[simp] theorem State.wx_agenda (s : State) (r : XReg) (v : Word) : (s.wx r v).agenda = s.agenda := rfl
@[simp] theorem State.wx_nextId (s : State) (r : XReg) (v : Word) : (s.wx r v).nextId = s.nextId := rfl
@[simp] theorem State.wx_ops (s : State) (r : XReg) (v : Word) : (s.wx r v).ops = s.ops := rfl
@[simp] theorem State.wx_served (s : State) (r : XReg) (v : Word) : (s.wx r v).served = s.served := rfl
@[simp] theorem State.wx_threads (s : State) (r : XReg) (v : Word) : (s.wx r v).threads = s.threads := rfl
@[simp] theorem State.wx_teams (s : State) (r : XReg) (v : Word) : (s.wx r v).teams = s.teams := rfl
@[simp] theorem State.wx_gangs (s : State) (r : XReg) (v : Word) : (s.wx r v).gangs = s.gangs := rfl
@[simp] theorem State.wx_slots (s : State) (r : XReg) (v : Word) : (s.wx r v).slots = s.slots := rfl
@[simp] theorem State.wx_records (s : State) (r : XReg) (v : Word) : (s.wx r v).records = s.records := rfl
@[simp] theorem State.wx_spawnCounters (s : State) (r : XReg) (v : Word) : (s.wx r v).spawnCounters = s.spawnCounters := rfl
@[simp] theorem State.wx_channels (s : State) (r : XReg) (v : Word) : (s.wx r v).channels = s.channels := rfl
@[simp] theorem State.wx_leaves (s : State) (r : XReg) (v : Word) : (s.wx r v).leaves = s.leaves := rfl
@[simp] theorem State.wx_misses (s : State) (r : XReg) (v : Word) : (s.wx r v).misses = s.misses := rfl
@[simp] theorem State.wx_heldMisses (s : State) (r : XReg) (v : Word) : (s.wx r v).heldMisses = s.heldMisses := rfl
@[simp] theorem State.wx_queues (s : State) (r : XReg) (v : Word) : (s.wx r v).queues = s.queues := rfl
@[simp] theorem State.wx_objects (s : State) (r : XReg) (v : Word) : (s.wx r v).objects = s.objects := rfl
@[simp] theorem State.wx_restarting (s : State) (r : XReg) (v : Word) : (s.wx r v).restarting = s.restarting := rfl
@[simp] theorem State.wx_restartAt (s : State) (r : XReg) (v : Word) : (s.wx r v).restartAt = s.restartAt := rfl
@[simp] theorem State.wx_reports (s : State) (r : XReg) (v : Word) : (s.wx r v).reports = s.reports := rfl
@[simp] theorem State.wx_permits (s : State) (r : XReg) (v : Word) : (s.wx r v).permits = s.permits := rfl
@[simp] theorem State.wx_gated (s : State) (r : XReg) (v : Word) : (s.wx r v).gated = s.gated := rfl
@[simp] theorem State.wx_gatedWrites (s : State) (r : XReg) (v : Word) : (s.wx r v).gatedWrites = s.gatedWrites := rfl
@[simp] theorem State.wx_asyncWaiting (s : State) (r : XReg) (v : Word) : (s.wx r v).asyncWaiting = s.asyncWaiting := rfl
@[simp] theorem State.wx_replayLog (s : State) (r : XReg) (v : Word) : (s.wx r v).replayLog = s.replayLog := rfl
@[simp] theorem State.wx_gateSpills (s : State) (r : XReg) (v : Word) : (s.wx r v).gateSpills = s.gateSpills := rfl
@[simp] theorem State.wx_sec (s : State) (r : XReg) (v : Word) : (s.wx r v).sec = s.sec := rfl
@[simp] theorem State.wx_groups (s : State) (r : XReg) (v : Word) : (s.wx r v).groups = s.groups := rfl
@[simp] theorem State.wx_moduleNumber (s : State) (r : XReg) (v : Word) : (s.wx r v).moduleNumber = s.moduleNumber := rfl
@[simp] theorem State.wx_routes (s : State) (r : XReg) (v : Word) : (s.wx r v).routes = s.routes := rfl
@[simp] theorem State.wx_recovering (s : State) (r : XReg) (v : Word) : (s.wx r v).recovering = s.recovering := rfl
@[simp] theorem State.wx_throttle (s : State) (r : XReg) (v : Word) : (s.wx r v).throttle = s.throttle := rfl
@[simp] theorem State.wx_belowSince (s : State) (r : XReg) (v : Word) : (s.wx r v).belowSince = s.belowSince := rfl

@[simp] theorem State.wp_core (s : State) (r : PReg) (v : Bool) : (s.wp r v).core = s.core.wp r v := rfl
@[simp] theorem State.wp_others (s : State) (r : PReg) (v : Bool) : (s.wp r v).others = s.others := rfl
@[simp] theorem State.wp_mem (s : State) (r : PReg) (v : Bool) : (s.wp r v).mem = s.mem := rfl
@[simp] theorem State.wp_poison (s : State) (r : PReg) (v : Bool) : (s.wp r v).poison = s.poison := rfl
@[simp] theorem State.wp_singles (s : State) (r : PReg) (v : Bool) : (s.wp r v).singles = s.singles := rfl
@[simp] theorem State.wp_acc (s : State) (r : PReg) (v : Bool) : (s.wp r v).acc = s.acc := rfl
@[simp] theorem State.wp_accTags (s : State) (r : PReg) (v : Bool) : (s.wp r v).accTags = s.accTags := rfl
@[simp] theorem State.wp_hist (s : State) (r : PReg) (v : Bool) : (s.wp r v).hist = s.hist := rfl
@[simp] theorem State.wp_stamp (s : State) (r : PReg) (v : Bool) : (s.wp r v).stamp = s.stamp := rfl
@[simp] theorem State.wp_clock (s : State) (r : PReg) (v : Bool) : (s.wp r v).clock = s.clock := rfl
@[simp] theorem State.wp_freeCount (s : State) (r : PReg) (v : Bool) : (s.wp r v).freeCount = s.freeCount := rfl
@[simp] theorem State.wp_agenda (s : State) (r : PReg) (v : Bool) : (s.wp r v).agenda = s.agenda := rfl
@[simp] theorem State.wp_nextId (s : State) (r : PReg) (v : Bool) : (s.wp r v).nextId = s.nextId := rfl
@[simp] theorem State.wp_ops (s : State) (r : PReg) (v : Bool) : (s.wp r v).ops = s.ops := rfl
@[simp] theorem State.wp_served (s : State) (r : PReg) (v : Bool) : (s.wp r v).served = s.served := rfl
@[simp] theorem State.wp_threads (s : State) (r : PReg) (v : Bool) : (s.wp r v).threads = s.threads := rfl
@[simp] theorem State.wp_teams (s : State) (r : PReg) (v : Bool) : (s.wp r v).teams = s.teams := rfl
@[simp] theorem State.wp_gangs (s : State) (r : PReg) (v : Bool) : (s.wp r v).gangs = s.gangs := rfl
@[simp] theorem State.wp_slots (s : State) (r : PReg) (v : Bool) : (s.wp r v).slots = s.slots := rfl
@[simp] theorem State.wp_records (s : State) (r : PReg) (v : Bool) : (s.wp r v).records = s.records := rfl
@[simp] theorem State.wp_spawnCounters (s : State) (r : PReg) (v : Bool) : (s.wp r v).spawnCounters = s.spawnCounters := rfl
@[simp] theorem State.wp_channels (s : State) (r : PReg) (v : Bool) : (s.wp r v).channels = s.channels := rfl
@[simp] theorem State.wp_leaves (s : State) (r : PReg) (v : Bool) : (s.wp r v).leaves = s.leaves := rfl
@[simp] theorem State.wp_misses (s : State) (r : PReg) (v : Bool) : (s.wp r v).misses = s.misses := rfl
@[simp] theorem State.wp_heldMisses (s : State) (r : PReg) (v : Bool) : (s.wp r v).heldMisses = s.heldMisses := rfl
@[simp] theorem State.wp_queues (s : State) (r : PReg) (v : Bool) : (s.wp r v).queues = s.queues := rfl
@[simp] theorem State.wp_objects (s : State) (r : PReg) (v : Bool) : (s.wp r v).objects = s.objects := rfl
@[simp] theorem State.wp_restarting (s : State) (r : PReg) (v : Bool) : (s.wp r v).restarting = s.restarting := rfl
@[simp] theorem State.wp_restartAt (s : State) (r : PReg) (v : Bool) : (s.wp r v).restartAt = s.restartAt := rfl
@[simp] theorem State.wp_reports (s : State) (r : PReg) (v : Bool) : (s.wp r v).reports = s.reports := rfl
@[simp] theorem State.wp_permits (s : State) (r : PReg) (v : Bool) : (s.wp r v).permits = s.permits := rfl
@[simp] theorem State.wp_gated (s : State) (r : PReg) (v : Bool) : (s.wp r v).gated = s.gated := rfl
@[simp] theorem State.wp_gatedWrites (s : State) (r : PReg) (v : Bool) : (s.wp r v).gatedWrites = s.gatedWrites := rfl
@[simp] theorem State.wp_asyncWaiting (s : State) (r : PReg) (v : Bool) : (s.wp r v).asyncWaiting = s.asyncWaiting := rfl
@[simp] theorem State.wp_replayLog (s : State) (r : PReg) (v : Bool) : (s.wp r v).replayLog = s.replayLog := rfl
@[simp] theorem State.wp_gateSpills (s : State) (r : PReg) (v : Bool) : (s.wp r v).gateSpills = s.gateSpills := rfl
@[simp] theorem State.wp_sec (s : State) (r : PReg) (v : Bool) : (s.wp r v).sec = s.sec := rfl
@[simp] theorem State.wp_groups (s : State) (r : PReg) (v : Bool) : (s.wp r v).groups = s.groups := rfl
@[simp] theorem State.wp_moduleNumber (s : State) (r : PReg) (v : Bool) : (s.wp r v).moduleNumber = s.moduleNumber := rfl
@[simp] theorem State.wp_routes (s : State) (r : PReg) (v : Bool) : (s.wp r v).routes = s.routes := rfl
@[simp] theorem State.wp_recovering (s : State) (r : PReg) (v : Bool) : (s.wp r v).recovering = s.recovering := rfl
@[simp] theorem State.wp_throttle (s : State) (r : PReg) (v : Bool) : (s.wp r v).throttle = s.throttle := rfl
@[simp] theorem State.wp_belowSince (s : State) (r : PReg) (v : Bool) : (s.wp r v).belowSince = s.belowSince := rfl

@[simp] theorem State.wk_core (s : State) (r : KReg) (v : BitVec 32) : (s.wk r v).core = s.core.wk r v := rfl
@[simp] theorem State.wk_others (s : State) (r : KReg) (v : BitVec 32) : (s.wk r v).others = s.others := rfl
@[simp] theorem State.wk_mem (s : State) (r : KReg) (v : BitVec 32) : (s.wk r v).mem = s.mem := rfl
@[simp] theorem State.wk_poison (s : State) (r : KReg) (v : BitVec 32) : (s.wk r v).poison = s.poison := rfl
@[simp] theorem State.wk_singles (s : State) (r : KReg) (v : BitVec 32) : (s.wk r v).singles = s.singles := rfl
@[simp] theorem State.wk_acc (s : State) (r : KReg) (v : BitVec 32) : (s.wk r v).acc = s.acc := rfl
@[simp] theorem State.wk_accTags (s : State) (r : KReg) (v : BitVec 32) : (s.wk r v).accTags = s.accTags := rfl
@[simp] theorem State.wk_hist (s : State) (r : KReg) (v : BitVec 32) : (s.wk r v).hist = s.hist := rfl
@[simp] theorem State.wk_stamp (s : State) (r : KReg) (v : BitVec 32) : (s.wk r v).stamp = s.stamp := rfl
@[simp] theorem State.wk_clock (s : State) (r : KReg) (v : BitVec 32) : (s.wk r v).clock = s.clock := rfl
@[simp] theorem State.wk_freeCount (s : State) (r : KReg) (v : BitVec 32) : (s.wk r v).freeCount = s.freeCount := rfl
@[simp] theorem State.wk_agenda (s : State) (r : KReg) (v : BitVec 32) : (s.wk r v).agenda = s.agenda := rfl
@[simp] theorem State.wk_nextId (s : State) (r : KReg) (v : BitVec 32) : (s.wk r v).nextId = s.nextId := rfl
@[simp] theorem State.wk_ops (s : State) (r : KReg) (v : BitVec 32) : (s.wk r v).ops = s.ops := rfl
@[simp] theorem State.wk_served (s : State) (r : KReg) (v : BitVec 32) : (s.wk r v).served = s.served := rfl
@[simp] theorem State.wk_threads (s : State) (r : KReg) (v : BitVec 32) : (s.wk r v).threads = s.threads := rfl
@[simp] theorem State.wk_teams (s : State) (r : KReg) (v : BitVec 32) : (s.wk r v).teams = s.teams := rfl
@[simp] theorem State.wk_gangs (s : State) (r : KReg) (v : BitVec 32) : (s.wk r v).gangs = s.gangs := rfl
@[simp] theorem State.wk_slots (s : State) (r : KReg) (v : BitVec 32) : (s.wk r v).slots = s.slots := rfl
@[simp] theorem State.wk_records (s : State) (r : KReg) (v : BitVec 32) : (s.wk r v).records = s.records := rfl
@[simp] theorem State.wk_spawnCounters (s : State) (r : KReg) (v : BitVec 32) : (s.wk r v).spawnCounters = s.spawnCounters := rfl
@[simp] theorem State.wk_channels (s : State) (r : KReg) (v : BitVec 32) : (s.wk r v).channels = s.channels := rfl
@[simp] theorem State.wk_leaves (s : State) (r : KReg) (v : BitVec 32) : (s.wk r v).leaves = s.leaves := rfl
@[simp] theorem State.wk_misses (s : State) (r : KReg) (v : BitVec 32) : (s.wk r v).misses = s.misses := rfl
@[simp] theorem State.wk_heldMisses (s : State) (r : KReg) (v : BitVec 32) : (s.wk r v).heldMisses = s.heldMisses := rfl
@[simp] theorem State.wk_queues (s : State) (r : KReg) (v : BitVec 32) : (s.wk r v).queues = s.queues := rfl
@[simp] theorem State.wk_objects (s : State) (r : KReg) (v : BitVec 32) : (s.wk r v).objects = s.objects := rfl
@[simp] theorem State.wk_restarting (s : State) (r : KReg) (v : BitVec 32) : (s.wk r v).restarting = s.restarting := rfl
@[simp] theorem State.wk_restartAt (s : State) (r : KReg) (v : BitVec 32) : (s.wk r v).restartAt = s.restartAt := rfl
@[simp] theorem State.wk_reports (s : State) (r : KReg) (v : BitVec 32) : (s.wk r v).reports = s.reports := rfl
@[simp] theorem State.wk_permits (s : State) (r : KReg) (v : BitVec 32) : (s.wk r v).permits = s.permits := rfl
@[simp] theorem State.wk_gated (s : State) (r : KReg) (v : BitVec 32) : (s.wk r v).gated = s.gated := rfl
@[simp] theorem State.wk_gatedWrites (s : State) (r : KReg) (v : BitVec 32) : (s.wk r v).gatedWrites = s.gatedWrites := rfl
@[simp] theorem State.wk_asyncWaiting (s : State) (r : KReg) (v : BitVec 32) : (s.wk r v).asyncWaiting = s.asyncWaiting := rfl
@[simp] theorem State.wk_replayLog (s : State) (r : KReg) (v : BitVec 32) : (s.wk r v).replayLog = s.replayLog := rfl
@[simp] theorem State.wk_gateSpills (s : State) (r : KReg) (v : BitVec 32) : (s.wk r v).gateSpills = s.gateSpills := rfl
@[simp] theorem State.wk_sec (s : State) (r : KReg) (v : BitVec 32) : (s.wk r v).sec = s.sec := rfl
@[simp] theorem State.wk_groups (s : State) (r : KReg) (v : BitVec 32) : (s.wk r v).groups = s.groups := rfl
@[simp] theorem State.wk_moduleNumber (s : State) (r : KReg) (v : BitVec 32) : (s.wk r v).moduleNumber = s.moduleNumber := rfl
@[simp] theorem State.wk_routes (s : State) (r : KReg) (v : BitVec 32) : (s.wk r v).routes = s.routes := rfl
@[simp] theorem State.wk_recovering (s : State) (r : KReg) (v : BitVec 32) : (s.wk r v).recovering = s.recovering := rfl
@[simp] theorem State.wk_throttle (s : State) (r : KReg) (v : BitVec 32) : (s.wk r v).throttle = s.throttle := rfl
@[simp] theorem State.wk_belowSince (s : State) (r : KReg) (v : BitVec 32) : (s.wk r v).belowSince = s.belowSince := rfl

@[simp] theorem State.wv_core (s : State) (r : VReg) (w : VecReg) : (s.wv r w).core = s.core.wv r w := rfl
@[simp] theorem State.wv_others (s : State) (r : VReg) (w : VecReg) : (s.wv r w).others = s.others := rfl
@[simp] theorem State.wv_mem (s : State) (r : VReg) (w : VecReg) : (s.wv r w).mem = s.mem := rfl
@[simp] theorem State.wv_poison (s : State) (r : VReg) (w : VecReg) : (s.wv r w).poison = s.poison := rfl
@[simp] theorem State.wv_singles (s : State) (r : VReg) (w : VecReg) : (s.wv r w).singles = s.singles := rfl
@[simp] theorem State.wv_acc (s : State) (r : VReg) (w : VecReg) : (s.wv r w).acc = s.acc := rfl
@[simp] theorem State.wv_accTags (s : State) (r : VReg) (w : VecReg) : (s.wv r w).accTags = s.accTags := rfl
@[simp] theorem State.wv_hist (s : State) (r : VReg) (w : VecReg) : (s.wv r w).hist = s.hist := rfl
@[simp] theorem State.wv_stamp (s : State) (r : VReg) (w : VecReg) : (s.wv r w).stamp = s.stamp := rfl
@[simp] theorem State.wv_clock (s : State) (r : VReg) (w : VecReg) : (s.wv r w).clock = s.clock := rfl
@[simp] theorem State.wv_freeCount (s : State) (r : VReg) (w : VecReg) : (s.wv r w).freeCount = s.freeCount := rfl
@[simp] theorem State.wv_agenda (s : State) (r : VReg) (w : VecReg) : (s.wv r w).agenda = s.agenda := rfl
@[simp] theorem State.wv_nextId (s : State) (r : VReg) (w : VecReg) : (s.wv r w).nextId = s.nextId := rfl
@[simp] theorem State.wv_ops (s : State) (r : VReg) (w : VecReg) : (s.wv r w).ops = s.ops := rfl
@[simp] theorem State.wv_served (s : State) (r : VReg) (w : VecReg) : (s.wv r w).served = s.served := rfl
@[simp] theorem State.wv_threads (s : State) (r : VReg) (w : VecReg) : (s.wv r w).threads = s.threads := rfl
@[simp] theorem State.wv_teams (s : State) (r : VReg) (w : VecReg) : (s.wv r w).teams = s.teams := rfl
@[simp] theorem State.wv_gangs (s : State) (r : VReg) (w : VecReg) : (s.wv r w).gangs = s.gangs := rfl
@[simp] theorem State.wv_slots (s : State) (r : VReg) (w : VecReg) : (s.wv r w).slots = s.slots := rfl
@[simp] theorem State.wv_records (s : State) (r : VReg) (w : VecReg) : (s.wv r w).records = s.records := rfl
@[simp] theorem State.wv_spawnCounters (s : State) (r : VReg) (w : VecReg) : (s.wv r w).spawnCounters = s.spawnCounters := rfl
@[simp] theorem State.wv_channels (s : State) (r : VReg) (w : VecReg) : (s.wv r w).channels = s.channels := rfl
@[simp] theorem State.wv_leaves (s : State) (r : VReg) (w : VecReg) : (s.wv r w).leaves = s.leaves := rfl
@[simp] theorem State.wv_misses (s : State) (r : VReg) (w : VecReg) : (s.wv r w).misses = s.misses := rfl
@[simp] theorem State.wv_heldMisses (s : State) (r : VReg) (w : VecReg) : (s.wv r w).heldMisses = s.heldMisses := rfl
@[simp] theorem State.wv_queues (s : State) (r : VReg) (w : VecReg) : (s.wv r w).queues = s.queues := rfl
@[simp] theorem State.wv_objects (s : State) (r : VReg) (w : VecReg) : (s.wv r w).objects = s.objects := rfl
@[simp] theorem State.wv_restarting (s : State) (r : VReg) (w : VecReg) : (s.wv r w).restarting = s.restarting := rfl
@[simp] theorem State.wv_restartAt (s : State) (r : VReg) (w : VecReg) : (s.wv r w).restartAt = s.restartAt := rfl
@[simp] theorem State.wv_reports (s : State) (r : VReg) (w : VecReg) : (s.wv r w).reports = s.reports := rfl
@[simp] theorem State.wv_permits (s : State) (r : VReg) (w : VecReg) : (s.wv r w).permits = s.permits := rfl
@[simp] theorem State.wv_gated (s : State) (r : VReg) (w : VecReg) : (s.wv r w).gated = s.gated := rfl
@[simp] theorem State.wv_gatedWrites (s : State) (r : VReg) (w : VecReg) : (s.wv r w).gatedWrites = s.gatedWrites := rfl
@[simp] theorem State.wv_asyncWaiting (s : State) (r : VReg) (w : VecReg) : (s.wv r w).asyncWaiting = s.asyncWaiting := rfl
@[simp] theorem State.wv_replayLog (s : State) (r : VReg) (w : VecReg) : (s.wv r w).replayLog = s.replayLog := rfl
@[simp] theorem State.wv_gateSpills (s : State) (r : VReg) (w : VecReg) : (s.wv r w).gateSpills = s.gateSpills := rfl
@[simp] theorem State.wv_sec (s : State) (r : VReg) (w : VecReg) : (s.wv r w).sec = s.sec := rfl
@[simp] theorem State.wv_groups (s : State) (r : VReg) (w : VecReg) : (s.wv r w).groups = s.groups := rfl
@[simp] theorem State.wv_moduleNumber (s : State) (r : VReg) (w : VecReg) : (s.wv r w).moduleNumber = s.moduleNumber := rfl
@[simp] theorem State.wv_routes (s : State) (r : VReg) (w : VecReg) : (s.wv r w).routes = s.routes := rfl
@[simp] theorem State.wv_recovering (s : State) (r : VReg) (w : VecReg) : (s.wv r w).recovering = s.recovering := rfl
@[simp] theorem State.wv_throttle (s : State) (r : VReg) (w : VecReg) : (s.wv r w).throttle = s.throttle := rfl
@[simp] theorem State.wv_belowSince (s : State) (r : VReg) (w : VecReg) : (s.wv r w).belowSince = s.belowSince := rfl

@[simp] theorem State.setCsr_core (s : State) (g : Csrs) : (s.setCsr g).core = { s.core with csr := g } := rfl
@[simp] theorem State.setCsr_others (s : State) (g : Csrs) : (s.setCsr g).others = s.others := rfl
@[simp] theorem State.setCsr_mem (s : State) (g : Csrs) : (s.setCsr g).mem = s.mem := rfl
@[simp] theorem State.setCsr_poison (s : State) (g : Csrs) : (s.setCsr g).poison = s.poison := rfl
@[simp] theorem State.setCsr_singles (s : State) (g : Csrs) : (s.setCsr g).singles = s.singles := rfl
@[simp] theorem State.setCsr_acc (s : State) (g : Csrs) : (s.setCsr g).acc = s.acc := rfl
@[simp] theorem State.setCsr_accTags (s : State) (g : Csrs) : (s.setCsr g).accTags = s.accTags := rfl
@[simp] theorem State.setCsr_hist (s : State) (g : Csrs) : (s.setCsr g).hist = s.hist := rfl
@[simp] theorem State.setCsr_stamp (s : State) (g : Csrs) : (s.setCsr g).stamp = s.stamp := rfl
@[simp] theorem State.setCsr_clock (s : State) (g : Csrs) : (s.setCsr g).clock = s.clock := rfl
@[simp] theorem State.setCsr_freeCount (s : State) (g : Csrs) : (s.setCsr g).freeCount = s.freeCount := rfl
@[simp] theorem State.setCsr_agenda (s : State) (g : Csrs) : (s.setCsr g).agenda = s.agenda := rfl
@[simp] theorem State.setCsr_nextId (s : State) (g : Csrs) : (s.setCsr g).nextId = s.nextId := rfl
@[simp] theorem State.setCsr_ops (s : State) (g : Csrs) : (s.setCsr g).ops = s.ops := rfl
@[simp] theorem State.setCsr_served (s : State) (g : Csrs) : (s.setCsr g).served = s.served := rfl
@[simp] theorem State.setCsr_threads (s : State) (g : Csrs) : (s.setCsr g).threads = s.threads := rfl
@[simp] theorem State.setCsr_teams (s : State) (g : Csrs) : (s.setCsr g).teams = s.teams := rfl
@[simp] theorem State.setCsr_gangs (s : State) (g : Csrs) : (s.setCsr g).gangs = s.gangs := rfl
@[simp] theorem State.setCsr_slots (s : State) (g : Csrs) : (s.setCsr g).slots = s.slots := rfl
@[simp] theorem State.setCsr_records (s : State) (g : Csrs) : (s.setCsr g).records = s.records := rfl
@[simp] theorem State.setCsr_spawnCounters (s : State) (g : Csrs) : (s.setCsr g).spawnCounters = s.spawnCounters := rfl
@[simp] theorem State.setCsr_channels (s : State) (g : Csrs) : (s.setCsr g).channels = s.channels := rfl
@[simp] theorem State.setCsr_leaves (s : State) (g : Csrs) : (s.setCsr g).leaves = s.leaves := rfl
@[simp] theorem State.setCsr_misses (s : State) (g : Csrs) : (s.setCsr g).misses = s.misses := rfl
@[simp] theorem State.setCsr_heldMisses (s : State) (g : Csrs) : (s.setCsr g).heldMisses = s.heldMisses := rfl
@[simp] theorem State.setCsr_queues (s : State) (g : Csrs) : (s.setCsr g).queues = s.queues := rfl
@[simp] theorem State.setCsr_objects (s : State) (g : Csrs) : (s.setCsr g).objects = s.objects := rfl
@[simp] theorem State.setCsr_restarting (s : State) (g : Csrs) : (s.setCsr g).restarting = s.restarting := rfl
@[simp] theorem State.setCsr_restartAt (s : State) (g : Csrs) : (s.setCsr g).restartAt = s.restartAt := rfl
@[simp] theorem State.setCsr_reports (s : State) (g : Csrs) : (s.setCsr g).reports = s.reports := rfl
@[simp] theorem State.setCsr_permits (s : State) (g : Csrs) : (s.setCsr g).permits = s.permits := rfl
@[simp] theorem State.setCsr_gated (s : State) (g : Csrs) : (s.setCsr g).gated = s.gated := rfl
@[simp] theorem State.setCsr_gatedWrites (s : State) (g : Csrs) : (s.setCsr g).gatedWrites = s.gatedWrites := rfl
@[simp] theorem State.setCsr_asyncWaiting (s : State) (g : Csrs) : (s.setCsr g).asyncWaiting = s.asyncWaiting := rfl
@[simp] theorem State.setCsr_replayLog (s : State) (g : Csrs) : (s.setCsr g).replayLog = s.replayLog := rfl
@[simp] theorem State.setCsr_gateSpills (s : State) (g : Csrs) : (s.setCsr g).gateSpills = s.gateSpills := rfl
@[simp] theorem State.setCsr_sec (s : State) (g : Csrs) : (s.setCsr g).sec = s.sec := rfl
@[simp] theorem State.setCsr_groups (s : State) (g : Csrs) : (s.setCsr g).groups = s.groups := rfl
@[simp] theorem State.setCsr_moduleNumber (s : State) (g : Csrs) : (s.setCsr g).moduleNumber = s.moduleNumber := rfl
@[simp] theorem State.setCsr_routes (s : State) (g : Csrs) : (s.setCsr g).routes = s.routes := rfl
@[simp] theorem State.setCsr_recovering (s : State) (g : Csrs) : (s.setCsr g).recovering = s.recovering := rfl
@[simp] theorem State.setCsr_throttle (s : State) (g : Csrs) : (s.setCsr g).throttle = s.throttle := rfl
@[simp] theorem State.setCsr_belowSince (s : State) (g : Csrs) : (s.setCsr g).belowSince = s.belowSince := rfl

/-! ### Memory, free values, fresh numbers -/

@[simp] theorem State.writeMem_core (s : State) (a : Nat) (l : List Byte) : (s.writeMem a l).core = s.core := rfl
@[simp] theorem State.writeMem_others (s : State) (a : Nat) (l : List Byte) : (s.writeMem a l).others = s.others := rfl
@[simp] theorem State.writeMem_mem (s : State) (a : Nat) (l : List Byte) : (s.writeMem a l).mem = s.mem.write a l := rfl
@[simp] theorem State.writeMem_poison (s : State) (a : Nat) (l : List Byte) : (s.writeMem a l).poison = s.poison := rfl
@[simp] theorem State.writeMem_singles (s : State) (a : Nat) (l : List Byte) : (s.writeMem a l).singles = s.singles := rfl
@[simp] theorem State.writeMem_acc (s : State) (a : Nat) (l : List Byte) : (s.writeMem a l).acc = s.acc := rfl
@[simp] theorem State.writeMem_accTags (s : State) (a : Nat) (l : List Byte) : (s.writeMem a l).accTags = s.accTags := rfl
@[simp] theorem State.writeMem_hist (s : State) (a : Nat) (l : List Byte) : (s.writeMem a l).hist = s.hist := rfl
@[simp] theorem State.writeMem_stamp (s : State) (a : Nat) (l : List Byte) : (s.writeMem a l).stamp = s.stamp := rfl
@[simp] theorem State.writeMem_clock (s : State) (a : Nat) (l : List Byte) : (s.writeMem a l).clock = s.clock := rfl
@[simp] theorem State.writeMem_freeCount (s : State) (a : Nat) (l : List Byte) : (s.writeMem a l).freeCount = s.freeCount := rfl
@[simp] theorem State.writeMem_agenda (s : State) (a : Nat) (l : List Byte) : (s.writeMem a l).agenda = s.agenda := rfl
@[simp] theorem State.writeMem_nextId (s : State) (a : Nat) (l : List Byte) : (s.writeMem a l).nextId = s.nextId := rfl
@[simp] theorem State.writeMem_ops (s : State) (a : Nat) (l : List Byte) : (s.writeMem a l).ops = s.ops := rfl
@[simp] theorem State.writeMem_served (s : State) (a : Nat) (l : List Byte) : (s.writeMem a l).served = s.served := rfl
@[simp] theorem State.writeMem_threads (s : State) (a : Nat) (l : List Byte) : (s.writeMem a l).threads = s.threads := rfl
@[simp] theorem State.writeMem_teams (s : State) (a : Nat) (l : List Byte) : (s.writeMem a l).teams = s.teams := rfl
@[simp] theorem State.writeMem_gangs (s : State) (a : Nat) (l : List Byte) : (s.writeMem a l).gangs = s.gangs := rfl
@[simp] theorem State.writeMem_slots (s : State) (a : Nat) (l : List Byte) : (s.writeMem a l).slots = s.slots := rfl
@[simp] theorem State.writeMem_records (s : State) (a : Nat) (l : List Byte) : (s.writeMem a l).records = s.records := rfl
@[simp] theorem State.writeMem_spawnCounters (s : State) (a : Nat) (l : List Byte) : (s.writeMem a l).spawnCounters = s.spawnCounters := rfl
@[simp] theorem State.writeMem_channels (s : State) (a : Nat) (l : List Byte) : (s.writeMem a l).channels = s.channels := rfl
@[simp] theorem State.writeMem_leaves (s : State) (a : Nat) (l : List Byte) : (s.writeMem a l).leaves = s.leaves := rfl
@[simp] theorem State.writeMem_misses (s : State) (a : Nat) (l : List Byte) : (s.writeMem a l).misses = s.misses := rfl
@[simp] theorem State.writeMem_heldMisses (s : State) (a : Nat) (l : List Byte) : (s.writeMem a l).heldMisses = s.heldMisses := rfl
@[simp] theorem State.writeMem_queues (s : State) (a : Nat) (l : List Byte) : (s.writeMem a l).queues = s.queues := rfl
@[simp] theorem State.writeMem_objects (s : State) (a : Nat) (l : List Byte) : (s.writeMem a l).objects = s.objects := rfl
@[simp] theorem State.writeMem_restarting (s : State) (a : Nat) (l : List Byte) : (s.writeMem a l).restarting = s.restarting := rfl
@[simp] theorem State.writeMem_restartAt (s : State) (a : Nat) (l : List Byte) : (s.writeMem a l).restartAt = s.restartAt := rfl
@[simp] theorem State.writeMem_reports (s : State) (a : Nat) (l : List Byte) : (s.writeMem a l).reports = s.reports := rfl
@[simp] theorem State.writeMem_permits (s : State) (a : Nat) (l : List Byte) : (s.writeMem a l).permits = s.permits := rfl
@[simp] theorem State.writeMem_gated (s : State) (a : Nat) (l : List Byte) : (s.writeMem a l).gated = s.gated := rfl
@[simp] theorem State.writeMem_gatedWrites (s : State) (a : Nat) (l : List Byte) : (s.writeMem a l).gatedWrites = s.gatedWrites := rfl
@[simp] theorem State.writeMem_asyncWaiting (s : State) (a : Nat) (l : List Byte) : (s.writeMem a l).asyncWaiting = s.asyncWaiting := rfl
@[simp] theorem State.writeMem_replayLog (s : State) (a : Nat) (l : List Byte) : (s.writeMem a l).replayLog = s.replayLog := rfl
@[simp] theorem State.writeMem_gateSpills (s : State) (a : Nat) (l : List Byte) : (s.writeMem a l).gateSpills = s.gateSpills := rfl
@[simp] theorem State.writeMem_sec (s : State) (a : Nat) (l : List Byte) : (s.writeMem a l).sec = s.sec := rfl
@[simp] theorem State.writeMem_groups (s : State) (a : Nat) (l : List Byte) : (s.writeMem a l).groups = s.groups := rfl
@[simp] theorem State.writeMem_moduleNumber (s : State) (a : Nat) (l : List Byte) : (s.writeMem a l).moduleNumber = s.moduleNumber := rfl
@[simp] theorem State.writeMem_routes (s : State) (a : Nat) (l : List Byte) : (s.writeMem a l).routes = s.routes := rfl
@[simp] theorem State.writeMem_recovering (s : State) (a : Nat) (l : List Byte) : (s.writeMem a l).recovering = s.recovering := rfl
@[simp] theorem State.writeMem_throttle (s : State) (a : Nat) (l : List Byte) : (s.writeMem a l).throttle = s.throttle := rfl
@[simp] theorem State.writeMem_belowSince (s : State) (a : Nat) (l : List Byte) : (s.writeMem a l).belowSince = s.belowSince := rfl

@[simp] theorem State.draw_core (s : State) : s.draw.1.core = s.core := rfl
@[simp] theorem State.draw_others (s : State) : s.draw.1.others = s.others := rfl
@[simp] theorem State.draw_mem (s : State) : s.draw.1.mem = s.mem := rfl
@[simp] theorem State.draw_poison (s : State) : s.draw.1.poison = s.poison := rfl
@[simp] theorem State.draw_singles (s : State) : s.draw.1.singles = s.singles := rfl
@[simp] theorem State.draw_acc (s : State) : s.draw.1.acc = s.acc := rfl
@[simp] theorem State.draw_accTags (s : State) : s.draw.1.accTags = s.accTags := rfl
@[simp] theorem State.draw_hist (s : State) : s.draw.1.hist = s.hist := rfl
@[simp] theorem State.draw_stamp (s : State) : s.draw.1.stamp = s.stamp := rfl
@[simp] theorem State.draw_clock (s : State) : s.draw.1.clock = s.clock := rfl
@[simp] theorem State.draw_freeCount (s : State) : s.draw.1.freeCount = s.freeCount + 1 := rfl
@[simp] theorem State.draw_agenda (s : State) : s.draw.1.agenda = s.agenda := rfl
@[simp] theorem State.draw_nextId (s : State) : s.draw.1.nextId = s.nextId := rfl
@[simp] theorem State.draw_ops (s : State) : s.draw.1.ops = s.ops := rfl
@[simp] theorem State.draw_served (s : State) : s.draw.1.served = s.served := rfl
@[simp] theorem State.draw_threads (s : State) : s.draw.1.threads = s.threads := rfl
@[simp] theorem State.draw_teams (s : State) : s.draw.1.teams = s.teams := rfl
@[simp] theorem State.draw_gangs (s : State) : s.draw.1.gangs = s.gangs := rfl
@[simp] theorem State.draw_slots (s : State) : s.draw.1.slots = s.slots := rfl
@[simp] theorem State.draw_records (s : State) : s.draw.1.records = s.records := rfl
@[simp] theorem State.draw_spawnCounters (s : State) : s.draw.1.spawnCounters = s.spawnCounters := rfl
@[simp] theorem State.draw_channels (s : State) : s.draw.1.channels = s.channels := rfl
@[simp] theorem State.draw_leaves (s : State) : s.draw.1.leaves = s.leaves := rfl
@[simp] theorem State.draw_misses (s : State) : s.draw.1.misses = s.misses := rfl
@[simp] theorem State.draw_heldMisses (s : State) : s.draw.1.heldMisses = s.heldMisses := rfl
@[simp] theorem State.draw_queues (s : State) : s.draw.1.queues = s.queues := rfl
@[simp] theorem State.draw_objects (s : State) : s.draw.1.objects = s.objects := rfl
@[simp] theorem State.draw_restarting (s : State) : s.draw.1.restarting = s.restarting := rfl
@[simp] theorem State.draw_restartAt (s : State) : s.draw.1.restartAt = s.restartAt := rfl
@[simp] theorem State.draw_reports (s : State) : s.draw.1.reports = s.reports := rfl
@[simp] theorem State.draw_permits (s : State) : s.draw.1.permits = s.permits := rfl
@[simp] theorem State.draw_gated (s : State) : s.draw.1.gated = s.gated := rfl
@[simp] theorem State.draw_gatedWrites (s : State) : s.draw.1.gatedWrites = s.gatedWrites := rfl
@[simp] theorem State.draw_asyncWaiting (s : State) : s.draw.1.asyncWaiting = s.asyncWaiting := rfl
@[simp] theorem State.draw_replayLog (s : State) : s.draw.1.replayLog = s.replayLog := rfl
@[simp] theorem State.draw_gateSpills (s : State) : s.draw.1.gateSpills = s.gateSpills := rfl
@[simp] theorem State.draw_sec (s : State) : s.draw.1.sec = s.sec := rfl
@[simp] theorem State.draw_groups (s : State) : s.draw.1.groups = s.groups := rfl
@[simp] theorem State.draw_moduleNumber (s : State) : s.draw.1.moduleNumber = s.moduleNumber := rfl
@[simp] theorem State.draw_routes (s : State) : s.draw.1.routes = s.routes := rfl
@[simp] theorem State.draw_recovering (s : State) : s.draw.1.recovering = s.recovering := rfl
@[simp] theorem State.draw_throttle (s : State) : s.draw.1.throttle = s.throttle := rfl
@[simp] theorem State.draw_belowSince (s : State) : s.draw.1.belowSince = s.belowSince := rfl

@[simp] theorem State.fresh_core (s : State) : s.fresh.1.core = s.core := rfl
@[simp] theorem State.fresh_others (s : State) : s.fresh.1.others = s.others := rfl
@[simp] theorem State.fresh_mem (s : State) : s.fresh.1.mem = s.mem := rfl
@[simp] theorem State.fresh_poison (s : State) : s.fresh.1.poison = s.poison := rfl
@[simp] theorem State.fresh_singles (s : State) : s.fresh.1.singles = s.singles := rfl
@[simp] theorem State.fresh_acc (s : State) : s.fresh.1.acc = s.acc := rfl
@[simp] theorem State.fresh_accTags (s : State) : s.fresh.1.accTags = s.accTags := rfl
@[simp] theorem State.fresh_hist (s : State) : s.fresh.1.hist = s.hist := rfl
@[simp] theorem State.fresh_stamp (s : State) : s.fresh.1.stamp = s.stamp := rfl
@[simp] theorem State.fresh_clock (s : State) : s.fresh.1.clock = s.clock := rfl
@[simp] theorem State.fresh_freeCount (s : State) : s.fresh.1.freeCount = s.freeCount := rfl
@[simp] theorem State.fresh_agenda (s : State) : s.fresh.1.agenda = s.agenda := rfl
@[simp] theorem State.fresh_nextId (s : State) : s.fresh.1.nextId = s.nextId + 1 := rfl
@[simp] theorem State.fresh_ops (s : State) : s.fresh.1.ops = s.ops := rfl
@[simp] theorem State.fresh_served (s : State) : s.fresh.1.served = s.served := rfl
@[simp] theorem State.fresh_threads (s : State) : s.fresh.1.threads = s.threads := rfl
@[simp] theorem State.fresh_teams (s : State) : s.fresh.1.teams = s.teams := rfl
@[simp] theorem State.fresh_gangs (s : State) : s.fresh.1.gangs = s.gangs := rfl
@[simp] theorem State.fresh_slots (s : State) : s.fresh.1.slots = s.slots := rfl
@[simp] theorem State.fresh_records (s : State) : s.fresh.1.records = s.records := rfl
@[simp] theorem State.fresh_spawnCounters (s : State) : s.fresh.1.spawnCounters = s.spawnCounters := rfl
@[simp] theorem State.fresh_channels (s : State) : s.fresh.1.channels = s.channels := rfl
@[simp] theorem State.fresh_leaves (s : State) : s.fresh.1.leaves = s.leaves := rfl
@[simp] theorem State.fresh_misses (s : State) : s.fresh.1.misses = s.misses := rfl
@[simp] theorem State.fresh_heldMisses (s : State) : s.fresh.1.heldMisses = s.heldMisses := rfl
@[simp] theorem State.fresh_queues (s : State) : s.fresh.1.queues = s.queues := rfl
@[simp] theorem State.fresh_objects (s : State) : s.fresh.1.objects = s.objects := rfl
@[simp] theorem State.fresh_restarting (s : State) : s.fresh.1.restarting = s.restarting := rfl
@[simp] theorem State.fresh_restartAt (s : State) : s.fresh.1.restartAt = s.restartAt := rfl
@[simp] theorem State.fresh_reports (s : State) : s.fresh.1.reports = s.reports := rfl
@[simp] theorem State.fresh_permits (s : State) : s.fresh.1.permits = s.permits := rfl
@[simp] theorem State.fresh_gated (s : State) : s.fresh.1.gated = s.gated := rfl
@[simp] theorem State.fresh_gatedWrites (s : State) : s.fresh.1.gatedWrites = s.gatedWrites := rfl
@[simp] theorem State.fresh_asyncWaiting (s : State) : s.fresh.1.asyncWaiting = s.asyncWaiting := rfl
@[simp] theorem State.fresh_replayLog (s : State) : s.fresh.1.replayLog = s.replayLog := rfl
@[simp] theorem State.fresh_gateSpills (s : State) : s.fresh.1.gateSpills = s.gateSpills := rfl
@[simp] theorem State.fresh_sec (s : State) : s.fresh.1.sec = s.sec := rfl
@[simp] theorem State.fresh_groups (s : State) : s.fresh.1.groups = s.groups := rfl
@[simp] theorem State.fresh_moduleNumber (s : State) : s.fresh.1.moduleNumber = s.moduleNumber := rfl
@[simp] theorem State.fresh_routes (s : State) : s.fresh.1.routes = s.routes := rfl
@[simp] theorem State.fresh_recovering (s : State) : s.fresh.1.recovering = s.recovering := rfl
@[simp] theorem State.fresh_throttle (s : State) : s.fresh.1.throttle = s.throttle := rfl
@[simp] theorem State.fresh_belowSince (s : State) : s.fresh.1.belowSince = s.belowSince := rfl

/-! ### Reads after writes -/

@[simp] theorem Core.rx_zero (c : Core) : c.rx 0 = 0 := rfl
@[simp] theorem Core.rp_zero (c : Core) : c.rp 0 = true := rfl
@[simp] theorem Core.rk_zero (c : Core) : c.rk 0 = BitVec.allOnes 32 := rfl
@[simp] theorem Core.wx_zero (c : Core) (v : Word) : c.wx 0 v = c := rfl
@[simp] theorem Core.wp_zero (c : Core) (v : Bool) : c.wp 0 v = c := rfl
@[simp] theorem Core.wk_zero (c : Core) (v : BitVec 32) : c.wk 0 v = c := rfl

/-- Reading a register file after one of its entries is set. -/
theorem vector_get_set {α : Type} {n : Nat} (l : Vector α n) (i j : Fin n) (a : α) :
    (l.set i a).get j = if i = j then a else l.get j := by
  have h1 : ∀ (m : Vector α n), m.get j = m[(j : Nat)] := fun _ => rfl
  rw [h1, h1, Vector.getElem_set]
  simp only [Fin.ext_iff]

/-- x[q] after a write of x[r]: x0 keeps reading 0 (R11). -/
theorem Core.rx_wx (c : Core) (r q : XReg) (v : Word) :
    (c.wx r v).rx q = if r = q ∧ q ≠ 0 then v else c.rx q := by
  unfold Core.wx Core.rx
  by_cases h0 : q = 0
  · simp [h0]
  · by_cases hr : r = 0
    · subst hr
      have : ¬ (0 : XReg) = q := fun e => h0 e.symm
      simp [h0, this]
    · simp [h0, hr, vector_get_set]

theorem Core.rp_wp (c : Core) (r q : PReg) (v : Bool) :
    (c.wp r v).rp q = if r = q ∧ q ≠ 0 then v else c.rp q := by
  unfold Core.wp Core.rp
  by_cases h0 : q = 0
  · simp [h0]
  · by_cases hr : r = 0
    · subst hr
      have : ¬ (0 : PReg) = q := fun e => h0 e.symm
      simp [h0, this]
    · simp [h0, hr, vector_get_set]

theorem Core.rk_wk (c : Core) (r q : KReg) (v : BitVec 32) :
    (c.wk r v).rk q = if r = q ∧ q ≠ 0 then v else c.rk q := by
  unfold Core.wk Core.rk
  by_cases h0 : q = 0
  · simp [h0]
  · by_cases hr : r = 0
    · subst hr
      have : ¬ (0 : KReg) = q := fun e => h0 e.symm
      simp [h0, this]
    · simp [h0, hr, vector_get_set]

theorem Core.rv_wv (c : Core) (r q : VReg) (w : VecReg) :
    (c.wv r w).rv q = if r = q then w else c.rv q := by
  simp [Core.wv, Core.rv, vector_get_set]

@[simp] theorem Core.rx_wx_same (c : Core) (r : XReg) (v : Word) (h : r ≠ 0) : (c.wx r v).rx r = v := by
  simp [Core.rx_wx, h]
theorem Core.rx_wx_ne (c : Core) (r q : XReg) (v : Word) (h : r ≠ q) : (c.wx r v).rx q = c.rx q := by
  simp [Core.rx_wx, h]
theorem Core.rp_wp_ne (c : Core) (r q : PReg) (v : Bool) (h : r ≠ q) : (c.wp r v).rp q = c.rp q := by
  simp [Core.rp_wp, h]
theorem Core.rk_wk_ne (c : Core) (r q : KReg) (v : BitVec 32) (h : r ≠ q) : (c.wk r v).rk q = c.rk q := by
  simp [Core.rk_wk, h]
theorem Core.rv_wv_ne (c : Core) (r q : VReg) (w : VecReg) (h : r ≠ q) : (c.wv r w).rv q = c.rv q := by
  simp [Core.rv_wv, h]

end Sys2Proof.Machine
end

