-- ==== Sys2Proof/Laws/Retire.lean ====
section
/-! SUPPORT. What a retirement can change (R17, R65, R141, R280): the pc, the loop counts, INSTRET, the convoy, and what
a kill at an eager point takes. -/
namespace Sys2Proof.Machine
open Sys2Proof

/-- The part of a core that no retirement changes. -/
structure CoreKept (c e : Core) : Prop where
  num : e.num = c.num
  x : e.x = c.x
  p : e.p = c.p
  v : e.v = c.v
  k : e.k = c.k
  csr : e.csr.kept = c.csr.kept
  instret : e.csr.instret = c.csr.instret
  lpc0 : e.csr.lpc0 = c.csr.lpc0
  lpc1 : e.csr.lpc1 = c.csr.lpc1
  mode : e.mode = c.mode
  domain : e.domain = c.domain
  cid : e.cid = c.cid
  tid : e.tid = c.tid
  gateHw : e.gateHw = c.gateHw
  gateSpill : e.gateSpill = c.gateSpill
  loans : ∀ i, (e.loans.get i).kept = (c.loans.get i).kept
  lpt : e.lpt = c.lpt
  pe : e.pe = c.pe
  tiles : e.tiles = c.tiles
  scales : e.scales = c.scales
  pendV : e.pendV = c.pendV
  dbg : e.dbg = c.dbg
  stopped : e.stopped = c.stopped

theorem CoreKept.refl (c : Core) : CoreKept c c := by constructor <;> intros <;> rfl

theorem CoreKept.trans {a b c : Core} (h : CoreKept a b) (g : CoreKept b c) : CoreKept a c := by
  constructor <;> intros <;> first
    | exact g.num.trans h.num | exact g.x.trans h.x | exact g.p.trans h.p | exact g.v.trans h.v | exact g.k.trans h.k
    | exact g.csr.trans h.csr | exact g.instret.trans h.instret | exact g.lpc0.trans h.lpc0 | exact g.lpc1.trans h.lpc1
    | exact g.mode.trans h.mode | exact g.domain.trans h.domain | exact g.cid.trans h.cid | exact g.tid.trans h.tid
    | exact g.gateHw.trans h.gateHw | exact g.gateSpill.trans h.gateSpill | exact (g.loans _).trans (h.loans _)
    | exact g.lpt.trans h.lpt | exact g.pe.trans h.pe | exact g.tiles.trans h.tiles | exact g.scales.trans h.scales
    | exact g.pendV.trans h.pendV | exact g.dbg.trans h.dbg | exact g.stopped.trans h.stopped

/-- The part of the module that no retirement changes, and what it keeps of the core in focus. -/
structure Kept (s t : State) : Prop where
  core : CoreKept s.core t.core
  mem : t.mem = s.mem
  poison : t.poison = s.poison
  acc : t.acc = s.acc
  accTags : t.accTags = s.accTags

theorem Kept.refl (s : State) : Kept s s := ⟨CoreKept.refl _, rfl, rfl, rfl, rfl⟩

theorem Kept.trans {a b c : State} (h : Kept a b) (g : Kept b c) : Kept a c :=
  ⟨h.core.trans g.core, g.mem.trans h.mem, g.poison.trans h.poison, g.acc.trans h.acc, g.accTags.trans h.accTags⟩

/-! ### Changing one core -/

theorem State.getCore_num (s : State) (n : Nat) : (s.getCore n).num = n := by
  unfold State.getCore
  split
  · assumption
  · cases h : s.others.find? fun o => o.num == n with
    | none => rfl
    | some o => simpa using List.find?_some h

/-- What holds of f's effect on every core holds of the core in focus after f changed some core. -/
theorem State.modCore_core (s : State) (n : Nat) (f : Core → Core) (R : Core → Core → Prop)
    (hr : ∀ c, R c c) (hf : ∀ c, R c (f c)) (hn : ∀ c, (f c).num = c.num) : R s.core (s.modCore n f).core := by
  unfold State.modCore State.putCore
  rw [hn, State.getCore_num]
  by_cases h : s.core.num = n
  · simp only [h, if_true]
    have : s.getCore n = s.core := by simp [State.getCore, h]
    rw [this]; exact hf _
  · simp only [h, if_false]; exact hr _

theorem State.putCore_mem (s : State) (c : Core) :
    (s.putCore c).mem = s.mem ∧ (s.putCore c).poison = s.poison ∧ (s.putCore c).acc = s.acc ∧
      (s.putCore c).accTags = s.accTags := by
  unfold State.putCore; split <;> exact ⟨rfl, rfl, rfl, rfl⟩

theorem State.modCore_kept (s : State) (n : Nat) (f : Core → Core) (hf : ∀ c, CoreKept c (f c)) : Kept s (s.modCore n f) := by
  obtain ⟨h1, h2, h3, h4⟩ := s.putCore_mem (f (s.getCore n))
  exact ⟨s.modCore_core n f CoreKept CoreKept.refl hf fun c => (hf c).num, h1, h2, h3, h4⟩

theorem foldl_kept {α : Type} (l : List α) (f : State → α → State) (hf : ∀ u a, Kept u (f u a)) (s : State) :
    Kept s (l.foldl f s) := by
  induction l generalizing s with
  | nil => exact Kept.refl s
  | cons a t ih => exact (hf s a).trans (ih _)

/-- A state that differs outside the core and the memories. -/
theorem Kept.of_eq {s t : State} (h : t.core = s.core) (h1 : t.mem = s.mem) (h2 : t.poison = s.poison) (h3 : t.acc = s.acc)
    (h4 : t.accTags = s.accTags) : Kept s t := ⟨h ▸ CoreKept.refl _, h1, h2, h3, h4⟩

/-- A change of the core in focus that a retirement may make. -/
theorem Kept.of_core (s : State) (c : Core) (h : CoreKept s.core c) : Kept s { s with core := c } := ⟨h, rfl, rfl, rfl, rfl⟩

/-! ### Convoys (R141) -/

theorem Core.setConvoy_kept (c : Core) (v : Convoy) : CoreKept c (c.setConvoy v) := by
  constructor <;> intros <;> rfl

theorem State.freeFollowers_kept (s : State) : Kept s s.freeFollowers := by
  refine foldl_kept _ _ (fun u n => u.modCore_kept n _ fun c => ?_) s
  split
  · exact c.setConvoy_kept _
  · exact CoreKept.refl c

theorem State.detach_kept (s : State) : Kept s s.detach := by
  unfold State.detach
  split
  · exact Kept.of_core s _ (s.core.setConvoy_kept _)
  · exact s.freeFollowers_kept.trans (Kept.of_core _ _ (Core.setConvoy_kept _ _))
  · exact Kept.refl s

theorem State.convoyStep_kept (s : State) (next : Word) (cond : Bool) : Kept s (s.convoyStep next cond) := by
  unfold State.convoyStep
  split
  · exact Kept.refl s
  · split
    · refine foldl_kept _ _ (fun u n => u.modCore_kept n _ fun c => ?_) s
      split
      · constructor <;> intros <;> rfl
      · exact CoreKept.refl c
    · split
      · exact Kept.refl s
      · split
        · refine Kept.of_core s _ ?_
          constructor <;> intros <;> rfl
        · exact s.detach_kept
    · exact Kept.refl s

/-! ### Kills (R280) -/

theorem Core.clearTask_kept (c : Core) : CoreKept c c.clearTask := by constructor <;> intros <;> rfl

theorem Core.dropHolds_kept (c : Core) (l : List (Fin 8)) : CoreKept c (c.dropHolds l) := by
  constructor
  case loans =>
    intro i
    simp only [Core.dropHolds, modHolds, Vector.get, Vector.toArray_ofFn, Array.getElem_ofFn]
    simp only [Fin.val_cast]
    split <;> rfl
  all_goals rfl

theorem Core.setPending_kept (c : Core) (r : XReg) (b : Bool) : CoreKept c (c.setPending r b) := by
  unfold Core.setPending
  split
  · exact CoreKept.refl c
  · constructor <;> intros <;> rfl

theorem Core.decCounter_kept (c : Core) (o : Option (Fin 16)) : CoreKept c (c.decCounter o) := by
  cases o <;> constructor <;> intros <;> rfl

theorem State.taskLeaves_kept (s : State) (c : Core) : Kept s (s.taskLeaves c) := by
  unfold State.taskLeaves
  split <;> exact Kept.of_eq rfl rfl rfl rfl rfl

theorem State.calKill_kept (s : State) (c : Core) : Kept s (s.calKill c) := by
  unfold State.calKill
  split
  · exact Kept.refl s
  · rename_i t _
    split
    · exact Kept.refl s
    · split
      · exact Kept.of_eq rfl rfl rfl rfl rfl
      · dsimp only
        split
        · split
          · exact Kept.of_eq rfl rfl rfl rfl rfl
          · rename_i o _ _
            have h1 : Kept s ((((s.calEnd t.team 5 .ok 0).calMemberDone t.team t.rank)).dropOp o.id) :=
              Kept.of_eq rfl rfl rfl rfl rfl
            exact h1.trans (State.modCore_kept _ _ _ fun k =>
              ((k.setPending_kept _ _).trans (Core.decCounter_kept _ _)).trans (Core.dropHolds_kept _ _))
        · exact Kept.of_eq rfl rfl rfl rfl rfl

theorem State.logFrom_kept (s : State) (c : Core) (src : Origin) (w : Nat) (v : Word) (l : List Host.Cell) :
    Kept s (s.logFrom c src w v l) := by
  unfold State.logFrom
  split
  · exact Kept.of_eq rfl rfl rfl rfl rfl
  · exact Kept.refl s

theorem State.logExt_kept (s : State) (c : Core) (src : Origin) (w : Nat) (v : Word) : Kept s (s.logExt c src w v) :=
  s.logFrom_kept _ _ _ _ _

theorem State.killTask_kept (s : State) : Kept s s.killTask := by
  unfold State.killTask
  refine (((s.taskLeaves_kept _).trans (State.calKill_kept _ _)).trans (State.logExt_kept _ _ _ _ _)).trans
    (Kept.of_core _ _ ?_)
  unfold Core.settleLoads
  split <;> (constructor <;> intros <;> rfl)

/-! ### Retirement -/

theorem backEdge_kept (c : Csrs) (a next : Word) (taken : Bool) :
    (backEdge c a next taken).1.kept = c.kept ∧ (backEdge c a next taken).1.instret = c.instret ∧
      (backEdge c a next taken).1.ttask = c.ttask ∧ (backEdge c a next taken).1.cnt = c.cnt := by
  unfold backEdge
  dsimp only
  repeat' split
  all_goals exact ⟨rfl, rfl, rfl, rfl⟩

theorem backEdge_idle (c : Csrs) (a next : Word) (taken : Bool) (h0 : c.lpc0 = 0) (h1 : c.lpc1 = 0) :
    backEdge c a next taken = (c, next, false) := by
  simp [backEdge, h0, h1]

/-- The module right after the back-edge test of a retirement. -/
def State.edged (s : State) (next : Word) (taken : Bool) : State := { s with core := s.core.retired next taken }

/-- The state a kill at a retirement leaves, before the convoy sees it. -/
def State.killedFrom (s : State) (a : Word) : State := { s.killTask with core := { s.killTask.core with passer := a } }

theorem State.killedFrom_kept (s : State) (a : Word) : Kept s (s.killedFrom a) := by
  refine (State.killTask_kept _).trans (Kept.of_core _ _ ?_)
  constructor <;> intros <;> rfl

/-- Everything a retirement can do: the back-edge, perhaps a kill, then the convoy. -/
theorem State.retireAs_cases (s : State) (next : Word) (taken cond kills : Bool) :
    s.retireAs next taken cond kills = (s.edged next taken).convoyStep (s.edged next taken).core.pc cond ∨
      (kills = true ∧ (s.edged next taken).taskFailsAt (s.edged next taken).core (s.edged next taken).core.num = true ∧
        s.retireAs next taken cond kills =
          ((s.edged next taken).killedFrom s.core.pc).convoyStep ((s.edged next taken).killedFrom s.core.pc).core.pc cond) := by
  by_cases h : (kills && (s.edged next taken).taskFailsAt (s.edged next taken).core (s.edged next taken).core.num) = true
  · have g := h
    simp only [Bool.and_eq_true] at g
    have e : (s.edged next taken).eagerKill kills s.core.pc = (s.edged next taken).killedFrom s.core.pc := if_pos h
    refine Or.inr ⟨g.1, g.2, ?_⟩
    rw [← e]; rfl
  · have e : (s.edged next taken).eagerKill kills s.core.pc = s.edged next taken := if_neg h
    refine Or.inl ?_
    show ((s.edged next taken).eagerKill kills s.core.pc).convoyStep
      ((s.edged next taken).eagerKill kills s.core.pc).core.pc cond = _
    rw [e]

theorem State.retireWith_cases (s : State) (next : Word) (taken cond : Bool) :
    s.retireWith next taken cond = (s.edged next taken).convoyStep (s.edged next taken).core.pc cond ∨
      (s.core.eagerPoint next taken = true ∧
        (s.edged next taken).taskFailsAt (s.edged next taken).core (s.edged next taken).core.num = true ∧
        s.retireWith next taken cond =
          ((s.edged next taken).killedFrom s.core.pc).convoyStep ((s.edged next taken).killedFrom s.core.pc).core.pc cond) :=
  s.retireAs_cases next taken cond (s.core.eagerPoint next taken)

/-- What a retirement leaves of everything but the loop counts, INSTRET and the pc. -/
theorem State.retireAs_kept (s : State) (next : Word) (taken cond kills : Bool) :
    Kept (s.edged next taken) (s.retireAs next taken cond kills) := by
  rcases s.retireAs_cases next taken cond kills with h | ⟨-, -, h⟩
  · rw [h]; exact State.convoyStep_kept _ _ _
  · rw [h]; exact (State.killedFrom_kept _ _).trans (State.convoyStep_kept _ _ _)

theorem State.retireWith_kept (s : State) (next : Word) (taken cond : Bool) :
    Kept (s.edged next taken) (s.retireWith next taken cond) := s.retireAs_kept next taken cond _

theorem Core.retired_csr_kept (c : Core) (next : Word) (taken : Bool) : (c.retired next taken).csr.kept = c.csr.kept := by
  obtain ⟨h1, -⟩ := backEdge_kept c.csr c.pc next taken
  unfold Core.retired
  dsimp only
  split
  · simpa [Csrs.kept] using h1
  · exact h1

theorem Core.retired_instret (c : Core) (next : Word) (taken : Bool) :
    (c.retired next taken).csr.instret = (if c.mode = .program then c.csr.instret + 1 else c.csr.instret) := by
  obtain ⟨-, h2, -⟩ := backEdge_kept c.csr c.pc next taken
  unfold Core.retired
  dsimp only
  split <;> simp [h2]

theorem Core.retired_task (c : Core) (next : Word) (taken : Bool) :
    (c.retired next taken).csr.ttask = c.csr.ttask ∧ (c.retired next taken).csr.cnt = c.csr.cnt := by
  obtain ⟨-, -, h3, h4⟩ := backEdge_kept c.csr c.pc next taken
  unfold Core.retired
  dsimp only
  split <;> exact ⟨h3, h4⟩

/-! ### A convoy's step leaves everything but convoys -/

/-- A core without its convoy state. -/
def Core.streamless (c : Core) : Core := { c with convoy := .alone, trail := [] }

/-- What a change of some core's convoy leaves of the core in focus. -/
def Core.aside (c e : Core) : Prop :=
  e.pc = c.pc ∧ e.csr = c.csr ∧ e.passer = c.passer ∧ e.streamless = c.streamless

theorem Core.aside_trans {a b c : Core} (h : a.aside b) (g : b.aside c) : a.aside c :=
  ⟨g.1.trans h.1, g.2.1.trans h.2.1, g.2.2.1.trans h.2.2.1, g.2.2.2.trans h.2.2.2⟩

theorem foldl_aside {α : Type} (l : List α) (f : State → α → State) (hf : ∀ (u : State) a, u.core.aside (f u a).core)
    (s : State) :
    s.core.aside (l.foldl f s).core := by
  induction l generalizing s with
  | nil => exact ⟨rfl, rfl, rfl, rfl⟩
  | cons a t ih => exact Core.aside_trans (hf s a) (ih _)

theorem State.freeFollowers_aside (s : State) : s.core.aside s.freeFollowers.core := by
  refine foldl_aside _ _ (fun u n => u.modCore_core n _ Core.aside (fun _ => ⟨rfl, rfl, rfl, rfl⟩) (fun c => ?_) fun c => ?_) s
  all_goals split <;> first | rfl | exact ⟨rfl, rfl, rfl, rfl⟩

theorem State.detach_aside (s : State) : s.core.aside s.detach.core := by
  unfold State.detach
  split
  · exact ⟨rfl, rfl, rfl, rfl⟩
  · exact Core.aside_trans s.freeFollowers_aside ⟨rfl, rfl, rfl, rfl⟩
  · exact ⟨rfl, rfl, rfl, rfl⟩

theorem State.convoyStep_aside (s : State) (next : Word) (cond : Bool) : s.core.aside (s.convoyStep next cond).core := by
  unfold State.convoyStep
  split
  · exact ⟨rfl, rfl, rfl, rfl⟩
  · split
    · refine foldl_aside _ _ (fun u n => u.modCore_core n _ Core.aside (fun _ => ⟨rfl, rfl, rfl, rfl⟩) (fun c => ?_) fun c => ?_) s
      all_goals split <;> first | rfl | exact ⟨rfl, rfl, rfl, rfl⟩
    · split
      · exact ⟨rfl, rfl, rfl, rfl⟩
      · split
        · exact ⟨rfl, rfl, rfl, rfl⟩
        · exact s.detach_aside
    · exact ⟨rfl, rfl, rfl, rfl⟩

/-! A convoy's step changes cores alone. -/

/-- The module without its cores. -/
def State.units (s : State) : State := { s with core := Core.reset 0, others := [] }

theorem State.putCore_units (s : State) (c : Core) : (s.putCore c).units = s.units := by
  unfold State.putCore; split <;> rfl

theorem State.modCore_units (s : State) (n : Nat) (f : Core → Core) : (s.modCore n f).units = s.units := s.putCore_units _

theorem foldl_units {α : Type} (l : List α) (f : State → α → State) (hf : ∀ (u : State) a, (f u a).units = u.units)
    (s : State) : (l.foldl f s).units = s.units := by
  induction l generalizing s with
  | nil => rfl
  | cons a t ih => exact (ih _).trans (hf s a)

theorem State.detach_units (s : State) : s.detach.units = s.units := by
  unfold State.detach
  split
  · rfl
  · exact foldl_units _ _ (fun u n => u.modCore_units n _) s
  · rfl

theorem State.convoyStep_units (s : State) (next : Word) (cond : Bool) : (s.convoyStep next cond).units = s.units := by
  unfold State.convoyStep
  split
  · rfl
  · split
    · exact foldl_units _ _ (fun u n => u.modCore_units n _) s
    · split
      · rfl
      · split
        · rfl
        · exact s.detach_units
    · rfl

/-- No task runs right after the back-edge test unless one ran before. -/
theorem State.edged_idle (s : State) (next : Word) (taken : Bool) (h : s.core.csr.taskValid = false) :
    (s.edged next taken).taskFailsAt (s.edged next taken).core (s.edged next taken).core.num = false := by
  have h2 := (s.core.retired_task next taken).1
  have h3 : (s.edged next taken).core.csr.taskValid = false := by
    show bitOf (s.core.retired next taken).csr.ttask 4 = false
    rw [h2]; exact h
  unfold State.taskFailsAt
  simp [h3]

/-- Without a running task a retirement is the back-edge and the convoy's step. -/
theorem State.retireWith_quiet (s : State) (next : Word) (taken cond : Bool) (h : s.core.csr.taskValid = false) :
    (s.core.retired next taken).aside (s.retireWith next taken cond).core := by
  rcases s.retireWith_cases next taken cond with g | ⟨-, g, -⟩
  · rw [g]; exact State.convoyStep_aside (s.edged next taken) _ _
  · rw [s.edged_idle next taken h] at g; exact absurd g Bool.false_ne_true

/-- A retirement that falls through and takes no back-edge is no kill point: it goes to the next address. -/
theorem State.retireWith_falls (s : State) (next : Word) (cond : Bool)
    (hb : (backEdge s.core.csr s.core.pc next false).2.2 = false) :
    (s.retireWith next false cond).core.pc = (backEdge s.core.csr s.core.pc next false).2.1 := by
  have he : s.core.eagerPoint next false = false := by simp [Core.eagerPoint, hb]
  rcases s.retireWith_cases next false cond with g | ⟨g, -⟩
  · rw [g]
    exact (State.convoyStep_aside (s.edged next false) _ _).1
  · rw [he] at g; exact absurd g Bool.false_ne_true

/-- Outside loops a retirement that falls through goes to the next address, whether or not a task runs. -/
theorem State.retireWith_pc (s : State) (next : Word) (cond : Bool) (h0 : s.core.csr.lpc0 = 0) (h1 : s.core.csr.lpc1 = 0) :
    (s.retireWith next false cond).core.pc = next := by
  have hb := backEdge_idle s.core.csr s.core.pc next false h0 h1
  rw [s.retireWith_falls next cond (by rw [hb]), hb]

/-! ### Retirement in the terms of the claims -/

theorem State.retireWith_unchanged (s : State) (next : Word) (taken cond : Bool) :
    Unchanged s (s.retireWith next taken cond) := by
  have h := s.retireWith_kept next taken cond
  constructor
  case csr => exact h.core.csr.trans (Core.retired_csr_kept _ _ _)
  case task =>
    intro hv
    have hq := s.retireWith_quiet next taken cond hv
    have ht := s.core.retired_task next taken
    exact ⟨(congrArg Csrs.ttask hq.2.1).trans ht.1, (congrArg Csrs.cnt hq.2.1).trans ht.2⟩
  case mode => exact h.core.mode
  case domain => exact h.core.domain
  case cid => exact h.core.cid
  case tid => exact h.core.tid
  case gateHw => exact h.core.gateHw
  case gateSpill => exact h.core.gateSpill
  case loans => exact h.core.loans
  case lpt => exact h.core.lpt
  case pe => exact h.core.pe
  case tiles => exact fun a => congrArg (Memory.get · a) h.core.tiles
  case scales => exact fun a => congrArg (Memory.get · a) h.core.scales
  case pendV => exact h.core.pendV
  case dbg => exact h.core.dbg
  case stopped => exact h.core.stopped
  case mem => exact fun a => congrArg (Memory.get · a) h.mem
  case poison => exact h.poison
  case acc => exact fun a => congrArg (Memory.get · a) h.acc
  case accTags => exact fun a => congrArg (Memory.get · a) h.accTags

theorem State.retireWith_regs (s : State) (next : Word) (taken cond : Bool) :
    let t := s.retireWith next taken cond
    t.core.x = s.core.x ∧ t.core.p = s.core.p ∧ t.core.v = s.core.v ∧ t.core.k = s.core.k :=
  let h := s.retireWith_kept next taken cond
  ⟨h.core.x, h.core.p, h.core.v, h.core.k⟩

theorem State.retireWith_counted (s : State) (next : Word) (taken cond : Bool) :
    Counted s (s.retireWith next taken cond) :=
  (s.retireWith_kept next taken cond).core.instret.trans (Core.retired_instret _ _ _)

/-- A retirement changes no register, memory or special register. -/
theorem State.retireWith_nothing (s : State) (next : Word) (taken cond : Bool) :
    WritesNothing s (s.retireWith next taken cond) := by
  obtain ⟨hx, hp, hv, hk⟩ := s.retireWith_regs next taken cond
  refine ⟨?_, ?_, ?_, ?_, s.retireWith_unchanged next taken cond⟩
  · intro r; simp [State.rx, Core.rx, hx]
  · intro r; simp [State.rp, Core.rp, hp]
  · intro r; simp [State.rv, Core.rv, hv]
  · intro r; simp [State.rk, Core.rk, hk]

/-- Unless a task may be killed, a retirement is the back-edge and the convoy's step. -/
theorem State.retireWith_alive (s : State) (next : Word) (taken cond : Bool) (h : NoKill s) :
    (s.core.retired next taken).aside (s.retireWith next taken cond).core := by
  rcases h with h | h
  · exact s.retireWith_quiet next taken cond h
  · rcases s.retireWith_cases next taken cond with g | ⟨g, -⟩
    · rw [g]
      exact State.convoyStep_aside (s.edged next taken) _ _
    · simp [Core.eagerPoint, h] at g

/-- Unless a task may be killed, a retirement changes cores alone. -/
theorem State.retireWith_units (s : State) (next : Word) (taken cond : Bool) (h : NoKill s) :
    (s.retireWith next taken cond).units = s.units := by
  rcases s.retireWith_cases next taken cond with g | ⟨g, k, -⟩
  · rw [g]; exact State.convoyStep_units _ _ _
  · exfalso
    rcases h with h | h
    · rw [s.edged_idle next taken h] at k; exact Bool.false_ne_true k
    · simp [Core.eagerPoint, h] at g

theorem Core.retired_pc (c : Core) (next : Word) (taken : Bool) :
    (c.retired next taken).pc = (backEdge c.csr c.pc next taken).2.1 := rfl

theorem Core.retired_lpc (c : Core) (next : Word) (taken : Bool) :
    (c.retired next taken).csr.lpc0 = (backEdge c.csr c.pc next taken).1.lpc0 ∧
      (c.retired next taken).csr.lpc1 = (backEdge c.csr c.pc next taken).1.lpc1 := by
  unfold Core.retired
  dsimp only
  split <;> exact ⟨rfl, rfl⟩

theorem State.retireWith_passes (s : State) (next : Word) (taken cond : Bool) :
    Passes next taken s (s.retireWith next taken cond) := by
  have h := (s.retireWith_kept next taken cond).core
  have g := s.core.retired_lpc next taken
  exact ⟨s.retireWith_counted _ _ _, h.lpc0.trans g.1, h.lpc1.trans g.2, fun hk => (s.retireWith_alive next taken cond hk).1⟩

theorem State.retire_advances (s : State) (n : Word) : Advances n s (s.retire n) :=
  ⟨s.retireWith_passes _ _ _, fun h => s.retireWith_pc _ _ h.1 h.2⟩

/-- Passes depends on the pc, the mode and the CSRs alone. -/
theorem Passes.of_eq {s u t : State} {next : Word} {taken : Bool} (h : Passes next taken u t) (hp : u.core.pc = s.core.pc)
    (hm : u.core.mode = s.core.mode) (hc : u.core.csr = s.core.csr) : Passes next taken s t := by
  unfold Passes Counted NoKill at h ⊢
  rwa [hp, hm, hc] at h

theorem Advances.of_eq {s u t : State} {n : Word} (h : Advances n u t) (hp : u.core.pc = s.core.pc)
    (hm : u.core.mode = s.core.mode) (hc : u.core.csr = s.core.csr) : Advances n s t := by
  obtain ⟨h1, h2⟩ := h
  refine ⟨hp ▸ h1.of_eq hp hm hc, ?_⟩
  rwa [hc, hp] at h2

theorem Jumps.of_eq {s u t : State} {a : Word} (h : Jumps a u t) (hp : u.core.pc = s.core.pc)
    (hm : u.core.mode = s.core.mode) (hc : u.core.csr = s.core.csr) : Jumps a s t := by
  obtain ⟨h1, h2⟩ := h
  refine ⟨h1.of_eq hp hm hc, ?_⟩
  unfold NoKill at h2 ⊢
  rwa [hc] at h2

/-- Unchanged holds across a change of the register files alone. -/
theorem Unchanged.of_core {s u t : State} (h : Unchanged u t)
    (hc : ∀ {α : Type} (g : Core → α), (∀ c x p v k, g { c with x := x, p := p, v := v, k := k } = g c) → g u.core = g s.core)
    (hm : u.mem = s.mem) (hp : u.poison = s.poison) (ha : u.acc = s.acc) (ht : u.accTags = s.accTags) : Unchanged s t := by
  constructor
  case csr => exact h.csr.trans (hc (·.csr.kept) fun _ _ _ _ _ => rfl)
  case task =>
    intro hv
    have hv' : u.core.csr.taskValid = false := (hc (·.csr.taskValid) fun _ _ _ _ _ => rfl).trans hv
    exact ⟨(h.task hv').1.trans (hc (·.csr.ttask) fun _ _ _ _ _ => rfl),
      (h.task hv').2.trans (hc (·.csr.cnt) fun _ _ _ _ _ => rfl)⟩
  case mode => exact h.mode.trans (hc (·.mode) fun _ _ _ _ _ => rfl)
  case domain => exact h.domain.trans (hc (·.domain) fun _ _ _ _ _ => rfl)
  case cid => exact h.cid.trans (hc (·.cid) fun _ _ _ _ _ => rfl)
  case tid => exact h.tid.trans (hc (·.tid) fun _ _ _ _ _ => rfl)
  case gateHw => exact h.gateHw.trans (hc (·.gateHw) fun _ _ _ _ _ => rfl)
  case gateSpill => exact h.gateSpill.trans (hc (·.gateSpill) fun _ _ _ _ _ => rfl)
  case loans => exact fun i => (h.loans i).trans (hc (fun c => (c.loans.get i).kept) fun _ _ _ _ _ => rfl)
  case lpt => exact h.lpt.trans (hc (·.lpt) fun _ _ _ _ _ => rfl)
  case pe => exact h.pe.trans (hc (·.pe) fun _ _ _ _ _ => rfl)
  case tiles => exact fun a => (h.tiles a).trans (hc (fun c => c.tiles.get a) fun _ _ _ _ _ => rfl)
  case scales => exact fun a => (h.scales a).trans (hc (fun c => c.scales.get a) fun _ _ _ _ _ => rfl)
  case pendV => exact h.pendV.trans (hc (·.pendV) fun _ _ _ _ _ => rfl)
  case dbg => exact h.dbg.trans (hc (·.dbg) fun _ _ _ _ _ => rfl)
  case stopped => exact h.stopped.trans (hc (·.stopped) fun _ _ _ _ _ => rfl)
  case mem => exact fun a => (h.mem a).trans (by rw [hm])
  case poison => exact h.poison.trans hp
  case acc => exact fun a => (h.acc a).trans (by rw [ha])
  case accTags => exact fun a => (h.accTags a).trans (by rw [ht])

/-- What changes nothing after a write of xd has written xd alone. -/
theorem WritesX.of_nothing {s t : State} {d : XReg} {v : Word} (h : WritesNothing (s.wx d v) t) : WritesX d v s t := by
  obtain ⟨hx, hp, hv, hk, hu⟩ := h
  refine ⟨?_, fun r hr => ?_, fun r => (hp r).trans (by simp [State.rp, Core.rp]),
    fun r => (hv r).trans (by simp [State.rv, Core.rv]), fun r => (hk r).trans (by simp [State.rk, Core.rk]), ?_⟩
  · rw [hx d]
    show (s.core.wx d v).rx d = _
    rw [Core.rx_wx]
    by_cases h : d = 0 <;> simp [h]
  · rw [hx r]
    exact Core.rx_wx_ne s.core d r v (Ne.symm hr)
  · refine hu.of_core (fun g hg => ?_) rfl rfl rfl rfl
    show g (s.core.wx d v) = g s.core
    unfold Core.wx
    split
    · rfl
    · exact hg s.core (s.core.x.set d v) _ _ _

theorem WritesP.of_nothing {s t : State} {d : PReg} {v : Bool} (h : WritesNothing (s.wp d v) t) : WritesP d v s t := by
  obtain ⟨hx, hp, hv, hk, hu⟩ := h
  refine ⟨?_, fun r hr => ?_, fun r => (hx r).trans (by simp [State.rx, Core.rx]),
    fun r => (hv r).trans (by simp [State.rv, Core.rv]), fun r => (hk r).trans (by simp [State.rk, Core.rk]), ?_⟩
  · rw [hp d]
    show (s.core.wp d v).rp d = _
    rw [Core.rp_wp]
    by_cases h : d = 0 <;> simp [h]
  · rw [hp r]
    exact Core.rp_wp_ne s.core d r v (Ne.symm hr)
  · refine hu.of_core (fun g hg => ?_) rfl rfl rfl rfl
    show g (s.core.wp d v) = g s.core
    unfold Core.wp
    split
    · rfl
    · exact hg s.core _ (s.core.p.set d v) _ _

theorem WritesK.of_nothing {s t : State} {d : KReg} {m : BitVec 32} (h : WritesNothing (s.wk d m) t) :
    WritesK d m s t := by
  obtain ⟨hx, hp, hv, hk, hu⟩ := h
  refine ⟨?_, fun r hr => ?_, fun r => (hx r).trans (by simp [State.rx, Core.rx]),
    fun r => (hp r).trans (by simp [State.rp, Core.rp]), fun r => (hv r).trans (by simp [State.rv, Core.rv]), ?_⟩
  · rw [hk d]
    show (s.core.wk d m).rk d = _
    rw [Core.rk_wk]
    by_cases h : d = 0 <;> simp [h]
  · rw [hk r]
    exact Core.rk_wk_ne s.core d r m (Ne.symm hr)
  · refine hu.of_core (fun g hg => ?_) rfl rfl rfl rfl
    show g (s.core.wk d m) = g s.core
    unfold Core.wk
    split
    · rfl
    · exact hg s.core _ _ _ (s.core.k.set d m)

theorem WritesV.of_nothing {s t : State} {d : VReg} {w : VecReg} (h : WritesNothing (s.wv d w) t) : WritesV d w s t := by
  obtain ⟨hx, hp, hv, hk, hu⟩ := h
  refine ⟨?_, fun r hr => ?_, hx, hp, hk, ?_⟩
  · rw [hv d]
    show (s.core.wv d w).rv d = _
    simp [Core.rv_wv]
  · rw [hv r]
    exact Core.rv_wv_ne s.core d r w (Ne.symm hr)
  · exact hu.of_core (fun g hg => hg s.core _ _ (s.core.v.set d w) _) rfl rfl rfl rfl

/-! ### Writing one register and retiring -/

theorem State.retire_nothing (s : State) (n : Word) : WritesNothing s (s.retire n) := s.retireWith_nothing _ _ _

theorem State.wx_retire (s : State) (d : XReg) (v n : Word) :
    WritesX d v s ((s.wx d v).retire n) ∧ Advances n s ((s.wx d v).retire n) :=
  ⟨.of_nothing (State.retire_nothing _ n), ((s.wx d v).retire_advances n).of_eq (by simp) (by simp) (by simp)⟩

theorem State.wp_retire (s : State) (d : PReg) (v : Bool) (n : Word) :
    WritesP d v s ((s.wp d v).retire n) ∧ Advances n s ((s.wp d v).retire n) :=
  ⟨.of_nothing (State.retire_nothing _ n), ((s.wp d v).retire_advances n).of_eq (by simp) (by simp) (by simp)⟩

theorem State.wk_retire (s : State) (d : KReg) (m : BitVec 32) (n : Word) :
    WritesK d m s ((s.wk d m).retire n) ∧ Advances n s ((s.wk d m).retire n) :=
  ⟨.of_nothing (State.retire_nothing _ n), ((s.wk d m).retire_advances n).of_eq (by simp) (by simp) (by simp)⟩

theorem State.wv_retire (s : State) (d : VReg) (w : VecReg) (n : Word) :
    WritesV d w s ((s.wv d w).retire n) ∧ Advances n s ((s.wv d w).retire n) :=
  ⟨.of_nothing (State.retire_nothing _ n), (s.wv d w).retire_advances n⟩

/-! ### Taken transfers -/

theorem backEdge_taken (c : Csrs) (a next : Word) : (backEdge c a next true).2 = (next, false) := by
  unfold backEdge
  dsimp only
  repeat' split
  all_goals first | rfl | contradiction

theorem State.retireWith_jumps (s : State) (target : Word) (cond : Bool) : Jumps target s (s.retireWith target true cond) := by
  have h := s.retireWith_passes target true cond
  refine ⟨h, fun hk => ?_⟩
  have hb := backEdge_taken s.core.csr s.core.pc target
  simpa [hb] using h.2.2.2 hk

theorem State.jump_jumps (s : State) (target : Word) : WritesNothing s (s.jump target) ∧ Jumps target s (s.jump target) :=
  ⟨s.retireWith_nothing _ _ _, s.retireWith_jumps _ _⟩

theorem State.wx_jump (s : State) (d : XReg) (v target : Word) :
    WritesX d v s ((s.wx d v).jump target) ∧ Jumps target s ((s.wx d v).jump target) :=
  ⟨.of_nothing ((s.wx d v).retireWith_nothing _ _ _), ((s.wx d v).retireWith_jumps target true).of_eq (by simp) (by simp) (by simp)⟩

end Sys2Proof.Machine
end

