-- ==== Sys2Proof/Laws/Access.lean ====
section
/-! SUPPORT. What the shared accesses of path C do: what a checked load answers, which bytes a checked store changes, and
what the notes beside them leave (R58 to R60, R172, R174, R184, R185, R322). -/
namespace Sys2Proof.Machine
open Sys2Proof

/-! ### The notes beside an access change no register and no memory -/

/-- What a note leaves: every register, the pc, every CSR and every memory. -/
structure Noted (s t : State) : Prop where
  kept : Kept s t
  pc : t.core.pc = s.core.pc
  csr : t.core.csr = s.core.csr

theorem Noted.refl (s : State) : Noted s s := ⟨Kept.refl s, rfl, rfl⟩

theorem Noted.trans {a b c : State} (h : Noted a b) (g : Noted b c) : Noted a c :=
  ⟨h.kept.trans g.kept, g.pc.trans h.pc, g.csr.trans h.csr⟩

/-- A state that differs outside the core and the memories. -/
theorem Noted.of_eq {s t : State} (h : t.core = s.core) (h1 : t.mem = s.mem) (h2 : t.poison = s.poison) (h3 : t.acc = s.acc)
    (h4 : t.accTags = s.accTags) : Noted s t := ⟨Kept.of_eq h h1 h2 h3 h4, by rw [h], by rw [h]⟩

/-- A change of the core in focus that keeps all of that. -/
theorem Noted.of_core (s : State) (c : Core) (h : CoreKept s.core c) (hp : c.pc = s.core.pc) (hc : c.csr = s.core.csr) :
    Noted s { s with core := c } := ⟨Kept.of_core s c h, hp, hc⟩

theorem foldl_noted {α : Type} (l : List α) (f : State → α → State) (hf : ∀ u a, Noted u (f u a)) (s : State) :
    Noted s (l.foldl f s) := by
  induction l generalizing s with
  | nil => exact Noted.refl s
  | cons a t ih => exact (hf s a).trans (ih _)

theorem State.logEvent_noted (s : State) (c w : Nat) (v : Word) : Noted s (s.logEvent c w v) :=
  Noted.of_eq rfl rfl rfl rfl rfl

theorem State.correct_noted (s : State) (ks : List Nat) : Noted s (s.correct ks) := by
  unfold State.correct
  dsimp only
  split
  · exact Noted.refl s
  · have h (u : State) (l : List Nat) : Noted s u → Noted s (l.foldl
        (fun (u : State) a => u.logEvent s.core.num 7 (BitVec.ofNat 64 (8 * a))) u) :=
      fun hu => hu.trans (foldl_noted l _ (fun u _ => u.logEvent_noted _ _ _) u)
    exact h _ _ (Noted.of_eq rfl rfl rfl rfl rfl)

theorem State.noteMiss_noted (s : State) (c cid va : Nat) : Noted s (s.noteMiss c cid va) := by
  unfold State.noteMiss
  dsimp only
  repeat' split
  · exact Noted.refl s
  · exact Noted.refl s
  · refine Noted.trans ?_ (State.correct_noted _ _)
    exact Noted.of_eq rfl rfl rfl rfl rfl
  · exact Noted.of_eq rfl rfl rfl rfl rfl

theorem State.logFrom_noted (s : State) (c : Core) (src : Origin) (w : Nat) (v : Word) (l : List Host.Cell) :
    Noted s (s.logFrom c src w v l) := by
  unfold State.logFrom
  split
  · exact Noted.of_eq rfl rfl rfl rfl rfl
  · exact Noted.refl s

theorem State.noteAccess_noted (s : State) (a : Word) (logs : Bool) (v : Word) : Noted s (s.noteAccess a logs v) := by
  have key : ∀ u : State, Noted s u → Noted s (match regionOf a.toNat with
      | .own _ => u
      | _ => if logs then u.logExt s.core (.core s.core.num) 1 v else u) := by
    intro u hu
    split
    · exact hu
    · split
      · exact hu.trans (u.logFrom_noted _ _ _ _ _)
      · exact hu
  unfold State.noteAccess
  dsimp only
  apply key
  split
  · exact s.noteMiss_noted _ _ _
  · exact Noted.refl s

theorem State.choose_noted (s : State) (n : Nat) : Noted s (s.choose n).1 := by
  unfold State.choose
  split
  · exact Noted.refl s
  · exact Noted.of_eq rfl rfl rfl rfl rfl

/-- A core with other views is kept. -/
theorem CoreKept.of_views (c : Core) (v : Views) : CoreKept c { c with views := v } := by constructor <;> intros <;> rfl

theorem Core.noteRead_kept (c : Core) (un : Bool) (l : List Write) (ks : List Nat) (msg : List Release) (n : Nat) :
    CoreKept c (c.noteRead un l ks msg n) ∧ (c.noteRead un l ks msg n).pc = c.pc ∧
      (c.noteRead un l ks msg n).csr = c.csr := by
  unfold Core.noteRead
  dsimp only
  split
  · exact ⟨CoreKept.refl c, rfl, rfl⟩
  · exact ⟨CoreKept.of_views c _, rfl, rfl⟩

theorem Core.orderSeen_kept (c : Core) :
    CoreKept c c.orderSeen ∧ c.orderSeen.pc = c.pc ∧ c.orderSeen.csr = c.csr := by
  unfold Core.orderSeen
  split
  · exact ⟨CoreKept.refl c, rfl, rfl⟩
  · exact ⟨CoreKept.of_views c _, rfl, rfl⟩

theorem Core.orderView_kept (c : Core) (v : View) :
    CoreKept c (c.orderView v) ∧ (c.orderView v).pc = c.pc ∧ (c.orderView v).csr = c.csr := by
  unfold Core.orderView
  split
  · exact ⟨CoreKept.refl c, rfl, rfl⟩
  · exact ⟨CoreKept.of_views c _, rfl, rfl⟩

theorem Core.settleBytes_kept (c : Core) (ks : List Nat) :
    CoreKept c (c.settleBytes ks) ∧ (c.settleBytes ks).pc = c.pc ∧ (c.settleBytes ks).csr = c.csr :=
  ⟨CoreKept.of_views c _, rfl, rfl⟩

theorem Core.noteWrite_kept (c : Core) (un : Bool) (ks : List Nat) (n : Nat) :
    CoreKept c (c.noteWrite un ks n) ∧ (c.noteWrite un ks n).pc = c.pc ∧ (c.noteWrite un ks n).csr = c.csr := by
  unfold Core.noteWrite
  split <;> exact ⟨CoreKept.of_views c _, rfl, rfl⟩

theorem State.reveal_noted (s : State) (me : Owner) (l : List Write) (ks : List Nat) : Noted s (s.reveal me l ks) := by
  unfold State.reveal
  dsimp only
  split
  · exact Noted.refl s
  · exact Noted.of_eq rfl rfl rfl rfl rfl

/-- What a read notes is the core's views, its writes' visibility and the corrected errors. -/
theorem State.saw_noted (s : State) (un : Bool) (l : List Write) (ks : List Nat) (msg : List Release) :
    Noted s (s.saw un l ks msg) := by
  have h := (s.reveal_noted s.core.owner l ks).trans ((s.reveal s.core.owner l ks).correct_noted ks)
  obtain ⟨h1, h2, h3⟩ := s.core.noteRead_kept un l ks msg s.stamp
  exact ⟨⟨h1, h.kept.mem, h.kept.poison, h.kept.acc, h.kept.accTags⟩, h2, h3⟩

theorem State.weakRead_noted (s : State) (a : Word) (ks : List Nat) : Noted s (s.weakRead a ks).1 :=
  (s.choose_noted _).trans (State.saw_noted _ _ _ _ _)

theorem State.strongRead_noted (s : State) (acq : Bool) (sc : Scope) (a : Word) (ks : List Nat) :
    Noted s (s.strongRead acq sc a ks).1 := by
  have h : Noted s (s.homeRead a ks).1 := s.saw_noted _ _ _ _
  obtain ⟨g1, g2, g3⟩ := (s.homeRead a ks).1.core.orderSeen_kept
  obtain ⟨k1, k2, k3⟩ := (s.homeRead a ks).1.core.orderSeen.orderView_kept
    (if acq then s.acquired sc s.core.owner (messages (s.writesTo (ks.map hostKey)) (ks.map hostKey)) else View.empty)
  exact h.trans (Noted.of_core _ _ (g1.trans k1) (k2.trans g2) (k3.trans g3))

theorem State.noteLate_noted (s : State) (d : LateDest) (a : Word) (n : Nat) : Noted s (s.noteLate d a n) := by
  unfold State.noteLate
  split
  · dsimp only
    split
    · exact Noted.of_core s _ (CoreKept.of_views _ _) rfl rfl
    · exact Noted.of_core s _ ((s.core.settleBytes_kept _).1.trans (CoreKept.of_views _ _)) rfl rfl
  · exact Noted.refl s

theorem State.readAs_noted (s : State) (o : Ordering) (a : Word) (ks : List Nat) : Noted s (s.readAs o a ks).1 := by
  unfold State.readAs
  split
  · exact s.weakRead_noted a ks
  · exact s.strongRead_noted _ _ a ks

/-- A weak load reads the bytes as they were before some of the latest writes that it may miss. -/
theorem State.weakRead_mayRead (s : State) (a : Word) (ks : List Nat) : s.MayRead a ks (s.weakRead a ks).2 := by
  refine ⟨(s.chooseLoad (s.unordered a) (ks.map hostKey)).2, ?_, rfl⟩
  unfold State.chooseLoad State.choose
  split
  · exact Nat.zero_le _
  · exact Nat.le_of_lt_succ (Nat.mod_lt _ (Nat.succ_pos _))

/-- A load reads what its ordering allows. -/
theorem State.readAs_mayRead (s : State) (o : Ordering) (a : Word) (ks : List Nat) : s.MayRead a ks (s.readAs o a ks).2 := by
  unfold State.readAs
  split
  · exact s.weakRead_mayRead a ks
  · exact ⟨0, Nat.zero_le _, by simp [State.strongRead, before]; rfl⟩

theorem takeWhile_nil {α : Type} (p : α → Bool) (l : List α) (h : ∀ e ∈ l, p e = false) : l.takeWhile p = [] := by
  cases l with
  | nil => rfl
  | cons a t => simp [List.takeWhile, h a (by simp)]

/-- Where no write can be missed a load reads the bytes as they are. -/
theorem State.MayRead.current {s : State} {a : Word} {ks : List Nat} {v : Nat} (h : s.MayRead a ks v) (hc : s.Current a ks) :
    v = natOfBytes (s.readKeys ks) := by
  obtain ⟨n, hn, rfl⟩ := h
  have h0 : (s.writesTo (ks.map hostKey)).takeWhile (s.core.misses (s.unordered a) (ks.map hostKey)) = [] := by
    refine takeWhile_nil _ _ fun e he => ?_
    unfold State.writesTo at he
    rw [List.mem_filter] at he
    exact hc e he.1 (by simpa using he.2)
  rw [h0] at hn
  have : n = 0 := Nat.le_zero.mp hn
  subst this
  simp [before, State.readKeys]

/-- A strong load, and every load of an SO page, reads the bytes as they are. -/
theorem State.readAs_strong (s : State) (o : Ordering) (a : Word) (ks : List Nat) (h : s.orderAt o a ≠ .weak) :
    (s.readAs o a ks).2 = natOfBytes (s.readKeys ks) := by
  unfold State.readAs
  split
  · exact absurd ‹_› h
  · rfl

theorem State.noteCode_noted (s : State) (ks : List Nat) : Noted s (s.noteCode ks) :=
  Noted.of_core s _ (by constructor <;> intros <;> rfl) rfl rfl

/-! ### What a state that keeps the core's registers has written -/

/-- What Kept leaves of everything but the loop counts, INSTRET and the pc, which it keeps too. -/
theorem WritesNothing.of_kept {s t : State} (h : Kept s t) (hc : t.core.csr = s.core.csr) : WritesNothing s t := by
  have hx := h.core.x
  have hp := h.core.p
  have hv := h.core.v
  have hk := h.core.k
  refine ⟨?_, ?_, ?_, ?_, ?_⟩
  · intro r; simp [State.rx, Core.rx, hx]
  · intro r; simp [State.rp, Core.rp, hp]
  · intro r; simp [State.rv, Core.rv, hv]
  · intro r; simp [State.rk, Core.rk, hk]
  · constructor
    case csr => rw [hc]
    case task => intro _; rw [hc]; exact ⟨rfl, rfl⟩
    case mode => exact h.core.mode
    case domain => exact h.core.domain
    case cid => exact h.core.cid
    case tid => exact h.core.tid
    case gateHw => exact h.core.gateHw
    case gateSpill => exact h.core.gateSpill
    case loans => exact h.core.loans
    case lpt => exact h.core.lpt
    case pe => exact h.core.pe
    case tiles => exact fun a => congrArg (Memory.get · a) h.core.tiles
    case scales => exact fun a => congrArg (Memory.get · a) h.core.scales
    case pendV => exact h.core.pendV
    case dbg => exact h.core.dbg
    case stopped => exact h.core.stopped
    case mem => exact fun a => congrArg (Memory.get · a) h.mem
    case poison => exact h.poison
    case acc => exact fun a => congrArg (Memory.get · a) h.acc
    case accTags => exact fun a => congrArg (Memory.get · a) h.accTags

theorem Unchanged.trans {a b c : State} (h : Unchanged a b) (g : Unchanged b c) (ht : b.core.csr = a.core.csr) :
    Unchanged a c := by
  constructor
  case csr => exact g.csr.trans h.csr
  case task =>
    intro hv
    have hv' : b.core.csr.taskValid = false := by rw [ht]; exact hv
    exact ⟨(g.task hv').1.trans (h.task hv).1, (g.task hv').2.trans (h.task hv).2⟩
  case mode => exact g.mode.trans h.mode
  case domain => exact g.domain.trans h.domain
  case cid => exact g.cid.trans h.cid
  case tid => exact g.tid.trans h.tid
  case gateHw => exact g.gateHw.trans h.gateHw
  case gateSpill => exact g.gateSpill.trans h.gateSpill
  case loans => exact fun i => (g.loans i).trans (h.loans i)
  case lpt => exact g.lpt.trans h.lpt
  case pe => exact g.pe.trans h.pe
  case tiles => exact fun a => (g.tiles a).trans (h.tiles a)
  case scales => exact fun a => (g.scales a).trans (h.scales a)
  case pendV => exact g.pendV.trans h.pendV
  case dbg => exact g.dbg.trans h.dbg
  case stopped => exact g.stopped.trans h.stopped
  case mem => exact fun a => (g.mem a).trans (h.mem a)
  case poison => exact g.poison.trans h.poison
  case acc => exact fun a => (g.acc a).trans (h.acc a)
  case accTags => exact fun a => (g.accTags a).trans (h.accTags a)

theorem WritesNothing.trans {a b c : State} (h : WritesNothing a b) (g : WritesNothing b c)
    (ht : b.core.csr = a.core.csr) : WritesNothing a c :=
  ⟨fun r => (g.1 r).trans (h.1 r), fun r => (g.2.1 r).trans (h.2.1 r), fun r => (g.2.2.1 r).trans (h.2.2.1 r),
    fun r => (g.2.2.2.1 r).trans (h.2.2.2.1 r), h.2.2.2.2.trans g.2.2.2.2 ht⟩

theorem WritesX.of_kept {s u t : State} {d : XReg} {v : Word} (h : WritesNothing s u) (hc : u.core.csr = s.core.csr)
    (g : WritesX d v u t) : WritesX d v s t :=
  ⟨g.1, fun r hr => (g.2.1 r hr).trans (h.1 r), fun r => (g.2.2.1 r).trans (h.2.1 r),
    fun r => (g.2.2.2.1 r).trans (h.2.2.1 r), fun r => (g.2.2.2.2.1 r).trans (h.2.2.2.1 r),
    h.2.2.2.2.trans g.2.2.2.2.2 hc⟩

/-! ### Loads -/

/-- Writing xd after an access's notes, and retiring. -/
theorem State.noted_wx_retire (s u : State) (d : XReg) (v n : Word) (h : Noted s u) :
    WritesX d v s ((u.wx d v).retire n) ∧ Advances n s ((u.wx d v).retire n) := by
  obtain ⟨h1, h2⟩ := u.wx_retire d v n
  exact ⟨.of_kept (.of_kept h.kept h.csr) h.csr h1, h2.of_eq h.pc h.kept.core.mode h.csr⟩

/-- What a checked load answers. -/
theorem State.loadThen_spec (s : State) (o : Ordering) (a : Word) (n : Nat) (f : State → Nat → State) :
    (∀ ks, s.access .load a n = .ok ks → ∃ u v, Noted s u ∧ s.loadThen o a n f = .next (f u v) ∧ s.MayRead a ks v ∧
      (s.orderAt o a ≠ .weak → v = natOfBytes (s.readKeys ks))) ∧
    (∀ c v, s.access .load a n = .fault c v → s.loadThen o a n f = .next (s.trap c v)) ∧
    (∀ w, s.access .load a n = .halt w → s.loadThen o a n f = .next (s.watchHalt w)) := by
  refine ⟨?_, ?_, ?_⟩
  · intro ks h
    refine ⟨_, _, (s.readAs_noted o a ks).trans ((s.readAs o a ks).1.noteAccess_noted a true _), by simp [State.loadThen, h]; rfl,
      s.readAs_mayRead o a ks, s.readAs_strong o a ks⟩
  · intro c v h; simp [State.loadThen, h, State.fault]
  · intro w h; simp [State.loadThen, h]

/-! ### Stores -/

theorem Memory.get_foldl_set_out (l : List (Nat × Byte)) (m : Memory) (a : Nat) (h : m.wf = true) (ha : a ∉ l.map (·.1)) :
    Memory.get (l.foldl (fun m e => m.set e.1 e.2) m) a = m.get a := by
  induction l generalizing m with
  | nil => rfl
  | cons e t ih =>
    simp only [List.map_cons, List.mem_cons, not_or] at ha
    rw [List.foldl_cons, ih _ (Memory.wf_set m e.1 e.2 h) ha.2, Memory.get_set m _ _ _ h, if_neg ha.1]

theorem Memory.map_get_foldl_set (l : List (Nat × Byte)) (m : Memory) (h : m.wf = true) (hn : (l.map (·.1)).Nodup) :
    (l.map fun e => Memory.get (l.foldl (fun m e => m.set e.1 e.2) m) e.1) = l.map (·.2) := by
  induction l generalizing m with
  | nil => rfl
  | cons e t ih =>
    simp only [List.map_cons, List.nodup_cons] at hn
    have hw := Memory.wf_set m e.1 e.2 h
    simp only [List.map_cons, List.foldl_cons]
    rw [Memory.get_foldl_set_out t _ _ hw hn.1, Memory.get_set m _ _ _ h, if_pos rfl, ih _ hw hn.2]

theorem State.logStores_noted (s : State) (src : Source) (l : List Host.Cell) : Noted s (s.logStores src l) := by
  unfold State.logStores
  split
  · exact Noted.refl s
  · refine foldl_noted _ _ (fun u c => ?_) s
    split
    · exact Noted.refl u
    · exact u.logFrom_noted _ _ _ _ _

theorem State.keepCode_noted (s : State) (ks : List Nat) : Noted s (s.keepCode ks) := by
  unfold State.keepCode
  dsimp only
  split
  · exact Noted.refl s
  · exact ⟨⟨by constructor <;> intros <;> rfl, rfl, rfl, rfl, rfl⟩, rfl, rfl⟩

/-- Plain bytes written at their keys. -/
theorem State.storeKeys_spec (s : State) (src : Source) (ks : List Nat) (data : List Byte) (hw : s.memWf)
    (hl : data.length = ks.length) :
    StoresBytes ks data s (s.storeKeys src ks data) ∧
      Noted { s with mem := (s.storeKeys src ks data).mem } (s.storeKeys src ks data) := by
  have hn := (s.logStores_noted src ((ks.map hostKey).zip data)).trans
    ((s.logStores src ((ks.map hostKey).zip data)).keepCode_noted (ks.map hostKey))
  have hm : (s.storeKeys src ks data).mem = ((ks.map hostKey).zip data).foldl (fun m e => m.set e.1 e.2) s.mem := by
    show ((ks.map hostKey).zip data).foldl (fun m e => Memory.set m e.1 e.2) _ = _
    rw [hn.kept.mem]
  have hz : ((ks.map hostKey).zip data).map (·.1) = ks.map hostKey := List.map_fst_zip (by simp [hl])
  have hz2 : ((ks.map hostKey).zip data).map (·.2) = data := List.map_snd_zip (by simp [hl])
  refine ⟨⟨?_, ?_⟩, ⟨⟨?_, rfl, ?_, ?_, ?_⟩, ?_, ?_⟩⟩
  · intro a ha
    rw [hm]
    exact Memory.get_foldl_set_out _ _ _ hw (by rw [hz]; exact ha)
  · intro hd
    have h := Memory.map_get_foldl_set ((ks.map hostKey).zip data) s.mem hw (by rw [hz]; exact hd)
    rw [hz2] at h
    rw [hm]
    refine Eq.trans ?_ h
    generalize ((ks.map hostKey).zip data).foldl (fun m e => Memory.set m e.1 e.2) s.mem = q
    have e1 : (ks.map fun k => Memory.get q (hostKey k)) = (ks.map hostKey).map (Memory.get q) := by simp
    have e2 := congrArg (List.map (Memory.get q)) hz
    rw [List.map_map] at e2
    exact e1.trans e2.symm
  · exact hn.kept.core
  · exact hn.kept.poison
  · exact hn.kept.acc
  · exact hn.kept.accTags
  · exact hn.pc
  · exact hn.csr

/-- A write of keys none of which is a register's is a plain one. -/
theorem State.writeKeysAs_plain (s : State) (src : Source) (ks : List Nat) (data : List Byte) (h : ∀ k ∈ ks, inRegs k = false) :
    s.writeKeysAs src ks data = s.storeKeys src ks data := by
  unfold State.writeKeysAs State.writeKeysWith
  rw [if_pos]
  simpa using h

/-- A store of plain bytes writes them, and besides them only notes, whatever its ordering. -/
theorem State.writeAs_plain (s : State) (o : Ordering) (a : Word) (ks : List Nat) (data : List Byte)
    (h : ∀ k ∈ ks, inRegs k = false) :
    ∃ src, Noted (s.storeKeys src ks data) (s.writeAs o a ks data) := by
  have key : ∀ (u : State) (un : Bool) (l : List Nat) (n : Nat), Noted u { u with core := u.core.noteWrite un l n } ∧
      Noted u { u with core := (u.core.noteWrite un l n).orderSeen } := by
    intro u un l n
    obtain ⟨h1, h2, h3⟩ := u.core.noteWrite_kept un l n
    obtain ⟨g1, g2, g3⟩ := (u.core.noteWrite un l n).orderSeen_kept
    exact ⟨Noted.of_core u _ h1 h2 h3, Noted.of_core u _ (h1.trans g1) (g2.trans h2) (g3.trans h3)⟩
  unfold State.writeAs
  dsimp only
  split
  · rw [s.writeKeysAs_plain _ ks data h]
    exact ⟨_, (key _ _ _ _).1⟩
  · rw [s.writeKeysAs_plain _ ks data h]
    exact ⟨_, (key _ _ _ _).2⟩

theorem StoresBytes.of_eq {ks : List Nat} {data : List Byte} {s u t w : State} (h : StoresBytes ks data u t)
    (hs : u.mem = s.mem) (ht : w.mem = t.mem) : StoresBytes ks data s w := by
  unfold StoresBytes at h ⊢
  rwa [hs, ← ht] at h

/-- The checks of an access admit what each byte's checks admit. -/
theorem State.resolveSteps_ok {s : State} {r : Rights} {need : Need} {a : Word} {n : Nat} {ks : List Nat}
    (h : s.resolveSteps r need a n = .ok ks) : s.resolveAll r need a n = .ok ks := by
  unfold State.resolveSteps at h
  split at h
  · cases h; assumption
  · cases h

theorem State.access_length (s : State) (need : Need) (a : Word) (n : Nat) (ks : List Nat)
    (h : s.access need a n = .ok ks) : s.resolveAll (s.rightsOf s.core) need a n = .ok ks ∧ ks.length = n := by
  have hr : ∀ (r : Rights) (n : Nat) (a : Word) (ks : List Nat), s.resolveAll r need a n = .ok ks → ks.length = n := by
    intro r n
    induction n with
    | zero => intro a ks h; simp only [State.resolveAll, Except.ok.injEq] at h; simp [← h]
    | succ n ih =>
      intro a ks h
      simp only [State.resolveAll] at h
      split at h
      · cases h
      · split at h
        · cases h
        · rename_i k _ l hl
          cases h
          simp [ih _ _ hl]
  have hk : s.resolveAll (s.rightsOf s.core) need a n = .ok ks := by
    unfold State.access State.accessAs State.consume at h
    split at h
    · rename_i l hl
      split at h
      · cases h
      · cases h
        unfold State.checkAs at hl
        split at hl
        · cases hl
        · split at hl
          · cases hl
          · rename_i m hm
            split at hl
            · split at hl <;> cases hl
            · cases hl; exact State.resolveSteps_ok hm
    · rename_i hn
      rw [h] at hn
      exact absurd rfl (hn ks)
  exact ⟨hk, hr _ _ _ _ hk⟩

/-- What a checked store answers: the state its notes and its bytes leave, handed to f. -/
theorem State.storeThen_spec (s : State) (o : Ordering) (a : Word) (n : Nat) (v : Word) (f : State → State) :
    (∀ ks, s.access .store a n = .ok ks → ∃ u, Noted s u ∧
      s.storeThen o a n v f = .next (f (u.writeAs o a ks (bytesOfNat n v.toNat)))) ∧
    (∀ c w, s.access .store a n = .fault c w → s.storeThen o a n v f = .next (s.trap c w)) ∧
    (∀ w, s.access .store a n = .halt w → s.storeThen o a n v f = .next (s.watchHalt w)) := by
  refine ⟨?_, ?_, ?_⟩
  · intro ks h
    exact ⟨_, (s.noteAccess_noted a (s.orderAt o a != .weak) v).trans (State.noteCode_noted _ ks), by simp [State.storeThen, h]⟩
  · intro c w h; simp [State.storeThen, h, State.fault]
  · intro w h; simp [State.storeThen, h]

/-- A plain write after notes, then a retirement: the bytes, and nothing else. -/
theorem State.noted_store_retire (s u : State) (o : Ordering) (a : Word) (ks : List Nat) (data : List Byte) (n : Word)
    (hw : s.memWf) (hl : data.length = ks.length) (hr : ∀ k ∈ ks, inRegs k = false) (hu : Noted s u) :
    let t := (u.writeAs o a ks data).retire n
    StoresBytes ks data s t ∧ WritesNothing { s with mem := t.mem } t ∧ Advances n s t := by
  intro t
  obtain ⟨src, hw2⟩ := u.writeAs_plain o a ks data hr
  have hwu : u.memWf := by unfold State.memWf at hw ⊢; rw [hu.kept.mem]; exact hw
  obtain ⟨b1, b2⟩ := u.storeKeys_spec src ks data hwu hl
  have hrk := (u.writeAs o a ks data).retireWith_kept ((u.writeAs o a ks data).core.pc + n) false true
  have hmem : t.mem = (u.storeKeys src ks data).mem := hrk.mem.trans hw2.kept.mem
  have b3 : Noted { u with mem := t.mem } (u.storeKeys src ks data) := by rw [hmem]; exact b2
  have g1 : Noted { s with mem := t.mem } { u with mem := t.mem } :=
    ⟨⟨hu.kept.core, rfl, hu.kept.poison, hu.kept.acc, hu.kept.accTags⟩, hu.pc, hu.csr⟩
  have g := (g1.trans b3).trans hw2
  refine ⟨b1.of_eq hu.kept.mem hmem, ?_, ?_⟩
  · exact (WritesNothing.of_kept g.kept g.csr).trans (State.retire_nothing _ n) g.csr
  · exact ((u.writeAs o a ks data).retire_advances n).of_eq g.pc g.kept.core.mode g.csr

end Sys2Proof.Machine
end

