-- ==== Sys2Proof/Laws/Window.lean ====
section
/-! SUPPORT. What a write of bytes can change, also where it reaches the register window: of the core in focus the notes
of its instruction cache, its wake latch and its debug block, and no accumulator (R23, R329, R342, R350). -/
namespace Sys2Proof.Machine
open Sys2Proof

/-- A core without what a write of bytes may change of it. -/
def Core.regs (c : Core) : Core := { c with icache := [], wake := false, dbg := DebugBlock.reset }

/-- A thread without its saved core. -/
def Thread.noImage (t : Thread) : Thread := { t with evicted := none }

/-- What a write of bytes leaves as it is. -/
structure Still (s t : State) : Prop where
  threads : t.threads.map Thread.noImage = s.threads.map Thread.noImage
  gangs : t.gangs = s.gangs
  regs : t.core.regs = s.core.regs
  poison : t.poison = s.poison
  acc : t.acc = s.acc
  accTags : t.accTags = s.accTags

theorem Still.refl (s : State) : Still s s := ⟨rfl, rfl, rfl, rfl, rfl, rfl⟩

theorem Still.trans {a b c : State} (h : Still a b) (g : Still b c) : Still a c :=
  ⟨g.threads.trans h.threads, g.gangs.trans h.gangs, g.regs.trans h.regs, g.poison.trans h.poison, g.acc.trans h.acc, g.accTags.trans h.accTags⟩

theorem Still.of_eq {s t : State} (h : t.core = s.core) (h2 : t.poison = s.poison) (h3 : t.acc = s.acc)
    (h4 : t.accTags = s.accTags) (h5 : t.threads = s.threads) (h6 : t.gangs = s.gangs) : Still s t :=
  ⟨by rw [h5], h6, by rw [h], h2, h3, h4⟩

theorem State.modCore_still (s : State) (n : Nat) (f : Core → Core) (h : ∀ c, (f c).regs = c.regs) :
    Still s (s.modCore n f) :=
  have hp := s.putCore_mem (f (s.getCore n))
  have hq : (s.modCore n f).threads = s.threads ∧ (s.modCore n f).gangs = s.gangs := by
    unfold State.modCore State.putCore
    split <;> exact ⟨rfl, rfl⟩
  ⟨by rw [hq.1], hq.2, s.modCore_core n f (fun c e => e.regs = c.regs) (fun _ => rfl) h fun c =>
    show (f c).regs.num = c.regs.num by rw [h], hp.2.1, hp.2.2.1, hp.2.2.2⟩

theorem foldl_still {α : Type} (l : List α) (f : State → α → State) (hf : ∀ u a, Still u (f u a)) (s : State) :
    Still s (l.foldl f s) := by
  induction l generalizing s with
  | nil => exact Still.refl s
  | cons a t ih => exact (hf s a).trans (ih _)

theorem State.logFrom_still (s : State) (c : Core) (src : Origin) (w : Nat) (v : Word) (l : List Host.Cell) :
    Still s (s.logFrom c src w v l) := by
  unfold State.logFrom
  split
  · exact Still.of_eq rfl rfl rfl rfl rfl rfl
  · exact Still.refl s

theorem State.logExt_still (s : State) (c : Core) (src : Origin) (w : Nat) (v : Word) : Still s (s.logExt c src w v) :=
  s.logFrom_still _ _ _ _ _

theorem State.writeArea_still (s : State) (key : Nat) (c : Core) (o : Owner) : Still s (s.writeArea key c o) := by
  unfold State.writeArea
  generalize saveBytes c _ = b
  exact Still.of_eq rfl rfl rfl rfl rfl rfl

theorem State.setSaved_still (s : State) (tid : Nat) (k : Core) : Still s (s.setSaved tid k) := by
  refine ⟨?_, rfl, rfl, rfl, rfl, rfl⟩
  unfold State.setSaved modWhere
  rw [List.map_map]
  refine List.map_congr_left fun u _ => ?_
  simp only [Function.comp_apply]
  split <;> rfl

theorem State.deliverArea_still (s : State) (key : Nat) (o : Owner) (f : Core → Core) : Still s (s.deliverArea key o f) := by
  unfold State.deliverArea
  split
  · exact Still.refl s
  · split
    · exact (s.writeArea_still _ _ _).trans (State.setSaved_still _ _ _)
    · exact s.writeArea_still _ _ _

theorem State.deliverCore_still (s : State) (c : Nat) (o : Owner) (f : Core → Core) (h : ∀ c, (f c).regs = c.regs) :
    Still s (s.deliverCore c o f) := by
  unfold State.deliverCore
  dsimp only
  split
  · exact (s.modCore_still c f h).trans (State.deliverArea_still _ _ _ _)
  · exact s.modCore_still c f h

theorem State.deliver_still (s : State) (o : Owner) (f : Core → Core) (h : ∀ c, (f c).regs = c.regs) :
    Still s (s.deliver o f) := by
  unfold State.deliver
  split
  · exact s.deliverCore_still _ _ _ h
  · exact s.deliverArea_still _ _ _
  · split
    · exact Still.refl s
    · split
      · exact Still.refl s
      · split
        · exact s.deliverCore_still _ _ _ h
        · exact (s.writeArea_still _ _ _).trans (State.setSaved_still _ _ _)

theorem State.setWake_still (s : State) (by_ : Origin) (c : Nat) : Still s (s.setWake by_ c) := by
  unfold State.setWake
  have h : ∀ k : Core, Core.regs { k with wake := true } = k.regs := fun _ => rfl
  dsimp only
  refine ((s.modCore_still c (fun k => { k with wake := true }) h).trans (State.logExt_still _ (s.getCore c) by_ 4 0)).trans ?_
  refine foldl_still _ _ (fun u t => ?_) _
  exact (u.deliver_still (.thread t.tid) (fun k => { k with wake := true }) h).trans (State.logExt_still _ _ _ _ _)

theorem State.notify_still (s : State) (by_ : Origin) (c : Nat) : Still s (s.notify by_ c) := by
  unfold State.notify
  split
  · exact Still.of_eq rfl rfl rfl rfl rfl rfl
  · exact s.setWake_still by_ c

theorem State.debugWrite_still (s : State) (c off : Nat) (v : Word) : Still s (s.debugWrite c off v) := by
  unfold State.debugWrite State.debugRun State.debugHalt
  split
  · exact Still.refl s
  · split
    · split
      · exact s.modCore_still _ _ fun _ => rfl
      · exact s.modCore_still _ _ fun _ => rfl
      · exact s.modCore_still _ _ fun _ => rfl
      · exact Still.refl s
    · split
      · exact s.modCore_still _ _ fun _ => by split <;> rfl
      · exact Still.refl s

theorem State.queueWrite_still (en : State → Nat → Word → State) (he : ∀ u q v, Still u (en u q v))
    (s : State) (q off : Nat) (v : Word) : Still s (s.queueWrite en q off v) := by
  unfold State.queueWrite
  split
  · exact Still.of_eq rfl rfl rfl rfl rfl rfl
  · unfold State.qctlWrite
    dsimp only
    split
    · split
      · exact Still.refl s
      · exact Still.of_eq rfl rfl rfl rfl rfl rfl
    · split
      · exact he _ _ _
      · exact Still.of_eq rfl rfl rfl rfl rfl rfl
  all_goals exact Still.of_eq rfl rfl rfl rfl rfl rfl

theorem State.regWriteBy_still (en : State → Nat → Word → State) (he : ∀ u q v, Still u (en u q v))
    (by_ : Origin) (s : State) (off : Nat) (v : Word) : Still s (s.regWriteBy en by_ off v) := by
  unfold State.regWriteBy
  split
  · exact s.queueWrite_still en he _ _ _
  · split
    · exact s.notify_still _ _
    · split
      · exact s.debugWrite_still _ _ _
      · exact Still.refl s

theorem State.logStores_still (s : State) (src : Source) (l : List Host.Cell) : Still s (s.logStores src l) := by
  unfold State.logStores
  split
  · exact Still.refl s
  · refine foldl_still _ _ (fun u c => ?_) s
    split
    · exact Still.refl u
    · exact u.logFrom_still _ _ _ _ _

theorem State.keepCode_still (s : State) (ks : List Nat) : Still s (s.keepCode ks) := by
  unfold State.keepCode
  dsimp only
  split
  · exact Still.refl s
  · exact ⟨rfl, rfl, rfl, rfl, rfl, rfl⟩

theorem State.storeKeys_still (s : State) (src : Source) (ks : List Nat) (data : List Byte) :
    Still s (s.storeKeys src ks data) :=
  ((s.logStores_still src _).trans (State.keepCode_still _ _)).trans (Still.of_eq rfl rfl rfl rfl rfl rfl)

theorem State.writeKeysWith_still (en : State → Nat → Word → State) (by_ : Origin)
    (put : State → List Nat → List Byte → State)
    (he : ∀ u q v, Still u (en u q v)) (hp : ∀ u k d, Still u (put u k d)) (s : State) (ks : List Nat) (data : List Byte) :
    Still s (s.writeKeysWith en by_ put ks data) := by
  unfold State.writeKeysWith
  dsimp only
  split
  · exact hp _ _ _
  · exact (hp _ _ _).trans (foldl_still _ _ (fun u r => u.regWriteBy_still en he by_ _ _) _)

theorem State.queueStart_still (s : State) (q : Nat) (v : Word) : Still s (s.queueStart q v) := by
  unfold State.queueStart
  dsimp only
  split <;> exact Still.of_eq rfl rfl rfl rfl rfl rfl

theorem State.writeDone_still (s : State) (q cid : Nat) : Still s (s.writeDone q cid) := by
  unfold State.writeDone
  dsimp only
  split
  · exact Still.refl s
  · split
    · exact Still.of_eq rfl rfl rfl rfl rfl rfl
    · exact State.writeKeysWith_still _ _ _ State.queueStart_still (fun u k d => u.storeKeys_still _ k d) _ _ _

theorem State.queueEnable_still (s : State) (q : Nat) (v : Word) : Still s (s.queueEnable q v) := by
  unfold State.queueEnable
  dsimp only
  split
  · exact (s.queueStart_still q v).trans (State.writeDone_still _ q _)
  · exact s.queueStart_still q v

/-- A write of bytes anywhere changes of the core in focus only its cache notes, its latch and its debug block. -/
theorem State.writeKeysAs_still (s : State) (src : Source) (ks : List Nat) (data : List Byte) :
    Still s (s.writeKeysAs src ks data) :=
  s.writeKeysWith_still _ _ _ State.queueEnable_still (fun u k d => u.storeKeys_still src k d) ks data

theorem State.writeKeys_still (s : State) (ks : List Nat) (data : List Byte) : Still s (s.writeKeys ks data) :=
  s.writeKeysAs_still _ ks data

theorem State.writeReleased_still (s : State) (sc : Scope) (ks : List Nat) (data : List Byte) :
    Still s (s.writeReleased sc ks data) := s.writeKeysAs_still _ ks data

theorem State.regWrite_still (s : State) (by_ : Origin) (off : Nat) (v : Word) : Still s (s.regWrite by_ off v) :=
  s.regWriteBy_still _ State.queueEnable_still by_ off v

theorem State.logEvent_still (s : State) (c w : Nat) (v : Word) : Still s (s.logEvent c w v) :=
  Still.of_eq rfl rfl rfl rfl rfl rfl

theorem State.correct_still (s : State) (ks : List Nat) : Still s (s.correct ks) := by
  unfold State.correct
  dsimp only
  split
  · exact Still.refl s
  · have h (u : State) (l : List Nat) : Still s u → Still s (l.foldl
        (fun (u : State) a => u.logEvent s.core.num 7 (BitVec.ofNat 64 (8 * a))) u) :=
      fun hu => hu.trans (foldl_still l _ (fun v _ => v.logEvent_still _ _ _) u)
    exact h _ _ (Still.of_eq rfl rfl rfl rfl rfl rfl)

/-- So does a trap record (R308); without a valid ring nothing but LOST and management's log is written. -/
theorem State.noRing_still (s : State) (c : Core) (flags : Nat) (pc : Word) (lost : State) (h : Still s lost) :
    Still s (s.noRing c flags pc lost).1 := by
  unfold State.noRing
  dsimp only
  split
  · exact Still.of_eq rfl rfl rfl rfl rfl rfl
  · exact h

theorem State.writeRecord_still (s : State) (c : Core) (cause cls flags : Nat) (dom : Byte) (pc val word : Word) :
    Still s (s.writeRecord c cause cls flags dom pc val word).1 := by
  unfold State.writeRecord
  dsimp only
  split
  · exact s.noRing_still _ _ _ _ (Still.refl s)
  · split
    · exact s.noRing_still _ _ _ _ (Still.refl s)
    · have hc := s.correct_still
      split
      · exact (hc _).trans (State.noRing_still _ _ _ _ _ (Still.refl _))
      · split
        · exact (hc _).trans (State.noRing_still _ _ _ _ _ (State.writeKeys_still _ _ _))
        · split
          · exact (hc _).trans (State.writeKeys_still _ _ _)
          · split
            · exact (hc _).trans (State.noRing_still _ _ _ _ _ (State.writeKeys_still _ _ _))
            · exact (hc _).trans ((State.writeKeys_still _ _ _).trans (State.writeReleased_still _ _ _ _))

/-- Without a ring a synchronous trap leaves no record (R310). -/
theorem State.writeRecord_none (s : State) (c : Core) (cause cls flags : Nat) (dom : Byte) (pc val word : Word)
    (h : c.csr.tring = 0) (hf : flags % 2 = 0) : s.writeRecord c cause cls flags dom pc val word = (s, .invalid) := by
  unfold State.writeRecord State.noRing
  dsimp only
  rw [if_pos (Or.inl h), if_neg (by omega)]

/-- A fact about a core that no write of bytes can change. -/
theorem of_regs {α : Type} {c e : Core} (h : e.regs = c.regs) (g : Core → α) (hg : ∀ k, g k.regs = g k) : g e = g c :=
  (hg e).symm.trans ((congrArg g h).trans (hg c))

end Sys2Proof.Machine
end

