-- ==== Sys2Proof/Laws/Cores.lean ====
section
/-! SUPPORT. Cores by number: what is read after a core is put back, and what a delivery to an owner changes (R316). -/
namespace Sys2Proof.Machine
open Sys2Proof

theorem find_insertCore (c : Core) (l : List Core) (n : Nat) :
    (insertCore c l).find? (fun o => o.num == n) =
      if c.num = n then some c else l.find? fun o => o.num == n := by
  induction l with
  | nil => by_cases h : c.num = n <;> simp [insertCore, h]
  | cons o t ih =>
    unfold insertCore
    split
    · by_cases h : c.num = n <;> simp [h]
    · split
      · rename_i h1 h2
        by_cases h : c.num = n
        · simp [h]
        · simp [h, h2 ▸ h]
      · rename_i h1 h2
        rw [List.find?_cons, List.find?_cons, ih]
        by_cases ho : o.num = n
        · have hc : c.num ≠ n := fun h => h2 (h.trans ho.symm)
          simp only [ho, beq_self_eq_true, hc, if_false]
        · have hb : (o.num == n) = false := by simpa using ho
          simp only [hb]

/-- A core read after one was put back. -/
theorem State.getCore_putCore (s : State) (c : Core) (n : Nat) :
    (s.putCore c).getCore n = if c.num = n then c else s.getCore n := by
  unfold State.putCore
  by_cases h : s.core.num = c.num
  · rw [if_pos h]
    unfold State.getCore
    by_cases hn : c.num = n
    · simp [hn]
    · simp [hn, h]
  · rw [if_neg h]
    unfold State.getCore
    by_cases hs : s.core.num = n
    · have : c.num ≠ n := fun g => h (hs.trans g.symm)
      simp [hs, this]
    · simp only [hs, if_false, find_insertCore]
      by_cases hn : c.num = n <;> simp [hn]

/-- A core read after one was changed. -/
theorem State.getCore_modCore (s : State) (m n : Nat) (f : Core → Core) (hf : ∀ c, (f c).num = c.num) :
    (s.modCore m f).getCore n = if m = n then f (s.getCore n) else s.getCore n := by
  unfold State.modCore
  rw [State.getCore_putCore, hf, State.getCore_num]
  by_cases h : m = n <;> simp [h]

theorem State.getCore_self (s : State) : s.getCore s.core.num = s.core := by simp [State.getCore]

theorem State.core_modCore (s : State) (m : Nat) (f : Core → Core) (hf : ∀ c, (f c).num = c.num) :
    (s.modCore m f).core = if m = s.core.num then f s.core else s.core := by
  unfold State.modCore State.putCore
  rw [hf, State.getCore_num]
  by_cases h : s.core.num = m
  · subst h; simp [State.getCore_self]
  · simp [h, Ne.symm h]

theorem State.focus_core (s : State) (n : Nat) : (s.focus n).core = s.getCore n := by
  unfold State.focus
  split
  · rename_i h; rw [← h, State.getCore_self]
  · rfl

theorem State.focus_self (s : State) : s.focus s.core.num = s := by simp [State.focus]

/-- Bringing a core into focus changes no core. -/
theorem State.getCore_focus (s : State) (m n : Nat) : (s.focus m).getCore n = s.getCore n := by
  unfold State.focus
  split
  · rfl
  · rename_i h
    have hm := s.getCore_num m
    unfold State.getCore at hm ⊢
    simp only [h, if_false] at hm ⊢
    simp only [hm]
    by_cases hn : m = n
    · subst hn; simp [h]
    · by_cases hs : s.core.num = n
      · simp [hn, hs, find_insertCore]
      · simp only [hn, hs, if_false, find_insertCore]
        congr 1
        induction s.others with
        | nil => rfl
        | cons o t ih =>
          by_cases ho : o.num = m
          · simp [ho, ih, hn]
          · simp only [List.filter_cons, ho, bne_iff_ne, ne_eq, not_false_eq_true, if_true, List.find?_cons, ih]

theorem State.focus_units (s : State) (n : Nat) : (s.focus n).units = s.units := by
  unfold State.focus; split <;> rfl

/-- An event with its own core in focus. -/
theorem State.onCore_self (s : State) (f : State → State) (h : (f s).core.num = s.core.num) :
    s.onCore s.core.num f = f s := by
  unfold State.onCore
  rw [State.focus_self, ← h, State.focus_self]

/-! ### Deliveries -/

/-- A delivery to an owner resident on a core, whose save area holds something else, is a change of that core. -/
theorem State.deliver_resident (s : State) (o : Owner) (f : Core → Core) (n : Nat) (hi : (s.getCore n).inArea = none)
    (h : o = .bare n ∨ ∃ t, o = .thread t.tid ∧ s.thread? t.tid = some t ∧ t.ended = false ∧ t.evicted = none ∧ t.home = n) :
    s.deliver o f = s.modCore n f := by
  have hc (p : Owner) : s.deliverCore n p f = s.modCore n f := by simp [State.deliverCore, hi]
  rcases h with rfl | ⟨t, rfl, ht, he, hv, rfl⟩
  · exact hc _
  · simp [State.deliver, ht, he, hv, hc]

/-- So is the end of an operation, apart or not (R352). -/
theorem State.deliverOp_resident (s : State) (o : Op) (f : Core → Core) (n : Nat) (hi : (s.getCore n).inArea = none)
    (h : o.owner = .bare n ∨
      ∃ t, o.owner = .thread t.tid ∧ s.thread? t.tid = some t ∧ t.ended = false ∧ t.evicted = none ∧ t.home = n) :
    s.deliverOp o f = s.modCore n f := by
  unfold State.deliverOp
  split
  · rename_i c _ hc
    have : c = n := by
      rcases h with h | ⟨t, h, ht, he, hv, hh⟩
      · simpa [h, State.residence] using hc.symm
      · simpa [h, State.residence, ht, he, hv, hh] using hc.symm
    rw [this]
  · exact s.deliver_resident o.owner f n hi h

end Sys2Proof.Machine
end

