-- ==== Sys2Proof/Laws/Engine.lean ====
section
/-! SUPPORT. Issue and completion of engine operations (R138, R139, R215, R240): what an issue adds and what a completion
writes. -/
namespace Sys2Proof.Machine
open Sys2Proof

theorem Core.setPending_num (c : Core) (r : XReg) (b : Bool) : (c.setPending r b).num = c.num := by
  unfold Core.setPending; split <;> rfl

theorem Core.decCounter_num (c : Core) (o : Option (Fin 16)) : (c.decCounter o).num = c.num := by cases o <;> rfl

theorem Core.deliverWord_num (c : Core) (away : Bool) (r : XReg) (w : Word) : (c.deliverWord away r w).num = c.num := by
  unfold Core.deliverWord
  repeat' split
  · rfl
  · exact c.setPending_num _ _
  · simp [Core.setPending_num]

/-- A word delivered to a resident thread stands in its register (R138). -/
theorem Core.deliverWord_rx (c : Core) (r : XReg) (w : Word) :
    (c.deliverWord false r w).rx r = if r = 0 then 0 else w := by
  unfold Core.deliverWord
  split
  · rename_i h; simp [Core.rx, h]
  · rename_i h
    simp [h]

theorem Core.deliverWord_other (c : Core) (r q : XReg) (w : Word) (h : q ≠ r) :
    (c.deliverWord false r w).rx q = c.rx q := by
  unfold Core.deliverWord
  split
  · rfl
  · simp only [Bool.false_eq_true, if_false]
    rw [Core.rx_wx_ne _ _ _ _ (Ne.symm h)]
    unfold Core.setPending
    split <;> rfl

theorem Core.dropHolds_x (c : Core) (l : List (Fin 8)) : (c.dropHolds l).x = c.x := rfl

theorem Core.decCounter_x (c : Core) (o : Option (Fin 16)) : (c.decCounter o).x = c.x := by cases o <;> rfl

/-- What an operation in flight takes of its core: its target pending, its counter, its holds, and nothing else (R139,
R215). -/
theorem Core.takeOp_spec (c : Core) (o : Op) :
    CoreKept c (c.takeOp o) ∧ (c.takeOp o).pc = c.pc ∧ (c.takeOp o).pendX = (c.setPending o.target true).pendX ∧
      (c.takeOp o).csr = (match o.ctr with
        | some i => { c.csr with cnt := c.csr.cnt.set i (c.csr.cnt.get i + 1) }
        | none => c.csr) := by
  have ha : CoreKept c (c.addHolds o.holds) := by
    constructor
    case loans =>
      intro i
      simp only [Core.addHolds, modHolds, Vector.get, Vector.toArray_ofFn, Array.getElem_ofFn]
      simp only [Fin.val_cast]
      split <;> rfl
    all_goals rfl
  have hk := ha.trans (Core.setPending_kept (c.addHolds o.holds) o.target true)
  have hp : ((c.addHolds o.holds).setPending o.target true).pc = c.pc ∧
      ((c.addHolds o.holds).setPending o.target true).pendX = (c.setPending o.target true).pendX ∧
      ((c.addHolds o.holds).setPending o.target true).csr = c.csr := by
    unfold Core.setPending
    split <;> exact ⟨rfl, rfl, rfl⟩
  unfold Core.takeOp
  dsimp only
  cases o.ctr
  · exact ⟨hk, hp⟩
  · exact ⟨hk.trans (by constructor <;> intros <;> rfl), hp.1, hp.2.1, by simp only [hp.2.2]⟩

/-- What an issue does (R139, R215): the operation stands last, its core has taken it, and nothing else changed. -/
theorem State.issue_spec (s : State) (cls : Nat) (tok : XReg) (body : Body) (beats : Nat) :
    let u := (s.issue cls tok body beats).1
    let o := (s.issue cls tok body beats).2
    o.id = s.nextId ∧ o.owner = s.core.owner ∧ o.cls = cls ∧ o.tok = tok ∧ o.pc = s.core.pc ∧ o.body = body ∧
      o.phase = .issued ∧ o.beats = beats ∧ o.discard = false ∧ o.rights = s.rightsOf s.core ∧
      o.holds = heldEntries (s.rightsOf s.core) ∧ o.apart = s.core.inArea.isSome ∧
      o.ctr = (if bitOf s.core.csr.ccsel 4 then some (Fin.ofNat 16 (bitsOf s.core.csr.ccsel 3 0)) else none) ∧
      u.ops = s.ops ++ [o] ∧ u.nextId = s.nextId + 1 ∧ Kept s u ∧ u.core = s.core.takeOp o :=
  ⟨rfl, rfl, rfl, rfl, rfl, rfl, rfl, rfl, rfl, rfl, rfl, rfl, rfl, rfl, rfl,
    ⟨(s.core.takeOp_spec _).1, rfl, rfl, rfl, rfl⟩, rfl⟩

/-- The replay log alone changes (R322). -/
theorem State.logFrom_units (s : State) (c : Core) (src : Origin) (w : Nat) (v : Word) (l : List Host.Cell) :
    (∀ n, (s.logFrom c src w v l).getCore n = s.getCore n) ∧ (s.logFrom c src w v l).ops = s.ops ∧
      (s.logFrom c src w v l).mem = s.mem := by
  unfold State.logFrom
  split <;> exact ⟨fun _ => rfl, rfl, rfl⟩

theorem State.logDone_units (s : State) (c : Core) (o : Op) (w : Word) :
    (∀ n, (s.logDone c o w).getCore n = s.getCore n) ∧ (s.logDone c o w).ops = s.ops ∧ (s.logDone c o w).mem = s.mem := by
  obtain ⟨h1, h2, h3⟩ := s.logFrom_units c (.engine o.route o.id) 3 w []
  unfold State.logDone State.logExt
  dsimp only
  split
  · rename_i i _
    obtain ⟨g1, g2, g3⟩ := (s.logFrom c (.engine o.route o.id) 3 w []).logFrom_units c (.engine o.route o.id) 9 (nat64 i.val) []
    exact ⟨fun n => (g1 n).trans (h1 n), g2.trans h2, g3.trans h3⟩
  · exact ⟨h1, h2, h3⟩

theorem Core.noteDone_num (c : Core) (tok : XReg) (ctr : Option (Fin 16)) (l : List (Route × Nat × Nat)) :
    (c.noteDone tok ctr l).num = c.num := by unfold Core.noteDone; split <;> rfl

theorem State.landBeats_none (s : State) (o : Op) (n : Nat) (h : o.bar = none ∨ n = 0) : s.landBeats o n = s := by
  unfold State.landBeats
  rcases h with h | h
  · simp [h]
  · split <;> simp [h]

/-- What a completed operation writes in its owner's core (R138, R139, R215). -/
def Core.completed (c : Core) (o : Op) (status : Cause) (count : Nat) (extra : Core → Core) (l : List (Route × Nat × Nat)) :
    Core :=
  ((((extra c).deliverWord false o.tok (completionWord status o.cls count)).decCounter o.ctr).dropHolds o.holds).noteDone
    o.tok o.ctr l

/-- What the completion of an operation without outstanding beats does at the core n that holds its owner (R138, R139,
R215): what it writes besides, its completion word, its counter and its holds; it is no longer among the operations. -/
theorem State.finishOp_spec (s : State) (o : Op) (status : Cause) (count : Nat) (extra : Core → Core) (n : Nat)
    (hr : o.owner = .bare n ∨
      ∃ t, o.owner = .thread t.tid ∧ s.thread? t.tid = some t ∧ t.ended = false ∧ t.evicted = none ∧ t.home = n)
    (hi : (s.getCore n).inArea = none) (hb : o.bar = none ∨ o.beats = 0) (hd : o.discard = false) (hn : ∀ c, (extra c).num = c.num) :
    let t := s.finishOp o status count extra
    t.getCore n = (s.getCore n).completed o status count extra (s.writesOf o) ∧
      (∀ m, m ≠ n → t.getCore m = s.getCore m) ∧ t.ops = s.ops.filter (fun p => p.id != o.id) ∧ t.mem = s.mem := by
  have haway : s.isEvicted o.owner = false := by
    rcases hr with h | ⟨t, h, ht, -, hv, -⟩
    · rw [h]; rfl
    · rw [h]; simp [State.isEvicted, ht, hv]
  have hr' : o.owner = .bare n ∨ ∃ t, o.owner = .thread t.tid ∧ (s.dropOp o.id).thread? t.tid = some t ∧ t.ended = false ∧
      t.evicted = none ∧ t.home = n := hr
  intro t
  have ht : t = ((s.dropOp o.id).modCore n fun c => c.completed o status count extra (s.writesOf o)).logDone
      (s.ownerCore o.owner) o (completionWord status o.cls count) := by
    simp only [t, State.finishOp, hd, haway, State.landBeats_none _ _ _ hb, Bool.false_eq_true, if_false]
    rw [State.deliverOp_resident (s.dropOp o.id) _ _ n hi hr']
    rfl
  have hnum : ∀ c : Core, (c.completed o status count extra (s.writesOf o)).num = c.num := fun c =>
    (Core.noteDone_num _ _ _ _).trans ((Core.decCounter_num _ _).trans ((Core.deliverWord_num _ _ _ _).trans (hn c)))
  obtain ⟨g1, g2, g3⟩ := ((s.dropOp o.id).modCore n fun c => c.completed o status count extra (s.writesOf o)).logDone_units
    (s.ownerCore o.owner) o (completionWord status o.cls count)
  rw [ht]
  refine ⟨?_, ?_, ?_, ?_⟩
  · rw [g1, State.getCore_modCore _ _ _ _ hnum, if_pos rfl]; rfl
  · intro m hm
    rw [g1, State.getCore_modCore _ _ _ _ hnum, if_neg (Ne.symm hm)]; rfl
  · exact g2.trans (congrArg State.ops (State.modCore_units (s.dropOp o.id) n _))
  · exact g3.trans (State.putCore_mem _ _).1

/-- A completion that is no failure without a token completes at once (R309). -/
theorem State.completeOp_told (s : State) (o : Op) (status : Cause) (count : Nat) (fa : Word) (extra : Core → Core)
    (h : status = .ok ∨ o.tok ≠ 0) : s.completeOp o status count fa extra = s.finishOp o status count extra := by
  unfold State.completeOp
  exact if_pos h

end Sys2Proof.Machine
end

