-- ==== Sys2Proof/Laws/PerInstr.lean ====
section
/-! SUPPORT. One statement about every instruction: what the outside world or a unit does, an event, has no encoding. -/
namespace Sys2Proof.Laws.EventEncoding
open Sys2Proof

/-- A row of the table is an event exactly when it has no length; an event has no word, and every term of it is well
formed. -/
def Statement (i : Instr) : Prop :=
  i.isEvent = (i.length == 0) ∧ (i.isEvent = true → encode i = 0 ∧ i.wellFormed = true)

theorem add (d : XReg) (a : XReg) (b : XReg) : Statement (.add d a b) := ⟨rfl, fun h => Bool.noConfusion h⟩
theorem sub (d : XReg) (a : XReg) (b : XReg) : Statement (.sub d a b) := ⟨rfl, fun h => Bool.noConfusion h⟩
theorem and (d : XReg) (a : XReg) (b : XReg) : Statement (.and d a b) := ⟨rfl, fun h => Bool.noConfusion h⟩
theorem or (d : XReg) (a : XReg) (b : XReg) : Statement (.or d a b) := ⟨rfl, fun h => Bool.noConfusion h⟩
theorem xor (d : XReg) (a : XReg) (b : XReg) : Statement (.xor d a b) := ⟨rfl, fun h => Bool.noConfusion h⟩
theorem sll (d : XReg) (a : XReg) (b : XReg) : Statement (.sll d a b) := ⟨rfl, fun h => Bool.noConfusion h⟩
theorem srl (d : XReg) (a : XReg) (b : XReg) : Statement (.srl d a b) := ⟨rfl, fun h => Bool.noConfusion h⟩
theorem sra (d : XReg) (a : XReg) (b : XReg) : Statement (.sra d a b) := ⟨rfl, fun h => Bool.noConfusion h⟩
theorem slt (d : XReg) (a : XReg) (b : XReg) : Statement (.slt d a b) := ⟨rfl, fun h => Bool.noConfusion h⟩
theorem sltu (d : XReg) (a : XReg) (b : XReg) : Statement (.sltu d a b) := ⟨rfl, fun h => Bool.noConfusion h⟩
theorem min (d : XReg) (a : XReg) (b : XReg) : Statement (.min d a b) := ⟨rfl, fun h => Bool.noConfusion h⟩
theorem max (d : XReg) (a : XReg) (b : XReg) : Statement (.max d a b) := ⟨rfl, fun h => Bool.noConfusion h⟩
theorem minu (d : XReg) (a : XReg) (b : XReg) : Statement (.minu d a b) := ⟨rfl, fun h => Bool.noConfusion h⟩
theorem maxu (d : XReg) (a : XReg) (b : XReg) : Statement (.maxu d a b) := ⟨rfl, fun h => Bool.noConfusion h⟩
theorem mul (d : XReg) (a : XReg) (b : XReg) : Statement (.mul d a b) := ⟨rfl, fun h => Bool.noConfusion h⟩
theorem mulh (d : XReg) (a : XReg) (b : XReg) : Statement (.mulh d a b) := ⟨rfl, fun h => Bool.noConfusion h⟩
theorem mulhu (d : XReg) (a : XReg) (b : XReg) : Statement (.mulhu d a b) := ⟨rfl, fun h => Bool.noConfusion h⟩
theorem div (d : XReg) (a : XReg) (b : XReg) : Statement (.div d a b) := ⟨rfl, fun h => Bool.noConfusion h⟩
theorem divu (d : XReg) (a : XReg) (b : XReg) : Statement (.divu d a b) := ⟨rfl, fun h => Bool.noConfusion h⟩
theorem rem (d : XReg) (a : XReg) (b : XReg) : Statement (.rem d a b) := ⟨rfl, fun h => Bool.noConfusion h⟩
theorem remu (d : XReg) (a : XReg) (b : XReg) : Statement (.remu d a b) := ⟨rfl, fun h => Bool.noConfusion h⟩
theorem clz (d : XReg) (a : XReg) : Statement (.clz d a) := ⟨rfl, fun h => Bool.noConfusion h⟩
theorem ctz (d : XReg) (a : XReg) : Statement (.ctz d a) := ⟨rfl, fun h => Bool.noConfusion h⟩
theorem popc (d : XReg) (a : XReg) : Statement (.popc d a) := ⟨rfl, fun h => Bool.noConfusion h⟩
theorem rol (d : XReg) (a : XReg) (b : XReg) : Statement (.rol d a b) := ⟨rfl, fun h => Bool.noConfusion h⟩
theorem ror (d : XReg) (a : XReg) (b : XReg) : Statement (.ror d a b) := ⟨rfl, fun h => Bool.noConfusion h⟩
theorem addi (d : XReg) (a : XReg) (imm : BitVec 12) : Statement (.addi d a imm) := ⟨rfl, fun h => Bool.noConfusion h⟩
theorem andi (d : XReg) (a : XReg) (imm : BitVec 12) : Statement (.andi d a imm) := ⟨rfl, fun h => Bool.noConfusion h⟩
theorem ori (d : XReg) (a : XReg) (imm : BitVec 12) : Statement (.ori d a imm) := ⟨rfl, fun h => Bool.noConfusion h⟩
theorem xori (d : XReg) (a : XReg) (imm : BitVec 12) : Statement (.xori d a imm) := ⟨rfl, fun h => Bool.noConfusion h⟩
theorem slli (d : XReg) (a : XReg) (sh : BitVec 6) : Statement (.slli d a sh) := ⟨rfl, fun h => Bool.noConfusion h⟩
theorem srli (d : XReg) (a : XReg) (sh : BitVec 6) : Statement (.srli d a sh) := ⟨rfl, fun h => Bool.noConfusion h⟩
theorem srai (d : XReg) (a : XReg) (sh : BitVec 6) : Statement (.srai d a sh) := ⟨rfl, fun h => Bool.noConfusion h⟩
theorem slti (d : XReg) (a : XReg) (imm : BitVec 12) : Statement (.slti d a imm) := ⟨rfl, fun h => Bool.noConfusion h⟩
theorem sltiu (d : XReg) (a : XReg) (imm : BitVec 12) : Statement (.sltiu d a imm) := ⟨rfl, fun h => Bool.noConfusion h⟩
theorem lih (d : XReg) (imm : BitVec 20) : Statement (.lih d imm) := ⟨rfl, fun h => Bool.noConfusion h⟩
theorem addpc (d : XReg) (imm : BitVec 20) : Statement (.addpc d imm) := ⟨rfl, fun h => Bool.noConfusion h⟩
theorem cmpEq (p : PReg) (a : XReg) (b : XReg) : Statement (.cmpEq p a b) := ⟨rfl, fun h => Bool.noConfusion h⟩
theorem cmpNe (p : PReg) (a : XReg) (b : XReg) : Statement (.cmpNe p a b) := ⟨rfl, fun h => Bool.noConfusion h⟩
theorem cmpLt (p : PReg) (a : XReg) (b : XReg) : Statement (.cmpLt p a b) := ⟨rfl, fun h => Bool.noConfusion h⟩
theorem cmpGe (p : PReg) (a : XReg) (b : XReg) : Statement (.cmpGe p a b) := ⟨rfl, fun h => Bool.noConfusion h⟩
theorem cmpLtu (p : PReg) (a : XReg) (b : XReg) : Statement (.cmpLtu p a b) := ⟨rfl, fun h => Bool.noConfusion h⟩
theorem cmpGeu (p : PReg) (a : XReg) (b : XReg) : Statement (.cmpGeu p a b) := ⟨rfl, fun h => Bool.noConfusion h⟩
theorem cmpiEq (p : PReg) (a : XReg) (imm : BitVec 12) : Statement (.cmpiEq p a imm) :=
  ⟨rfl, fun h => Bool.noConfusion h⟩
theorem cmpiNe (p : PReg) (a : XReg) (imm : BitVec 12) : Statement (.cmpiNe p a imm) :=
  ⟨rfl, fun h => Bool.noConfusion h⟩
theorem cmpiLt (p : PReg) (a : XReg) (imm : BitVec 12) : Statement (.cmpiLt p a imm) :=
  ⟨rfl, fun h => Bool.noConfusion h⟩
theorem cmpiGe (p : PReg) (a : XReg) (imm : BitVec 12) : Statement (.cmpiGe p a imm) :=
  ⟨rfl, fun h => Bool.noConfusion h⟩
theorem cmpiLtu (p : PReg) (a : XReg) (imm : BitVec 12) : Statement (.cmpiLtu p a imm) :=
  ⟨rfl, fun h => Bool.noConfusion h⟩
theorem cmpiGeu (p : PReg) (a : XReg) (imm : BitVec 12) : Statement (.cmpiGeu p a imm) :=
  ⟨rfl, fun h => Bool.noConfusion h⟩
theorem pand (d : PReg) (a : PReg) (b : PReg) : Statement (.pand d a b) := ⟨rfl, fun h => Bool.noConfusion h⟩
theorem por (d : PReg) (a : PReg) (b : PReg) : Statement (.por d a b) := ⟨rfl, fun h => Bool.noConfusion h⟩
theorem pxor (d : PReg) (a : PReg) (b : PReg) : Statement (.pxor d a b) := ⟨rfl, fun h => Bool.noConfusion h⟩
theorem pnot (d : PReg) (a : PReg) : Statement (.pnot d a) := ⟨rfl, fun h => Bool.noConfusion h⟩
theorem pmov (d : PReg) (a : PReg) : Statement (.pmov d a) := ⟨rfl, fun h => Bool.noConfusion h⟩
theorem movp (d : XReg) (a : PReg) : Statement (.movp d a) := ⟨rfl, fun h => Bool.noConfusion h⟩
theorem setp (d : PReg) (a : XReg) : Statement (.setp d a) := ⟨rfl, fun h => Bool.noConfusion h⟩
theorem sel (g : Guard) (d : XReg) (a : XReg) (b : XReg) : Statement (.sel g d a b) :=
  ⟨rfl, fun h => Bool.noConfusion h⟩
theorem br (g : Guard) (off : BitVec 21) : Statement (.br g off) := ⟨rfl, fun h => Bool.noConfusion h⟩
theorem jal (d : XReg) (off : BitVec 20) : Statement (.jal d off) := ⟨rfl, fun h => Bool.noConfusion h⟩
theorem jalr (d : XReg) (a : XReg) (imm : BitVec 12) : Statement (.jalr d a imm) := ⟨rfl, fun h => Bool.noConfusion h⟩
theorem lb (d : XReg) (a : XReg) (imm : BitVec 12) : Statement (.lb d a imm) := ⟨rfl, fun h => Bool.noConfusion h⟩
theorem lbu (d : XReg) (a : XReg) (imm : BitVec 12) : Statement (.lbu d a imm) := ⟨rfl, fun h => Bool.noConfusion h⟩
theorem lh (d : XReg) (a : XReg) (imm : BitVec 12) : Statement (.lh d a imm) := ⟨rfl, fun h => Bool.noConfusion h⟩
theorem lhu (d : XReg) (a : XReg) (imm : BitVec 12) : Statement (.lhu d a imm) := ⟨rfl, fun h => Bool.noConfusion h⟩
theorem lw (d : XReg) (a : XReg) (imm : BitVec 12) : Statement (.lw d a imm) := ⟨rfl, fun h => Bool.noConfusion h⟩
theorem lwu (d : XReg) (a : XReg) (imm : BitVec 12) : Statement (.lwu d a imm) := ⟨rfl, fun h => Bool.noConfusion h⟩
theorem ld (d : XReg) (a : XReg) (imm : BitVec 12) : Statement (.ld d a imm) := ⟨rfl, fun h => Bool.noConfusion h⟩
theorem lwS (sc : Scope) (d : XReg) (a : XReg) (off : BitVec 10) : Statement (.lwS sc d a off) :=
  ⟨rfl, fun h => Bool.noConfusion h⟩
theorem ldS (sc : Scope) (d : XReg) (a : XReg) (off : BitVec 10) : Statement (.ldS sc d a off) :=
  ⟨rfl, fun h => Bool.noConfusion h⟩
theorem lwA (sc : Scope) (d : XReg) (a : XReg) (off : BitVec 10) : Statement (.lwA sc d a off) :=
  ⟨rfl, fun h => Bool.noConfusion h⟩
theorem ldA (sc : Scope) (d : XReg) (a : XReg) (off : BitVec 10) : Statement (.ldA sc d a off) :=
  ⟨rfl, fun h => Bool.noConfusion h⟩
theorem sb (g : Guard) (b : XReg) (a : XReg) (off : BitVec 8) : Statement (.sb g b a off) :=
  ⟨rfl, fun h => Bool.noConfusion h⟩
theorem sh (g : Guard) (b : XReg) (a : XReg) (off : BitVec 8) : Statement (.sh g b a off) :=
  ⟨rfl, fun h => Bool.noConfusion h⟩
theorem sw (g : Guard) (b : XReg) (a : XReg) (off : BitVec 8) : Statement (.sw g b a off) :=
  ⟨rfl, fun h => Bool.noConfusion h⟩
theorem sd (g : Guard) (b : XReg) (a : XReg) (off : BitVec 8) : Statement (.sd g b a off) :=
  ⟨rfl, fun h => Bool.noConfusion h⟩
theorem swS (g : Guard) (sc : Scope) (b : XReg) (a : XReg) (off : BitVec 7) : Statement (.swS g sc b a off) :=
  ⟨rfl, fun h => Bool.noConfusion h⟩
theorem sdS (g : Guard) (sc : Scope) (b : XReg) (a : XReg) (off : BitVec 7) : Statement (.sdS g sc b a off) :=
  ⟨rfl, fun h => Bool.noConfusion h⟩
theorem swL (g : Guard) (sc : Scope) (b : XReg) (a : XReg) (off : BitVec 7) : Statement (.swL g sc b a off) :=
  ⟨rfl, fun h => Bool.noConfusion h⟩
theorem sdL (g : Guard) (sc : Scope) (b : XReg) (a : XReg) (off : BitVec 7) : Statement (.sdL g sc b a off) :=
  ⟨rfl, fun h => Bool.noConfusion h⟩
theorem amoaddW (p : PReg) (os : AmoOrder) (d : XReg) (b : XReg) (a : XReg) : Statement (.amoaddW p os d b a) :=
  ⟨rfl, fun h => Bool.noConfusion h⟩
theorem amoandW (p : PReg) (os : AmoOrder) (d : XReg) (b : XReg) (a : XReg) : Statement (.amoandW p os d b a) :=
  ⟨rfl, fun h => Bool.noConfusion h⟩
theorem amoorW (p : PReg) (os : AmoOrder) (d : XReg) (b : XReg) (a : XReg) : Statement (.amoorW p os d b a) :=
  ⟨rfl, fun h => Bool.noConfusion h⟩
theorem amoxorW (p : PReg) (os : AmoOrder) (d : XReg) (b : XReg) (a : XReg) : Statement (.amoxorW p os d b a) :=
  ⟨rfl, fun h => Bool.noConfusion h⟩
theorem amominW (p : PReg) (os : AmoOrder) (d : XReg) (b : XReg) (a : XReg) : Statement (.amominW p os d b a) :=
  ⟨rfl, fun h => Bool.noConfusion h⟩
theorem amomaxW (p : PReg) (os : AmoOrder) (d : XReg) (b : XReg) (a : XReg) : Statement (.amomaxW p os d b a) :=
  ⟨rfl, fun h => Bool.noConfusion h⟩
theorem amominuW (p : PReg) (os : AmoOrder) (d : XReg) (b : XReg) (a : XReg) : Statement (.amominuW p os d b a) :=
  ⟨rfl, fun h => Bool.noConfusion h⟩
theorem amomaxuW (p : PReg) (os : AmoOrder) (d : XReg) (b : XReg) (a : XReg) : Statement (.amomaxuW p os d b a) :=
  ⟨rfl, fun h => Bool.noConfusion h⟩
theorem amoswapW (p : PReg) (os : AmoOrder) (d : XReg) (b : XReg) (a : XReg) : Statement (.amoswapW p os d b a) :=
  ⟨rfl, fun h => Bool.noConfusion h⟩
theorem casW (p : PReg) (os : AmoOrder) (d : XReg) (b : XReg) (a : XReg) : Statement (.casW p os d b a) :=
  ⟨rfl, fun h => Bool.noConfusion h⟩
theorem amoaddD (p : PReg) (os : AmoOrder) (d : XReg) (b : XReg) (a : XReg) : Statement (.amoaddD p os d b a) :=
  ⟨rfl, fun h => Bool.noConfusion h⟩
theorem amoandD (p : PReg) (os : AmoOrder) (d : XReg) (b : XReg) (a : XReg) : Statement (.amoandD p os d b a) :=
  ⟨rfl, fun h => Bool.noConfusion h⟩
theorem amoorD (p : PReg) (os : AmoOrder) (d : XReg) (b : XReg) (a : XReg) : Statement (.amoorD p os d b a) :=
  ⟨rfl, fun h => Bool.noConfusion h⟩
theorem amoxorD (p : PReg) (os : AmoOrder) (d : XReg) (b : XReg) (a : XReg) : Statement (.amoxorD p os d b a) :=
  ⟨rfl, fun h => Bool.noConfusion h⟩
theorem amominD (p : PReg) (os : AmoOrder) (d : XReg) (b : XReg) (a : XReg) : Statement (.amominD p os d b a) :=
  ⟨rfl, fun h => Bool.noConfusion h⟩
theorem amomaxD (p : PReg) (os : AmoOrder) (d : XReg) (b : XReg) (a : XReg) : Statement (.amomaxD p os d b a) :=
  ⟨rfl, fun h => Bool.noConfusion h⟩
theorem amominuD (p : PReg) (os : AmoOrder) (d : XReg) (b : XReg) (a : XReg) : Statement (.amominuD p os d b a) :=
  ⟨rfl, fun h => Bool.noConfusion h⟩
theorem amomaxuD (p : PReg) (os : AmoOrder) (d : XReg) (b : XReg) (a : XReg) : Statement (.amomaxuD p os d b a) :=
  ⟨rfl, fun h => Bool.noConfusion h⟩
theorem amoswapD (p : PReg) (os : AmoOrder) (d : XReg) (b : XReg) (a : XReg) : Statement (.amoswapD p os d b a) :=
  ⟨rfl, fun h => Bool.noConfusion h⟩
theorem casD (p : PReg) (os : AmoOrder) (d : XReg) (b : XReg) (a : XReg) : Statement (.casD p os d b a) :=
  ⟨rfl, fun h => Bool.noConfusion h⟩
theorem fence (kind : FenceKind) (sc : Scope) (paths : Paths) : Statement (.fence kind sc paths) :=
  ⟨rfl, fun h => Bool.noConfusion h⟩
theorem csrr (d : XReg) (n : BitVec 12) : Statement (.csrr d n) := ⟨rfl, fun h => Bool.noConfusion h⟩
theorem csrw (d : XReg) (n : BitVec 12) (a : XReg) : Statement (.csrw d n a) := ⟨rfl, fun h => Bool.noConfusion h⟩
theorem csrs (d : XReg) (n : BitVec 12) (a : XReg) : Statement (.csrs d n a) := ⟨rfl, fun h => Bool.noConfusion h⟩
theorem csrc (d : XReg) (n : BitVec 12) (a : XReg) : Statement (.csrc d n a) := ⟨rfl, fun h => Bool.noConfusion h⟩
theorem loop (a : XReg) (e : BitVec 12) : Statement (.loop a e) := ⟨rfl, fun h => Bool.noConfusion h⟩
theorem loopi (c : BitVec 12) (e : BitVec 10) : Statement (.loopi c e) := ⟨rfl, fun h => Bool.noConfusion h⟩
theorem trap (imm : BitVec 12) : Statement (.trap imm) := ⟨rfl, fun h => Bool.noConfusion h⟩
theorem brk (imm : BitVec 12) : Statement (.brk imm) := ⟨rfl, fun h => Bool.noConfusion h⟩
theorem mcall (imm : BitVec 12) : Statement (.mcall imm) := ⟨rfl, fun h => Bool.noConfusion h⟩
theorem callg (a : XReg) (imm : BitVec 12) : Statement (.callg a imm) := ⟨rfl, fun h => Bool.noConfusion h⟩
theorem lendR (d : XReg) (a : XReg) (b : XReg) : Statement (.lendR d a b) := ⟨rfl, fun h => Bool.noConfusion h⟩
theorem lendRw (d : XReg) (a : XReg) (b : XReg) : Statement (.lendRw d a b) := ⟨rfl, fun h => Bool.noConfusion h⟩
theorem recl (a : XReg) : Statement (.recl a) := ⟨rfl, fun h => Bool.noConfusion h⟩
theorem loanq (d : XReg) (a : XReg) : Statement (.loanq d a) := ⟨rfl, fun h => Bool.noConfusion h⟩
theorem barInit (a : XReg) (b : XReg) : Statement (.barInit a b) := ⟨rfl, fun h => Bool.noConfusion h⟩
theorem barArr (a : XReg) : Statement (.barArr a) := ⟨rfl, fun h => Bool.noConfusion h⟩
theorem barWait (a : XReg) : Statement (.barWait a) := ⟨rfl, fun h => Bool.noConfusion h⟩
theorem barSync (a : XReg) : Statement (.barSync a) := ⟨rfl, fun h => Bool.noConfusion h⟩
theorem waita (a : XReg) (b : XReg) : Statement (.waita a b) := ⟨rfl, fun h => Bool.noConfusion h⟩
theorem waitaGe (a : XReg) (b : XReg) : Statement (.waitaGe a b) := ⟨rfl, fun h => Bool.noConfusion h⟩
theorem cwait (c : Fin 16) (n : Fin 32) : Statement (.cwait c n) := ⟨rfl, fun h => Bool.noConfusion h⟩
theorem fork (d : XReg) (a : XReg) : Statement (.fork d a) := ⟨rfl, fun h => Bool.noConfusion h⟩
theorem join (a : XReg) : Statement (.join a) := ⟨rfl, fun h => Bool.noConfusion h⟩
theorem redAdd (tok : XReg) (tree : Bool) (f : RedFmt) (d : VGroup) (a : VGroup) : Statement (.redAdd tok tree f d a) :=
  ⟨rfl, fun h => Bool.noConfusion h⟩
theorem redMin (tok : XReg) (tree : Bool) (f : RedFmt) (d : VGroup) (a : VGroup) : Statement (.redMin tok tree f d a) :=
  ⟨rfl, fun h => Bool.noConfusion h⟩
theorem redMax (tok : XReg) (tree : Bool) (f : RedFmt) (d : VGroup) (a : VGroup) : Statement (.redMax tok tree f d a) :=
  ⟨rfl, fun h => Bool.noConfusion h⟩
theorem vadd (k : KReg) (d : VReg) (a : VReg) (b : VReg) : Statement (.vadd k d a b) :=
  ⟨rfl, fun h => Bool.noConfusion h⟩
theorem vsub (k : KReg) (d : VReg) (a : VReg) (b : VReg) : Statement (.vsub k d a b) :=
  ⟨rfl, fun h => Bool.noConfusion h⟩
theorem vmul (k : KReg) (d : VReg) (a : VReg) (b : VReg) : Statement (.vmul k d a b) :=
  ⟨rfl, fun h => Bool.noConfusion h⟩
theorem vfma (k : KReg) (d : VReg) (a : VReg) (b : VReg) : Statement (.vfma k d a b) :=
  ⟨rfl, fun h => Bool.noConfusion h⟩
theorem vfms (k : KReg) (d : VReg) (a : VReg) (b : VReg) : Statement (.vfms k d a b) :=
  ⟨rfl, fun h => Bool.noConfusion h⟩
theorem vfnma (k : KReg) (d : VReg) (a : VReg) (b : VReg) : Statement (.vfnma k d a b) :=
  ⟨rfl, fun h => Bool.noConfusion h⟩
theorem vmin (k : KReg) (d : VReg) (a : VReg) (b : VReg) : Statement (.vmin k d a b) :=
  ⟨rfl, fun h => Bool.noConfusion h⟩
theorem vmax (k : KReg) (d : VReg) (a : VReg) (b : VReg) : Statement (.vmax k d a b) :=
  ⟨rfl, fun h => Bool.noConfusion h⟩
theorem vminu (k : KReg) (d : VReg) (a : VReg) (b : VReg) : Statement (.vminu k d a b) :=
  ⟨rfl, fun h => Bool.noConfusion h⟩
theorem vmaxu (k : KReg) (d : VReg) (a : VReg) (b : VReg) : Statement (.vmaxu k d a b) :=
  ⟨rfl, fun h => Bool.noConfusion h⟩
theorem vabs (k : KReg) (d : VReg) (a : VReg) : Statement (.vabs k d a) := ⟨rfl, fun h => Bool.noConfusion h⟩
theorem vneg (k : KReg) (d : VReg) (a : VReg) : Statement (.vneg k d a) := ⟨rfl, fun h => Bool.noConfusion h⟩
theorem vand (k : KReg) (d : VReg) (a : VReg) (b : VReg) : Statement (.vand k d a b) :=
  ⟨rfl, fun h => Bool.noConfusion h⟩
theorem vor (k : KReg) (d : VReg) (a : VReg) (b : VReg) : Statement (.vor k d a b) := ⟨rfl, fun h => Bool.noConfusion h⟩
theorem vxor (k : KReg) (d : VReg) (a : VReg) (b : VReg) : Statement (.vxor k d a b) :=
  ⟨rfl, fun h => Bool.noConfusion h⟩
theorem vnot (k : KReg) (d : VReg) (a : VReg) : Statement (.vnot k d a) := ⟨rfl, fun h => Bool.noConfusion h⟩
theorem vsll (k : KReg) (d : VReg) (a : VReg) (b : VReg) : Statement (.vsll k d a b) :=
  ⟨rfl, fun h => Bool.noConfusion h⟩
theorem vsrl (k : KReg) (d : VReg) (a : VReg) (b : VReg) : Statement (.vsrl k d a b) :=
  ⟨rfl, fun h => Bool.noConfusion h⟩
theorem vsra (k : KReg) (d : VReg) (a : VReg) (b : VReg) : Statement (.vsra k d a b) :=
  ⟨rfl, fun h => Bool.noConfusion h⟩
theorem vadds (k : KReg) (d : VReg) (a : VReg) (b : VReg) : Statement (.vadds k d a b) :=
  ⟨rfl, fun h => Bool.noConfusion h⟩
theorem vsubs (k : KReg) (d : VReg) (a : VReg) (b : VReg) : Statement (.vsubs k d a b) :=
  ⟨rfl, fun h => Bool.noConfusion h⟩
theorem vdiv (k : KReg) (d : VReg) (a : VReg) (b : VReg) : Statement (.vdiv k d a b) :=
  ⟨rfl, fun h => Bool.noConfusion h⟩
theorem vsqrt (k : KReg) (d : VReg) (a : VReg) : Statement (.vsqrt k d a) := ⟨rfl, fun h => Bool.noConfusion h⟩
theorem vcmpEq (k : KReg) (d : KReg) (a : VReg) (b : VReg) : Statement (.vcmpEq k d a b) :=
  ⟨rfl, fun h => Bool.noConfusion h⟩
theorem vcmpNe (k : KReg) (d : KReg) (a : VReg) (b : VReg) : Statement (.vcmpNe k d a b) :=
  ⟨rfl, fun h => Bool.noConfusion h⟩
theorem vcmpLt (k : KReg) (d : KReg) (a : VReg) (b : VReg) : Statement (.vcmpLt k d a b) :=
  ⟨rfl, fun h => Bool.noConfusion h⟩
theorem vcmpGe (k : KReg) (d : KReg) (a : VReg) (b : VReg) : Statement (.vcmpGe k d a b) :=
  ⟨rfl, fun h => Bool.noConfusion h⟩
theorem vcmpLtu (k : KReg) (d : KReg) (a : VReg) (b : VReg) : Statement (.vcmpLtu k d a b) :=
  ⟨rfl, fun h => Bool.noConfusion h⟩
theorem vcmpGeu (k : KReg) (d : KReg) (a : VReg) (b : VReg) : Statement (.vcmpGeu k d a b) :=
  ⟨rfl, fun h => Bool.noConfusion h⟩
theorem vsel (k : KReg) (d : VReg) (a : VReg) (b : VReg) : Statement (.vsel k d a b) :=
  ⟨rfl, fun h => Bool.noConfusion h⟩
theorem vmov (k : KReg) (d : VReg) (a : VReg) : Statement (.vmov k d a) := ⟨rfl, fun h => Bool.noConfusion h⟩
theorem vbcast (k : KReg) (d : VReg) (a : XReg) : Statement (.vbcast k d a) := ⟨rfl, fun h => Bool.noConfusion h⟩
theorem vextr (d : XReg) (a : VReg) (b : XReg) : Statement (.vextr d a b) := ⟨rfl, fun h => Bool.noConfusion h⟩
theorem vins (d : VReg) (a : XReg) (b : XReg) : Statement (.vins d a b) := ⟨rfl, fun h => Bool.noConfusion h⟩
theorem vslide (k : KReg) (d : VReg) (a : VReg) (b : XReg) : Statement (.vslide k d a b) :=
  ⟨rfl, fun h => Bool.noConfusion h⟩
theorem vperm (k : KReg) (d : VReg) (a : VReg) (b : VReg) : Statement (.vperm k d a b) :=
  ⟨rfl, fun h => Bool.noConfusion h⟩
theorem viota (k : KReg) (d : VReg) : Statement (.viota k d) := ⟨rfl, fun h => Bool.noConfusion h⟩
theorem vredsum (k : KReg) (d : VReg) (a : VReg) : Statement (.vredsum k d a) := ⟨rfl, fun h => Bool.noConfusion h⟩
theorem vredmin (k : KReg) (d : VReg) (a : VReg) : Statement (.vredmin k d a) := ⟨rfl, fun h => Bool.noConfusion h⟩
theorem vredmax (k : KReg) (d : VReg) (a : VReg) : Statement (.vredmax k d a) := ⟨rfl, fun h => Bool.noConfusion h⟩
theorem vtag (f : Fmt) (d : VReg) (a : VReg) : Statement (.vtag f d a) := ⟨rfl, fun h => Bool.noConfusion h⟩
theorem kand (d : KReg) (a : KReg) (b : KReg) : Statement (.kand d a b) := ⟨rfl, fun h => Bool.noConfusion h⟩
theorem kor (d : KReg) (a : KReg) (b : KReg) : Statement (.kor d a b) := ⟨rfl, fun h => Bool.noConfusion h⟩
theorem kxor (d : KReg) (a : KReg) (b : KReg) : Statement (.kxor d a b) := ⟨rfl, fun h => Bool.noConfusion h⟩
theorem knot (d : KReg) (a : KReg) : Statement (.knot d a) := ⟨rfl, fun h => Bool.noConfusion h⟩
theorem kpop (d : XReg) (a : KReg) : Statement (.kpop d a) := ⟨rfl, fun h => Bool.noConfusion h⟩
theorem kfirst (d : XReg) (a : KReg) : Statement (.kfirst d a) := ⟨rfl, fun h => Bool.noConfusion h⟩
theorem vcvt (r : VRnd) (f : Fmt) (k : KReg) (d : VReg) (a : VReg) : Statement (.vcvt r f k d a) :=
  ⟨rfl, fun h => Bool.noConfusion h⟩
theorem vld (f : Fmt) (k : KReg) (d : VReg) (a : XReg) : Statement (.vld f k d a) := ⟨rfl, fun h => Bool.noConfusion h⟩
theorem vlds (f : Fmt) (k : KReg) (d : VReg) (a : XReg) (b : XReg) : Statement (.vlds f k d a b) :=
  ⟨rfl, fun h => Bool.noConfusion h⟩
theorem vldx (f : Fmt) (k : KReg) (d : VReg) (a : XReg) (b : VReg) : Statement (.vldx f k d a b) :=
  ⟨rfl, fun h => Bool.noConfusion h⟩
theorem vldb (f : Fmt) (k : KReg) (d : VReg) (a : XReg) : Statement (.vldb f k d a) :=
  ⟨rfl, fun h => Bool.noConfusion h⟩
theorem vst (k : KReg) (d : VReg) (a : XReg) : Statement (.vst k d a) := ⟨rfl, fun h => Bool.noConfusion h⟩
theorem vsts (k : KReg) (d : VReg) (a : XReg) (b : XReg) : Statement (.vsts k d a b) :=
  ⟨rfl, fun h => Bool.noConfusion h⟩
theorem vstx (k : KReg) (d : VReg) (a : XReg) (b : VReg) : Statement (.vstx k d a b) :=
  ⟨rfl, fun h => Bool.noConfusion h⟩
theorem setvl (f : Fmt) (d : XReg) (a : XReg) : Statement (.setvl f d a) := ⟨rfl, fun h => Bool.noConfusion h⟩
theorem tcfg (tc : TReg) (a : XReg) : Statement (.tcfg tc a) := ⟨rfl, fun h => Bool.noConfusion h⟩
theorem accfg (a : XReg) : Statement (.accfg a) := ⟨rfl, fun h => Bool.noConfusion h⟩
theorem tld (tok : XReg) (tc : TReg) (a : XReg) (d : XReg) : Statement (.tld tok tc a d) :=
  ⟨rfl, fun h => Bool.noConfusion h⟩
theorem tst (tok : XReg) (tc : TReg) (a : XReg) (d : XReg) : Statement (.tst tok tc a d) :=
  ⟨rfl, fun h => Bool.noConfusion h⟩
theorem tlds (tok : XReg) (tc : TReg) (a : XReg) (d : XReg) : Statement (.tlds tok tc a d) :=
  ⟨rfl, fun h => Bool.noConfusion h⟩
theorem tzero (tok : XReg) (tc : TReg) : Statement (.tzero tok tc) := ⟨rfl, fun h => Bool.noConfusion h⟩
theorem mma (tok : XReg) (tc : TReg) (tb : TReg) (a : XReg) : Statement (.mma tok tc tb a) :=
  ⟨rfl, fun h => Bool.noConfusion h⟩
theorem mmas (tok : XReg) (tc : TReg) (tb : TReg) (a : XReg) : Statement (.mmas tok tc tb a) :=
  ⟨rfl, fun h => Bool.noConfusion h⟩
theorem mtv (tok : XReg) (tc : TReg) (a : XReg) (d : XReg) : Statement (.mtv tok tc a d) :=
  ⟨rfl, fun h => Bool.noConfusion h⟩
theorem acld (tok : XReg) (a : XReg) (d : XReg) : Statement (.acld tok a d) := ⟨rfl, fun h => Bool.noConfusion h⟩
theorem acst (tok : XReg) (a : XReg) (d : XReg) : Statement (.acst tok a d) := ⟨rfl, fun h => Bool.noConfusion h⟩
theorem accvt (tok : XReg) (tc : TReg) (a : XReg) : Statement (.accvt tok tc a) := ⟨rfl, fun h => Bool.noConfusion h⟩
theorem aczero (tok : XReg) (a : XReg) : Statement (.aczero tok a) := ⟨rfl, fun h => Bool.noConfusion h⟩
theorem cpy (tok : XReg) (d : XReg) (a : XReg) (b : XReg) : Statement (.cpy tok d a b) :=
  ⟨rfl, fun h => Bool.noConfusion h⟩
theorem tcpy (tok : XReg) (d : XReg) (a : XReg) (b : XReg) : Statement (.tcpy tok d a b) :=
  ⟨rfl, fun h => Bool.noConfusion h⟩
theorem cpyf (tok : XReg) (d : XReg) (a : XReg) (b : XReg) : Statement (.cpyf tok d a b) :=
  ⟨rfl, fun h => Bool.noConfusion h⟩
theorem bteGo (tok : XReg) (d : XReg) (a : XReg) (b : XReg) : Statement (.bteGo tok d a b) :=
  ⟨rfl, fun h => Bool.noConfusion h⟩
theorem bteQ (d : XReg) (a : XReg) : Statement (.bteQ d a) := ⟨rfl, fun h => Bool.noConfusion h⟩
theorem tspawn (sl : Slot) (a : XReg) (b : XReg) : Statement (.tspawn sl a b) := ⟨rfl, fun h => Bool.noConfusion h⟩
theorem tnext (pd : PReg) (d : XReg) (sl : Slot) : Statement (.tnext pd d sl) := ⟨rfl, fun h => Bool.noConfusion h⟩
theorem wmkRd (d : XReg) (b : XReg) (sl : Slot) : Statement (.wmkRd d b sl) := ⟨rfl, fun h => Bool.noConfusion h⟩
theorem wmkRdS (d : XReg) (b : XReg) (sl : Slot) : Statement (.wmkRdS d b sl) := ⟨rfl, fun h => Bool.noConfusion h⟩
theorem wmkUpd (pd : PReg) (a : XReg) (b : XReg) : Statement (.wmkUpd pd a b) := ⟨rfl, fun h => Bool.noConfusion h⟩
theorem wmkSet (d : XReg) (a : XReg) (b : XReg) : Statement (.wmkSet d a b) := ⟨rfl, fun h => Bool.noConfusion h⟩
theorem calRun (tok : XReg) (d : XReg) (a : XReg) : Statement (.calRun tok d a) := ⟨rfl, fun h => Bool.noConfusion h⟩
theorem calQry (d : XReg) : Statement (.calQry d) := ⟨rfl, fun h => Bool.noConfusion h⟩
theorem protSet (a : XReg) (b : XReg) : Statement (.protSet a b) := ⟨rfl, fun h => Bool.noConfusion h⟩
theorem lptSet (a : XReg) (b : XReg) : Statement (.lptSet a b) := ⟨rfl, fun h => Bool.noConfusion h⟩
theorem ctxSave (a : XReg) : Statement (.ctxSave a) := ⟨rfl, fun h => Bool.noConfusion h⟩
theorem ctxLoad (a : XReg) : Statement (.ctxLoad a) := ⟨rfl, fun h => Bool.noConfusion h⟩
theorem hMov (d : XReg) (b : XReg) : Statement (.hMov d b) := ⟨rfl, fun h => Bool.noConfusion h⟩
theorem hAdd (d : XReg) (b : XReg) : Statement (.hAdd d b) := ⟨rfl, fun h => Bool.noConfusion h⟩
theorem hSub (d : XReg) (b : XReg) : Statement (.hSub d b) := ⟨rfl, fun h => Bool.noConfusion h⟩
theorem hAnd (d : XReg) (b : XReg) : Statement (.hAnd d b) := ⟨rfl, fun h => Bool.noConfusion h⟩
theorem hOr (d : XReg) (b : XReg) : Statement (.hOr d b) := ⟨rfl, fun h => Bool.noConfusion h⟩
theorem hXor (d : XReg) (b : XReg) : Statement (.hXor d b) := ⟨rfl, fun h => Bool.noConfusion h⟩
theorem hAddi (d : XReg) (imm : BitVec 5) : Statement (.hAddi d imm) := ⟨rfl, fun h => Bool.noConfusion h⟩
theorem hLi (d : XReg) (imm : BitVec 5) : Statement (.hLi d imm) := ⟨rfl, fun h => Bool.noConfusion h⟩
theorem hSlli (d : XReg) (sh : BitVec 5) : Statement (.hSlli d sh) := ⟨rfl, fun h => Bool.noConfusion h⟩
theorem hSrli (d : XReg) (sh : BitVec 5) : Statement (.hSrli d sh) := ⟨rfl, fun h => Bool.noConfusion h⟩
theorem hSrai (d : XReg) (sh : BitVec 5) : Statement (.hSrai d sh) := ⟨rfl, fun h => Bool.noConfusion h⟩
theorem hLd (d : XReg) (b : XReg) : Statement (.hLd d b) := ⟨rfl, fun h => Bool.noConfusion h⟩
theorem hSd (d : XReg) (b : XReg) : Statement (.hSd d b) := ⟨rfl, fun h => Bool.noConfusion h⟩
theorem hJmp (b : XReg) : Statement (.hJmp b) := ⟨rfl, fun h => Bool.noConfusion h⟩
theorem hMul (d : XReg) (b : XReg) : Statement (.hMul d b) := ⟨rfl, fun h => Bool.noConfusion h⟩
theorem hNeg (d : XReg) (b : XReg) : Statement (.hNeg d b) := ⟨rfl, fun h => Bool.noConfusion h⟩
theorem hVadd (d : VReg) (b : VReg) : Statement (.hVadd d b) := ⟨rfl, fun h => Bool.noConfusion h⟩
theorem hVsub (d : VReg) (b : VReg) : Statement (.hVsub d b) := ⟨rfl, fun h => Bool.noConfusion h⟩
theorem hVmul (d : VReg) (b : VReg) : Statement (.hVmul d b) := ⟨rfl, fun h => Bool.noConfusion h⟩
theorem hVmin (d : VReg) (b : VReg) : Statement (.hVmin d b) := ⟨rfl, fun h => Bool.noConfusion h⟩
theorem hVmax (d : VReg) (b : VReg) : Statement (.hVmax d b) := ⟨rfl, fun h => Bool.noConfusion h⟩
theorem hVminu (d : VReg) (b : VReg) : Statement (.hVminu d b) := ⟨rfl, fun h => Bool.noConfusion h⟩
theorem hVmaxu (d : VReg) (b : VReg) : Statement (.hVmaxu d b) := ⟨rfl, fun h => Bool.noConfusion h⟩
theorem hVand (d : VReg) (b : VReg) : Statement (.hVand d b) := ⟨rfl, fun h => Bool.noConfusion h⟩
theorem hVor (d : VReg) (b : VReg) : Statement (.hVor d b) := ⟨rfl, fun h => Bool.noConfusion h⟩
theorem hVxor (d : VReg) (b : VReg) : Statement (.hVxor d b) := ⟨rfl, fun h => Bool.noConfusion h⟩
theorem hVsll (d : VReg) (b : VReg) : Statement (.hVsll d b) := ⟨rfl, fun h => Bool.noConfusion h⟩
theorem hVsrl (d : VReg) (b : VReg) : Statement (.hVsrl d b) := ⟨rfl, fun h => Bool.noConfusion h⟩
theorem hVsra (d : VReg) (b : VReg) : Statement (.hVsra d b) := ⟨rfl, fun h => Bool.noConfusion h⟩
theorem hVadds (d : VReg) (b : VReg) : Statement (.hVadds d b) := ⟨rfl, fun h => Bool.noConfusion h⟩
theorem hVsubs (d : VReg) (b : VReg) : Statement (.hVsubs d b) := ⟨rfl, fun h => Bool.noConfusion h⟩
theorem hVmov (d : VReg) (b : VReg) : Statement (.hVmov d b) := ⟨rfl, fun h => Bool.noConfusion h⟩
theorem idle : Statement (.idle) := ⟨rfl, fun h => Bool.noConfusion h⟩
theorem yield : Statement (.yield) := ⟨rfl, fun h => Bool.noConfusion h⟩
theorem tret : Statement (.tret) := ⟨rfl, fun h => Bool.noConfusion h⟩
theorem mret : Statement (.mret) := ⟨rfl, fun h => Bool.noConfusion h⟩
theorem gate : Statement (.gate) := ⟨rfl, fun h => Bool.noConfusion h⟩
theorem retg : Statement (.retg) := ⟨rfl, fun h => Bool.noConfusion h⟩
theorem cvyLead : Statement (.cvyLead) := ⟨rfl, fun h => Bool.noConfusion h⟩
theorem cvyJoin : Statement (.cvyJoin) := ⟨rfl, fun h => Bool.noConfusion h⟩
theorem cvyLeave : Statement (.cvyLeave) := ⟨rfl, fun h => Bool.noConfusion h⟩
theorem tend : Statement (.tend) := ⟨rfl, fun h => Bool.noConfusion h⟩
theorem tpoll : Statement (.tpoll) := ⟨rfl, fun h => Bool.noConfusion h⟩
theorem powerOn (c : Nat) (image : Firmware) : Statement (.powerOn c image) := ⟨rfl, fun _ => ⟨rfl, rfl⟩⟩
theorem yieldEnd (c : Nat) : Statement (.yieldEnd c) := ⟨rfl, fun _ => ⟨rfl, rfl⟩⟩
theorem idleWake (w : WakeAt) : Statement (.idleWake w) := ⟨rfl, fun _ => ⟨rfl, rfl⟩⟩
theorem trapRingResume (i : Nat) : Statement (.trapRingResume i) := ⟨rfl, fun _ => ⟨rfl, rfl⟩⟩
theorem gangCommit (gs : List Nat) (places : List (List (List Nat))) : Statement (.gangCommit gs places) :=
  ⟨rfl, fun _ => ⟨rfl, rfl⟩⟩
theorem svcEndThread (c : Nat) : Statement (.svcEndThread c) := ⟨rfl, fun _ => ⟨rfl, rfl⟩⟩
theorem svcSetPageTag (c : Nat) : Statement (.svcSetPageTag c) := ⟨rfl, fun _ => ⟨rfl, rfl⟩⟩
theorem svcWriteReach (c : Nat) : Statement (.svcWriteReach c) := ⟨rfl, fun _ => ⟨rfl, rfl⟩⟩
theorem svcReadReach (c : Nat) : Statement (.svcReadReach c) := ⟨rfl, fun _ => ⟨rfl, rfl⟩⟩
theorem svcUnknown (c : Nat) : Statement (.svcUnknown c) := ⟨rfl, fun _ => ⟨rfl, rfl⟩⟩
theorem threadEnd (c : Nat) : Statement (.threadEnd c) := ⟨rfl, fun _ => ⟨rfl, rfl⟩⟩
theorem convoyRelease (team : Nat) (group : Nat) : Statement (.convoyRelease team group) := ⟨rfl, fun _ => ⟨rfl, rfl⟩⟩
theorem joinRecruited (c : Nat) : Statement (.joinRecruited c) := ⟨rfl, fun _ => ⟨rfl, rfl⟩⟩
theorem barWaitWake (c : Nat) : Statement (.barWaitWake c) := ⟨rfl, fun _ => ⟨rfl, rfl⟩⟩
theorem barTimeout (c : Nat) : Statement (.barTimeout c) := ⟨rfl, fun _ => ⟨rfl, rfl⟩⟩
theorem waitaWake (c : Nat) : Statement (.waitaWake c) := ⟨rfl, fun _ => ⟨rfl, rfl⟩⟩
theorem cwaitWake (c : Nat) : Statement (.cwaitWake c) := ⟨rfl, fun _ => ⟨rfl, rfl⟩⟩
theorem tokenStallRelease (c : Nat) : Statement (.tokenStallRelease c) := ⟨rfl, fun _ => ⟨rfl, rfl⟩⟩
theorem counterRoom (c : Nat) : Statement (.counterRoom c) := ⟨rfl, fun _ => ⟨rfl, rfl⟩⟩
theorem redClose (team : Nat) (tree : Bool) (n : Nat) : Statement (.redClose team tree n) := ⟨rfl, fun _ => ⟨rfl, rfl⟩⟩
theorem redTimeout (team : Nat) (tree : Bool) (n : Nat) : Statement (.redTimeout team tree n) :=
  ⟨rfl, fun _ => ⟨rfl, rfl⟩⟩
theorem redLateComplete (c : Nat) (tree : Bool) : Statement (.redLateComplete c tree) := ⟨rfl, fun _ => ⟨rfl, rfl⟩⟩
theorem peerAccessArrival (c : Nat) (home : Nat) (off : Nat) (need : Need) (data : List Byte) : Statement (.peerAccessArrival c home off need data) :=
  ⟨rfl, fun _ => ⟨rfl, rfl⟩⟩
theorem inboundWrite (loc : InboundAt) (data : List Byte) : Statement (.inboundWrite loc data) :=
  ⟨rfl, fun _ => ⟨rfl, rfl⟩⟩
theorem translationWalkDone (i : Nat) : Statement (.translationWalkDone i) := ⟨rfl, fun _ => ⟨rfl, rfl⟩⟩
theorem translationRetry : Statement (.translationRetry) := ⟨rfl, fun _ => ⟨rfl, rfl⟩⟩
theorem stationInvalidate (cid : Nat) (va : Nat) : Statement (.stationInvalidate cid va) := ⟨rfl, fun _ => ⟨rfl, rfl⟩⟩
theorem reclFree (c : Nat) : Statement (.reclFree c) := ⟨rfl, fun _ => ⟨rfl, rfl⟩⟩
theorem matrixQueueRoom (c : Nat) : Statement (.matrixQueueRoom c) := ⟨rfl, fun _ => ⟨rfl, rfl⟩⟩
theorem matrixJobStart (cluster : Nat) (transfer : Bool) : Statement (.matrixJobStart cluster transfer) :=
  ⟨rfl, fun _ => ⟨rfl, rfl⟩⟩
theorem matrixJobComplete (cluster : Nat) (transfer : Bool) : Statement (.matrixJobComplete cluster transfer) :=
  ⟨rfl, fun _ => ⟨rfl, rfl⟩⟩
theorem copySlotFree (c : Nat) : Statement (.copySlotFree c) := ⟨rfl, fun _ => ⟨rfl, rfl⟩⟩
theorem copyOpStart (id : Nat) : Statement (.copyOpStart id) := ⟨rfl, fun _ => ⟨rfl, rfl⟩⟩
theorem copyComplete (id : Nat) : Statement (.copyComplete id) := ⟨rfl, fun _ => ⟨rfl, rfl⟩⟩
theorem beatLanding (id : Nat) (n : Nat) : Statement (.beatLanding id n) := ⟨rfl, fun _ => ⟨rfl, rfl⟩⟩
theorem beatsRoom (id : Nat) : Statement (.beatsRoom id) := ⟨rfl, fun _ => ⟨rfl, rfl⟩⟩
theorem fenceDrain (c : Nat) : Statement (.fenceDrain c) := ⟨rfl, fun _ => ⟨rfl, rfl⟩⟩
theorem bteRequestRefused (c : Nat) (i : Nat) (ns : Nat) : Statement (.bteRequestRefused c i ns) :=
  ⟨rfl, fun _ => ⟨rfl, rfl⟩⟩
theorem bteRetry (c : Nat) (i : Nat) : Statement (.bteRetry c i) := ⟨rfl, fun _ => ⟨rfl, rfl⟩⟩
theorem bteRequestRoom (c : Nat) : Statement (.bteRequestRoom c) := ⟨rfl, fun _ => ⟨rfl, rfl⟩⟩
theorem bteAccept (c : Nat) (i : Nat) : Statement (.bteAccept c i) := ⟨rfl, fun _ => ⟨rfl, rfl⟩⟩
theorem bteRecordTakeup (ch : Nat) : Statement (.bteRecordTakeup ch) := ⟨rfl, fun _ => ⟨rfl, rfl⟩⟩
theorem bteRecordLanded (ch : Nat) : Statement (.bteRecordLanded ch) := ⟨rfl, fun _ => ⟨rfl, rfl⟩⟩
theorem bteRingResume (ch : Nat) : Statement (.bteRingResume ch) := ⟨rfl, fun _ => ⟨rfl, rfl⟩⟩
theorem homeSpawnCount (c : Nat) : Statement (.homeSpawnCount c) := ⟨rfl, fun _ => ⟨rfl, rfl⟩⟩
theorem homeUpdate (c : Nat) : Statement (.homeUpdate c) := ⟨rfl, fun _ => ⟨rfl, rfl⟩⟩
theorem homeSet (c : Nat) : Statement (.homeSet c) := ⟨rfl, fun _ => ⟨rfl, rfl⟩⟩
theorem wmkSetOpen (sl : Slot) : Statement (.wmkSetOpen sl) := ⟨rfl, fun _ => ⟨rfl, rfl⟩⟩
theorem wmkPropagate (sl : Slot) (holder : CopyHolder) : Statement (.wmkPropagate sl holder) :=
  ⟨rfl, fun _ => ⟨rfl, rfl⟩⟩
theorem recordMove (sl : Slot) (src : SegPlace) (dst : Nat) : Statement (.recordMove sl src dst) :=
  ⟨rfl, fun _ => ⟨rfl, rfl⟩⟩
theorem spillReturn (sl : Slot) (field : Nat) : Statement (.spillReturn sl field) := ⟨rfl, fun _ => ⟨rfl, rfl⟩⟩
theorem tnextWake (c : Nat) : Statement (.tnextWake c) := ⟨rfl, fun _ => ⟨rfl, rfl⟩⟩
theorem slotClose (sl : Slot) : Statement (.slotClose sl) := ⟨rfl, fun _ => ⟨rfl, rfl⟩⟩
theorem calRunStart (team : Nat) : Statement (.calRunStart team) := ⟨rfl, fun _ => ⟨rfl, rfl⟩⟩
theorem calKernelDone (team : Nat) : Statement (.calKernelDone team) := ⟨rfl, fun _ => ⟨rfl, rfl⟩⟩
theorem strongLoadTimeout (c : Nat) : Statement (.strongLoadTimeout c) := ⟨rfl, fun _ => ⟨rfl, rfl⟩⟩
theorem strongLoadArrive (c : Nat) : Statement (.strongLoadArrive c) := ⟨rfl, fun _ => ⟨rfl, rfl⟩⟩
theorem sliceEvict (v : Eviction) : Statement (.sliceEvict v) := ⟨rfl, fun _ => ⟨rfl, rfl⟩⟩
theorem sliceResume (i : Nat) (c : Nat) : Statement (.sliceResume i c) := ⟨rfl, fun _ => ⟨rfl, rfl⟩⟩
theorem sliceMigrate (is : List Nat) (cs : List Nat) : Statement (.sliceMigrate is cs) := ⟨rfl, fun _ => ⟨rfl, rfl⟩⟩
theorem debugRun (c : Nat) : Statement (.debugRun c) := ⟨rfl, fun _ => ⟨rfl, rfl⟩⟩
theorem debugPlainHalt (c : Nat) : Statement (.debugPlainHalt c) := ⟨rfl, fun _ => ⟨rfl, rfl⟩⟩
theorem debugQuiesceHalt (c : Nat) : Statement (.debugQuiesceHalt c) := ⟨rfl, fun _ => ⟨rfl, rfl⟩⟩
theorem debugStable (c : Nat) : Statement (.debugStable c) := ⟨rfl, fun _ => ⟨rfl, rfl⟩⟩
theorem queueEnable (q : Nat) (v : Word) : Statement (.queueEnable q v) := ⟨rfl, fun _ => ⟨rfl, rfl⟩⟩
theorem queueDisable (q : Nat) (v : Word) : Statement (.queueDisable q v) := ⟨rfl, fun _ => ⟨rfl, rfl⟩⟩
theorem qtailWrite (q : Nat) (v : Word) : Statement (.qtailWrite q v) := ⟨rfl, fun _ => ⟨rfl, rfl⟩⟩
theorem registerWrite (r : HostReg) (v : Word) : Statement (.registerWrite r v) := ⟨rfl, fun _ => ⟨rfl, rfl⟩⟩
theorem packetFetch (q : Nat) : Statement (.packetFetch q) := ⟨rfl, fun _ => ⟨rfl, rfl⟩⟩
theorem packetPoll (q : Nat) : Statement (.packetPoll q) := ⟨rfl, fun _ => ⟨rfl, rfl⟩⟩
theorem launch (q : Nat) : Statement (.launch q) := ⟨rfl, fun _ => ⟨rfl, rfl⟩⟩
theorem load (q : Nat) (ptes : List (Nat × Word)) : Statement (.load q ptes) := ⟨rfl, fun _ => ⟨rfl, rfl⟩⟩
theorem unload (q : Nat) : Statement (.unload q) := ⟨rfl, fun _ => ⟨rfl, rfl⟩⟩
theorem signal (q : Nat) : Statement (.signal q) := ⟨rfl, fun _ => ⟨rfl, rfl⟩⟩
theorem wait (q : Nat) : Statement (.wait q) := ⟨rfl, fun _ => ⟨rfl, rfl⟩⟩
theorem waitSatisfied (q : Nat) : Statement (.waitSatisfied q) := ⟨rfl, fun _ => ⟨rfl, rfl⟩⟩
theorem qfence (q : Nat) : Statement (.qfence q) := ⟨rfl, fun _ => ⟨rfl, rfl⟩⟩
theorem nop (q : Nat) : Statement (.nop q) := ⟨rfl, fun _ => ⟨rfl, rfl⟩⟩
theorem slicePermitReturn (slice : Nat) : Statement (.slicePermitReturn slice) := ⟨rfl, fun _ => ⟨rfl, rfl⟩⟩
theorem headboxRestart : Statement (.headboxRestart) := ⟨rfl, fun _ => ⟨rfl, rfl⟩⟩
theorem headboxResume : Statement (.headboxResume) := ⟨rfl, fun _ => ⟨rfl, rfl⟩⟩
theorem notifyWrite (c : Nat) : Statement (.notifyWrite c) := ⟨rfl, fun _ => ⟨rfl, rfl⟩⟩
theorem notifyGatedDeliver (field : Nat) : Statement (.notifyGatedDeliver field) := ⟨rfl, fun _ => ⟨rfl, rfl⟩⟩
theorem securityCoreRequest (c : Nat) (v : Word) : Statement (.securityCoreRequest c v) := ⟨rfl, fun _ => ⟨rfl, rfl⟩⟩
theorem mappingProposal (m : Proposal) : Statement (.mappingProposal m) := ⟨rfl, fun _ => ⟨rfl, rfl⟩⟩
theorem leafActivate (pa : Nat) : Statement (.leafActivate pa) := ⟨rfl, fun _ => ⟨rfl, rfl⟩⟩
theorem attestRequest (nonce : Word) : Statement (.attestRequest nonce) := ⟨rfl, fun _ => ⟨rfl, rfl⟩⟩
theorem measurementRequest (part : FwPart) : Statement (.measurementRequest part) := ⟨rfl, fun _ => ⟨rfl, rfl⟩⟩
theorem interfaceLock (cid : Nat) (policy : Policy) : Statement (.interfaceLock cid policy) :=
  ⟨rfl, fun _ => ⟨rfl, rfl⟩⟩
theorem interfaceStart (cid : Nat) : Statement (.interfaceStart cid) := ⟨rfl, fun _ => ⟨rfl, rfl⟩⟩
theorem interfaceStop (cid : Nat) : Statement (.interfaceStop cid) := ⟨rfl, fun _ => ⟨rfl, rfl⟩⟩
theorem teardownDrained (cid : Nat) : Statement (.teardownDrained cid) := ⟨rfl, fun _ => ⟨rfl, rfl⟩⟩
theorem scrubUnit : Statement (.scrubUnit) := ⟨rfl, fun _ => ⟨rfl, rfl⟩⟩
theorem activateImage (image : PartImage) (digest version : Nat) (signed : Bool) :
    Statement (.activateImage image digest version signed) :=
  ⟨rfl, fun _ => ⟨rfl, rfl⟩⟩
theorem activationCommit : Statement (.activationCommit) := ⟨rfl, fun _ => ⟨rfl, rfl⟩⟩
theorem tamperEvent (kind : Tamper) : Statement (.tamperEvent kind) := ⟨rfl, fun _ => ⟨rfl, rfl⟩⟩
theorem ownerClaim (h : Nat) : Statement (.ownerClaim h) := ⟨rfl, fun _ => ⟨rfl, rfl⟩⟩
theorem ownerHeartbeat (h : Nat) : Statement (.ownerHeartbeat h) := ⟨rfl, fun _ => ⟨rfl, rfl⟩⟩
theorem ownerRelease (h : Nat) : Statement (.ownerRelease h) := ⟨rfl, fun _ => ⟨rfl, rfl⟩⟩
theorem ownerTakeover (h : Nat) : Statement (.ownerTakeover h) := ⟨rfl, fun _ => ⟨rfl, rfl⟩⟩
theorem linkRekey (link : Nat) : Statement (.linkRekey link) := ⟨rfl, fun _ => ⟨rfl, rfl⟩⟩
theorem sealTagFail (link : Nat) : Statement (.sealTagFail link) := ⟨rfl, fun _ => ⟨rfl, rfl⟩⟩
theorem ucieLinkError (link : Nat) : Statement (.ucieLinkError link) := ⟨rfl, fun _ => ⟨rfl, rfl⟩⟩
theorem linkRecoveryTimeout (link : Nat) : Statement (.linkRecoveryTimeout link) := ⟨rfl, fun _ => ⟨rfl, rfl⟩⟩
theorem causewayCrcFail (port : Nat) : Statement (.causewayCrcFail port) := ⟨rfl, fun _ => ⟨rfl, rfl⟩⟩
theorem groupForm (g : Nat) (members : List Nat) (primary : Nat) (terms : GroupTerms) :
    Statement (.groupForm g members primary terms) :=
  ⟨rfl, fun _ => ⟨rfl, rfl⟩⟩
theorem memberVerified (g : Nat) (r : MemberReport) : Statement (.memberVerified g r) := ⟨rfl, fun _ => ⟨rfl, rfl⟩⟩
theorem memberLost (g : Nat) (m : Nat) : Statement (.memberLost g m) := ⟨rfl, fun _ => ⟨rfl, rfl⟩⟩
theorem governorSample (sample : PowerSample) : Statement (.governorSample sample) := ⟨rfl, fun _ => ⟨rfl, rfl⟩⟩
theorem moduleReset : Statement (.moduleReset) := ⟨rfl, fun _ => ⟨rfl, rfl⟩⟩
theorem reservedEncoding (w : BitVec 32) : Statement (.reservedEncoding w) := ⟨rfl, fun _ => ⟨rfl, rfl⟩⟩
theorem instructionFetchFault (cause : Cause) (val : Word) : Statement (.instructionFetchFault cause val) :=
  ⟨rfl, fun _ => ⟨rfl, rfl⟩⟩
theorem followerStallDetach (c : Nat) : Statement (.followerStallDetach c) := ⟨rfl, fun _ => ⟨rfl, rfl⟩⟩
theorem loggingEnable (cid : Nat) : Statement (.loggingEnable cid) := ⟨rfl, fun _ => ⟨rfl, rfl⟩⟩
theorem alarmLevelConfig (level : Nat) : Statement (.alarmLevelConfig level) := ⟨rfl, fun _ => ⟨rfl, rfl⟩⟩
theorem moduleNumberAssign (n : Nat) (routes : List ModuleRoute) : Statement (.moduleNumberAssign n routes) :=
  ⟨rfl, fun _ => ⟨rfl, rfl⟩⟩

end Sys2Proof.Laws.EventEncoding
end

