-- ==== Sys2Proof/Tests/Slice0.lean ====
section
/-! SUPPORT. Tests: words of the spec's encodings, ill-formed terms, single steps with results from the spec's text, and for
each statement with hypotheses a state that meets them, clause by clause. -/
namespace Sys2Proof.Tests
open Sys2Proof Sys2Proof.Machine

set_option Elab.async false
set_option maxRecDepth 100000

/-! ### Small states -/

/-- A core with x1 = 0x1000, x2 = 8, x3 = -1, x4 = 0x1001, x5 = 2^32, x6 = 0x30000, x7 = 0x7FFFFFFFFFFFFFFF, x9 = 1. -/
def someX (c : Core) : Core :=
  ((((((((c.wx 1 0x1000).wx 2 8).wx 3 (BitVec.allOnes 64)).wx 4 0x1001).wx 5 0x100000000).wx 6 0x30000).wx 7
    0x7FFFFFFFFFFFFFFF).wx 9 1)

/-- Core 0 released after reset, with those registers, in a module without a monitor area: in monitor mode, at 0x2F000. -/
def m0 : State := { State.reset with
  core := { someX State.reset.core with held := false }, sec := { Security.reset with area := none } }

def withCore (s : State) (f : Core → Core) : State := { s with core := f s.core }
def withCsr (s : State) (f : Csrs → Csrs) : State := s.setCsr (f s.core.csr)

/-- The error of an answer, if it is one. -/
def errorOf {ε α : Type} : Except ε α → Option ε
  | .error e => some e
  | .ok _ => none

/-- The same in program mode, in domain 255 of context 1, with protection entry 0 over pages 0 to 46. -/
def p0 : State := { m0 with core := { m0.core with
  mode := .program, cid := 1, pc := 0x1000
  pe := m0.core.pe.set 0 (BitVec.ofNat 64 (1 * 2 ^ 52 + 1 * 2 ^ 16 + 46 * 2 ^ 8)) } }

/-! ### Hypotheses of the scalar statements -/

theorem witness_branches :
    (m0.rx 1 + (2046#12).signExtend 64).toNat % 2 = 0 ∧ (m0.rx 1 + (2047#12).signExtend 64).toNat % 2 = 1 ∧
    (m0.rx 1).toNat % 2 = 0 ∧ (m0.rx 4).toNat % 2 = 1 := by decide +kernel

theorem witness_loops :
    let near := withCsr m0 fun c => { c with lpc0 := 1, lpe0 := 0x2F004 }
    m0.core.pc.toNat + 0x4000 < 2 ^ 64 ∧ m0.core.csr.lpc1 = 0 ∧ m0.core.csr.lpc0 = 0 ∧ (m0.rx 9).toNat ≠ 0 ∧
    2 ^ 32 ≤ (m0.rx 5).toNat ∧ (withCsr m0 fun c => { c with lpc1 := 1 }).core.csr.lpc1 ≠ 0 ∧
    (near.core.csr.lpc0 ≠ 0 ∧ near.core.csr.lpe0.toNat < near.core.pc.toNat + 3 * 2 ∧
      ¬near.core.csr.lpe0.toNat < near.core.pc.toNat + 2 * 2) ∧
    (m0.rx 0).toNat = 0 ∧ errorOf (m0.fetchHalf 0x2F004) = none ∧
    errorOf (m0.fetchHalf 0x30000) = some (.loc, 0x30000) := by decide +kernel

theorem witness_csr :
    (0x000, m0.core.csr.fcsr) ∈ csrTable m0 ∧ (0x307, 0) ∈ csrTable m0 ∧ mayName m0 0x307 ∧ mayName p0 0x205 ∧
    ¬mayName p0 0x300 ∧ ¬mayName (withCore p0 fun c => { c with domain := 1 }) 0x200 ∧
    (0x000, { m0.core.csr with fcsr := 4 }) ∈ csrWrites m0.core.csr 4 ∧
    (0x008, { m0.core.csr with lpe1 := 8 }) ∈ loopCsrWrites m0.core.csr 8 ∧
    (0x001, { m0.core.csr with vl := 32 }) ∈ csrWrites m0.core.csr 33 ∧ (m0.rx 2).toNat % 8 < 5 ∧ 5 ≤ (m0.rx 3).toNat % 8 ∧
    (m0.rx 9).toNat % 4 < 2 ∧ 2 ≤ (m0.rx 3).toNat % 4 := by
  simp only [mayName]; decide +kernel

/-- Loads: in monitor mode the whole own store; a load past it is in a hole; a watchpoint that halts stops it. -/
theorem witness_loads :
    let w := withCore p0 fun c =>
      { c with dbg := { c.dbg with wbase := c.dbg.wbase.set 0 0x1000, wctl := c.dbg.wctl.set 0 0x0010000000009303 } }
    m0.access .load (m0.rx 1) 8 = .ok ((List.range 8).map (localKey 0 0x1000 + ·)) ∧
    m0.access .load (m0.rx 1 + BitVec.ofInt 64 (-1)) 1 = .ok [localKey 0 0xFFF] ∧
    m0.hist = [] ∧ m0.access .load (m0.rx 6) 8 = .fault .loc 0x30000 ∧
    w.access .load (w.rx 1) 8 = .halt 0 ∧ w.access .store (w.rx 1) 8 = .halt 0 := by decide +kernel

theorem witness_stores :
    m0.memWf ∧ xor (m0.rp 0) false = true ∧ xor (m0.rp 1) false = false ∧
    m0.access .store (m0.rx 1) 8 = .ok ((List.range 8).map (localKey 0 0x1000 + ·)) ∧
    (∀ k ∈ (List.range 8).map (localKey 0 0x1000 + ·), inRegs k = false) ∧
    m0.access .store (m0.rx 6) 8 = .fault .loc 0x30000 := by
  refine ⟨rfl, ?_⟩; decide +kernel

theorem witness_atomics :
    m0.memWf ∧ m0.rp 0 = true ∧ m0.rp 1 = false ∧ (m0.rx 4).toNat % 8 ≠ 0 ∧ (m0.rx 1).toNat % 8 = 0 ∧
    m0.access .atomic (m0.rx 1) 8 = .ok ((List.range 8).map (localKey 0 0x1000 + ·)) ∧
    errorOf (m0.resolveAll (m0.rightsOf m0.core) .atomic (m0.rx 6) 8) = some (.loc, 0x30000) ∧
    [0x10000000000].any inRegs = true ∧ [0x8000000000000].any inCxlIo = true ∧ [0xBFFFFFFFFFFFF].any inCxlIo = true := by
  refine ⟨rfl, ?_⟩; decide +kernel

/-- ALIGN and the two holes at their ends. -/
theorem witness_alignment :
    (m0.rx 4).toNat % 8 ≠ 0 ∧
    (∀ a ∈ [0x30000, 0xFFFFFFF8, 0x100030000, 0x10003FFF8, 0x10FFFFFF8], a % 8 = 0 ∧
      ((0x30000 ≤ a ∧ a < 0x100000000) ∨ (0x100000000 ≤ a ∧ a < 0x110000000 ∧ 0x30000 ≤ a % 2 ^ 18))) ∧
    (loadForms m0 1 4 0 0 .core).length = 12 ∧ ((storeForms m0 ⟨false, 0⟩ 1 4 0 0 .core).filter fun f => f.2.1).length = 9 := by
  decide +kernel

/-- Domain 2 before a local page tagged 7. -/
def far : State := withCore p0 fun c => { c with domain := 2, lpt := c.lpt.set 1 7 }

/-- The first and the last page of the entry admit the access; a page beyond it and a tag out of reach do not. -/
theorem witness_own_store :
    p0.core.mode = .program ∧ far.core.mode = .program ∧
    (∀ a ∈ [0, 0x2EFF8], a % 8 = 0 ∧ a < 0x30000 ∧ a / 4096 ≠ 47 ∧
      (p0.core.pe.toList.any fun w => peKind w == 1 && peCid w == 1 && Nat.ble (peFirst w) (a / 4096) &&
        Nat.ble (a / 4096) (peLast w)) = true) ∧ p0.homeOf p0.core.owner = 0 ∧
    (p0.ctx 1).reaches false 255 (p0.core.pageTag 46) = true ∧ (p0.ctx 1).reaches true 255 (p0.core.pageTag 46) = true ∧
    (∀ w, bitOf (p0.core.dbg.wctl.get w) 15 = false) ∧ p0.poisoned (localKey 0 0x2EFF8) 1 = false ∧
    (p0.core.pe.toList.all fun w => !(peKind w == 1 && Nat.ble 47 (peLast w))) = true := by decide +kernel
theorem witness_own_store_out_of_reach :
    (far.ctx 1).reaches false 2 (far.core.pageTag 1) = false ∧ far.core.inForce = [] := by decide +kernel

/-- An operation of the copy engine: issued by core 0, with x0 for its token and no counter. -/
def oneOp : Op :=
  ⟨7, .bare 0, 2, 0, none, 0x1000, m0.rightsOf m0.core, [], .cpy 0 0 8 none, .issued, 0, false, ⟨View.empty, View.empty⟩, false⟩

/-- A core that stalls on the instruction at 0x1000, whose word is w. -/
def stalled (on : StallOn) (w : Nat) (s : State) : State :=
  { s with
    mem := s.mem.write (localKey s.core.num 0x1000) (bytesOfNat 4 w)
    core := { s.core with pc := 0x1000, stall := some ⟨on, 0⟩ } }

/-- What StalledAt asks of the fetch, as data. -/
def runsAt (s : State) (i : Instr) : Bool := s.issues && (s.decodeNext.2 == .run i)

theorem runsAt_stalledAt (on : StallOn) (i : Instr) (s : State) (h : s.core.stall = some ⟨on, 0⟩) (hr : runsAt s i = true) :
    StalledAt on i s s.decodeNext.1 := by
  simp only [runsAt, Bool.and_eq_true, beq_iff_eq] at hr
  exact ⟨⟨0, h⟩, hr.1, Prod.ext rfl hr.2⟩

def allPaths : Paths := ⟨true, true, true, true, true⟩
def busy : State := { m0 with ops := [oneOp] }

theorem witness_fences :
    ((m0.opsOf (.bare 0)).any fun o => o.onPath allPaths) = false ∧
    ((busy.opsOf (.bare 0)).any fun o => o.onPath allPaths) = true ∧
    runsAt (stalled .fence (encode (.fence .full .sys allPaths)) m0) (.fence .full .sys allPaths) = true := by decide +kernel

/-! ### Hypotheses of the statements on traps, domains, barriers and waits -/

/-- Bytes at an address of the own local store of core 0. -/
def poke (s : State) (a : Nat) (bytes : List Byte) : State := { s with mem := s.mem.write (localKey 0 a) bytes }

/-- Program mode with the GATE word at TVEC = 0x2000, on a page tagged 255. -/
def pt : State :=
  poke (withCore p0 fun c => { c with lpt := c.lpt.set 2 255, csr := { c.csr with tvec := 0x2000 } }) 0x2000 [0x2D, 0, 0, 0]

theorem witness_traps :
    pt.core.mode = .program ∧ bitOf pt.detach.core.csr.tflags 0 = false ∧ pt.detach.tvecOk pt.detach.core = true ∧
    bitOf (withCsr pt fun c => { c with tflags := 1 }).detach.core.csr.tflags 0 = true ∧
    p0.detach.tvecOk p0.detach.core = false ∧ m0.core.mode = .monitor ∧ (pt.retire 4).detach.tvecOk (pt.retire 4).detach.core = true := by
  decide +kernel
theorem witness_traps_no_run : ∀ x v, pt.calFault pt.core x v = pt := fun _ _ => rfl

/-- Monitor mode, with MRET armed or not; DKRESUME at the end of the store and in a page tagged 9. -/
theorem witness_monitor_return :
    bitOf (withCsr m0 fun c => { c with dkresume := 0x2FFFF }).core.csr.dkresume 0 = true ∧
    bitOf m0.core.csr.dkresume 0 = false ∧ m0.core.tid = none ∧ (0x2FFFE : Nat) < 0x30000 := by decide +kernel

/-- Domain 1 at 0x1000, tagged 1, with a gate of domain 255 at 0x2000. -/
def pg : State := withCore pt fun c => { c with domain := 1, lpt := (c.lpt.set 1 1), csr := { c.csr with lpc0 := 0 } }

/-- With n frames, the innermost that returns to 0x1004 in domain d. -/
def framed (n : Nat) (d : Byte) (s : State) : State :=
  withCore s fun c => { c with gateHw := List.replicate n ⟨0x1004, d⟩ }

theorem witness_callg :
    (pg.rx 2).toNat % 2 = 0 ∧ (pg.rx 4).toNat % 2 = 1 ∧ (errorOf (pg.fetchWordAt 0x2000)) = none ∧
    (pg.fetchWordAt 0x2000).toOption.map (·.2) = some (0x2D, 255) ∧ (pg.fetchWordAt 0x1000).toOption.map (·.2) = some (0, 1) ∧
    errorOf (pg.fetchWordAt 0x30000) = some .loc ∧ (framed 256 1 pg).core.gdepth = 256 ∧ (framed 255 1 pg).core.gdepth < 256 ∧
    pg.core.csr.taskValid = false := by decide +kernel
theorem witness_retg :
    pg.core.gdepth = 0 ∧ (framed 1 1 pg).core.gateHw = [⟨0x1004, 1⟩] ∧
    (pg.fetchTag (pg.rightsOf pg.core) 0x1004).toOption = some 1 ∧ (1 : Byte) ≠ 255 ∧
    errorOf (pg.fetchTag (pg.rightsOf pg.core) 0x30000) = some (.loc, none) := by decide +kernel
/-- The same in domain 255 with the page at 0x1000 tagged 9. -/
def pgr : State := withCore pt fun c => { c with lpt := c.lpt.set 1 9 }
theorem witness_tret :
    pg.core.domain ≠ 255 ∧ pt.core.domain = 255 ∧ (withCsr pt fun c => { c with tpc := 0x1001 }).core.csr.tpc.toNat % 2 = 1 ∧
    (pt.fetchTag (pt.rightsOf pt.core) 0x2000).toOption = some 255 ∧ (pgr.fetchTag (pgr.rightsOf pgr.core) 0x1000).toOption = some 9 ∧ pgr.core.domain = 255 ∧
    BitVec.ofNat 8 (bitsOf (0xFF00 : Word) 15 8) = (255 : Byte) := by decide +kernel

/-- A lender in domain 255 with all eight entries taken, and with the first one free. -/
def lent (l : Loan) (s : State) : State := withCore s fun c => { c with loans := Vector.replicate 8 l }
def aLoan : Loan := ⟨.active, 0x1000, 16, true, 255, 0, none, 0⟩

theorem witness_lend :
    (p0.rx 0).toNat = 0 ∧ 2 ^ 32 < (p0.rx 5).toNat + 1 ∧ (0 < (p0.rx 2).toNat ∧ (p0.rx 2).toNat ≤ 2 ^ 32) ∧ (p0.rx 5).toNat ≤ 2 ^ 32 ∧
    (p0.rx 1).toNat + (p0.rx 2).toNat ≤ 0x30000 ∧ ¬((p0.rx 6).toNat + (p0.rx 2).toNat ≤ 0x30000) ∧ (p0.rx 6).toNat < 0x100000000 ∧
    (∀ i, ((lent aLoan p0).core.loans.get i).state ≠ .free) ∧ (p0.core.loans.get 0).state = .free := by decide +kernel

theorem witness_recl :
    8 ≤ (p0.rx 2).toNat ∧ (p0.rx 9).toNat = 1 ∧ (p0.core.loans.get 1).state = .free ∧
    ((lent aLoan p0).core.loans.get 1).state ≠ .free ∧ ((lent aLoan p0).core.loans.get 1).lender = 255 ∧
    ((lent { aLoan with lender := 3 } p0).core.loans.get 1).lender ≠ 255 ∧ ((lent aLoan p0).core.loans.get 1).holds = 0 ∧
    ((lent { aLoan with holds := 1 } p0).core.loans.get 1).holds ≠ 0 ∧
    runsAt (stalled .recl (encode (.recl 9)) m0) (.recl 9) = true := by decide +kernel

/-- A barrier record of two at 0x1000, generation 7, with one arrival or none. -/
def barred (arrived : Nat) : State := poke m0 0x1000 (bytesOfNat 8 (7 + 2 * 2 ^ 32 + arrived * 2 ^ 48))
def barKeys : List Nat := (List.range 16).map (localKey 0 0x1000 + ·)

theorem witness_barrier_updates :
    m0.memWf ∧ bitsOf (m0.rx 5) 15 0 = 0 ∧ bitsOf (m0.rx 2) 15 0 ≠ 0 ∧ (m0.rx 4).toNat % 16 ≠ 0 ∧
    (barred 1).access .atomic ((barred 1).rx 1) 16 = .ok barKeys ∧ (∀ k ∈ barKeys, inRegs k = false) ∧ (barKeys.map hostKey).Nodup ∧
    bitOf (barred 1).core.csr.bargen 32 = false ∧
    (let r := BarRec.ofBytes (barKeys.map (barred 1).readKey)
     r.expect ≤ (r.arrived + 1) % 2 ^ 16 ∧ r.beats = 0) ∧ (bytesOfNat 16 7).length = 16 := by
  refine ⟨rfl, ?_⟩; decide +kernel

/-- Waiting at that record since cycle 0 with a timeout of one microsecond, in the generation given. -/
def atBarrier (gen clock : Nat) : State :=
  { withCore (barred 1) fun c => { c with
      wait := some (.barrier 0x1000 0 1), csr := { c.csr with bargen := BitVec.ofNat 64 (2 ^ 32 + gen), baradr := 0x1000 } } with
    clock := clock }

theorem witness_barrier_waits :
    (barred 1).access .load 0x1000 16 = .ok barKeys ∧
    (BarRec.ofBytes (barKeys.map (barred 1).readKey)).gen = 7 ∧ bitOf (atBarrier 7 0).core.csr.bargen 32 = true ∧
    (atBarrier 7 0).core.csr.baradr = (atBarrier 7 0).rx 1 ∧ bitsOf (atBarrier 7 0).core.csr.bargen 31 0 = 7 ∧
    bitsOf (atBarrier 6 0).core.csr.bargen 31 0 ≠ 7 ∧ (barred 1).core.csr.taskValid = false ∧ (barred 1).core.wait = none ∧
    ((atBarrier 6 0).focus 0).core.wait = some (.barrier 0x1000 0 1) ∧ 0 + 2000 * 1 ≤ (atBarrier 7 2000).clock := by decide +kernel

/-- Core 0 waiting as told, at a cycle. -/
def waiting (w : Wait) (wake : Bool) (clock : Nat) : State :=
  { withCore m0 fun c => { c with wait := some w, wake := wake } with clock := clock }

/-- Counter 3 at n, selected by CCSEL. -/
def counting (n : Nat) (s : State) : State := withCsr s fun c => { c with ccsel := 0x13, cnt := c.cnt.set 3 n }

theorem witness_waits :
    (waiting .idle true 0).core.wake = true ∧ m0.core.wake = false ∧ (waiting .idle true 0).core.wait = some .idle ∧
    (waiting (.yield 0) false 16).core.wait = some (.yield 0) ∧ 0 + 16 ≤ (waiting (.yield 0) false 16).clock ∧
    (m0.rx 4).toNat % 8 ≠ 0 ∧ m0.access .load (m0.rx 1) 8 = .ok ((List.range 8).map (localKey 0 0x1000 + ·)) ∧
    wordOfBytes (((List.range 8).map (localKey 0 0x1000 + ·)).map m0.readKey) ≠ m0.rx 9 ∧
    wordOfBytes (((List.range 8).map (localKey 0 0x1000 + ·)).map m0.readKey) = m0.rx 0 ∧
    0 ≤ ((0 : Word) - m0.rx 3).toInt ∧ ((0 : Word) - m0.rx 9).toInt < 0 := by decide +kernel
theorem witness_stalls :
    (counting 4 m0).core.csr.cnt.get 3 ≤ 4 ∧ 3 < (counting 4 m0).core.csr.cnt.get 3 ∧
    runsAt (stalled .cwait (encode (.cwait 3 0)) m0) (.cwait 3 0) = true ∧
    runsAt (stalled .register (encode (.add 1 2 3)) m0) (.add 1 2 3) = true ∧
    (counting 62 m0).core.counterFull = false ∧ (counting 63 m0).core.counterFull = true ∧
    runsAt (stalled .counter (encode (.cpy 0 1 2 3)) (counting 63 m0)) (.cpy 0 1 2 3) = true := by decide +kernel

/-! ### Hypotheses of the statements on teams, convoys and reductions -/

def th5 : Thread := ⟨5, 1, 2, 3, 0, 0, false, false, none, 0, false⟩
def th6 : Thread := ⟨6, 1, 2, 3, 1, 1, false, false, none, 0, false⟩
def aTeam : Team := ⟨3, 2, 1, 2, 0, 0, 0, [], CalRun.idle, [(0, 1)], false⟩

/-- Team 3 of two: its rank 0 on core 0, which is in monitor mode, its rank 1 on core 1, told how it waits. -/
def teamed (w : Option Wait) (s : State) : State :=
  { s with
    core := { s.core with tid := some 5, cid := 1 }
    others := [{ Core.reset 1 with tid := some 6, cid := 1, wait := w }]
    threads := [th5, th6], teams := [aTeam] }

/-- A FORK record at 0x1000: the body, N = 5, G = 2 and ARG = 9. -/
def forks (body : Nat) : State :=
  poke (withCore (teamed (some .parked) m0) fun c => { c with lpt := (c.lpt.set 2 255).set 1 7 })
    0x1000 (bytesOfNat 8 body ++ bytesOfNat 4 5 ++ bytesOfNat 4 2 ++ bytesOfNat 8 9)
def forkKeys : List Nat := (List.range 32).map (localKey 0 0x1000 + ·)
def cellKeys : List Nat := (List.range 8).map (localKey 0 0x1018 + ·)

theorem forks_recruits : (forks 0x2000).recruitable (forks 0x2000).core = [th6] := by
  have h : (forks 0x2000).coreThread (forks 0x2000).core = some th5 := by decide +kernel
  have g : ((forks 0x2000).threads.filter fun u => u.team == th5.team && (forks 0x2000).isParked u &&
      ((forks 0x2000).ownerCore (.thread u.tid)).domain == (forks 0x2000).core.domain) = [th6] := by decide +kernel
  unfold State.recruitable
  rw [h]
  simp only [g]
  exact List.mergeSort_singleton th6

theorem witness_fork :
    (forks 0x2000).memWf ∧ ((forks 0x2000).rx 4).toNat % 8 ≠ 0 ∧
    (forks 0x2000).accessAs ((forks 0x2000).rightsOf (forks 0x2000).core) .load ((forks 0x2000).rx 1) 32 8 = .ok forkKeys ∧
    (forks 0x2000).access .store ((forks 0x2000).rx 1 + 24) 8 = .ok cellKeys ∧
    wordOfBytes ((forkKeys.map (forks 0x2001).readKey).take 8) = 0x2001 ∧
    wordOfBytes ((forkKeys.map (forks 0x2000).readKey).take 8) = 0x2000 ∧
    ((forks 0x2000).fetchTag ((forks 0x2000).rightsOf (forks 0x2000).core) 0x2000).toOption = some (forks 0x2000).core.domain ∧
    ((forks 0x1000).fetchTag ((forks 0x1000).rightsOf (forks 0x1000).core) 0x1000).toOption = some 7 ∧
    (∀ k ∈ cellKeys, inRegs k = false) ∧ (forks 0x2000).thread? th6.tid = some th6 ∧ th6.evicted = none ∧
    (forks 0x2000).core.num ∉ [th6].map (·.home) ∧ (forks 0x2000).core.csr.taskValid = false := by
  refine ⟨rfl, ?_⟩; decide +kernel

/-- A JOIN cell at 0x1000 of n, and of one below a recruitment that has come. -/
def joins (n : Nat) : State := poke m0 0x1000 (bytesOfNat 8 n)
def parked : State := withCore m0 fun c => { c with wait := some .parked, recruit := some ⟨0, 3, 9, 0x100001018, 0x2000, View.empty⟩ }

theorem witness_join :
    (joins 1).memWf ∧ m0.core.csr.taskValid = false ∧ (m0.rx 4).toNat % 8 ≠ 0 ∧
    (joins 1).access .atomic ((joins 1).rx 1) 8 = .ok ((List.range 8).map (localKey 0 0x1000 + ·)) ∧
    ((List.range 8).map (localKey 0 0x1000 + ·)).all (amoAdmitted .add) = true ∧
    wordOfBytes (((List.range 8).map (localKey 0 0x1000 + ·)).map (joins 1).readKey) - 1 = 0 ∧
    wordOfBytes (((List.range 8).map (localKey 0 0x1000 + ·)).map (joins 2).readKey) - 1 ≠ 0 ∧
    (parked.focus 0).core.wait = some .parked ∧ (parked.focus 0).core.recruit = some ⟨0, 3, 9, 0x100001018, 0x2000, View.empty⟩ := by
  refine ⟨rfl, ?_⟩; decide +kernel

/-- The other member waits at CVY.JOIN and the member on core 0 has left. -/
def convoyed : State := withCore (teamed (some .cvyJoin) m0) fun c => { c with convoy := .left }
/-- Core 0 follows and has stalled since cycle 0; it is cycle 65. -/
def follows (on : StallOn) : State :=
  { withCore m0 fun c => { c with convoy := .attached, stall := some ⟨on, 0⟩ } with clock := 65 }

theorem witness_convoys :
    convoyed.coreThread convoyed.core = some th5 ∧ convoyed.team? 3 = some aTeam ∧ m0.coreThread m0.core = none ∧
    m0.core.csr.taskValid = false ∧ m0.convoyArrived 3 0 = false ∧ convoyed.convoyMembers 3 0 = [th6] ∧ th6.evicted = none ∧
    (convoyed.getCore 1).wait = some .cvyJoin ∧ (convoyed.getCore 1).csr.lpc0 = 0 ∧ (convoyed.getCore 1).csr.lpc1 = 0 ∧
    (aTeam.nominees.find? fun e => e.1 == 0) = some (0, th6.rank) ∧ th6 ∈ [th5, th6] ∧
    (∀ u ∈ [th5, th6], u.rank = th6.rank → u = th6) ∧ (aTeam.nominees.find? fun e => e.1 == 1) = none ∧
    (∀ u ∈ [th6, th5], u = th5 ∨ th5.rank < u.rank) ∧
    (∀ on ∈ [StallOn.register, .counter, .cwait], ((follows on).focus 0).core.convoy = .attached ∧
      ((follows on).focus 0).core.stall = some ⟨on, 0⟩ ∧ 0 + 64 < (follows on).clock) := by decide +kernel

/-- v0 to v3 with the tag given, v3 with one of its own. -/
def tagged (f g : Fmt) (s : State) : State :=
  withCore s fun c => { c with v := (((c.v.set 0 ⟨1, f⟩).set 1 ⟨2, f⟩).set 2 ⟨3, f⟩).set 3 ⟨4, g⟩ }
/-- A reduction on tree T0 outstanding at core 0. -/
def redOp (n : Nat) : Op := { oneOp with body := .red 3 false n 4, cls := 5, tok := 9, owner := .thread 5 }
def reducing : State := { teamed none m0 with ops := [redOp 0] }

theorem witness_reduction_issue :
    ((tagged .fp32 .i16 m0).rv (groupReg 0 3)).tag ≠ .fp32 ∧ (∀ p < (3 : Fin 4), ((tagged .fp32 .i16 m0).rv (groupReg 0 p)).tag = .fp32) ∧
    (∀ e ∈ [(RedFmt.fp32, Fmt.fp32), (.fp64, .fp64), (.i32, .i32), (.i16, .i16)], ∀ q : Fin 4,
      ((tagged e.2 e.2 m0).rv (groupReg 0 q)).tag = e.2) ∧
    ((reducing.opsOf reducing.core.owner).any fun o => match o.body with | .red _ t _ _ => t == false | _ => false) = true ∧
    ((reducing.opsOf reducing.core.owner).any fun o => match o.body with | .red _ t _ _ => t == true | _ => false) = false ∧
    (counting 63 reducing).core.counterFull = true ∧ (counting 62 reducing).core.counterFull = false ∧
    reducing.core.csr.taskValid = false ∧ reducing.coreThread reducing.core = some th5 ∧ reducing.team? 3 = some aTeam ∧
    (aTeam.reduction true 0).all (·.closed.isNone) = true ∧ m0.core.tid = none := by decide +kernel

def aPacket (rank op : Nat) : Packet := ⟨rank, op, .i32, List.replicate 128 1, 0, 1, rank, View.empty⟩
def aReduction (l : List Packet) (c : Option RedOutcome) : Reduction := ⟨false, 0, l, c⟩
def anOutcome (st : Cause) : RedOutcome := ⟨st, [1], 3, 0, .i32, View.empty⟩
def gathered (r : Reduction) : State := { reducing with teams := [{ aTeam with reds := [r] }], clock := 2000 }

theorem witness_reduction_close :
    (gathered (aReduction [aPacket 0 0, aPacket 1 0] none)).team? 3 =
      some { aTeam with reds := [aReduction [aPacket 0 0, aPacket 1 0] none] } ∧
    ({ aTeam with reds := [aReduction [aPacket 0 0, aPacket 1 0] none] } : Team).reduction false 0 =
      some (aReduction [aPacket 0 0, aPacket 1 0] none) ∧
    [aPacket 0 0, aPacket 1 0].length = aTeam.size ∧ (∃ p ∈ [aPacket 0 0], p.since + 2000 * p.tmo ≤ 2000) ∧
    (∃ q ∈ [aPacket 1 1], q.op ≠ (aPacket 0 0).op ∨ q.fmt ≠ (aPacket 0 0).fmt) ∧
    (∀ q ∈ [aPacket 1 0], q.op = (aPacket 0 0).op ∧ q.fmt = (aPacket 0 0).fmt) ∧
    (∀ st ∈ [Cause.format, .timeout], ({ aTeam with reds := [aReduction [] (some (anOutcome st))] } : Team).reduction false 0 =
      some (aReduction [] (some (anOutcome st)))) := by decide +kernel
theorem witness_reduction_late :
    reducing.opsOf (reducing.getCore 0).owner = [redOp 0] ∧ (redOp 0).tok ≠ 0 ∧ (redOp 0).discard = false ∧
    Resident reducing (redOp 0).owner 0 := by
  refine ⟨?_, ?_, rfl, rfl, .inr ⟨th5, rfl, ?_, rfl, rfl, rfl⟩⟩ <;> decide +kernel

/-! ### Hypotheses of the vector statements -/

/-- v0 to v3 tagged alike, VL at 4 and k1 with lanes 0 and 2. -/
def vecs (f : Fmt) : State :=
  withCore (tagged f f m0) fun c => { c with k := c.k.set 1 5, csr := { c.csr with vl := 4 } }

/-- v0 and v1 tagged NONE, v2 tagged I32: every check of R93 fails at one of them. -/
def mixed : State := withCore (tagged .none .none m0) fun c => { c with v := c.v.set 2 ⟨3, .i32⟩ }

theorem witness_vector_tags :
    (∀ f ∈ [Fmt.i8, .i16, .i32, .i64, .bf16, .fp16, .fp32, .fp64],
      ((vecs f).rv 1).tag = f ∧ ((vecs f).rv 2).tag = f ∧ ((vecs f).rv 0).tag = f) ∧
    (∀ f ∈ [Fmt.bf16, .fp16, .fp32, .fp64], (fpFmt f).isSome = true ∧ isFpa f = true) ∧
    (∀ f ∈ [Fmt.i8, .i16, .i32, .i64], isInt f = true) ∧ isCvt .i8 = true ∧ isCvt .fp8e5 = true ∧
    (mixed.rv 0).tag = .none ∧ (mixed.rv 1).tag = .none ∧ (mixed.rv 2).tag = .i32 ∧ lanewidth (mixed.rv 2).tag ≠ lanewidth .none ∧
    ([(((mixed.rv 2).tag == (mixed.rv 1).tag), (mixed.rv 2).tag)].find? fun c => !c.1) = some (false, .i32) := by decide +kernel

/-- The largest and the smallest finite bit pattern of each format. -/
theorem witness_rounding :
    ∀ e ∈ [(Fmt.bf16, 0x7F7F), (.bf16, 1), (.fp16, 0x7BFF), (.fp16, 1), (.fp32, 0x7F7FFFFF), (.fp32, 1), (.fp64, 0x7FEFFFFFFFFFFFFF),
        (.fp64, 1)], ((fpFmt e.1).all fun g => Nat.blt e.2 (2 ^ lanewidth e.1) && !(g.decode e.2).isNaN &&
      (match g.decode e.2 with | .fin false _ _ => true | _ => false)) = true := by decide +kernel

/-- The active lanes of vecs .fp32 under k0 and under k1 and k2, which has none. -/
theorem witness_vector_lanes :
    ((List.range (min (vecs .fp32).core.csr.vl.toNat (lanes .fp32))).filter fun l => ((vecs .fp32).rk 0).getLsbD l) = [0, 1, 2, 3] ∧
    ((List.range (min (vecs .fp32).core.csr.vl.toNat (lanes .fp32))).filter fun l => ((vecs .fp32).rk 1).getLsbD l) = [0, 2] ∧
    ((List.range (min (vecs .fp32).core.csr.vl.toNat (lanes .fp32))).filter fun l => ((vecs .fp32).rk 2).getLsbD l) = [] := by
  decide +kernel

def laneKeys (l : Nat) : List Nat := (List.range 4).map (localKey 0 (0x1000 + 4 * l) + ·)
def watched : State := withCore (vecs .fp32) fun c =>
  { c with mode := .program, cid := 1, pe := p0.core.pe
           dbg := { c.dbg with wbase := c.dbg.wbase.set 0 0x1000, wctl := c.dbg.wctl.set 0 0x0010000000009303 } }

theorem witness_vector_memory :
    (vecs .fp32).memWf ∧ (vecs .fp32).hist = [] ∧
    (∀ l ∈ [0, 1, 2, 3], (vecs .fp32).access .load ((vecs .fp32).rx 1 + BitVec.ofNat 64 (l * 4)) 4 = .ok (laneKeys l) ∧
      (vecs .fp32).access .store ((vecs .fp32).rx 1 + BitVec.ofNat 64 (l * 4)) 4 = .ok (laneKeys l) ∧
      ((laneKeys l).all fun k => !inRegs k) = true ∧ ((laneKeys l).map hostKey).Nodup) ∧
    (∀ need ∈ [Need.load, .store], (vecs .fp32).access need 0x2FFFC 4 = .ok ((List.range 4).map (localKey 0 0x2FFFC + ·)) ∧
      (vecs .fp32).access need ((vecs .fp32).rx 6) 4 = .fault .loc 0x30000 ∧ watched.access need (watched.rx 1) 4 = .halt 0) ∧
    isInt (vecs .i32).core.v[2].tag = true := by
  refine ⟨rfl, ?_⟩; decide +kernel

/-! ### Hypotheses of the statements on the engines -/

/-- Tiles t0 and t1 of 2 rows by 4 in I8, t2 in FP8E4S with scales, t3 unused; 16 accumulator rows, the first two tagged
I32; addresses, strides and descriptors in x10 to x15. -/
def shaped : State :=
  withCore (m0.setCsr { m0.core.csr with
      acclim := 16
      tc := ((m0.core.csr.tc.set 0 0x010402).set 1 0x010402).set 2 (BitVec.ofNat 64 (0xFFFF000000000000 + 0x100402 + fmtNum .fp8e4s * 2 ^ 16))
    } |>.setAccTags 0 2 .i32) fun c =>
    (((((c.wx 10 0x1000).wx 11 0x40).wx 12 0).wx 13 0x040000).wx 14 0x0000004002040000).wx 15 0x02040000


def passes (tc : TReg) (ra rd : XReg) (n : Nat) : Bool := ((matrixForms shaped 9 tc 1 ra rd)[n]?).any fun e => e.2.1.all (·.isNone)
def failsAt (tc : TReg) (ra rd : XReg) (n m : Nat) : Bool :=
  ((matrixForms shaped 9 tc 1 ra rd)[n]?).any fun e => (e.2.1[m]?).any (·.isSome) && (e.2.1.take m).all (·.isNone)

/-- Each form with all its checks passed, and with the first or a later one failed. -/
theorem witness_matrix_checks :
    (∀ n ∈ [0, 1, 3, 4, 5], passes 0 10 11 n = true) ∧ passes 2 10 11 2 = true ∧ passes 0 12 13 6 = true ∧ passes 0 10 14 7 = true ∧
    passes 0 10 14 8 = true ∧ passes 0 12 13 9 = true ∧ passes 0 15 11 10 = true ∧ failsAt 0 10 11 2 1 = true ∧
    failsAt 0 12 13 0 3 = true ∧ failsAt 2 10 11 9 1 = true ∧ failsAt 0 10 11 7 0 = true := by decide +kernel

def jobOf (core id : Nat) (j : Job) (ph : Phase) : Op :=
  { oneOp with id := id, owner := .bare core, cls := 1, tok := 9, body := .matrix 0 false 0 j, phase := ph }
/-- Twelve jobs of core 0, and thirty-two of others. -/
def twelve : State := { shaped with ops := (List.range 12).map fun i => jobOf 0 i (.tzero 0) .issued }
def thirtyTwo : State := { shaped with ops := (List.range 32).map fun i => jobOf (1 + i % 3) i (.tzero 0) .issued }

theorem witness_matrix_queue :
    shaped.matrixRoom shaped.core = true ∧ twelve.matrixRoom twelve.core = false ∧ thirtyTwo.matrixRoom thirtyTwo.core = false ∧
    (counting 63 shaped).core.counterFull = true ∧ shaped.core.counterFull = false ∧ shaped.core.csr.taskValid = false := by
  decide +kernel

theorem witness_matrix_config :
    bitsOf (0x010402 : Word) 63 21 = 0 ∧ bitsOf (0x200000 : Word) 63 21 ≠ 0 ∧ bitsOf (0 : Word) 20 16 = 0 ∧
    (bitsOf (0x202A0 : Word) 5 0 = 32 ∧ bitsOf (0x2A00 : Word) 15 8 = 42) ∧
    bitsOf (0x02000010 : Word) 29 24 = 2 ∧ shaped.core.csr.acclim.toNat - shaped.core.csr.accbase.toNat = 16 ∧ 14 + 2 ≤ 16 ∧
    16 < 15 + 2 ∧ Memory.wf shaped.accTags = true := by decide +kernel

/-- One job at core 0, issued or started. -/
def jobs (ph : Phase) (j : Job) : State := { shaped with ops := [jobOf 0 0 j ph] }
def theMma : Job := .mma false 0 0x010402 1 0x010402 0
theorem witness_matrix_jobs :
    runsAt (stalled .matrixQueue (encode (.tzero 9 0)) shaped) (.tzero 9 0) = true ∧
    (∀ j ∈ [Job.tzero 3, .aczero 0x02040000, theMma], (jobs .issued j).nextJob 0 false = some (jobOf 0 0 j .issued) ∧
      (jobs .issued j).running 0 false = none ∧ (jobs .started j).running 0 false = some (jobOf 0 0 j .started)) ∧
    (∀ j ∈ [Job.tld 0 0x010402 0x1000 64, .tst 0 0x010402 0x1000 64], (jobs .issued j).nextJob 0 true = some (jobOf 0 0 j .issued) ∧
      (jobs .started j).running 0 true = some (jobOf 0 0 j .started)) ∧
    mmaAcc 0x010402 = .i32 ∧ dCol (0 : Word) + tRows 0x010402 ≤ 128 ∧ rowBytes 0x010402 = 4 ∧
    (∀ need ∈ [Need.load, .store],
      (shaped.checkRanges oneOp.rights need (rowRanges 0x1000 64 2 4)).toOption =
        some [(List.range 4).map (localKey 0 0x1000 + ·), (List.range 4).map (localKey 0 0x1040 + ·)] ∧
      (errorOf (shaped.checkRanges oneOp.rights need (rowRanges 0x2FFFC 64 2 4))) = some (.loc, 0x3003C)) ∧
    shaped.firstPoison (rowRanges 0x1000 64 2 4)
      [(List.range 4).map (localKey 0 0x1000 + ·), (List.range 4).map (localKey 0 0x1040 + ·)] = none ∧
    ((List.range 4).map (localKey 0 0x1000 + ·) ++ (List.range 4).map (localKey 0 0x1040 + ·)).all (fun k => !inRegs k) = true := by
  decide +kernel
theorem witness_matrix_stores : shaped.storesWf ∧ Memory.wf (shaped.getCore 0).tiles = true ∧ Resident shaped (.bare 0) 0 :=
  ⟨⟨rfl, rfl, by decide +kernel⟩, rfl, rfl, .inl rfl⟩

/-- Sixteen copies of core 0; XBAR at a barrier record with room for beats, and with none. -/
def sixteen : State := { m0 with ops := (List.range 16).map fun i => { oneOp with id := i } }
def xbarred (beats : Nat) : State :=
  poke (withCsr m0 fun c => { c with xbar := 0x1001 }) 0x1000 (bytesOfNat 8 (7 + 2 * 2 ^ 32) ++ bytesOfNat 8 beats)

theorem witness_copy_issue :
    bitsOf (m0.rx 2) 63 32 = 0 ∧ bitsOf (m0.rx 5) 63 32 ≠ 0 ∧ m0.core.localBad (m0.rx 6) = true ∧ m0.core.localBad (m0.rx 1) = false ∧
    regionEnd (m0.rx 1) = 0x30000 ∧ (m0.rx 2).toNat % 4 = 0 ∧ (m0.rx 9).toNat % 4 ≠ 0 ∧ m0.copyRoom m0.core = true ∧
    sixteen.copyRoom sixteen.core = false ∧ bitOf m0.core.csr.xbar 0 = false ∧ bitOf (xbarred 0).core.csr.xbar 0 = true ∧
    (xbarred 0).core.csr.xbar &&& ~~~15 = 0x1000 ∧ beatsOf (m0.rx 1) 8 ≠ 0 ∧
    (xbarred 0).barRoom ((xbarred 0).rightsOf (xbarred 0).core) 0x1000 1 = true ∧
    (xbarred (2 ^ 32 - 1)).barRoom ((xbarred 0).rightsOf (xbarred 0).core) 0x1000 1 = false ∧
    (xbarred 0).resolveAll ((xbarred 0).rightsOf (xbarred 0).core) .atomic 0x1000 16 = .ok barKeys ∧ (xbarred 0).memWf ∧
    errorOf (m0.resolveAll (m0.rightsOf m0.core) .atomic 0x30000 16) = some (.loc, 0x30000) := by
  refine ⟨?_, ?_, ?_, ?_, ?_, ?_, ?_, ?_, ?_, ?_, ?_, ?_, ?_, ?_, ?_, ?_, ?_, ?_⟩ <;> first | rfl | decide +kernel

def copying (b : Body) (ph : Phase) (beats : Nat) : Op := { oneOp with tok := 9, body := b, phase := ph, beats := beats }
def copies (b : Body) (ph : Phase) (beats : Nat) : State := { m0 with ops := [copying b ph beats] }
def dstKeys : List Nat := (List.range 8).map (localKey 0 0x2000 + ·)
def srcKeys : List Nat := (List.range 8).map (localKey 0 0x1000 + ·)

theorem witness_copy_operations :
    (copies (.cpy 0x2000 0x1000 8 none) .issued 0).memWf ∧
    (copies (.cpy 0x2000 0x1000 8 none) .issued 0).op? 7 = some (copying (.cpy 0x2000 0x1000 8 none) .issued 0) ∧
    runsAt (stalled .copySlot (encode (.cpy 9 1 2 3)) m0) (.cpy 9 1 2 3) = true ∧
    (m0.checkCopy oneOp.rights [(0x1000, 8)] [(0x2000, 8)]).toOption = some ([srcKeys], [dstKeys]) ∧
    errorOf (m0.checkCopy oneOp.rights [(0x1000, 8)] [(0x2FFFC, 8)]) = some (.loc, 0x30000) ∧
    m0.firstPoison [(0x1000, 8)] [srcKeys] = none ∧ dstKeys.all (fun k => !inRegs k) = true ∧
    (m0.checkCopy oneOp.rights [] [(0x2000, 8)]).toOption = some ([], [dstKeys]) ∧
    errorOf (m0.checkCopy oneOp.rights [] [(0x2FFFC, 8)]) = some (.loc, 0x30000) ∧
    (copying (.cpy 0x2000 0x1000 8 none) (.moved .ok 8 0) 1).isCopy = true ∧ m0.asyncWaiting = [] ∧
    (copying (.cpy 0x2000 0x1000 8 none) .started 1).isCopy = true := by
  refine ⟨rfl, ?_⟩; decide +kernel

/-- Team 3 with gang 2, which holds channel 5, and n requests of core 0 that no channel has accepted. -/
def aGang : Gang := ⟨2, 1, 0, 0, 1, 0, false, 0, 4, 1, 1, 0, [⟨0, 2, 0, 0⟩], .running, none, [5], .ok, 0, 0⟩
def request (id : Nat) (retryAt : Nat) : Op :=
  { oneOp with id := id, owner := .thread 5, cls := 3, tok := 9, body := .bte 5 0x1800 0x1000 false retryAt }
def channelled (n : Nat) : State :=
  withCore { teamed none m0 with gangs := [aGang], ops := (List.range n).map fun i => request i 0 } fun c =>
    ((c.wx 10 0).wx 11 0x1040).wx 12 64

theorem witness_transfer_issue :
    ((channelled 0).rx 10).toNat < 64 ∧ ¬((channelled 0).rx 12).toNat < 64 ∧ (channelled 0).channelOf (channelled 0).core 0 = some 5 ∧
    (channelled 0).channelOf (channelled 0).core 1 = none ∧ ((channelled 0).rx 11).toNat % 64 = 0 ∧
    ((channelled 0).rx 4).toNat % 64 ≠ 0 ∧ ((channelled 0).rx 1).toNat % 8 = 0 ∧ ((channelled 0).rx 4).toNat % 8 ≠ 0 ∧
    ((channelled 8).heldRequests 0).length = 8 ∧ ((channelled 7).heldRequests 0).length = 7 ∧
    runsAt (stalled .bteRequest (encode (.bteGo 9 1 10 11)) m0) (.bteGo 9 1 10 11) = true := by decide +kernel

/-- A record at 0x1000 that moves 8 bytes from 0x1400 to 0x1500, is OWN or not, and has no next. -/
def aRecord (own : Nat) : List Byte :=
  bytesOfNat 8 0 ++ bytesOfNat 8 (own + 6 * 2 ^ 32) ++ bytesOfNat 8 0x1400 ++ bytesOfNat 8 0x1500 ++ bytesOfNat 8 8 ++ List.replicate 24 0
def chained (phase : Nat) (adr : Word) (own : Nat) : State :=
  { poke (channelled 0) 0x1000 (aRecord own) with
    ops := [{ request 0 0 with body := .bte 5 0x1800 0x1000 true 0 }]
    channels := [⟨5, some 0, adr, 0, phase, aRecord own, some (6, .ok, 8, 0, 0x1000), 0, .ok⟩] }
def chainRights : Rights := (request 0 0).rights

theorem witness_transfer_chains :
    ((channelled 2).heldRequests 0)[1]? = some (request 1 0) ∧ ((channelled 1).heldRequests 0)[0]? = some (request 0 0) ∧
    (channelled 1).channelIdle 5 = true ∧ (chained 1 0x1000 1).channelIdle 5 = false ∧
    (({ channelled 0 with ops := [request 0 9], clock := 9 } : State).heldRequests 0)[0]? = some (request 0 9) ∧
    (∀ ph ∈ [1, 2, 3], ((chained ph 0x1000 1).channel 5).op.bind (chained ph 0x1000 1).op? =
      some { request 0 0 with body := .bte 5 0x1800 0x1000 true 0 }) ∧
    ((chained 1 0 1).channel 5).recAdr = 0 ∧ ((chained 1 0 1).ctx chainRights.cid).ending = false ∧
    (∀ own ∈ [0, 1], ((chained 1 0x1000 own).bteRead chainRights 0x1000 64).toOption = some (aRecord own)) ∧ fieldAt (aRecord 0) 8 1 % 2 = 0 ∧
    fieldAt (aRecord 1) 8 1 % 2 = 1 ∧ recField (aRecord 1) = none ∧ (chained 1 0x1000 1).recordCheck chainRights 0x1000 (aRecord 1) = none ∧
    fieldAt (aRecord 1) 40 8 = 0 ∧ ((chained 3 0x1000 1).channel 5).entry = some (6, .ok, 8, 0, 0x1000) := by decide +kernel

theorem witness_transfer_record :
    (chained 2 0x1000 1).memWf ∧ recFill (aRecord 1) = false ∧ recRing (aRecord 1) = false ∧ recArrive (aRecord 1) = false ∧
    recBar (aRecord 1) = 0 ∧ recLen (aRecord 1) = 8 ∧
    ((chained 2 0x1000 1).checkCopy chainRights [(0x1400, 8)] [(0x1500, 8)]).toOption =
      some ([(List.range 8).map (localKey 0 0x1400 + ·)], [(List.range 8).map (localKey 0 0x1500 + ·)]) ∧
    (chained 2 0x1000 1).firstPoison [(0x1400, 8)] [(List.range 8).map (localKey 0 0x1400 + ·)] = none ∧
    (((chained 2 0x1000 1).writeKeys ((List.range 8).map (localKey 0 0x1500 + ·)) (List.replicate 8 0)).resolveAll chainRights .store
      0x1008 8).toOption = some ((List.range 8).map (localKey 0 0x1008 + ·)) ∧
    ((List.range 8).map (localKey 0 0x1500 + ·) ++ (List.range 8).map (localKey 0 0x1008 + ·)).all (fun k => !inRegs k) = true ∧
    ((List.range 8).all fun i => (List.range 8).all fun j => hostKey (localKey 0 0x1008 + i) != hostKey (localKey 0 0x1500 + j)) = true := by
  refine ⟨rfl, ?_⟩; decide +kernel

/-! ### Hypotheses of the statements on search and the calender -/

def openCopy : SlotCopy := ⟨100, 0, 1, 1, 2⟩
def openSlot : WSlot := { WSlot.reset with granted := some 0, w := 100, p := 0, seq := 1, g := 1, phase := 2, base := openCopy }
def slotted (w : WSlot) (s : State) : State := { s with slots := s.slots.set 0 w }
def asks (r : Option HomeReq) (v : Option HomeReply) (s : State) : State := withCore s fun c => { c with request := r, reply := v }
def aRec (bound : Int) (seq field order : Nat) : TaskRec := ⟨bound, 7, 0, seq, 0, false, false, field, order, View.empty⟩
def queued (l : List TaskRec) (s : State) : State := { s with records := l }
/-- Task 5 of slot 0 with bound n, in program mode. -/
def tasking (n : Word) : State :=
  withCsr (withCore (slotted openSlot m0) fun c => { c with mode := .program }) fun c =>
    { c with tbnd := n, ttask := BitVec.ofNat 64 (5 * 2 ^ 32 + 16) }

theorem witness_tasks :
    m0.core.request = none ∧ (m0.slots.get 0).granted ≠ some m0.core.cid ∧ ((slotted openSlot m0).slots.get 0).granted = some 0 ∧
    openSlot.lost = false ∧ (openSlot.copy (.core 0)).phase = 2 ∧ (WSlot.reset.copy (.core 0)).phase ≠ 2 ∧
    openCopy.w - openCopy.g ≤ (99 : Word).toInt ∧ (98 : Word).toInt < openCopy.w - openCopy.g ∧ m0.records = [] ∧
    fails 99 openCopy = true ∧ fails 98 openCopy = false ∧ lookupD m0.spawnCounters 0 0 < 2 ^ 22 ∧
    (asks (some (.spawn 0 false 98 7)) (some (.spawn false)) m0).core.reply = some (.spawn false) ∧
    ((asks (some (.spawn 0 true 99 7)) none m0).getCore 0).request = some (.spawn 0 true 99 7) ∧
    ((queued [aRec 5 1 0 1, aRec 4 2 0 2, aRec 3 3 1 3] m0).records.filter fun r => r.field == m0.core.num / 1024 && r.slot == 0) =
      [aRec 5 1 0 1, aRec 4 2 0 2] ∧
    (∀ q ∈ [aRec 5 1 0 1, aRec 4 2 0 2], q ≠ aRec 4 2 0 2 →
      (aRec 4 2 0 2).bound < q.bound ∨ ((aRec 4 2 0 2).bound = q.bound ∧ (aRec 4 2 0 2).order < q.order)) ∧
    ((waiting (.tnext 1 2 0) false 0).focus 0).core.wait = some (.tnext 1 2 0) ∧
    (tasking 99).core.csr.taskValid = true ∧ (tasking 99).core.csr.taskSlot = 0 ∧
    openCopy.w - openCopy.g ≤ (tasking 99).core.csr.tbnd.toInt ∧ ¬openCopy.w - openCopy.g ≤ (tasking 98).core.csr.tbnd.toInt ∧
    m0.core.csr.taskValid = false ∧ (tasking 98).core.csr.lpc0 = 0 ∧ (tasking 98).core.csr.lpc1 = 0 := by decide +kernel

/-- Three records in the segment of field 1 and a TNEXT on core 0, in field 0. -/
def sharing : State :=
  queued [aRec 5 1 1 1, aRec 4 2 1 2, aRec 3 3 1 3]
    { slotted openSlot (waiting (.tnext 1 2 0) false 0) with nextId := 4, threads := [{ th5 with cid := 0 }] }
def spilled : WSlot := { openSlot with area := some 0x1000000, spill := [(1, View.empty)] }
def opening : WSlot := { openSlot with phase := 1 }
def finished : WSlot := { openSlot with spawned := true }

theorem witness_watermarks :
    bitsOf (m0.rx 3) 63 36 ≠ 0 ∧ bitsOf (m0.rx 2) 63 36 = 0 ∧ bitsOf (m0.rx 2) 35 32 = (0 : Slot).val ∧ (m0.rx 3).toInt < 0 ∧
    0 ≤ (m0.rx 1).toInt ∧ ((slotted openSlot m0).slots.get 0).granted = some 0 ∧
    (asks (some (.update 0 99 3)) (some (.update true)) m0).core.reply = some (.update true) ∧
    (asks (some (.set 0 99 3 0)) (some .set) m0).core.reply = some .set ∧
    ((asks (some (.update 0 99 3)) none m0).getCore 0).request = some (.update 0 99 3) ∧
    ((asks (some (.update 0 99 3)) none m0).getCore 0).reply = none ∧ (99 : Word).toInt < openSlot.w ∧ ¬(100 : Word).toInt < openSlot.w ∧
    ((100 : Word).toInt = openSlot.w ∧ ¬0 < openSlot.p) ∧ opening.phase = 1 ∧ WSlot.reset.phase = 0 ∧
    ((asks (some (.set 0 99 3 0)) none m0).getCore 0).request = some (.set 0 99 3 0) ∧ (openSlot.spawned = false ∧ openSlot.queued = 0) ∧
    (slotted opening m0).setters 0 = [] ∧ (m0.focus 0).core.wait = none ∧
    (finished.phase = 2 ∧ finished.spawned = true ∧ finished.queued = 0 ∧ finished.running = 0) ∧
    (m0.core :: m0.others).all (fun k => !k.inTnext 0) = true := by decide +kernel
theorem witness_records :
    sharing.waitingTnext 0 0 = true ∧ sharing.recordsAt 0 (.segment 0) = [] ∧ (sharing.recordsAt 0 (.segment 1)).length = 3 ∧
    ((sharing.placesOf 0).all fun p => Nat.ble (sharing.recordsAt 0 p).length 3) = true ∧ m0.waitingTnext 0 0 = false ∧
    (∀ r ∈ sharing.records, r.order < sharing.nextId) ∧ (sharing.records.map (·.order)).Nodup ∧
    spilled.spill ≠ [] ∧ (∀ e ∈ spilled.spill, (sharing.spilled spilled e).slot = 0) ∧ (sharing.contextFields 0).contains 0 = true ∧
    (sharing.inSegment 0).length < 4096 := by decide +kernel

def f64one : List Byte := bytesOfNat 8 0x3FF0000000000000
/-- A command block for two elements at 0x1800 and 0x1900, one FP32 rung and kernels at 0x2000. -/
def block : List Byte :=
  bytesOfNat 8 2 ++ List.replicate 16 0 ++ bytesOfNat 8 0x1800 ++ List.replicate 8 0 ++ bytesOfNat 8 0x1900 ++ bytesOfNat 8 0x2000 ++
  bytesOfNat 8 0x2000 ++ bytesOfNat 8 0x2000 ++ [1, 9, 0, 0, 0, 0, 0, 0] ++ f64one ++ f64one ++ bytesOfNat 8 0x4000000000000000 ++
  f64one ++ bytesOfNat 4 1 ++ [1, 1, 1, 0] ++ List.replicate 136 0

def member (rank : Nat) (waits due : Bool) : CalMember :=
  ⟨rank, rank, 0x1000, 9, if waits then some 0x2F000 else none, due, false⟩
/-- Team 3's run in a state, with its members, its block at 0x1000 and how it is to end. -/
def running (st : Nat) (l : List CalMember) (e : Option (Nat × Cause × Word)) : Team :=
  { aTeam with cal := { CalRun.idle with state := st, members := l, rights := some (m0.rightsOf m0.core), block := 0x1000, ending := e } }
def calendar (T : Team) (b : List Byte) : State := { poke (teamed none m0) 0x1000 b with teams := [T] }
def both : List CalMember := [member 0 true false, member 1 true false]

theorem witness_calender_calls :
    (calendar aTeam block).coreThread (calendar aTeam block).core = some th5 ∧ m0.coreThread m0.core = none ∧
    (calendar aTeam block).team? th5.team = some aTeam ∧ aTeam.calMember th5.rank = none ∧
    (m0.rx 4).toNat % 8 ≠ 0 ∧ (m0.rx 1).toNat % 8 = 0 ∧ m0.core.localBad (m0.rx 6) = true ∧ m0.core.localBad (m0.rx 1) = false ∧
    (counting 63 m0).core.counterFull = true ∧ m0.core.counterFull = false ∧ m0.core.csr.taskValid = false ∧ th5.rank = 0 ∧
    (2 ≤ (running 2 both none).cal.state ∧ (running 1 both none).cal.state ≤ 1) ∧ (running 1 both none).cal.ending = none ∧
    (running 1 [] (some (255, .peerlost, 0))).cal.ending ≠ none ∧
    (running 3 [member 0 false false] none).calMember th5.rank = some (member 0 false false) ∧ (member 0 false false).due = false ∧
    m0.opsOf m0.core.owner = [] ∧ reducing.opsOf reducing.core.owner = [redOp 0] ∧ (running 3 both none).cal.state ≠ 6 := by
  decide +kernel
theorem witness_calender_runs :
    (calendar (running 1 both none) block).team? 3 = some (running 1 both none) ∧ (running 1 both none).calGathered = true ∧
    (running 1 [member 0 true false] none).calGathered = false ∧ (calendar (running 1 both none) block).teams = [running 1 both none] ∧
    (running 1 both none).cal.rights = some (m0.rightsOf m0.core) ∧
    ((calendar (running 1 both none) block).calValidate (m0.rightsOf m0.core) 0x1000).toOption = some block ∧
    errorOf ((calendar (running 1 both none) block).calValidate (m0.rightsOf m0.core) 0x2FFF8) = some (.loc, some 0x30000) ∧
    (∀ st ∈ [2, 3, 4, 5], (running st both none).calArrived = true ∧ (running st both none).cal.state = st ∧
      (running st both none).cal.ending = none) ∧
    (running 3 both (some (255, .peerlost, 0))).cal.ending = some (255, .peerlost, 0) ∧
    ((calendar (running 2 both none) ((block.take 119) ++ [1] ++ block.drop 120)).calRead 3 119 1).toOption = some [1] ∧
    (calendar (running 2 both none) block).core.csr.taskValid = false := by decide +kernel

/-! ### Hypotheses of the statements on the monitor, slices, memory side and debug -/

theorem witness_monitor_instructions :
    p0.core.mode = .program ∧ m0.core.mode = .monitor ∧ 8 ≤ (m0.rx 2).toNat ∧ (m0.rx 9).toNat = 1 ∧ 47 ≤ (m0.rx 1).toNat ∧
    (bitsOf (0x0010000000012E00 : Word) 51 18 = 0 ∧ bitsOf (0x0010000000012E00 : Word) 15 14 = 0 ∧
      bitsOf (0x0010000000012E00 : Word) 7 6 = 0 ∧ bitsOf (0x0010000000012E00 : Word) 17 16 = 1 ∧
      bitsOf (0x0010000000012E00 : Word) 13 8 = 46 ∧ bitsOf (0x0010000000012E00 : Word) 5 0 = 0) ∧
    (bitsOf (0x00012F00 : Word) 13 8 = 47 ∧ bitsOf (0x00012F00 : Word) 17 16 ≠ 0) ∧ bitsOf (m0.rx 3) 51 18 ≠ 0 ∧
    (∀ j : Fin 8, bitsOf (m0.core.pe.get j) 17 16 = 0) ∧ bitsOf (m0.rx 2) 63 8 = 0 ∧ bitsOf (m0.rx 5) 63 8 ≠ 0 ∧
    ((m0.rx 1).toNat % 4096 = 0 ∧ (m0.rx 1).toNat ≤ 0x2C000) ∧ (m0.rx 4).toNat % 4096 ≠ 0 ∧ ¬(m0.rx 6).toNat ≤ 0x2C000 ∧
    ((jobs .issued (.tzero 0)).ops.any fun o => o.owner == m0.core.owner && o.isMatrix) = true ∧ m0.ops = [] ∧
    (m0.core.delivered = [] ∧ m0.core.gateHw.length ≤ 16) := by decide +kernel
theorem read_empty : ∀ n a, Memory.read [] a n = List.replicate n 0#8
  | 0, _ => rfl
  | n + 1, a => by rw [List.replicate_succ, Memory.read, read_empty n]; rfl
theorem zeros_value : ∀ n, natOfBytes (List.replicate n 0#8) = 0
  | 0 => rfl
  | n + 1 => by rw [List.replicate_succ, natOfBytes, zeros_value n]; rfl
theorem zeros_field (n a k : Nat) : fieldAt (List.replicate n 0#8) a k = 0 := by
  rw [fieldAt, List.drop_replicate, List.take_replicate, zeros_value]
theorem delivered_csr : ∀ (l : List (XReg × Word)) (c : Core), (l.foldl (fun c e => c.wx e.1 e.2) c).csr = c.csr
  | [], _ => rfl
  | e :: l, c => by rw [List.foldl_cons, delivered_csr l]; unfold Core.wx; split <;> rfl
theorem zeros_loaded (c : Core) (n : Nat) :
    (loadBytes c (List.replicate n 0#8)).csr.lpc0 = 0 ∧ (loadBytes c (List.replicate n 0#8)).csr.ttask = 0 := by
  simp only [loadBytes, Core.takeDelivered, delivered_csr]
  simp only [areaCore, fieldsAt, zeros_field]
  exact ⟨rfl, rfl⟩
theorem context_load_zeros (c : Core) (m : Memory) (a n : Nat) (h : m = []) : (loadBytes c (m.read a n)).csr.lpc0 = 0 := by
  subst h; rw [read_empty]; exact (zeros_loaded _ _).1
theorem resumed_zeros (s : State) (t : Thread) (img k : Core) (h : s.mem = []) : (s.resumed t img k).csr.taskValid = false := by
  simp only [State.resumed, State.readMem, h, read_empty, Csrs.taskValid, (zeros_loaded _ _).2]
  rfl
theorem witness_context_load : (loadBytes m0.core (m0.mem.read (localKey 0 0x1000) 12288)).csr.lpc0 = 0 :=
  context_load_zeros _ _ _ _ rfl
theorem witness_context_save : m0.memWf := rfl

/-- A core in service n of Deckle for a program in domain d: x11 page, x12 tag, x13 an address. -/
def serving (n : Nat) (d : Byte) (page tag adr : Word) : State :=
  withCore m0 fun c => { (((c.wx 11 page).wx 12 tag).wx 13 adr) with
    domain := d, cid := 1, pc := 0x2F080, pe := p0.core.pe
    csr := { c.csr with dkentry := 0x010000000000, dkresume := 0x1001, dkdata := BitVec.ofNat 64 n } }

def writable : State := withCore (serving 3 255 1 1 0x1000) fun c => { c with lpt := c.lpt.set 1 255 }

theorem witness_services :
    (∀ n ∈ [0, 1, 2, 3, 4, 5], ((serving n 255 1 7 0x1000).focus 0).core.mode = .monitor ∧
      ((serving n 255 1 7 0x1000).focus 0).core.stopped = false ∧
      bitsOf ((serving n 255 1 7 0x1000).focus 0).core.csr.dkentry 47 40 = 1 ∧
      bitOf ((serving n 255 1 7 0x1000).focus 0).core.csr.dkresume 0 = true ∧
      ((serving n 255 1 7 0x1000).focus 0).core.pc = 0x2F080 ∧ ((serving n 255 1 7 0x1000).focus 0).core.csr.dkdata.toNat = n) ∧
    (serving 1 255 46 255 0).core.domain = 255 ∧ (serving 1 3 46 255 0).core.domain ≠ 255 ∧
    (serving 1 255 46 255 0).core.peAllows 1 46 = true ∧ (serving 1 255 47 255 0).core.peAllows 1 47 = false ∧
    (serving 1 255 46 256 0).rx 12 = 256 ∧ (serving 2 255 255 1 0x1000).rx 11 = 255 ∧ (serving 2 255 0 1 0x1000).rx 11 = 0 ∧
    ((serving 2 255 1 1 0x1000).resolveAll (serving 2 255 1 1 0x1000).svcRights .load 0x1000 32).toOption = some forkKeys ∧
    errorOf ((serving 2 255 1 1 0x30000).resolveAll (serving 2 255 1 1 0x30000).svcRights .load 0x30000 32) = some (.loc, 0x30000) ∧
    errorOf ((serving 2 255 1 1 0x2EFF8).resolveAll (serving 2 255 1 1 0x2EFF8).svcRights .load 0x2EFF8 32) = some (.rights, 0x2F000) ∧
    (forkKeys.all fun k => !(serving 2 255 1 1 0x1000).poisoned k 1 && !inRegs k) = true ∧
    errorOf ((serving 3 255 1 1 0x2F000).resolveAll (serving 3 255 1 1 0x2F000).svcRights .store 0x2F000 32) = some (.rights, 0x2F000) ∧
    (writable.resolveAll writable.svcRights .store 0x1000 32).toOption = some forkKeys := by
  decide +kernel

/-- Core 0 in service 0 with thread 5; then the thread ending, with an operation and without. -/
def endingThread : State := { teamed none (serving 0 255 0 0 0) with teams := [aTeam] }
def ending (l : List Op) : State := { endingThread with threads := [{ th5 with ending := true }, th6], ops := l }
/-- A finished copy whose record waits for room in the trap ring of domain 255, which has one entry, taken or not. -/
def ringing (taken : Nat) : State :=
  withCsr (poke { m0 with ops := [copying (.cpy 0x2000 0x1000 8 none) (.moved .rights 0 0) 0], asyncWaiting := [(7, .rights, 0, 0)] }
    0x1000 (bytesOfNat 8 0x1100 ++ bytesOfNat 8 1 ++ bytesOfNat 8 taken ++ bytesOfNat 8 0)) fun c => { c with tring := 0x1001 }

theorem witness_thread_ends :
    (endingThread.focus 0).coreThread (endingThread.focus 0).core = some th5 ∧
    ((ending []).threads.find? fun t => t.home == 0 && t.ending && !t.ended) = some { th5 with ending := true } ∧
    (ending []).opsOf (.thread 5) = [] ∧ (ending [redOp 0]).opsOf (.thread 5) = [redOp 0] ∧
    (m0.getCore 1).tid = none ∧ m0.asyncWaiting[0]? = none ∧ (ringing 0).asyncWaiting[0]? = some (7, .rights, 0, 0) ∧
    ((ringing 0).op? 7).any (fun o => o.isCopy && !o.discard) = true ∧
    (p0.focus 0).core.mode = .program ∧ (p0.focus 0).core.stopped = false ∧ holdsWait (p0.focus 0).core.wait = false := by
  decide +kernel
theorem witness_thread_memory : m0.memWf ∧ (endingThread.threads.all fun t => !t.ending) = true := ⟨rfl, rfl⟩

/-- Program mode in domain 255 of context 1, whose page table maps 1 GiB at 0x140000000 to physical address pa. -/
def mapped (pa : Nat) : State :=
  let s := withCore (p0.modCtx 1 fun x => { x with root := some 0x100000 }) fun c => (c.wx 10 0x140000000)
  { s with mem := (s.mem.write 0x100000 (bytesOfNat 8 (0xC001 + 0x110000))).write 0x110028 (bytesOfNat 8 (0xBFCF + pa)) }
def mappedKeys (pa : Nat) : List Nat := (List.range 8).map (pa + ·)

/-- A strong load at the pc, of host memory over CXL. -/
def strong : State :=
  let s := withCore (mapped (2 ^ 50)) fun c => { c with lpt := c.lpt.set 1 255 }
  { s with mem := s.mem.write (localKey 0 0x1000) (bytesOfNat 4 (encode (.ldS .dev 4 10 0))) }
def strongOp (s : State) : Op :=
  { oneOp with owner := .bare 0, rights := s.rightsOf s.core, body := .strong 9 0x1000 8 false (List.range 8 |>.map (localKey 0 0x1000 + ·)) none, cls := 0, tok := 0 }

theorem witness_strong_loads :
    strong.issues = true ∧ strong.core.wait = none ∧ strong.decodeNext.2 = .run (.ldS .dev 4 10 0) ∧
    strong.decodeNext.1.access .load 0x140000000 8 = .ok (mappedKeys (2 ^ 50)) ∧
    (mappedKeys (2 ^ 50)).all (fun q => Nat.ble (2 ^ 50) q && Nat.blt q (2 ^ 52)) = true ∧
    strong.core.csr.taskValid = false ∧ m0.ops = [] ∧
    (({ m0 with ops := [strongOp m0] } : State).ops.find? fun o => State.homeOf { m0 with ops := [strongOp m0] } o.owner == 0 &&
      (match o.body with | .strong _ _ _ _ _ _ => true | _ => false)) = some (strongOp m0) ∧
    m0.core.wait ≠ some (.strongLoad 7 9 0x1000) ∧ srcKeys.findSome? m0.lostAt = none ∧
    (srcKeys.all fun q => !m0.poisoned q 1) = true := by
  decide +kernel
theorem witness_strong_resident : Resident m0 (strongOp m0).owner 0 := ⟨rfl, .inl rfl⟩

/-- Thread 5 of a SLICED gang waits in IDLE on core 0; then it is evicted, and its core is free. -/
def idling : State :=
  { withCore (teamed none p0) fun c => { c with
      wait := some .idle, wake := true, pc := 0x1000, tid := some 5
      pe := (c.pe.set 0 (BitVec.ofNat 64 (2 ^ 52 + 2 ^ 16 + 43 * 2 ^ 8))).set 1 (BitVec.ofNat 64 (2 ^ 52 + 2 * 2 ^ 16 + 46 * 2 ^ 8 + 44))
      csr := { c.csr with dkctx := BitVec.ofNat 64 (2 ^ 52 + 44) } } with
    gangs := [aGang], threads := [th5] }
def away : State :=
  { idling with core := { Core.reset 0 with held := false, pe := idling.core.pe }, others := [{ Core.reset 2 with held := false }], threads := [{ th5 with evicted := some idling.core }] }

theorem witness_slices :
    idling.coreThread (idling.getCore 0) = some th5 ∧ idling.evictable th5 (idling.getCore 0) = true ∧
    m0.coreThread (m0.getCore 0) = none ∧ (teamed none m0).evictable th5 ((teamed none m0).getCore 0) = false ∧
    m0.thread? 5 = none ∧ away.thread? 5 = some { th5 with evicted := some idling.core } ∧ away.coreFree 0 = true ∧
    away.wakes { th5 with evicted := some idling.core } idling.core = true ∧ idling.core.wait = some .idle ∧
    away.team? 3 = some aTeam ∧ away.mayMigrate aTeam [{ th5 with evicted := some idling.core }] [2] = true ∧
    away.assignRows (fun u => !([{ th5 with evicted := some idling.core }].any fun t => t.tid == u.tid)) 0
      [({ th5 with evicted := some idling.core }, idling.core, 2)] [] = some [(32, 0)] ∧
    idling.mayName th5 (idling.getCore 0) 3 = true ∧
    idling.mayName th5 (withCore idling fun c => { c with wait := some (.tnext 1 2 0) }).core 3 = false ∧
    away.savePoisoned (localKey 0 0) = false := by decide +kernel
theorem witness_slice_resumes :
    (away.resumed { th5 with evicted := some idling.core } idling.core (away.getCore 0)).csr.taskValid = false :=
  resumed_zeros _ _ _ _ rfl
theorem witness_slice_memory : idling.memWf := rfl

/-- Both members of team 3 in program mode, rank 1's store open to context 1. -/
def peers : State :=
  { teamed none p0 with
    core := { (teamed none p0).core with csr := { (teamed none p0).core.csr with teamsz := 2 } }
    others := [{ Core.reset 1 with tid := some 6, cid := 1, pe := p0.core.pe, lpt := (Core.reset 1).lpt.set 1 255 }] }

def walking : State := { mapped 0x40000000 with misses := [⟨4, 1, 0x14000, .inr (0x4000BFCF, 30)⟩] }

theorem witness_memory_side :
    peers.threads.any (fun u => (some u.team == (peers.coreThread (peers.getCore 0)).map (·.team) && u.home == 1) && !u.ended) = true ∧
    m0.threads = [] ∧ (peers.rightsOf (peers.getCore 0)).monitor = false ∧
    (peers.resolveAll (peers.rightsOf (peers.getCore 0)) .store 0x100041000 2).toOption = some [localKey 1 0x1000, localKey 1 0x1001] ∧
    errorOf (peers.resolveAll (peers.rightsOf (peers.getCore 0)) .store 0x10006FFFF 2) = some (.rights, 0x10006FFFF) ∧
    inHbm 0 = true ∧ inHbm 0x5FFFFFFFFF = true ∧ inRegs 0x5FFFFFFFFF = false ∧ m0.misses[0]? = none ∧
    walking.misses[0]? = some ⟨4, 1, 0x14000, .inr (0x4000BFCF, 30)⟩ ∧ walking.walk 1 (0x14000 * 65536) = .inr (0x4000BFCF, 30) ∧ walking.leaves = [] ∧
    m0.heldMisses = [] ∧ m0.debugAllowed 0 = true ∧ (m0.modCtx 0 fun x => { x with protect := true, policy := { x.policy with debug := false } }).debugAllowed 0 = false ∧
    ((∀ n, m0.core.csr.cnt.get n = 0) ∧ m0.core.pendX = 0) ∧ m0.core.dbg.halted = false := by decide +kernel

/-! ### Hypotheses of the statements on the Headbox -/

def padded (n : Nat) (l : List Byte) : List Byte := l ++ List.replicate (n - l.length) 0
/-- A packet with phase bit, type, JOINPREV and sequence number, and its body. -/
def packet (phase type join seq : Nat) (body : List Byte) : List Byte :=
  padded 128 (bytesOfNat 1 phase ++ bytesOfNat 1 type ++ bytesOfNat 2 join ++ bytesOfNat 4 seq ++ body)
/-- Queue 3 of context 1 with a ring of 16 at 0x140000000, its low CTL bits, tail and taken packets. -/
def ring (low tail : Nat) (l : List TakenPacket) : Queue :=
  { Queue.reset 3 with
    base := 0x140000000, ctl := BitVec.ofNat 64 (2 ^ 52 + 4 * 2 ^ 40 + low), tail := tail, seq := 5, state := 1, taken := l }
/-- The ring's first bytes in memory, in a granule of the context, and a cached leaf of 1 GiB for it. -/
def ringed (first : List Byte) (k : Queue) : State :=
  { p0 with mem := p0.mem.write 0x40000000 first, leaves := [⟨0, 1, 5, 30, 0x4000BFCF⟩], queues := [k]
            sec := { p0.sec with owned := [(.granule 0x4000, .assigned [1])] } }
def ringKeys (off n : Nat) : List Nat := (List.range n).map (0x40000000 + off + ·)

def owned0 : State := { m0 with sec := { m0.sec with owner := some 1 } }
/-- The commit window of an image is open. -/
def exchange (p : FwPart) : State := { m0 with sec := { m0.sec with window := some (p, 5, 1, 0) } }

theorem witness_queue_registers :
    bitOf (ring 1 0 []).ctl 0 = true ∧ bitOf (ring 0 0 []).ctl 0 = false ∧ bitOf (1 : Word) 0 = true ∧ bitOf (0 : Word) 0 = false ∧
    (bitsOf (0x0010020000000001 : Word) 43 40 = 2 ∧ bitsOf (0x0010020000000001 : Word) 2 1 = 0) ∧ bitsOf (0x0010010000000001 : Word) 43 40 < 2 ∧
    1 < bitsOf (0x0010020000000005 : Word) 2 1 ∧ (bitsOf (0x0010020000000003 : Word) 2 1 = 1 ∧ (ring 0 0 []).priv = false) ∧
    (ring 0 0 []).donea = 0 ∧
    ((ringed [] { ring 0 0 [] with donea := 0x140001000 }).headboxKeys 1 .store 0x140001000 8).toOption = some (ringKeys 0x1000 8) ∧
    (ringKeys 0x1000 8).all (fun j => !inRegs j) = true ∧ (ringKeys 0x1000 8).length = 8 ∧ m0.gated.contains 0 = false ∧
    ({ m0 with gated := [0] } : State).gated.contains 0 = true ∧ m0.threads = [] ∧ away.threads = [{ th5 with evicted := some idling.core }] ∧
    ({ m0 with gatedWrites := [1024] } : State).gatedWrites = [1024] ∧ 1024 / 1024 = 1 ∧ m0.gatedWrites = [] ∧
    m0.restarting = false ∧ ({ m0 with restarting := true } : State).restarting = true ∧ m0.exchanging = false ∧
    (exchange .headbox).exchanging = true ∧ m0.sec.owner ≠ some 1 ∧ owned0.sec.owner = some 1 := by decide +kernel
theorem witness_queue_memory : (ringed [] (ring 0 0 [])).memWf := by unfold State.memWf; decide +kernel

theorem witness_queue_fetch :
    (bitOf (ring 1 1 []).ctl 0 = true ∧ (ring 1 1 []).state ≠ 3 ∧ (ringed [] (ring 1 1 [])).restarting = false) ∧
    bitsOf (ring 1 1 []).ctl 2 1 = 0 ∧ bitsOf (ring 3 1 []).ctl 2 1 = 1 ∧ (ring 3 1 []).ahead = [] ∧
    (0 < ((ring 1 1 []).tail + 2 ^ 32 - (ring 1 1 []).head) % 2 ^ 32) ∧ ((ring 1 0 []).tail + 2 ^ 32 - (ring 1 0 []).head) % 2 ^ 32 = 0 ∧
    ¬((ring 1 (2 ^ 31) []).tail + 2 ^ 32 - (ring 1 (2 ^ 31) []).head) % 2 ^ 32 < 2 ^ 31 ∧
    errorOf (m0.headboxRead 1 0x140000000 8) = some (.xlate, 0x140000000) ∧
    (∀ p ∈ [packet 1 7 0 5 [], packet 0 7 0 5 [], packet 1 8 0 5 [], packet 1 7 1 5 [], packet 1 7 0 6 [], packet 1 1 1 5 []],
      ((ringed p (ring 1 1 [])).headboxRead 1 0x140000000 8).toOption = some (p.take 8)) ∧
    ((ringed (packet 1 7 0 5 []) (ring 1 1 [])).headboxRead 1 0x140000008 120).toOption = some ((packet 1 7 0 5 []).drop 8) ∧
    (fieldAt (packet 1 7 0 5 []) 0 1 % 2 = 1 ∧ fieldAt (packet 1 7 0 5 []) 1 1 = 7 ∧ fieldAt (packet 1 7 0 5 []) 4 4 = 5 ∧
      fieldAt (packet 1 7 0 5 []) 2 2 = 0) := by decide +kernel

def taken (started : Bool) (b : List Byte) : TakenPacket := ⟨5, b, started, false, none, false, true, 1, false⟩
def onlyPacket (started : Bool) (b : List Byte) : State := ringed [] (ring 1 1 [taken started b])
def behindIt (a b : List Byte) : State := ringed [] (ring 1 1 [taken false a, taken false b])
def signalBody (adr : Nat) : List Byte := bytesOfNat 8 adr ++ bytesOfNat 8 77
def waitBody (adr x mode : Nat) : List Byte := bytesOfNat 8 adr ++ bytesOfNat 8 x ++ bytesOfNat 1 mode
def loadBody (status : Nat) : List Byte := bytesOfNat 8 0x140002000 ++ bytesOfNat 8 64 ++ bytesOfNat 8 4 ++ bytesOfNat 8 status
/-- An executable without sections: profiles 1, teams of 1 to 8, entry 0x2000. -/
def object : List Byte :=
  padded 64 ([0x54, 0x43, 0x4F, 0x01, 1, 0, 1, 0, 1, 0, 0, 0, 1, 0, 8, 0] ++ bytesOfNat 8 0x2000 ++ bytesOfNat 4 64)
def aObject (refs : List Nat) : CodeObject := { makeObject 1 4 3 object [] [] with refs := refs }
def loading (status : Nat) (file : List Byte) (l : List CodeObject) : State :=
  { onlyPacket false (packet 1 2 0 5 (loadBody status)) with
    mem := (onlyPacket false []).mem.write 0x40002000 file, objects := l }

theorem witness_packet_words :
    (taken false (packet 1 7 0 5 [])).bytes.length = 128 ∧ (ring 1 1 [taken false (packet 1 7 0 5 [])]).donea = 0 ∧
    5 ≠ (ring 1 1 []).done ∧ ((onlyPacket false (packet 1 4 0 5 (signalBody 0x140001000))).headboxKeys 1 .store 0x140001000 8).toOption =
      some (ringKeys 0x1000 8) ∧
    errorOf (m0.headboxKeys 1 .store 0x140001000 8) = some (.xlate, 0x140001000) ∧
    (taken false (packet 1 7 0 5 [])).cid = 1 ∧ (onlyPacket false []).workAccepted = true ∧ ((onlyPacket false []).ctx 1).iface ≠ .error ∧
    (∀ t ∈ [2, 3, 7, 4], fieldAt (packet 1 t 0 5 []) 1 1 = t) ∧ packet 1 7 0 4 [] ≠ packet 1 6 0 5 [] ∧
    errorOf ((onlyPacket false []).headboxRead 1 0x180000000 8) = some (.xlate, 0x180000000) ∧
    ((onlyPacket false []).headboxRead 1 0x140001000 8).toOption = some (List.replicate 8 0) ∧
    (wordOfBytes (List.replicate 8 0) = 0 ∧ wordOfBytes (bytesOfNat 8 1) ≠ 0 ∧ 0 ≤ ((0 : Word) - 0).toInt ∧
      ¬0 ≤ ((0 : Word) - 1).toInt) ∧ fieldAt (packet 1 5 0 5 (waitBody 0x140001000 1 1)) 24 1 = 1 := by decide +kernel
theorem witness_packet_objects :
    (loading 0 object []).object? 1 4 = none ∧ (loading 0 object [aObject [3, 9]]).object? 1 4 = some (aObject [3, 9]) ∧
    (aObject [3, 9]).refs.filter (· != 3) ≠ [] ∧ (aObject [3]).refs.filter (· != 3) = [] ∧ (loading 0 object []).gangs = [] ∧
    fieldAt (packet 1 3 0 5 (bytesOfNat 4 4)) 8 4 = 4 ∧
    fieldAt (packet 1 2 0 5 (loadBody 0)) 32 8 = 0 ∧ fieldAt (packet 1 2 0 5 (loadBody 0x140003000)) 32 8 ≠ 0 ∧
    errorOf ((onlyPacket false []).headboxRead 1 0x180000000 64) = some (.xlate, 0x180000000) ∧
    ((loading 0 object []).headboxRead 1 0x140002000 64).toOption = some object ∧
    ((loading 0 (List.replicate 64 1) []).headboxRead 1 0x140002000 64).toOption = some (List.replicate 64 1) ∧
    parseObject object = some [] ∧ parseObject (List.replicate 64 1) = none ∧ fieldAt object 8 4 < 64 ∧
    64 ≤ fieldAt (object.set 8 64) 8 4 ∧ (aObject [3]).bytes = object ∧ (aObject [3]).bytes ≠ object.set 8 2 ∧
    ((loading 0 object []).placeObject 1 [] [(1, 1)]).isNone = true ∧
    (({ loading 0x140003000 (List.replicate 64 1) [] with freeCount := 2 } : State).headboxKeys 1 .store 0x140003000 32).toOption =
      some (ringKeys 0x3000 32) ∧ (ringKeys 0x3000 32).Nodup ∧ (ringKeys 0x3000 32).all (fun j => !inRegs j) = true := by
  decide +kernel

theorem witness_placed : (loading 0 object []).placeObject 1 [] [] = some (loading 0 object []) := rfl

/-- A LAUNCH of object 4 of a class with one team, with its table at 0x140002000: one team of a size. -/
def launchBody (cls n : Nat) : List Byte :=
  bytesOfNat 4 4 ++ bytesOfNat 1 cls ++ [0] ++ bytesOfNat 2 n ++ bytesOfNat 8 42 ++ bytesOfNat 8 0x140002000 ++ bytesOfNat 4 6 ++ [0, 0, 1]
def launching (cls n size : Nat) (l : List CodeObject) : State :=
  { onlyPacket false (packet 1 1 0 5 (launchBody cls n)) with
    mem := (onlyPacket false []).mem.write 0x40002000 (padded 16 ([0, 0] ++ bytesOfNat 2 size)), objects := l }

theorem witness_launch :
    (fieldAt (packet 1 1 0 5 (launchBody 0 1)) 1 1 = 1 ∧ fieldAt (packet 1 1 0 5 (launchBody 0 1)) 2 1 % 2 = 0 ∧
      fieldAt (packet 1 1 0 5 (launchBody 0 1)) 40 8 = 0 ∧ fieldAt (packet 1 1 0 5 (launchBody 0 1)) 14 2 = 1 ∧
      fieldAt (packet 1 1 0 5 (launchBody 0 1)) 38 1 ≤ 64 ∧ fieldAt (packet 1 1 0 5 (launchBody 0 1)) 39 1 = 0 ∧
      fieldAt (packet 1 1 0 5 (launchBody 0 1)) 48 80 = 0 ∧ fieldAt (packet 1 1 0 5 (launchBody 0 1)) 8 4 = 4) ∧
    ((launching 0 1 1 []).ctx 1).iface ≠ .error ∧ ((launching 0 1 1 []).ctx 1).ending = false ∧
    (launching 0 1 1 []).object? 1 4 = none ∧ (launching 0 1 1 [aObject [3]]).object? 1 4 = some (aObject [3]) ∧
    3 ∈ (aObject [3]).refs ∧ 3 ∉ (aObject [9]).refs ∧ 2 < fieldAt (packet 1 1 0 5 (launchBody 3 1)) 12 1 ∧
    ((launching 0 1 1 [aObject [3]]).headboxRead 1 0x140002000 16).toOption = some (padded 16 [0, 0, 1]) ∧
    fieldAt (padded 16 [0, 0, 1]) 2 2 = 1 ∧ ((aObject [3]).teamLo = 1 ∧ (aObject [3]).teamHi = 8) ∧ fieldAt (padded 16 [0, 0, 9]) 2 2 = 9 ∧
    fieldAt (padded 16 [0, 0, 1]) 6 1 = 0 ∧ fieldAt (padded 16 [0, 0, 1]) 7 9 = 0 ∧
    (fieldAt (packet 1 1 0 5 (launchBody 1 1)) 12 1 ≠ 0 ∧ (launching 1 1 1 [aObject [3]]).coresIn 1 0 < 1) ∧
    errorOf ((launching 0 1 1 []).headboxRead 1 0x180000000 16) = some (.xlate, 0x180000000) := by decide +kernel

/-- The launch's gang of one, reserved, and core 1 owned by the context and free. -/
def reserved : State :=
  { launching 0 1 1 [aObject [3]] with
    queues := [ring 1 1 [{ taken false (packet 1 1 0 5 (launchBody 0 1)) with gang := some 2 }]]
    others := [{ Core.reset 1 with held := false }]
    gangs := [{ makeGang 2 (ring 1 1 []) (taken false (packet 1 1 0 5 (launchBody 0 1))) [⟨0, 1, 0, 0⟩] with state := .reserving }]
    sec := { (launching 0 1 1 []).sec with owned := [(.core 1, .assigned [1])] } }

theorem witness_commit :
    (reserved.gang? 2).all (fun g => g.plan == [⟨0, 1, 0, 0⟩] && reserved.object? g.cid g.handle == some (aObject [3]) &&
      reserved.mayCommit [g] [[[1]]]) = true ∧ (reserved.gang? 2).isSome = true ∧ m0.mayCommit ([2].filterMap m0.gang?) [] = false := by
  decide +kernel

/-! ### Hypotheses of the statements on the security core, links and resets -/

/-- The security core of a module whose owner is host 1, changed as told. -/
def secured (f : Security → Security) : State := { m0 with sec := f { m0.sec with owner := some 1 } }

def mappings : List Mapping :=
  [.leaf 1 0x100000 0x3FCF, .protEntry 1 0 0 0x0010000000012E00, .lptTag 1 0 46 9, .queueBlock 1 3 true, .keySlot 1 2, .root 1 0x110000,
    .coreOwn 1 0]

theorem witness_mappings :
    (∀ m ∈ mappings, ((mappingThings m).all ((secured id).sec.mayOwn 1)) = true ∧ (secured id).mappingOk m = true ∧ mappingCid m < 4096) ∧
    (secured id).sec.boot = false ∧ (secured id).sec.scrub = [] ∧ (secured id).workAccepted = true ∧ (secured id).sec.owner ≠ none ∧
    ((secured id).ctx 1).ending = false ∧ ((secured id).ctx 1).iface ≠ .error ∧ m0.sec.owner = none ∧
    (secured fun x => { x with boot := true }).sec.boot = true ∧
    (secured fun x => { x with owned := [(.granule 1, .dirty)] }).sec.own (.granule 1) = .dirty ∧
    (secured fun x => { x with owned := [(.granule 1, .assigned [1])] }).sec.own (.granule 1) = .assigned [1] ∧
    (secured id).sec.own (.granule 1) = .free ∧ (secured id).sec.checked = [] ∧
    ((secured fun x => { x with checked := [(0x100000, 1, 0x8000000000003FCF)] }).sec.checked.find? fun l => l.1 == 0x100000) =
      some (0x100000, 1, 0x8000000000003FCF) := by decide +kernel
theorem witness_mapping_memory : (secured id).memWf := rfl

def guarded (f : Context → Context) : State := (secured id).modCtx 1 fun x => f { x with protect := true }
theorem witness_owners :
    (secured id).sec.owner ≠ some 2 ∧ (secured id).sec.owner = some 1 ∧ (secured id).clock ≤ (secured id).sec.heartbeat + 10000000000 ∧
    (secured id).sec.heartbeat + 10000000000 < ({ secured id with clock := 10000000001 } : State).clock ∧
    ((guarded id).ctx 1).protect = true ∧ ((guarded id).ctx 1).ending = false ∧ ((secured id).ctx 1).protect = false ∧
    ((guarded fun x => { x with ending := true }).ctx 1).ending = true ∧ ((guarded fun x => { x with ending := true }).ctx 1).drained = false ∧
    (guarded id).ops = [] ∧
    (secured fun x => { x with scrub := [.page 0 46, .granule 1] }).sec.scrub = [.page 0 46, .granule 1] ∧
    (secured fun x => { x with scrub := [.granule 1], scrubPart := 15 }).sec.scrubPart = 15 ∧ (secured id).sec.scrubActive = false := by
  decide +kernel

theorem witness_attestation :
    (secured fun x => { x with window := some (.deckle, 5, 1, 0) }).sec.window = some (.deckle, 5, 1, 0) ∧ (secured id).sec.window = none ∧
    (secured id).sec.seedErased = false ∧ (secured id).sec.sigIndex < 2 ^ 25 ∧
    2 ^ 25 ≤ (secured fun x => { x with sigIndex := 2 ^ 25 }).sec.sigIndex ∧
    ((secured fun x => { x with measured := [(.deckle, 5)] }).sec.measured.find? fun e => e.1 == .deckle) = some (.deckle, 5) ∧
    (secured fun x => { x with measured := [] }).sec.measured = [] ∧ (secured id).sec.fuses ≤ 64 ∧ ((guarded id).ctx 1).iface = .unlocked ∧
    ((guarded id).sec.contexts.map (·.cid)).Nodup ∧ ((guarded fun x => { x with iface := .locked }).ctx 1).iface = .locked ∧
    (secured id).sec.alarm = none ∧ (∀ l ∈ [1, 2, 3], (secured fun x => { x with alarm := some l }).sec.alarm = some l) := by
  decide +kernel

def aGroup : Group := ⟨4, [(1, .active), (2, .attesting)], 1, ⟨[], false, []⟩, [0], [(1, 2)], [1]⟩
def grouped : State :=
  { secured id with groups := [aGroup], slots := m0.slots.set 0 { openSlot with joined := some 4 }, records := [aRec 5 1 0 1, { aRec 5 1 0 2 with slot := 1 }] }
def sampled (above : Bool) (order latency hot : List (Fin 8)) : PowerSample := ⟨above, order, latency, hot⟩

theorem witness_links_and_groups :
    ((secured id).sec.link 3).fails = [] ∧
    ((secured fun x => { x with links := [⟨3, true, 0, 0, List.replicate 7 0⟩] }).sec.link 3).fails.length = 7 ∧
    (({ m0 with recovering := [(3, 0)], clock := 20000 } : State).recovering.find? fun e => e.1 == 3) = some (3, 0) ∧ m0.recovering = [] ∧
    (∀ x ∈ m0.groups, x.g ≠ 4) ∧ [1, 2].Nodup ∧ grouped.groups = [aGroup] ∧ (∃ e ∈ aGroup.members, e.1 = 2 ∧ e.2 ≠ .lost) ∧
    (grouped.slots.get 0).joined = some 4 ∧ (grouped.slots.get 1).joined ≠ some 4 ∧
    (sampled true [2] [] []).hot = [] ∧ (2 : Fin 8) ∉ (sampled true [2] [3] []).latency ∧ (m0.throttle.get 2).val < 15 ∧
    (({ m0 with throttle := Vector.replicate 8 15 } : State).throttle.get 2).val = 15 ∧ m0.belowSince = none ∧
    ({ m0 with belowSince := some 0, clock := 200000 } : State).belowSince = some 0 ∧ (sampled false [] [] [2]).hot = [2] := by
  decide +kernel

/-! ### Words of every encoded instruction, from the tables of R36 to R41 -/

theorem test_decode_words_0 :
    [(0x001D4483, Instr.add 9 20 14), (0x021D4483, .sub 9 20 14), (0x041D4483, .and 9 20 14), (0x061D4483, .or 9 20 14),
      (0x081D4483, .xor 9 20 14), (0x0A1D4483, .sll 9 20 14), (0x0C1D4483, .srl 9 20 14), (0x0E1D4483, .sra 9 20 14),
      (0x101D4483, .slt 9 20 14), (0x121D4483, .sltu 9 20 14), (0x141D4483, .min 9 20 14), (0x161D4483, .max 9 20 14),
      (0x181D4483, .minu 9 20 14), (0x1A1D4483, .maxu 9 20 14), (0x1C1D4483, .mul 9 20 14), (0x1E1D4483, .mulh 9 20 14),
      (0x201D4483, .mulhu 9 20 14), (0x221D4483, .div 9 20 14), (0x241D4483, .divu 9 20 14), (0x261D4483, .rem 9 20 14),
      (0x281D4483, .remu 9 20 14), (0x2A014483, .clz 9 20), (0x2C014483, .ctz 9 20), (0x2E014483, .popc 9 20),
      (0x301D4483, .rol 9 20 14), (0x321D4483, .ror 9 20 14), (0x3B514485, .addi 9 20 0x3b5), (0x3B534485, .andi 9 20 0x3b5)].all
      (fun e => decodeTableWord 32 e.1 == some e.2 && encode e.2 == e.1) = true := by decide +kernel
theorem test_decode_words_1 :
    [(0x3B554485, Instr.ori 9 20 0x3b5), (0x3B574485, .xori 9 20 0x3b5), (0x03594485, .slli 9 20 0x35),
      (0x07594485, .srli 9 20 0x35), (0x0B594485, .srai 9 20 0x35), (0x3B5B4485, .slti 9 20 0x3b5),
      (0x3B5D4485, .sltiu 9 20 0x3b5), (0x9A3B5487, .lih 9 0x9a3b5), (0x9A3B5489, .addpc 9 0x9a3b5),
      (0x001D428B, .cmpEq 5 20 14), (0x005D428B, .cmpNe 5 20 14), (0x009D428B, .cmpLt 5 20 14), (0x00DD428B, .cmpGe 5 20 14),
      (0x011D428B, .cmpLtu 5 20 14), (0x015D428B, .cmpGeu 5 20 14), (0x3B51428D, .cmpiEq 5 20 0x3b5),
      (0x3B53428D, .cmpiNe 5 20 0x3b5), (0x3B55428D, .cmpiLt 5 20 0x3b5), (0x3B57428D, .cmpiGe 5 20 0x3b5),
      (0x3B59428D, .cmpiLtu 5 20 0x3b5), (0x3B5B428D, .cmpiGeu 5 20 0x3b5), (0x000C408F, .pand 1 4 6),
      (0x020C408F, .por 1 4 6), (0x040C408F, .pxor 1 4 6), (0x0600408F, .pnot 1 4), (0x0800408F, .pmov 1 4),
      (0x0A00448F, .movp 9 4), (0x0C01408F, .setp 1 20)].all
      (fun e => decodeTableWord 32 e.1 == some e.2 && encode e.2 == e.1) = true := by decide +kernel
theorem test_decode_words_2 :
    [(0xA01D4491, Instr.sel ⟨true, 2⟩ 9 20 14), (0xA4D1DA93, .br ⟨true, 2⟩ 0x9a3b5), (0x9A3B5495, .jal 9 0x9a3b5),
      (0x3B514497, .jalr 9 20 0x3b5), (0x3B514499, .lb 9 20 0x3b5), (0x3B534499, .lbu 9 20 0x3b5),
      (0x3B554499, .lh 9 20 0x3b5), (0x3B574499, .lhu 9 20 0x3b5), (0x3B594499, .lw 9 20 0x3b5), (0x3B5B4499, .lwu 9 20 0x3b5),
      (0x3B5D4499, .ld 9 20 0x3b5), (0xBB51449B, .lwS .dev 9 20 0x3b5), (0xBB53449B, .ldS .dev 9 20 0x3b5),
      (0xBB55449B, .lwA .dev 9 20 0x3b5), (0xBB57449B, .ldA .dev 9 20 0x3b5), (0xA19D469D, .sb ⟨true, 2⟩ 14 20 205),
      (0xA39D469D, .sh ⟨true, 2⟩ 14 20 205), (0xA59D469D, .sw ⟨true, 2⟩ 14 20 205), (0xA79D469D, .sd ⟨true, 2⟩ 14 20 205),
      (0xA49D469F, .swS ⟨true, 2⟩ .dev 14 20 77), (0xA59D469F, .sdS ⟨true, 2⟩ .dev 14 20 77),
      (0xAC9D469F, .swL ⟨true, 2⟩ .dev 14 20 77), (0xAD9D469F, .sdL ⟨true, 2⟩ .dev 14 20 77),
      (0xA0DD44A1, .amoaddW 5 .acqDev 9 14 20), (0xA2DD44A1, .amoandW 5 .acqDev 9 14 20),
      (0xA4DD44A1, .amoorW 5 .acqDev 9 14 20), (0xA6DD44A1, .amoxorW 5 .acqDev 9 14 20),
      (0xA8DD44A1, .amominW 5 .acqDev 9 14 20)].all
      (fun e => decodeTableWord 32 e.1 == some e.2 && encode e.2 == e.1) = true := by decide +kernel
theorem test_decode_words_3 :
    [(0xAADD44A1, Instr.amomaxW 5 .acqDev 9 14 20), (0xACDD44A1, .amominuW 5 .acqDev 9 14 20),
      (0xAEDD44A1, .amomaxuW 5 .acqDev 9 14 20), (0xB0DD44A1, .amoswapW 5 .acqDev 9 14 20),
      (0xB2DD44A1, .casW 5 .acqDev 9 14 20), (0xA0DD44A3, .amoaddD 5 .acqDev 9 14 20),
      (0xA2DD44A3, .amoandD 5 .acqDev 9 14 20), (0xA4DD44A3, .amoorD 5 .acqDev 9 14 20),
      (0xA6DD44A3, .amoxorD 5 .acqDev 9 14 20), (0xA8DD44A3, .amominD 5 .acqDev 9 14 20),
      (0xAADD44A3, .amomaxD 5 .acqDev 9 14 20), (0xACDD44A3, .amominuD 5 .acqDev 9 14 20),
      (0xAEDD44A3, .amomaxuD 5 .acqDev 9 14 20), (0xB0DD44A3, .amoswapD 5 .acqDev 9 14 20),
      (0xB2DD44A3, .casD 5 .acqDev 9 14 20), (0x15600025, .fence .release .dev ⟨false, true, true, false, true⟩),
      (0x3B5004A7, .csrr 9 0x3b5), (0x3B5344A7, .csrw 9 0x3b5 20), (0x3B5544A7, .csrs 9 0x3b5 20),
      (0x3B5744A7, .csrc 9 0x3b5 20), (0x00514029, .loop 20 0x5), (0x3B5202A9, .loopi 0x3b5 0x5), (0x3B50002B, .trap 0x3b5),
      (0x3B52002B, .brk 0x3b5), (0x3B54002B, .mcall 0x3b5), (0x0006002B, .idle), (0x0008002B, .yield), (0x000A002B, .tret)].all
      (fun e => decodeTableWord 32 e.1 == some e.2 && encode e.2 == e.1) = true := by decide +kernel
theorem test_decode_words_4 :
    [(0x000C002B, Instr.mret), (0x0000002D, .gate), (0x3B53402D, .callg 20 0x3b5), (0x0004002D, .retg),
      (0x001D44AF, .lendR 9 20 14), (0x005D44AF, .lendRw 9 20 14), (0x0201402F, .recl 20), (0x040144AF, .loanq 9 20),
      (0x001D4031, .barInit 20 14), (0x00414031, .barArr 20), (0x00814031, .barWait 20), (0x00C14031, .barSync 20),
      (0x011D4031, .waita 20 14), (0x015D4031, .waitaGe 20 14), (0x019AB031, .cwait 11 13), (0x000144B3, .fork 9 20),
      (0x00414033, .join 20), (0x00800033, .cvyLead), (0x00C00033, .cvyJoin), (0x01000033, .cvyLeave),
      (0xD9410235, .redAdd 27 true .fp64 1 4), (0xDB410235, .redMin 27 true .fp64 1 4),
      (0xDD410235, .redMax 27 true .fp64 1 4), (0xA01D44C1, .vadd 5 9 20 14), (0xA05D44C1, .vsub 5 9 20 14),
      (0xA09D44C1, .vmul 5 9 20 14), (0xA0DD44C1, .vfma 5 9 20 14), (0xA11D44C1, .vfms 5 9 20 14)].all
      (fun e => decodeTableWord 32 e.1 == some e.2 && encode e.2 == e.1) = true := by decide +kernel
theorem test_decode_words_5 :
    [(0xA15D44C1, Instr.vfnma 5 9 20 14), (0xA19D44C1, .vmin 5 9 20 14), (0xA1DD44C1, .vmax 5 9 20 14),
      (0xA21D44C1, .vminu 5 9 20 14), (0xA25D44C1, .vmaxu 5 9 20 14), (0xA28144C1, .vabs 5 9 20), (0xA2C144C1, .vneg 5 9 20),
      (0xA31D44C1, .vand 5 9 20 14), (0xA35D44C1, .vor 5 9 20 14), (0xA39D44C1, .vxor 5 9 20 14), (0xA3C144C1, .vnot 5 9 20),
      (0xA41D44C1, .vsll 5 9 20 14), (0xA45D44C1, .vsrl 5 9 20 14), (0xA49D44C1, .vsra 5 9 20 14),
      (0xA4DD44C1, .vadds 5 9 20 14), (0xA51D44C1, .vsubs 5 9 20 14), (0xA55D44C1, .vdiv 5 9 20 14),
      (0xA58144C1, .vsqrt 5 9 20), (0xA01D40C3, .vcmpEq 5 1 20 14), (0xA05D40C3, .vcmpNe 5 1 20 14),
      (0xA09D40C3, .vcmpLt 5 1 20 14), (0xA0DD40C3, .vcmpGe 5 1 20 14), (0xA11D40C3, .vcmpLtu 5 1 20 14),
      (0xA15D40C3, .vcmpGeu 5 1 20 14), (0xA01D44C5, .vsel 5 9 20 14), (0xA04144C5, .vmov 5 9 20),
      (0xA08144C5, .vbcast 5 9 20), (0x00DD44C5, .vextr 9 20 14)].all
      (fun e => decodeTableWord 32 e.1 == some e.2 && encode e.2 == e.1) = true := by decide +kernel
theorem test_decode_words_6 :
    [(0x011D44C5, Instr.vins 9 20 14), (0xA15D44C5, .vslide 5 9 20 14), (0xA19D44C5, .vperm 5 9 20 14),
      (0xA1C004C5, .viota 5 9), (0xA20144C5, .vredsum 5 9 20), (0xA24144C5, .vredmin 5 9 20), (0xA28144C5, .vredmax 5 9 20),
      (0x031344C5, .vtag .fp32 9 20), (0x040C40C5, .kand 1 4 6), (0x044C40C5, .kor 1 4 6), (0x048C40C5, .kxor 1 4 6),
      (0x04C040C5, .knot 1 4), (0x050044C5, .kpop 9 4), (0x054044C5, .kfirst 9 4), (0xA6D344C5, .vcvt .rup .fp32 5 9 20),
      (0xA24144C7, .vld .fp32 5 9 20), (0xA65D44C7, .vlds .fp32 5 9 20 14), (0xAA5D44C7, .vldx .fp32 5 9 20 14),
      (0xAE4144C7, .vldb .fp32 5 9 20), (0xA00144C9, .vst 5 9 20), (0xA41D44C9, .vsts 5 9 20 14),
      (0xA81D44C9, .vstx 5 9 20 14), (0x009144CB, .setvl .fp32 9 20), (0x00614051, .tcfg 6 20), (0x00814051, .accfg 20),
      (0xD86144D3, .tld 27 6 20 9), (0xD8E144D3, .tst 27 6 20 9), (0xD96144D3, .tlds 27 6 20 9)].all
      (fun e => decodeTableWord 32 e.1 == some e.2 && encode e.2 == e.1) = true := by decide +kernel
theorem test_decode_words_7 :
    [(0xD9E00053, Instr.tzero 27 6), (0xD86F4055, .mma 27 6 7 20), (0xD8EF4055, .mmas 27 6 7 20), (0xD96144D5, .mtv 27 6 20 9),
      (0xD80144D7, .acld 27 20 9), (0xD88144D7, .acst 27 20 9), (0xD9614057, .accvt 27 6 20), (0xD9814057, .aczero 27 20),
      (0xD81D44D9, .cpy 27 9 20 14), (0xD85D44D9, .tcpy 27 9 20 14), (0xD89D44D9, .cpyf 27 9 20 14),
      (0xD81D44DB, .bteGo 27 9 20 14), (0x004144DB, .bteQ 9 20), (0x001D435D, .tspawn 6 20 14), (0x004C74DD, .tnext 6 9 7),
      (0x0080005D, .tend), (0x00C0005D, .tpoll), (0x011C64DD, .wmkRd 9 14 6), (0x015C64DD, .wmkRdS 9 14 6),
      (0x019D435D, .wmkUpd 6 20 14), (0x01DD44DD, .wmkSet 9 20 14), (0xD80144DF, .calRun 27 9 20), (0x004004DF, .calQry 9),
      (0x001D4061, .protSet 20 14), (0x021D4061, .lptSet 20 14), (0x04014061, .ctxSave 20), (0x06014061, .ctxLoad 20)].all
      (fun e => decodeTableWord 32 e.1 == some e.2 && encode e.2 == e.1) = true := by decide +kernel
theorem test_decode_halfwords_0 :
    [(0xB920, Instr.hMov 9 14), (0xB922, .hAdd 9 14), (0xB924, .hSub 9 14), (0xB926, .hAnd 9 14), (0xB928, .hOr 9 14),
      (0xB92A, .hXor 9 14), (0xD52C, .hAddi 9 0x15), (0xD52E, .hLi 9 0x15), (0xD530, .hSlli 9 0x15), (0xD532, .hSrli 9 0x15),
      (0xD534, .hSrai 9 0x15), (0xB936, .hLd 9 14), (0xB938, .hSd 9 14), (0xB81A, .hJmp 14), (0xB93C, .hMul 9 14),
      (0xB93E, .hNeg 9 14), (0x3920, .hVadd 9 14), (0x3922, .hVsub 9 14), (0x3924, .hVmul 9 14), (0x3926, .hVmin 9 14),
      (0x3928, .hVmax 9 14), (0x392A, .hVminu 9 14), (0x392C, .hVmaxu 9 14), (0x392E, .hVand 9 14), (0x3930, .hVor 9 14),
      (0x3932, .hVxor 9 14), (0x3934, .hVsll 9 14), (0x3936, .hVsrl 9 14)].all
      (fun e => decodeTableWord 16 e.1 == some e.2 && encode e.2 == e.1) = true := by decide +kernel
theorem test_decode_halfwords_1 :
    [(0x3938, Instr.hVsra 9 14), (0x393A, .hVadds 9 14), (0x393C, .hVsubs 9 14), (0x393E, .hVmov 9 14)].all
      (fun e => decodeTableWord 16 e.1 == some e.2 && encode e.2 == e.1) = true := by decide +kernel

/-! ### Ill-formed terms: each check of WellFormed refuses one, and its word does not decode -/

theorem test_ill_formed :
    [Instr.br ⟨true, 0⟩ 4, .sel ⟨true, 0⟩ 1 2 3, .sd ⟨true, 0⟩ 1 2 0, .sdS ⟨true, 0⟩ .dev 1 2 0, .sdL ⟨true, 0⟩ .dev 1 2 0,
      .fence .full .sys ⟨false, false, false, false, false⟩, .loop 1 0, .loop 1 1, .loopi 4 0, .loopi 4 1, .vld .none 0 1 2,
      .vlds .none 0 1 2 3, .vldx .none 0 1 2 3, .vldb .none 0 1 2, .setvl .none 1 2].all
      (fun i => !i.wellFormed && (decodeTableWord 32 (encode i)).isNone) = true ∧
    (Instr.hVadd 0 0).wellFormed = false ∧ decodeTableWord 16 (encode (.hVadd 0 0)) = none := by decide +kernel

/-- Reserved words (R42): the zero halfword, a reserved major, a reserved F7 and a fixed field that is not zero. -/
theorem test_reserved_words :
    [(0x0000 : Nat), 0xFFFFFFFF, 0x80000003, 0x00400003].all (fun w => (decodeTableWord 32 w).isNone) = true := by decide +kernel

/-! ### Examples the spec works out -/

/-- What holds after an instruction that answers a next state. -/
def after (i : Instr) (s : State) (p : State → Bool) : Bool := match exec i s with | .next t => p t | _ => false

/-- R42's six bytes: h.addi x9, -3 and, across a 4-byte boundary, add x5, x6, x7. -/
theorem test_spec_bytes :
    (decodeBytes [0x2C, 0xF5, 0x83, 0x62, 0x0E, 0x00]).toOption = some (.hAddi 9 0x1D, 2) ∧
    (decodeBytes [0x83, 0x62, 0x0E, 0x00]).toOption = some (.add 5 6 7, 4) := by decide +kernel

/-- The two worked addresses of the peer window. -/
theorem test_spec_peer_addresses : regionOf 0x100140100 = .peer 5 0x100 ∧ regionOf 0x100170000 = .hole := by decide +kernel

/-- The worked T5 bytes, and the worked scale: FP8E4 0x3C, 1.5, under 0x828 is 18 = 288 / 16. -/
theorem test_spec_trits : t5Decode 0xA7 = ([1, 0, -1, -1, 1], false) ∧ (t5Decode 0xF3).2 = true ∧
    ((fpFmt .fp8e4).map fun g => scaled 0x828 (g.decode 0x3C)) = some (.fin false 288 (-4)) := by decide +kernel

/-- A core with lane 0 of v1 given and its format, VL 1 and a rounding mode. -/
def laneIn (f : Fmt) (bits : Nat) (vl : Nat) (rm : Word) : State :=
  withCsr (withCore m0 fun c => { c with v := c.v.set 1 ⟨BitVec.ofNat 256 bits, f⟩ }) fun c =>
    { c with vl := BitVec.ofNat 64 vl, fcsr := rm }
/-- VCVT of v1 into v2 gives the lane and the flags. -/
def converts (f : Fmt) (bits : Nat) (h : Fmt) (r : VRnd) (out : Nat) (flags : Word) : Bool :=
  after (.vcvt r h 0 2 1) (laneIn f bits 1 0) fun t => getLane (t.rv 2).bits (lanewidth h) 0 == out && t.core.csr.fcsr == flags

/-- R84's worked conversions; NX is bit 7, OF bit 5 and NV bit 3. -/
theorem test_spec_conversions_fp8 :
    [(VRnd.rne, 0x38), (.rna, 0x39), (.rup, 0x39), (.rtz, 0x38), (.rdn, 0x38)].all (fun e =>
      converts .fp32 0x3F880000 .fp8e4 e.1 e.2 0x80) = true ∧
    [VRnd.rne, .rtz, .rdn, .rup, .rna].all (fun r => converts .fp32 0x43FA0000 .fp8e4 r 0x7E 0xA0) = true := by decide +kernel
theorem test_spec_conversions_int :
    [(VRnd.rne, 0xFFFFFFFE), (.rna, 0xFFFFFFFD), (.rtz, 0xFFFFFFFE), (.rdn, 0xFFFFFFFD), (.rup, 0xFFFFFFFE)].all (fun e =>
      converts .fp32 0xC0200000 .i32 e.1 e.2 0x80) = true ∧
    [(VRnd.rne, 127, 0x80), (.rtz, 127, 0x80), (.rup, 127, 8)].all (fun e => converts .fp32 0x42FECCCD .i8 e.1 e.2.1 e.2.2) = true ∧
    [(VRnd.rtz, 0x80, 0x80), (.rup, 0x80, 0x80), (.rne, 0x80, 8), (.rdn, 0x80, 8)].all (fun e =>
      converts .fp32 0xC300B333 .i8 e.1 e.2.1 e.2.2) = true := by decide +kernel

/-- R87's worked sum: 2^24, 1, 1 and 1 give 0x4B800001 and NX. -/
theorem test_spec_vredsum :
    after (.vredsum 0 2 1) (laneIn .fp32 0x3F8000003F8000003F8000004B800000 4 0) (fun t =>
      (t.rv 2).bits == 0x4B800001 && t.core.csr.fcsr == 0x80) = true := by decide +kernel

/-- The worked VEXTR: lane 0 of an FP32 register with 2.5. -/
theorem test_spec_vextr : after (.vextr 7 1 0) (laneIn .fp32 0x40200000 1 0) (fun t => t.rx 7 == 0x40200000) = true := by decide +kernel

/-- R66's worked CSRW at the end of a level-0 body with LPC0 = 3: back to LPS0, and the level is inactive. -/
theorem test_spec_loop_csr :
    after (.csrw 0 3 0) (withCsr m0 fun c => { c with lpc0 := 3, lps0 := 0x1000, lpe0 := 0x2F000 }) (fun t =>
      t.core.pc == 0x1000 && t.core.csr.lpc0 == 0) = true := by decide +kernel

/-- The counted loop of the scalar chapter: LOOPI at 0x1004, and the last pass of its body. -/
theorem test_spec_counted_loop :
    after (.loopi 4 6) (withCore m0 fun c => { c with pc := 0x1004 }) (fun t =>
      t.core.csr.lpc0 == 4 && t.core.csr.lps0 == 0x1008 && t.core.csr.lpe0 == 0x1010) = true ∧
    [(4, 0x1008), (1, 0x1014)].all (fun e => after (.addi 2 2 8)
      (withCsr (withCore m0 fun c => { c with pc := 0x1010 }) fun c => { c with lpc0 := e.1, lps0 := 0x1008, lpe0 := 0x1010 })
      fun t => t.core.pc == e.2 && t.core.csr.lpc0 == e.1 - 1) = true := by decide +kernel

/-! ### Single steps with results worked out by hand from the rules -/

/-- R48: division by zero, the one overflow, and truncation toward zero. -/
theorem test_division :
    after (.div 8 1 0) m0 (fun t => t.rx 8 == 0 && t.core.csr.fcsr == 16) = true ∧
    after (.rem 8 1 0) m0 (fun t => t.rx 8 == 0x1000) = true ∧
    after (.div 8 1 3) (withCore m0 fun c => c.wx 1 0x8000000000000000) (fun t => t.rx 8 == 0x8000000000000000) = true ∧
    after (.div 8 1 2) (withCore m0 fun c => c.wx 1 (BitVec.ofInt 64 (-9))) (fun t => t.rx 8 == BitVec.allOnes 64) = true := by
  decide +kernel

/-- A store and loads of it: bytes lowest first (R3), sign extension, and x0. -/
theorem test_store_and_load :
    after (.sw ⟨false, 0⟩ 3 1 1) m0 (fun t => t.mem.read (localKey 0 0x1000) 10 == [0, 0, 0, 0, 255, 255, 255, 255, 0, 0]) = true ∧
    after (.lh 8 1 0) (poke m0 0x1000 [0x34, 0x92]) (fun t => t.rx 8 == 0xFFFFFFFFFFFF9234) = true ∧
    after (.lhu 8 1 0) (poke m0 0x1000 [0x34, 0x92]) (fun t => t.rx 8 == 0x9234) = true ∧
    after (.ld 0 1 0) (poke m0 0x1000 [0x34]) (fun t => t.rx 0 == 0 && t.core.pc == 0x2F004) = true := by decide +kernel

/-- A fault in program mode (R304): MRET enters the trap with ILLEGAL and its word, in domain 255 with PDOM and INTRAP. -/
theorem test_trap_entry :
    after .mret pt (fun t => t.core.pc == 0x2000 && t.core.csr.tcause == 1 && t.core.csr.tval == 0x000C002B &&
      t.core.csr.tpc == 0x1000 && bitOf t.core.csr.tflags 0 && t.core.csr.instret == 0) = true ∧
    after (.trap 7) pt (fun t => t.core.pc == 0x2000 && t.core.csr.tcause == 0x11 && t.core.csr.tval == 7 &&
      t.core.csr.tpc == 0x1004 && t.core.csr.instret == 1) = true := by decide +kernel

/-- AMOADD returns the old value and stores the sum; CAS stores only on a match. -/
theorem test_atomics :
    after (.amoaddD 0 .acqDev 8 2 1) (poke m0 0x1000 [5]) (fun t => t.rx 8 == 5 && t.mem.get (localKey 0 0x1000) == 13) = true ∧
    after (.casD 0 .acqDev 5 2 1) (withCore (poke m0 0x1000 [5]) fun c => c.wx 5 5) (fun t =>
      t.rx 5 == 5 && t.mem.get (localKey 0 0x1000) == 8) = true ∧
    after (.casD 0 .acqDev 5 2 1) (withCore (poke m0 0x1000 [5]) fun c => c.wx 5 6) (fun t =>
      t.rx 5 == 5 && t.mem.get (localKey 0 0x1000) == 5) = true := by decide +kernel

/-- An I8 job of 2 by 4: each sum is -1 times 2, four times over, and the third row is untouched. -/
theorem test_mma :
    after (.matrixJobComplete 0 false)
      (withCore (jobs .started theMma) fun c => { c with
        tiles := (((c.tiles.write 0 [255, 255, 255, 255]).write 32 [255, 255, 255, 255]).write 1024 [2, 2, 2, 2]).write 1056 [2, 2, 2, 2] })
      (fun t => t.accGet 0 0 0 == 0xFFFFFFF8 && t.accGet 0 1 1 == 0xFFFFFFF8 && t.accGet 0 2 0 == 0 && t.ops == []) = true := by
  decide +kernel

/-! ### Hypotheses of the statements on the whole machine -/

theorem witness_encoding : (Instr.add 1 2 3).isEvent = false ∧ (Instr.add 1 2 3).wellFormed = true ∧
    decodeTableWord 32 (encode (.add 1 2 3)) = some (.add 1 2 3) := by decide +kernel

/-- A core that is about to run a word at 0x1000, in monitor mode. -/
def aboutTo (w : Nat) : State := poke (withCore m0 fun c => { c with pc := 0x1000 }) 0x1000 (bytesOfNat 4 w)

theorem witness_steps :
    (withCore m0 fun c => { c with stopped := true }).core.stopped = true ∧ m0.agenda = [] ∧ m0.core.stopped = false ∧
    (Instr.yieldEnd 0).isEvent = true ∧ (waiting .parked false 0).tick.issues = false ∧ (aboutTo 0).tick.issues = true ∧
    errorOf (withCore m0 fun c => { c with pc := 0x30000 }).tick.fetch = some (.loc, 0x30000) ∧
    ((aboutTo 0xFFFFFFFF).tick.fetch.toOption.map (·.2)) = some 0xFFFFFFFF ∧ decodeTableWord 32 0xFFFFFFFF = none ∧
    ((aboutTo (encode (.add 1 2 3))).tick.fetch.toOption.map (·.2)) = some (encode (.add 1 2 3)) ∧
    (aboutTo (encode (.add 1 2 3))).core.precheck (.add 1 2 3) (encode (.add 1 2 3)) = none ∧
    ((withCore p0 fun c => { c with declared := 0 }).core.precheck (.vadd 0 1 2 3) (encode (.vadd 0 1 2 3))).isSome = true ∧
    (aboutTo (encode (.add 1 2 3))).core.namesPending (.add 1 2 3) = false ∧
    (withCore m0 fun c => { c with pendX := 4 }).core.namesPending (.add 1 2 3) = true ∧
    (aboutTo (encode (.add 1 2 3))).core.mode = .monitor ∧ (aboutTo (encode (.add 1 2 3))).core.tid = none ∧
    (aboutTo (encode (.add 1 2 3))).core.pc.toNat + 4 ≤ 0x30000 ∧
    (decodeBytes ((aboutTo (encode (.add 1 2 3))).mem.read (localKey 0 0x1000) 4)).toOption = some (.add 1 2 3, 4) := by decide +kernel

/-- What holds after one step. -/
def stepped (s : State) (p : State → Bool) : Bool := match step s with | .next t => p t | _ => false

theorem witness_stores_canonical :
    State.reset.storesWf ∧ stepped (aboutTo (encode (.add 8 1 2))) (fun t => t.rx 8 == 0x1008) = true :=
  ⟨⟨rfl, rfl, rfl⟩, by decide +kernel⟩

/-- The two entry points by which an instruction is placed and run first. -/
theorem test_first_step :
    stepped (State.reset.withFetchWord 32 0x3B514485) (fun t => t.rx 9 == 0x3B5 && t.core.pc == 0x2F004) = true ∧
    stepped (State.reset.withFetchWord 16 0xF52C) (fun t => t.rx 9 == BitVec.ofInt 64 (-3) && t.core.pc == 0x2F002) = true ∧
    stepped State.reset (fun t => t.core == State.reset.core) = true := by decide +kernel

/-! ### Further clauses -/

theorem witness_csr_shapes :
    (∀ n ∈ [0x124, 0x125, 0x032, 0x033, 0x303, 0x022], ((csrTable m0).map (·.1)).contains n = true) ∧
    (∀ n ∈ [0x124, 0x032, 0x033, 0x303, 0x022], ((csrWrites m0.core.csr 5).map (·.1)).contains n = true) := by decide +kernel
theorem witness_shape_ok : ShapeOk 0x010402 ∧ ShapeOk 0 ∧ ¬ShapeOk 1 := by
  refine ⟨?_, ?_, ?_⟩ <;> unfold ShapeOk <;> decide

/-- A barrier record of two without an arrival: the next one waits; with one, the next releases. -/
theorem witness_barrier_sync :
    (barred 0).memWf ∧ (barred 0).hist = [] ∧ (barred 1).hist = [] ∧ (barred 0).core.wait = none ∧
    (barred 0).access .atomic ((barred 0).rx 1) 16 = .ok barKeys ∧ (barred 0).core.csr.taskValid = false ∧
    (let r := BarRec.ofBytes (barKeys.map (barred 0).readKey)
     ¬(r.expect ≤ (r.arrived + 1) % 2 ^ 16 ∧ r.beats = 0)) ∧ bitOf (barred 0).core.csr.bargen 32 = false := by
  refine ⟨by unfold State.memWf; decide +kernel, ?_⟩; decide +kernel
theorem no_history (s : State) (h : s.hist = []) : s.histOk := fun e m => absurd m (by rw [h]; exact List.not_mem_nil)

/-- Back at its record, with no wait; in the generation given. -/
def back (gen : Nat) : State := withCore (atBarrier gen 0) fun c => { c with wait := none }
theorem witness_barrier_returns :
    (back 7).hist = [] ∧ (back 7).core.wait = none ∧ (back 7).access .load 0x1000 16 = .ok barKeys ∧
    (back 7).access .atomic 0x1000 16 = .ok barKeys ∧ (back 7).core.csr.baradr = (back 7).rx 1 ∧ bitOf (back 7).core.csr.bargen 32 = true ∧
    bitsOf (back 6).core.csr.bargen 31 0 = 6 ∧
    (∀ c ∈ [0, 2000], genInTime ((atBarrier 6 c).focus 0) barKeys 0 1 ≠ bitsOf ((atBarrier 6 c).focus 0).core.csr.bargen 31 0 ∧
      genInTime ((atBarrier 7 c).focus 0) barKeys 0 1 = bitsOf ((atBarrier 7 c).focus 0).core.csr.bargen 31 0) ∧
    ¬0 + 2000 * 1 ≤ (atBarrier 7 1999).clock ∧ m0.access .load 0x30000 16 = .fault .loc 0x30000 := by decide +kernel

/-- Rank 0 comes to CVY.JOIN: the other member is elsewhere, or waits there already. -/
def apart : State := teamed none m0
def gathering : State := withCore (teamed (some .cvyJoin) m0) fun c => { c with wait := some .cvyJoin }
theorem witness_convoy_members :
    apart.coreThread apart.core = some th5 ∧ apart.convoyMembers 3 0 = [th5, th6] ∧ th6.home ≠ apart.core.num ∧
    (apart.getCore th6.home).wait ≠ some .cvyJoin ∧ gathering.convoyArrived 3 0 = true ∧
    gathering.convoyLeader 3 0 (gathering.convoyMembers 3 0) = some th6 ∧ gathering.convoyMembers 3 0 = [th5, th6] ∧
    ([th5, th6].map (·.home)).Nodup ∧ ([th5, th6].map (·.tid)).Nodup ∧
    (∀ c ∈ [0, 1], (gathering.getCore c).csr.lpc0 = 0 ∧ (gathering.getCore c).csr.lpc1 = 0) := by decide +kernel

/-- Reductions of the team that are open, closed and past their timeout. -/
def reduced (r : Reduction) (clock : Nat) : State :=
  { teamed none (tagged .i32 .i32 m0) with teams := [{ aTeam with reds := [r] }], clock := clock }
theorem witness_reduction_states :
    (({ aTeam with reds := [aReduction [aPacket 1 0] none] } : Team).reduction false 0).all
      (fun r => r.closed.isNone && !r.expired 1999) = true ∧
    (aReduction [] (some (anOutcome .timeout))).closed ≠ none ∧ (aReduction [aPacket 1 0] none).closed = none ∧
    (∃ p ∈ (aReduction [aPacket 1 0] none).packets, p.since + 2000 * p.tmo ≤ 2000) ∧
    (∀ c ∈ [1999, 2000], (reduced (aReduction [aPacket 1 0] none) c).coreThread (reduced (aReduction [aPacket 1 0] none) c).core = some th5 ∧
      (reduced (aReduction [aPacket 1 0] none) c).team? 3 = some { aTeam with reds := [aReduction [aPacket 1 0] none] }) := by
  decide +kernel

/-- Both members of team 3 contribute to the open reduction. -/
def contributed (size : Nat) : State :=
  { teamed none m0 with
    teams := [{ aTeam with size := size, reds := [aReduction [aPacket 0 0, { aPacket 1 0 with opId := 1 }] none] }], clock := 2000
    ops := [{ redOp 0 with id := 0 }, { redOp 0 with id := 1, owner := .thread 6 }] }
theorem witness_reduction_delivery :
    (contributed 2).op? 0 = some { redOp 0 with id := 0 } ∧ (contributed 2).op? 1 = some { redOp 0 with id := 1, owner := .thread 6 } ∧
    (contributed 2).thread? 5 = some th5 ∧ (contributed 2).thread? 6 = some th6 ∧ th5.home = 0 ∧ th6.home = 1 ∧
    ((aReduction [aPacket 0 0, { aPacket 1 0 with opId := 1 }] none).close 2).status = .ok ∧
    ((aReduction [aPacket 0 0, { aPacket 1 0 with opId := 1 }] none).close 3).status = .timeout ∧ (redOp 0).tok ≠ 0 ∧
    (redOp 0).body = .red 3 false 0 4 ∧
    ([aPacket 0 0, { aPacket 1 0 with opId := 1 }].map fun p : Packet => p.rank).Nodup ∧
    ([aPacket 0 0, { aPacket 1 0 with opId := 1 }].map (·.opId)).Nodup := by decide +kernel
theorem witness_combine : (1 ≤ 3 ∧ 3 ≤ 1024 ∧ 3 ≤ 2 ^ 2) ∧ (∀ j < 2, 2 ^ j < 3) ∧ ([0, 2].Nodup) ∧ (∀ r ∈ [0, 2], r < 3) := by decide

/-- Patterns of FP16: signalling and quiet NaN, infinities, zeros and numbers. -/
theorem witness_special_results :
    (fpFmt .fp16).all (fun g =>
      let top := 2 ^ 15
      g.infBits false == 0x7C00 && decide (0x7C00 < 0x7C01 % top) && (0x7C01 / 2 ^ (g.p - 1) % 2 == 0) &&
        (0x7E00 / 2 ^ (g.p - 1) % 2 == 1) && (0xFC00 % top == 0x7C00) && (0x8000 % top == 0) && decide (0x3C00 % top < g.infBits false) &&
        decide (0xBC00 % top = 0x3C00 % top) && (top == 2 ^ (g.p + g.ebits))) = true := by decide +kernel
/-- 1 + 2^-11 in FP16 lies between the patterns 0x3C00 and 0x3C01; 65520 rounds past the largest. -/
theorem witness_rounding_results :
    (fpFmt .fp16).all (fun g =>
      decide (magnitude g 0x3C00 ≤ magnitude g 0x3C00 + magnitude g 0x1000) && decide (magnitude g 0x3C00 + magnitude g 0x1000 < magnitude g 0x3C01) &&
        decide (magnitude g (g.infBits false) ≤ magnitude g 0x7BFF + magnitude g 0x7BFF) && decide (magnitude g 0x3C00 ≠ 0)) = true := by
  decide +kernel

/-- Three active lanes, one and none of an FP32 register of eight lanes. -/
theorem witness_float_reductions :
    isFpa ((vecs .fp32).rv 1).tag = true ∧ (fpFmt .fp32).isSome = true ∧ lanes .fp32 = 2 ^ 3 ∧ lanes .fp64 = 2 ^ 2 ∧ lanes .bf16 = 2 ^ 4 ∧
    ((List.range (min (withCsr (vecs .fp32) fun c => { c with vl := 1 }).core.csr.vl.toNat (lanes .fp32))).filter fun l =>
      ((vecs .fp32).rk 1).getLsbD l) = [0] := by decide +kernel

/-- The second lane's data is uncorrectable; then the second lane runs out of the own store. -/
def spoiled : State := { vecs .fp32 with poison := [hostKey (localKey 0 0x1008) / 8] }
def leaving : State := withCore (vecs .fp32) fun c => c.wx 1 0x2FFF8
theorem witness_vector_faults :
    (∀ l ∈ [0, 1, 2, 3], spoiled.checkAs (spoiled.rightsOf spoiled.core) .load (spoiled.rx 1 + BitVec.ofNat 64 (l * 4)) 4 4 = .ok (laneKeys l)) ∧
    (∀ l ∈ [0, 1], spoiled.access .load (spoiled.rx 1 + BitVec.ofNat 64 (l * 4)) 4 = .ok (laneKeys l)) ∧
    spoiled.access .load (spoiled.rx 1 + 8) 4 = .fault .poison 0x1008 ∧
    (∀ l ∈ [0, 1], (leaving.checkAs (leaving.rightsOf leaving.core) .load (leaving.rx 1 + BitVec.ofNat 64 (l * 4)) 4 4) =
      .ok ((List.range 4).map (localKey 0 (0x2FFF8 + 4 * l) + ·))) ∧
    leaving.checkAs (leaving.rightsOf leaving.core) .load (leaving.rx 1 + 8) 4 4 = .fault .loc 0x30000 := by decide +kernel
theorem witness_current (s : State) (a : Word) (ks : List Nat) (h : s.hist = []) : s.Current a ks :=
  fun e m => absurd m (by rw [h]; exact List.not_mem_nil)

/-- Jobs that have read their memory: whole, refused, and on uncorrectable data. -/
def aTld : Job := .tld 0 0x010402 0x1000 64
def rowKeys : List (List Nat) := [(List.range 4).map (localKey 0 0x1000 + ·), (List.range 4).map (localKey 0 0x1040 + ·)]
theorem witness_fetched_jobs :
    (∀ ph ∈ [Phase.fetched none [[1, 2, 3, 4], [5, 6, 7, 8]], .fetched (some (true, .loc, 0x3003C)) [], .fetched (some (false, .poison, 0x1040)) []],
      (jobs ph aTld).running 0 true = some (jobOf 0 0 aTld ph) ∧ (jobOf 0 0 aTld ph).tok ≠ 0) ∧
    ([[1, 2, 3, 4], [5, 6, 7, 8]] : List (List Byte)).length = tRows 0x010402 ∧ rowBytes 0x010402 = 4 ∧
    ({ shaped with poison := [hostKey (localKey 0 0x1040) / 8] } : State).firstPoison (rowRanges 0x1000 64 2 4) rowKeys = some 0x1040 := by
  decide +kernel

/-- A copy that a later write precedes nothing of: the write is the history's only one, and no FENCE names it. -/
def unfenced : State :=
  { copies (.cpy 0x2000 0x1000 8 none) .issued 0 with
    stamp := 1, hist := [⟨1, 0, Source.module, none, srcKeys.map fun k => (hostKey k, 0)⟩] }
theorem witness_engine_order :
    (unfenced.unseenIn (copying (.cpy 0x2000 0x1000 8 none) .issued 0) View.empty (srcKeys.map hostKey) (hostKey (localKey 0 0x1000) / 8)).length = 1 ∧
    (m0.unseenIn (copying (.cpy 0x2000 0x1000 8 none) .issued 0) View.empty (srcKeys.map hostKey) 0).length = 0 ∧
    srcKeys.any inRegs = false ∧ (dstKeys.map hostKey).Nodup := by decide +kernel

theorem witness_transfer_control :
    (∀ own ∈ [0, 1], ((chained 1 0x1000 own).bteRead chainRights 0x1008 8).toOption = some (((aRecord own).drop 8).take 8)) ∧
    natOfBytes (((aRecord 0).drop 8).take 8) % 2 = 0 ∧ natOfBytes (((aRecord 1).drop 8).take 8) % 2 = 1 ∧
    ((chained 1 0x1000 1).resolveAll chainRights .load 0x1000 64).toOption = some ((List.range 64).map (localKey 0 0x1000 + ·)) := by
  decide +kernel
/-- In the own store a range resolves alike whatever memory holds. -/
theorem resolve_own (s : State) (m : Memory) (r : Rights) (need : Need) (a off : Nat) (h : regionOf a = .own off)
    (hm : r.monitor = true) : ({ s with mem := m } : State).resolve r need a = s.resolve r need a := by
  simp only [State.resolve, h, hm]; rfl
theorem resolveAll_own (s : State) (m : Memory) (r : Rights) (need : Need) (hm : r.monitor = true) : ∀ (n : Nat) (a : Word),
    ((List.range n).all fun i => match regionOf (a + BitVec.ofNat 64 i).toNat with | .own _ => true | _ => false) = true →
      ({ s with mem := m } : State).resolveAll r need a n = s.resolveAll r need a n
  | 0, _, _ => rfl
  | n + 1, a, h => by
    rw [List.range_succ_eq_map, List.all_cons, Bool.and_eq_true, List.all_map] at h
    have h0 : ∃ off, regionOf a.toNat = .own off := by
      have := h.1; simp only [BitVec.add_zero] at this; split at this <;> simp_all
    have h1 : ((List.range n).all fun i => match regionOf (a + 1 + BitVec.ofNat 64 i).toNat with | .own _ => true | _ => false) =
        true := by
      refine Eq.trans (congrArg (List.all _) (funext fun i => ?_)) h.2
      have : a + 1 + BitVec.ofNat 64 i = a + BitVec.ofNat 64 (i + 1) := by
        rw [BitVec.ofNat_add, BitVec.add_assoc, BitVec.add_comm 1]; rfl
      rw [this]; rfl
    obtain ⟨off, h0⟩ := h0
    simp only [State.resolveAll, resolve_own s m r need _ off h0 hm, resolveAll_own s m r need hm n (a + 1) h1]
theorem witness_transfer_owner (m : Memory) :
    (({ chained 2 0x1000 1 with mem := m } : State).resolveAll chainRights .store 0x1008 8).toOption =
      some ((List.range 8).map (localKey 0 0x1008 + ·)) := by
  rw [resolveAll_own _ _ _ _ (by decide +kernel) _ _ (by decide +kernel)]
  decide +kernel

/-! ### Further clauses: monitor, slices, memory side -/

theorem witness_save_areas :
    ({ m0 with poison := [hostKey (localKey 0 0x1000) / 8] } : State).savePoisoned (localKey 0 0x1000) = true ∧
    m0.savePoisoned (localKey 0 0x1000) = false ∧ m0.core.num = 0 ∧ (p0.focus 0).core.request = none ∧
    (1 < (secured fun x => { x with fuses := 2 }).sec.fuses ∧ (secured fun x => { x with fuses := 2 }).sec.fuses ≤ 2) := by
  decide +kernel

theorem witness_misses :
    (({ walking with heldMisses := walking.misses } : State).misses.any fun n => n.station == 4 && n.cid == 1 && n.page == 0x14000) = true ∧
    ({ m0 with heldMisses := walking.misses } : State).misses = [] ∧
    ({ m0 with misses := [⟨4, 1, 0x14000, .inl .xlate⟩] } : State).misses[0]? = some ⟨4, 1, 0x14000, .inl .xlate⟩ := by decide +kernel
/-- Bytes of HBM and of host memory that a party outside may name. -/
theorem witness_inbound :
    inHbm 0x1000 = true ∧ inHbm 0x1007 = true ∧ inHost (2 ^ 50) = true ∧ inHost (2 ^ 50 + 7) = true ∧
    ((List.range 8).all fun j => !inRegs (0x1000 + j) && !inRegs (2 ^ 50 + j)) = true ∧
    natOfBytes ((List.range 8).map fun j => m0.mem.get (hostKey (0x1000 + j))) = 0 := by decide +kernel

/-! ### Further clauses: queues, launches, security -/

theorem witness_launch_holds :
    ((onlyPacket false []).modCtx 1 fun x => { x with ending := true }).sec.contexts.any (fun x => x.cid == 1 && x.ending) = true ∧
    (((onlyPacket false []).modCtx 1 fun x => { x with iface := .error }).ctx 1).iface = .error ∧
    (((onlyPacket false []).modCtx 1 fun x => { x with iface := .error }).ctx 1).ending = false ∧
    ({ secured fun x => { x with alarmed := true, alarm := some 2, links := [⟨3, false, 0, 0, []⟩] } with queues := [] } : State).workAccepted = false := by
  decide +kernel

/-- A WEAK thread whose core was not free at the commit: core 1 may host it now, core 2 may not. -/
def unborn : State :=
  { reserved with
    threads := [{ th5 with home := 1, unstarted := true, evicted := none }]
    gangs := [{ makeGang 2 (ring 1 1 []) (taken false (packet 1 1 0 5 (launchBody 0 1))) [⟨0, 1, 0, 0⟩] with state := .running }]
    teams := [{ aTeam with size := 1 }] }
theorem witness_unstarted :
    unborn.thread? 5 = some { th5 with home := 1, unstarted := true, evicted := none } ∧
    (unborn.gangOf { th5 with home := 1, unstarted := true, evicted := none }).isSome = true ∧
    unborn.team? 3 = some { aTeam with size := 1 } ∧ unborn.object? 1 4 = some (aObject [3]) ∧
    unborn.mayHost (aObject [3]) 3 0 0 1 = true ∧ unborn.mayHost (aObject [3]) 3 0 0 2 = false ∧ th5.cid = 1 ∧ th5.gang = 2 ∧ th5.ended = false ∧
    th5.ending = false := by decide +kernel

/-- A thread of a failed gang still to end, in field 0. -/
def failing : State := { idling with gangs := [{ aGang with state := .failed }] }
theorem witness_permits :
    failing.threads = [th5] ∧ th5.home / 1024 = 0 ∧ th5.ending = false ∧ ({ aGang with state := .failed } : Gang).id = th5.gang ∧
    failing.exchanging = false ∧ lookupD failing.permits 0 0 - 1 < 8 ∧ m0.threads = [] := by decide +kernel

theorem witness_proposals :
    (secured id).sec.owner ≠ some 2 ∧ ((guarded fun x => { x with iface := .error }).ctx 1).iface = .error ∧
    ((secured fun x => { x with scrub := [.granule 1] }).sec.scrub.contains (.granule 1)) = true ∧
    (mappingThings (.leaf 1 0x100000 0x3FCF)).contains (.granule 16) = true ∧
    ((secured id).monitorBytes (65536 * 16) 65536 = false) ∧
    ({ secured id with slots := (secured id).slots.set 0 { openSlot with area := some 0x100000 } } : State).monitorBytes (65536 * 16) 65536 = true ∧
    (secured fun x => { x with area := some (0x100000, 4096) }).monitorBytes (65536 * 16) 65536 = true ∧
    ((secured fun x => { x with checked := [(0x100000, 1, 0x8000000000003FCF)] }).ctx 1).iface ≠ .error := by decide +kernel

theorem witness_images :
    ((List.replicate 4097 0 : List Byte).length = 4097) ∧ ([] : List Byte).length ≤ 4096 ∧ ((secured id).sec.fuses ≤ 1 ∧ 1 ≤ 64) ∧
    ((exchange .headbox).sec.window.isSome = true ∧ (exchange .deckle).exchanging = false) := by decide +kernel
theorem tick_window (s : State) (p : FwPart) (d v o : Nat) (h : s.sec.window = some (p, d, v, o))
    (hlt : s.clock + Config.elapsed s.freeCount < o + windowCycles) : s.tick.sec.window = s.sec.window := by
  have hd : ∀ u : State, u.sec.window = some (p, d, v, o) → u.clock < o + windowCycles → u.dueCommit = u := by
    intro u hu hc
    unfold State.dueCommit
    rw [hu]
    exact if_neg (by omega)
  have ht := congrArg (fun u : State => u.sec.window)
    (hd { s with freeCount := s.freeCount + 1, clock := s.clock + Config.elapsed s.freeCount } h hlt)
  exact ht
theorem window_time (n : Nat) : 0 + n < n + windowCycles := by unfold windowCycles; omega
/-- A window that opened at the cycle a step comes to is still open in it. -/
theorem witness_window :
    ({ m0 with sec := { m0.sec with window := some (.headbox, 5, 1, Config.elapsed 0) } } : State).tick.sec.window =
      some (.headbox, 5, 1, Config.elapsed 0) :=
  tick_window _ .headbox 5 1 _ rfl (window_time _)

def aRoute (l : List Nat) : ModuleRoute := ⟨2, 1, l⟩
theorem witness_routes :
    (2 < 256 ∧ 1 < 8 ∧ [3, 4, 5].length ≤ 3 ∧ ∀ x ∈ [3, 4, 5], x < 256 ∧ x ≠ 2) ∧ ([aRoute [3, 4, 5]].map (·.dest)).Nodup ∧
    ¬[3, 4, 5, 6].length ≤ 3 ∧ ¬([aRoute [], aRoute [3]].map (·.dest)).Nodup := by decide
/-- All five parts, acceptable to a policy, and one that is not. -/
def fiveParts : List (FwPart × Nat) := [(.security, 1), (.deckle, 2), (.headbox, 3), (.slice, 4), (.management, 5)]
theorem witness_group_policy :
    (∀ p : FwPart, (fiveParts.map (·.1)).contains p = true) ∧ (∀ e ∈ fiveParts, e ∈ fiveParts) ∧ (FwPart.security, 9) ∉ fiveParts ∧
    (∃ e ∈ aGroup.members, e.1 = 2 ∧ e.2 = .attesting) := by
  refine ⟨fun p => by cases p <;> decide, fun _ h => h, by decide, by decide⟩

/-! ### Further clauses: CSRs, trap rings, barriers, forks and rounding -/

theorem witness_csr_numbers :
    (∀ n ∈ [0x009, 0x00F, 0x028, 0x034, 0x0FF, 0x206, 0x308, 0x3FF, 0xFFF], n ∉ (csrTable m0).map (·.1)) ∧
    (∀ n ∈ [0x140, 0x14F], (n, m0.core.csr) ∈ csrWrites m0.core.csr 7 ∧ (n, 0) ∈ csrTable m0) := by decide +kernel

/-- TRING at 0x3000: a ring of two entries at 0x3100, with PROD 1 and CONS given. -/
def ringAt (cons : Nat) : State :=
  withCsr (poke (withCore pt fun c => { c with lpt := c.lpt.set 3 255 }) 0x3000
    (bytesOfNat 8 0x3100 ++ bytesOfNat 8 1 ++ bytesOfNat 8 1 ++ bytesOfNat 4 cons)) fun c => { c with tring := 0x3000 }
def headerKeys : List Nat := (List.range 64).map (localKey 0 0x3000 + ·)
theorem witness_trap_ring :
    (∀ cons ∈ [0, 2 ^ 32 - 1], let e := (ringAt cons).detach
      (ringAt cons).core.mode = .program ∧ bitOf e.core.csr.tflags 0 = false ∧ e.tvecOk e.core = true ∧
      (e.resolveAll (e.rightsOf e.core).runtime .atomic 0x3000 64).toOption = some headerKeys ∧
      (headerKeys.all fun k => !e.poisoned k 1 && !inRegs k) = true) ∧
    (1 + 2 ^ 32 - fieldAt (headerKeys.map (ringAt (2 ^ 32 - 1)).readKey) 24 4) % 2 ^ 32 = 2 ^ 1 ∧
    (1 + 2 ^ 32 - fieldAt (headerKeys.map (ringAt 0).readKey) 24 4) % 2 ^ 32 ≠ 2 ^ 1 ∧
    ((ringAt 0).detach.resolveAll ((ringAt 0).detach.rightsOf (ringAt 0).detach.core).runtime .store 0x3140 64).toOption =
      some ((List.range 64).map (localKey 0 0x3140 + ·)) := by decide +kernel
theorem witness_ring_header : RingHeader (headerKeys.map (ringAt 0).readKey) := by unfold RingHeader; decide +kernel
/-- R304, R308: the record of a trap goes to entry PROD of the ring, and PROD past it; a full ring takes LOST, and TFLAGS NOREC. -/
theorem test_trap_ring :
    ((ringAt 0).trapEntry .illegal 0x1000 7).mem.get (localKey 0 0x3140) = 1 ∧
    ((ringAt 0).trapEntry .illegal 0x1000 7).mem.get (localKey 0 0x3010) = 2 ∧
    ((ringAt (2 ^ 32 - 1)).trapEntry .illegal 0x1000 7).mem.get (localKey 0 0x301C) = 1 ∧
    bitOf ((ringAt (2 ^ 32 - 1)).trapEntry .illegal 0x1000 7).core.csr.tflags 1 = true := by decide +kernel

/-- MRET with DKRESUME in the global space, where a leaf maps it. -/
theorem witness_global_return :
    (0x110000000 : Nat) ≤ ((0x140000001 : Word) &&& ~~~1).toNat ∧
    ((mapped 0x40000000).leafFor 0 1 0x140000000).toOption.isSome = true ∧ m0.core.mode = .monitor := by decide +kernel

/-- A barrier record in a hole, and on a page of the own store that no entry opens. -/
theorem witness_barrier_faults :
    (∀ need ∈ [Need.atomic, .load], m0.access need (m0.rx 6) 16 = .fault .loc 0x30000) ∧
    (m0.rx 6).toNat % 16 = 0 ∧ (0x30000 ≤ (m0.rx 6).toNat ∧ (m0.rx 6).toNat < 0x100000000) ∧
    (p0.rx 1).toNat % 16 = 0 ∧ (p0.rx 1).toNat < 0x30000 ∧
    (let bare := withCore p0 fun c => { c with pe := Vector.replicate 8 0 }
     bare.core.mode = .program ∧ ((bare.getCore (bare.homeOf bare.core.owner)).pe.toList.any fun w => peKind w == 1) = false) := by
  decide +kernel

/-- A recruit whose BODY lies in a hole: it faults there; and what FORK asks of its record and its recruits. -/
def strayed : State := withCore m0 fun c => { c with wait := some .parked, recruit := some ⟨0, 3, 9, 0x100001018, 0x30000, View.empty⟩ }
theorem witness_fork_faults :
    errorOf ((forks 0x30000).fetchTag ((forks 0x30000).rightsOf (forks 0x30000).core) 0x30000) = some (.loc, none) ∧
    m0.accessAs (m0.rightsOf m0.core) .load (m0.rx 6) 32 8 = .fault .loc 0x30000 ∧
    (strayed.focus 0).core.wait = some .parked ∧ (strayed.focus 0).core.recruit = some ⟨0, 3, 9, 0x100001018, 0x30000, View.empty⟩ ∧
    after (.joinRecruited 0) strayed (fun u => u.issues && errorOf (u.fetchHalf 0x30000) == some (.loc, 0x30000)) = true ∧
    ((forks 0x2000).getCore 1).inArea = none := by decide +kernel
theorem witness_fork_current : ∀ i < 4, (forks 0x2000).Current (0x1000 + BitVec.ofNat 64 (8 * i)) ((forkKeys.drop (8 * i)).take 8) := fun i _ e m =>
  absurd m (by rw [show (forks 0x2000).hist = [] from rfl]; exact List.not_mem_nil)

/-- In FP16: 1 and -1, whose product and addend cancel; the factors a fused form may have. -/
theorem witness_fused_results :
    (fpFmt .fp16).all (fun g =>
      decide (magnitude g 0x3C00 * magnitude g 0x3C00 = magnitude g (0xBC00 % 2 ^ 15) * 2 ^ (g.bias + g.p + 2)) &&
      decide (0x8000 % 2 ^ 15 = 0) && decide (2 ^ 15 ≤ 0xBC00) && g.infBits false == 0x7C00) = true := by decide +kernel
/-- Patterns of each class under a conversion: NaN, signalling NaN, infinity, zero, a number; a format that saturates. -/
theorem witness_conversions :
    (fpFmt .fp8e4).all (fun g => g.noInf && 0x7F % 2 ^ 7 == g.maxBits + 1 && g.sat) = true ∧
    (fpFmt .fp16).all (fun g => !g.noInf && 0x7C00 == g.maxBits + 1 && decide (g.maxBits + 1 < 0x7C01) &&
      0x7C01 / 2 ^ (g.p - 1) % 2 == 0 && 0x7E00 / 2 ^ (g.p - 1) % 2 == 1 && decide (0x3C00 ≤ g.maxBits) &&
      decide (magnitude g 0x3C00 * 1 ≠ 0)) = true ∧ fpFmt .i8 = none := by decide +kernel

/-! ### Further clauses: matrix jobs, copies and chains -/

/-- A shape of 2 rows by 4 in BF16, and a descriptor of 2 rows of 4 accumulators, 0x40 bytes apart in memory. -/
def bfShape : Word := BitVec.ofNat 64 (0x0402 + fmtNum .bf16 * 2 ^ 16)
def cellsAt : Word := 0x0000004002040000
/-- A job that ends in each way a reading one can. -/
def ways (j : Job) (data : List (List Byte)) : List State :=
  [jobs .started j, jobs (.fetched none data) j, jobs (.fetched (some (true, .loc, 0x30000)) []) j, jobs (.fetched (some (false, .poison, 0x1040)) []) j]
theorem witness_more_jobs :
    ((ways (.tlds 2 0x010402 0x1000 64) [[1, 2], [3, 4]]).all fun s => ((s.running 0 true).map (·.tok)) == some 9) = true ∧
    ((ways (.acld 0x1000 cellsAt) [List.replicate 16 1, List.replicate 16 2]).all fun s => ((s.running 0 true).map (·.tok)) == some 9) = true ∧
    ((ways (.mtv 0 0x010402 0x1000 cellsAt) (List.replicate 4 [1, 2])).all fun s => ((s.running 0 false).map (·.tok)) == some 9) = true ∧
    [[1, 2], [3, 4]].map List.length = (rowRanges 0x1000 64 (tRows 0x010402) 2).map (·.2) ∧
    [List.replicate 16 1, List.replicate 16 2].map List.length = (rowRanges 0x1000 (dStride cellsAt) (dNR cellsAt) (4 * dNC cellsAt)).map (·.2) ∧
    (List.replicate 4 [1, 2]).map List.length = (rowRanges 0x1000 (dStride cellsAt) (dNC cellsAt) (mtvRow 0x010402 cellsAt)).map (·.2) ∧
    dCol cellsAt + dNC cellsAt ≤ 128 ∧
    (∀ j ∈ [Job.mma true 0 0x010402 1 0x010402 cellsAt, .mma false 0 bfShape 1 bfShape cellsAt, .accvt 0 bfShape cellsAt [3, 9] 0],
      ((jobs .started j).running 0 false).isSome = true) ∧ ((jobs .started (.acst 0x1000 cellsAt)).running 0 true).isSome = true ∧
    mmaAcc bfShape = .fp32 ∧ tTag bfShape = some .bf16 ∧ tRows bfShape = 2 ∧ rowBytes bfShape ≤ 32 ∧
    (∀ need ∈ [Need.load, .store],
      (shaped.checkRanges oneOp.rights need (rowRanges 0x1000 (dStride cellsAt) 2 16)).toOption =
        some [(List.range 16).map (localKey 0 0x1000 + ·), (List.range 16).map (localKey 0 0x1040 + ·)] ∧
      errorOf (shaped.checkRanges oneOp.rights need (rowRanges 0x2FFF0 (dStride cellsAt) 2 16)) = some (.loc, 0x30030)) ∧
    ({ shaped with poison := [hostKey (localKey 0 0x1040) / 8] } : State).firstPoison (rowRanges 0x1000 64 2 16)
      [(List.range 16).map (localKey 0 0x1000 + ·), (List.range 16).map (localKey 0 0x1040 + ·)] = some 0x1040 := by decide +kernel
theorem witness_scales : Memory.wf (shaped.getCore 0).scales = true ∧ shaped.histOk := ⟨rfl, no_history _ rfl⟩

/-- TCPY descriptors at 0x1800: two elements of 8 bytes from 0x1000 to 0x2000, none, and one whose fields are not valid. -/
def tensor (n : Nat) : List Byte :=
  [1, 3] ++ List.replicate 6 0 ++ bytesOfNat 8 (8 * n) ++ bytesOfNat 4 n ++ bytesOfNat 8 8 ++ bytesOfNat 8 8
def tensored (l : List Byte) (bar : Option Word) (beats : Nat) (ph : Phase) : State :=
  poke (poke (copies (.tcpy 0x2000 0x1000 0x1800 bar) ph 0) 0x1800 l) 0x1400 (bytesOfNat 8 (7 + 2 * 2 ^ 32) ++ bytesOfNat 8 beats)
theorem witness_tensor :
    (geometry (tensor 2)).map (·.total) = some 16 ∧ (geometry (tensor 0)).map (·.total) = some 0 ∧ geometry ((tensor 2).set 2 1) = none ∧
    ((geometry (tensor 2)).map fun g => g.elems 0x2000 0x1000) = some [(0x1000, 0x2000), (0x1008, 0x2008)] ∧
    ((geometry (tensor 2)).all fun g => [1].length == g.dims.length && Nat.blt 0 g.size && (([1].zip g.dims).all fun p => Nat.blt p.1 p.2.ext) &&
      g.total == (g.dims.map (·.ext)).prod * g.size) = true ∧
    (let s := tensored (tensor 2) (some 0x1400) 0 .issued
     (s.resolveRead oneOp.rights 0x1800 16).toOption = some ((List.range 16).map (localKey 0 0x1800 + ·)) ∧
     (s.resolveRead oneOp.rights 0x1810 20).toOption = some ((List.range 20).map (localKey 0 0x1810 + ·)) ∧
     errorOf (s.resolveRead oneOp.rights 0x2FFF8 16) = some (.loc, 0x30000) ∧ s.barRoom oneOp.rights 0x1400 0 = true ∧
     (s.checkCopy oneOp.rights [(0x1000, 8), (0x1008, 8)] [(0x2000, 8), (0x2008, 8)]).toOption =
       some ([srcKeys, srcKeys.map (· + 8)], [dstKeys, dstKeys.map (· + 8)]) ∧
     errorOf (s.checkCopy oneOp.rights [(0x1000, 8)] [(0x30000, 8)]) = some (.loc, 0x30000) ∧
     (srcKeys ++ srcKeys.map (· + 8)).all (fun k => !(dstKeys ++ dstKeys.map (· + 8)).contains k) = true) ∧
    (tensored (tensor 2) (some 0x1400) (2 ^ 32 - 1) .started).barRoom oneOp.rights 0x1400 1 = false ∧
    (∀ ph ∈ [Phase.issued, .started], ((tensored (tensor 2) (some 0x1400) 0 ph).op? 7).map (·.phase) = some ph) := by decide +kernel
/-- A copy whose beats are still to land, at the record at 0x1400; and one whose source is uncorrectable. -/
def beating : State :=
  let s := tensored [] none 2 .issued
  { s with ops := [{ oneOp with tok := 9, body := .cpy 0x2000 0x1000 8 (some 0x1400), phase := .moved .ok 8 0, beats := 1 }] }
theorem witness_beats :
    (beating.op? 7).map (fun o => (o.beats, o.bar, o.isCopy)) = some (1, some 0x1400, true) ∧
    (beating.resolveAll oneOp.rights .atomic 0x1400 16).toOption = some ((List.range 16).map (localKey 0 0x1400 + ·)) ∧
    ((List.range 16).map (localKey 0 0x1400 + ·)).all (fun k => !inRegs k) = true ∧ beating.asyncWaiting = [] ∧
    ({ m0 with poison := [hostKey (localKey 0 0x1000) / 8] } : State).firstPoison [(0x1000, 8)] [srcKeys] = some 0x1000 := by decide +kernel

/-- A record with the word w of CTRL, OWN among its bits, ID 6 and no next. -/
def moving (w src dst len bar : Nat) : List Byte :=
  bytesOfNat 8 0 ++ bytesOfNat 4 w ++ bytesOfNat 4 6 ++ bytesOfNat 8 src ++ bytesOfNat 8 dst ++ bytesOfNat 8 len ++ bytesOfNat 8 bar ++
    List.replicate 16 0
/-- Its chain in a phase, with a barrier at 0x1600 that has n beats to come, and the ring at 0x1800: two entries at 0x1900, PROD 1. -/
def chaining (phase : Nat) (l : List Byte) (n cons log : Nat) : State :=
  let s := poke (poke (chained phase 0x1000 1) 0x1000 l) 0x1600 (bytesOfNat 8 (7 + 2 * 2 ^ 32) ++ bytesOfNat 8 n)
  { poke s 0x1800 (bytesOfNat 8 0x1900 ++ bytesOfNat 8 log ++ bytesOfNat 8 1 ++ bytesOfNat 8 cons) with
    channels := [⟨5, some 0, 0x1000, 0, phase, l, some (6, .ok, 8, 0, 0x1000), 0, .ok⟩] }
def aMove : List Byte := moving 1 0x1400 0x1500 8 0x1600
def ks (a n : Nat) : List Nat := (List.range n).map (localKey 0 a + ·)

/-- The CTRL and the record that cannot be read, the context that ends, the misaligned record, and those that can be read. -/
theorem witness_record_reads :
    (let s := chaining 1 aMove 0 0 1
     errorOf (s.bteRead chainRights 0x30008 8) = some (.loc, 0x30008) ∧ (0x1004 : Word).toNat % 8 ≠ 0 ∧
     (s.bteRead chainRights 0x1008 8).toOption = some (bytesOfNat 8 (1 + 6 * 2 ^ 32)) ∧ natOfBytes (bytesOfNat 8 (1 + 6 * 2 ^ 32)) % 2 = 1 ∧
     (s.bteRead chainRights 0x2FFE8 8).toOption.isSome = true ∧ errorOf (s.resolveRead chainRights 0x2FFE0 64) = some (.loc, 0x30000) ∧
     (s.resolveRead chainRights 0x1000 64).toOption = some (ks 0x1000 64) ∧ (s.ctx chainRights.cid).ending = false) ∧
    (({ chaining 1 aMove 0 0 1 with sec := { m0.sec with contexts := [{ (m0.ctx 0) with cid := chainRights.cid, ending := true }] } } : State).ctx
      chainRights.cid).ending = true := by decide +kernel
/-- A fault in each field; a destination, a record and a barrier out of reach; a barrier with room for the beat, and with none. -/
theorem witness_record_checks :
    ((List.range 5).all fun i => fieldAt (([moving 33 0 0 8 0, moving 17 0 0 8 0, moving 1 0 0 (2 ^ 32 + 1) 0, moving 1 0 0 8 8,
      (aMove.set 48 1)].getD i [])) 8 4 % 2 == 1) = true ∧ fieldAt (aMove.set 48 1) 48 16 ≠ 0 ∧ fieldAt aMove 48 16 = 0 ∧ fieldAt aMove 8 4 / 32 = 0 ∧
    (let s := chaining 1 aMove 0 0 1
     errorOf (s.checkCopy chainRights [(0x1400, 8)] [(0x30000, 8)]) = some (.loc, 0x30000) ∧
     errorOf (s.checkCopy chainRights [] [(0x30000, 8)]) = some (.loc, 0x30000) ∧ (s.checkCopy chainRights [] [(0x1500, 8)]).toOption = some ([], [ks 0x1500 8]) ∧
     errorOf (s.resolveAll chainRights .store 0x2FFE0 64) = some (.loc, 0x30000) ∧ (s.resolveAll chainRights .store 0x1000 64).toOption.isSome = true ∧
     errorOf (s.resolveAll chainRights .atomic 0x30000 16) = some (.loc, 0x30000) ∧
     (s.resolveAll chainRights .atomic 0x1600 16).toOption = some (ks 0x1600 16) ∧ s.firstPoison [(0x1600, 16)] [ks 0x1600 16] = none ∧
     (ks 0x1600 16).all (fun k => !inRegs k) = true ∧ beatsOf 0x1500 8 = 1 ∧ s.barRoom chainRights 0x1600 1 = true) ∧
    (∀ ph ∈ [1, 4], (chaining ph aMove (2 ^ 32 - 1) 0 1).barRoom chainRights 0x1600 1 = false ∧
      ((chaining ph aMove 0 0 1).channel 5).op.bind (chaining ph aMove 0 0 1).op? = some { request 0 0 with body := .bte 5 0x1800 0x1000 true 0 }) ∧
    ((chaining 4 aMove 0 0 1).op? 0).map (fun o => (o.chan, o.isCopy, o.ring)) = some (5, false, 0x1800) := by decide +kernel
/-- The ring: an entry with room, a full one, a header out of range, and an entry that cannot be written. -/
theorem witness_entry_ring :
    (∀ e ∈ [(0, 1), (2 ^ 32 - 1, 1), (0, 0)], let s := chaining 3 aMove 0 e.1 e.2
      (s.bteRead chainRights 0x1818 4).toOption = some (bytesOfNat 4 e.1) ∧
      (s.bteRead chainRights 0x1800 32).toOption = some (bytesOfNat 8 0x1900 ++ bytesOfNat 8 e.2 ++ bytesOfNat 8 1 ++ bytesOfNat 8 e.1)) ∧
    (1 + 2 ^ 32 - 0) % 2 ^ 32 ≠ 2 ^ 1 ∧ (1 + 2 ^ 32 - (2 ^ 32 - 1)) % 2 ^ 32 = 2 ^ 1 ∧
    errorOf ((chaining 3 aMove 0 0 1).bteRead chainRights 0x30018 4) = some (.loc, 0x30018) ∧
    errorOf ((chaining 3 aMove 0 0 1).bteRead chainRights 0x2FFE4 32) = some (.loc, 0x30000) ∧
    ((chaining 3 aMove 0 0 1).resolveAll chainRights .store 0x1920 32).toOption = some (ks 0x1920 32) ∧
    errorOf ((chaining 3 aMove 0 0 1).resolveAll chainRights .store 0x30000 32) = some (.loc, 0x30000) ∧
    ((chaining 3 aMove 0 0 1).resolveAll chainRights .load 0x1818 4).toOption = some (ks 0x1818 4) ∧
    ((chaining 3 aMove 0 0 1).resolveAll chainRights .store 0x1810 4).toOption = some (ks 0x1810 4) ∧
    (ks 0x1920 32 ++ ks 0x1810 4).all (fun k => !inRegs k) = true := by decide +kernel
theorem witness_chain_state : (chaining 2 aMove 0 0 1).memWf ∧ Resident (chaining 2 aMove 0 0 1) (.thread 5) 0 := by
  refine ⟨rfl, rfl, .inr ⟨th5, rfl, ?_, rfl, rfl, rfl⟩⟩; decide +kernel
/-- R253: a chain that ends its one record with RING leaves an entry and PROD past it, and the channel idle. -/
theorem test_chain_ring :
    after (.bteRecordLanded 5) (chaining 2 (moving 3 0x1400 0x1500 8 0) 0 0 1) (fun t =>
      t.mem.read (localKey 0 0x1920) 12 == [6, 0, 0, 0, 0, 3, 0, 0, 8, 0, 0, 0] && t.mem.get (localKey 0 0x1810) == 2 &&
        t.mem.get (localKey 0 0x1008) == 2 && (t.channel 5).recAdr == 0) = true := by decide +kernel
/-- R149, R151, R256: the record's beat lands at its barrier and ARRIVE arrives there. -/
theorem test_chain_arrives :
    after (.bteRecordLanded 5) (chaining 2 (moving 17 0x1400 0x1500 8 0x1600) 1 0 1) (fun t =>
      t.mem.read (localKey 0 0x1600) 9 == [7, 0, 0, 0, 2, 0, 1, 0, 0]) = true := by decide +kernel

/-! ### Further clauses: search and the calender -/

/-- A slot joined to group 4, of which a member is lost; core 0 runs task 5 of it. -/
def lostSlot : WSlot := { openSlot with joined := some 4, lost := true, running := 1 }
def losing (r : Option HomeReq) (v : Option HomeReply) : State := asks r v (slotted lostSlot (tasking 99))
theorem witness_lost_slot :
    ((losing none none).slots.get 0).granted = some (losing none none).core.cid ∧ ((losing none none).slots.get 0).lost = true ∧
    (losing none none).core.csr.taskValid = true ∧ (losing none none).core.csr.taskSlot = 0 ∧ (losing none none).core.request = none ∧
    (losing (some (.spawn 0 false 98 7)) (some (.refused .peerlost 0))).core.reply = some (.refused .peerlost (BitVec.ofNat 64 (0 : Slot).val)) ∧
    (losing (some (.spawn 0 false 98 7)) (some (.refused .rights 0))).core.reply = some (.refused .rights 0) ∧
    ((losing (some (.spawn 0 false 98 7)) none).getCore 0).request = some (.spawn 0 false 98 7) ∧
    ((losing (some (.update 0 9 7)) none).getCore 0).request = some (.update 0 9 7) ∧ ((losing (some (.update 0 9 7)) none).getCore 0).reply = none ∧
    ((withCore (losing none none) fun c => { c with wait := some (.tnext 1 2 0) }).focus 0).core.wait = some (.tnext 1 2 0) ∧
    ((losing none none).slots.get (losing none none).core.csr.taskSlot).orphans.contains 5 = false := by decide +kernel
/-- R368: TNEXT at a slot that a loss has closed faults with PEERLOST and the group, and the task leaves. -/
theorem test_lost_slot :
    after (.tnext 1 2 0) { losing none none with core := { (losing none none).core with mode := .program, csr := { (losing none none).core.csr with tvec := 0 } } }
      (fun t => (t.slots.get 0).running == 0 && !t.core.csr.taskValid) = true := by decide +kernel
/-- Every segment that the slot's context has is full, and it has no spill area. -/
theorem witness_no_room :
    let s := queued (List.replicate 4096 (aRec 5 1 0 1)) (slotted openSlot m0)
    4096 ≤ (s.records.filter fun r => r.field == s.core.num / 1024).length ∧ (s.contextFields 0).all (fun f => f == 0) = true ∧
    (s.slots.get 0).area = none := by
  refine ⟨?_, ?_, rfl⟩ <;> decide +kernel
/-- A joined slot at its home: one more record and task are counted than this module holds. -/
def memberSlot : WSlot := { openSlot with joined := some 4, queued := 1, running := 1 }
theorem witness_member_acts :
    memberSlot.joined ≠ none ∧ memberSlot.lost = false ∧ memberSlot.phase = 2 ∧ (98 : Word).toInt < memberSlot.w ∧
    ((slotted memberSlot m0).records.filter fun r => r.slot == (0 : Slot)).length + memberSlot.spill.length < memberSlot.queued ∧
    ((slotted memberSlot m0).tasksOf 0).length < memberSlot.running ∧ openSlot.joined = none ∧
    ({ memberSlot with spawned := false, queued := 0, running := 0 } : WSlot).queued = 0 ∧
    ¬((memberSlot.phase = 0 ∨ (memberSlot.phase = 2 ∧ memberSlot.spawned = false)) ∧ memberSlot.queued = 0 ∧ memberSlot.running = 0) := by
  decide +kernel

/-- Rank 0 calls CAL.RUN while its team's last run is not over. -/
theorem witness_calender_busy :
    (calendar (running 6 [member 1 true false] none) block).team? 3 = some (running 6 [member 1 true false] none) ∧
    2 ≤ (running 6 [member 1 true false] none).cal.state ∧ (running 6 [member 1 true false] none).calMember 0 = none ∧
    (errorOf ((calendar (running 1 both none) (block.set 72 0)).calValidate (m0.rightsOf m0.core) 0x1000)) = some (.illegal, none) := by
  decide +kernel
/-- A run whose block is cfg, with RNORM2 and ABORT in the block as memory has it. -/
def testing (st : Nat) (rnorm : Nat) (abort : Nat) (cfg : List Byte) : State :=
  poke (calendar { running st both none with cal := { (running st both none).cal with cfg := cfg.take 119 } } cfg) 0x1077
    (bytesOfNat 1 abort ++ bytesOfNat 8 rnorm)
theorem witness_norm_test :
    (∀ st ∈ [2, 5], ((testing st 0x3FF0000000000000 0 block).calRun 3).state = st ∧
      ((testing st 0x3FF0000000000000 0 block).calRun 3).rights = some (m0.rightsOf m0.core) ∧
      (((testing st 0x3FF0000000000000 0 block).bteRead (m0.rightsOf m0.core) 0x1078 8).toOption.map natOfBytes) = some 0x3FF0000000000000 ∧
      ((testing st 0x3FF0000000000000 0 block).resolveAll (m0.rightsOf m0.core) .store 0x1080 8).toOption.isSome = true ∧
      ((testing st 0x3FF0000000000000 0 block).checkCopy (m0.rightsOf m0.core) [(0x1800, 16)] [(0x1900, 16)]).toOption.isSome = true ∧
      (testing st 0x3FF0000000000000 0 block).firstPoison [(0x1800, 16)] [ks 0x1800 16] = none) ∧
    errorOf ((testing 2 0 0 block).bteRead (m0.rightsOf m0.core) 0x30070 8) = some (.loc, 0x30070) ∧
    errorOf ((testing 2 0 0 block).resolveAll (m0.rightsOf m0.core) .store 0x30000 8) = some (.loc, 0x30000) ∧
    errorOf ((testing 2 0 0 block).checkCopy (m0.rightsOf m0.core) [(0x30000, 16)] [(0x1900, 16)]) = some (.loc, 0x30000) ∧
    ({ testing 2 0 0 block with poison := [hostKey (localKey 0 0x1800) / 8] } : State).firstPoison [(0x1800, 16)] [ks 0x1800 16] = some 0x1800 ∧
    (∀ ab ∈ [0, 1], ((testing 3 0 ab block).bteRead (m0.rightsOf m0.core) 0x1077 1).toOption = some [BitVec.ofNat 8 ab]) ∧
    errorOf ((testing 3 0 0 block).bteRead (m0.rightsOf m0.core) 0x3006F 1) = some (.loc, 0x3006F) ∧ (testing 3 0 0 block).memWf ∧
    fieldAt (block.set 116 2) 116 1 = 2 ∧ ((testing 5 0 0 block).calRun 3).rung + 1 < fieldAt (block.set 72 2) 72 1 := by
  unfold State.memWf; decide +kernel
/-- R292, R294: the norm of 4 at the initial residual goes on to FACTOR; an infinite one ends the run as its byte says. -/
theorem test_norm :
    (((testing 2 0x4010000000000000 0 block).calTest 3).calRun 3).state = 3 ∧
    (((testing 2 0x7FF0000000000000 0 block).calTest 3).calRun 3).exit = 2 := by decide +kernel
/-- The end of rank 0's part in a run that ended by trap, and in one that did not. -/
def retiring (trap : Bool) : State :=
  let T := { running 6 [member 0 true false] none with cal := { (running 6 [member 0 true false] none).cal with trapExit := trap } }
  withCore { calendar T block with ops := [{ oneOp with owner := .thread 5, tok := 9, cls := 4, body := .cal 3 }] } fun c => { c with mode := .program }
theorem witness_calender_ends :
    (∀ b ∈ [true, false], ((retiring b).team? 3).map (fun T => T.cal.trapExit) = some b ∧ (retiring b).memberThread 3 0 = some th5 ∧
      (retiring b).core.mode = .program ∧ (retiring b).core.csr.lpc0 = 0 ∧ th5.home = (retiring b).core.num) := by decide +kernel
theorem witness_calender_member : Resident (retiring true) (.thread 5) 0 := by
  refine ⟨rfl, .inr ⟨th5, rfl, ?_, rfl, rfl, rfl⟩⟩; decide +kernel

/-! ### Further clauses: the monitor, slices and the memory side -/

/-- A core whose context has been saved: an operation goes with its save area, one of the area named comes back. -/
def swapped (area : Option Nat) : State :=
  { withCore m0 fun c => { c with inArea := area } with ops := [{ oneOp with owner := .saved (localKey 0 0x1000) }, { oneOp with id := 8, owner := .bare 0 }] }
theorem witness_context_operations :
    (∀ a ∈ [none, some (localKey 0 0x1000), some (localKey 0 0x5000)], (swapped a).core.inArea = a ∧
      ((swapped a).ops.map (·.owner)) = [.saved (localKey 0 (m0.rx 1).toNat), (swapped a).core.owner]) ∧
    m0.core.gateSpill = [] ∧ ((framed 16 1 m0).core.gateHw.all fun f => f.ret &&& 1 == 0) = true ∧ (framed 16 1 m0).core.gateHw.length = 16 ∧
    m0.savePoisoned (localKey 0 0x1000) = false ∧
    ({ m0 with poison := [hostKey (localKey 0 0x1000) / 8] } : State).savePoisoned (localKey 0 0x1000) = true := by decide +kernel
/-- R215, R316: CTX.LOAD of the area gives its operation to the core, and the other one to the area the core held. -/
theorem test_context_operations :
    after (.ctxSave 1) (swapped none) (fun t => t.ops.map (·.owner) == [.saved 0, .bare 0]) = true := by decide +kernel

/-- A delayed strong load of core 0: of a lost member's memory, of uncorrectable data, and of data that comes. -/
def delayed (a : Nat) : State :=
  { m0 with
    ops := [{ oneOp with owner := .bare 0, tok := 0, cls := 0, body := .strong 9 0x140000000 8 false ((List.range 8).map (a + ·)) (some .sys) }]
    core := { m0.core with wait := some (.strongLoad 7 9 0x140000000) }
    groups := [⟨4, [(1, .active), (2, .lost)], 1, ⟨[], false, []⟩, [0], [(1, 2)], [1]⟩], poison := [hostKey (2 ^ 50 + 64) / 8] }
theorem witness_delayed_loads :
    ((List.range 8).map (0xC000000000000 + 2 * 2 ^ 42 + ·)).findSome? (delayed 0).lostAt = some 4 ∧
    (∀ a ∈ [2 ^ 50, 2 ^ 50 + 64], ((List.range 8).map (a + ·)).findSome? (delayed a).lostAt = none ∧ (delayed a).core.num = 0 ∧
      ((delayed a).getCore 0).wait = some (.strongLoad 7 9 0x140000000)) ∧
    ((List.range 8).map (2 ^ 50 + 64 + ·)).any (fun q => (delayed 0).poisoned q 1) = true ∧
    ((List.range 8).map (2 ^ 50 + ·)).all (fun q => !(delayed 0).poisoned q 1) = true := by decide +kernel
theorem witness_delayed_resident : Resident (delayed (2 ^ 50)) (.bare 0) 0 := ⟨rfl, .inl rfl⟩

/-- Thread 5 of context 1 away with core 0's image in a wait. -/
def awayIn (w : Wait) (f : State → State) : State :=
  f { away with threads := [{ th5 with evicted := some { idling.core with wait := some w, csr := { idling.core.csr with bargen := 0x100000007 } } }] }
def imageOf (s : State) : Core := (s.threads.head?.bind (·.evicted)).getD (Core.reset 0)
def thOf (s : State) : Thread := s.threads.headD th5
theorem witness_wakes :
    (∀ e ∈ [(Wait.barrier 0x1000 0 0, false), (.waita false 0x1000 0, false), (.waita true 0x1000 0, true), (.parked, false), (.cvyJoin, true),
        (.tnext 1 2 0, true), (.cal 0x1000, true), (.strongLoad 7 9 0x1000, true)],
      let s := awayIn e.1 id
      (match e.1 with | .barrier _ _ _ => true | _ => s.wakes (thOf s) (imageOf s) == e.2) = true ∧ (thOf s).evicted = some (imageOf s)) ∧
    (let s := awayIn (.tnext 1 2 0) (slotted { openSlot with phase := 1 })
     s.wakes (thOf s) (imageOf s) = false) ∧
    (let s := awayIn (.cal 0x1000) fun s => { s with teams := [running 3 both none] }
     s.wakes (thOf s) (imageOf s) = false) ∧
    (let s := awayIn (.strongLoad 7 9 0x1000) fun s => { s with ops := [oneOp] }
     s.wakes (thOf s) (imageOf s) = false) ∧
    ((awayIn .idle id).resolveAll ((awayIn .idle id).rightsOf (imageOf (awayIn .idle id))) .load 0x1000 8).toOption = some srcKeys ∧
    ({ away with sec := { away.sec with contexts := [{ away.ctx 1 with halted := true }] } } : State).ctx 1 = { away.ctx 1 with halted := true } ∧
    ({ away with threads := [{ th5 with evicted := some idling.core, ending := true }] } : State).thread? 5 =
      some { th5 with evicted := some idling.core, ending := true } := by decide +kernel
/-- Where thread 5 may move: to core 2, free or of its own context, and not to one of another context or with another's pages. -/
theorem witness_moves :
    away.sec.own (.core 2) = .free ∧ away.sec.own (.page 2 0) = .free ∧ (away.getCore 2).mode = .monitor ∧ (away.getCore 2).tid = none ∧
    (let s : State := { away with sec := { away.sec with owned := [(.page 2 0, .assigned [7])] } }
     s.sec.own (.page 2 0) = .assigned [7] ∧ s.mayMigrate aTeam [{ th5 with evicted := some idling.core }] [2] = false) ∧
    (let s : State := { away with sec := { away.sec with owned := [(.core 2, .assigned [7, 8, 9, 10])] } }
     s.mayMigrate aTeam [{ th5 with evicted := some idling.core }] [2] = false) ∧
    (let s : State := { away with others := [{ Core.reset 2 with held := false, pe := (Core.reset 2).pe.set 0 (BitVec.ofNat 64 (7 * 2 ^ 52 + 2 ^ 16)) }] }
     s.mayMigrate aTeam [{ th5 with evicted := some idling.core }] [2] = false) ∧
    away.mayMigrate aTeam [{ th5 with evicted := some idling.core }] [1024] = false ∧
    bitsOf idling.core.csr.dkctx 5 0 = 44 ∧ away.assignRows (fun _ => true) 128
      ((List.range 2).map fun i => (th5, { idling.core with csr := { idling.core.csr with acclim := 128 } }, 8 + i)) [] = none := by
  decide +kernel

/-- Writes from outside: to a register, through a checked mapping or not, to host memory, and to a granule sealed for context 1. -/
def sealedAt1 : State :=
  { m0 with sec := { m0.sec with contexts := [{ m0.ctx 1 with keySlot := some 2, root := some 0x100000 }], owned := [(.granule 16, .assigned [1])] } }
theorem witness_outside_writes :
    inRegs 0x10000000000 = true ∧ inHost (2 ^ 50) = true ∧ inHost (2 ^ 50 + 7) = true ∧ sealedAt1.sealedAt 0x100000 = true ∧
    sealedAt1.sealedAt 0x200000 = false ∧ m0.sealedAt 0x100000 = false ∧ inHbm 0x100000 = true ∧ sealedAt1.memWf := by
  unfold State.memWf; decide +kernel
/-- Held requests: one that merges with a miss, one its station has room for, and one it has not. -/
def aMiss (st page : Nat) : Miss := ⟨st, 1, page, .inl .xlate⟩
def holding (n : Nat) : State := { m0 with misses := (List.range n).map (aMiss 4), heldMisses := [aMiss 4 600, aMiss 5 0, aMiss 4 3] }
theorem witness_held_misses :
    ((holding 512).misses.filter fun n => n.station == 4).length = 512 ∧ ((holding 511).misses.filter fun n => n.station == 4).length = 511 ∧
    ((holding 512).misses.any fun n => n.page == 600) = false ∧ ((holding 512).misses.any fun n => n.page == 3) = true ∧
    (holding 512).heldMisses = [aMiss 4 600] ++ aMiss 5 0 :: [aMiss 4 3] := by decide +kernel
/-- The debug block of core 0 mapped by an active leaf. -/
def debugged (s : State) : State := { s with sec := { s.sec with activated := [(0x100000, 1, BitVec.ofNat 64 (2 ^ 63 + 0x10020000000 + 0xC7))] } }
/-- R321, R350: a core halted in a wait is not stable until the wait has ended; without a mapping of its block nobody halts it. -/
theorem test_halt_in_wait :
    m0.debugMapped 0 = false ∧ (debugged m0).debugMapped 0 = true ∧ (debugged m0).debugAllowed 0 = true ∧
    after (.debugPlainHalt 0) m0 (fun t => !t.core.dbg.halted) = true ∧
    after (.debugPlainHalt 0) (debugged (waiting .idle false 0)) (fun t => t.core.dbg.halted && !t.core.dbg.stable) = true ∧
    after (.debugPlainHalt 0) (debugged m0) (fun t => t.core.dbg.halted && t.core.dbg.stable) = true := by decide +kernel

/-! ### Further clauses: the Headbox, the security core and groups -/

/-- A LAUNCH at the head of the ring, with a LAUNCH of its gang's next member behind it, or with another packet. -/
def pairOf (join : Nat) : List Byte := packet 1 1 0 5 (launchBody 0 1) ++ packet 1 1 join 6 (launchBody 0 1)
/-- The ring's last packet before the end of what the context maps, in a ring of 16 whose next packet lies beyond. -/
def lastOne : State :=
  { ringed [] { ring 1 2 [] with base := 0x17FFFFF80 } with
    leaves := [⟨stationOf 0 0x17FFFFF80, 1, 5, 30, 0x4000BFCF⟩], mem := p0.mem.write 0x7FFFFF80 (packet 1 1 0 5 (launchBody 0 1))
    sec := { p0.sec with owned := [(.granule 0x4000, .assigned [1]), (.granule 0x7FFF, .assigned [1])] } }
def oneTaken (k : Queue) : Queue := { k with head := 1, seq := 6, taken := [taken false (packet 1 1 0 5 (launchBody 0 1))] }
theorem witness_launch_pairs :
    (∀ join ∈ [0, 1], let s := ringed (pairOf join) (ring 1 2 [])
      (s.headboxRead 1 0x140000000 8).toOption = some ((pairOf join).take 8) ∧
      (s.headboxRead 1 0x140000008 120).toOption = some (((pairOf join).drop 8).take 120) ∧
      ((s.putQueue (oneTaken (ring 1 2 []))).headboxRead 1 0x140000080 8).toOption = some (((pairOf join).drop 128).take 8) ∧
      ((s.putQueue (oneTaken (ring 1 2 []))).headboxRead 1 0x140000088 120).toOption = some ((pairOf join).drop 136)) ∧
    fieldAt ((pairOf 1).drop 128) 0 1 = (1 / 2 ^ 4 + 1) % 2 ∧ fieldAt ((pairOf 1).drop 128) 1 1 = 1 ∧
    fieldAt ((pairOf 1).drop 128) 2 2 = 1 ∧ fieldAt ((pairOf 1).drop 128) 4 4 = 6 ∧ fieldAt ((pairOf 0).drop 128) 2 1 % 2 = 0 ∧
    bitsOf (ring 1 2 []).ctl 43 40 = 4 ∧ (lastOne.headboxRead 1 0x17FFFFF80 8).toOption = some ((packet 1 1 0 5 []).take 8) ∧
    errorOf ((lastOne.putQueue (oneTaken { ring 1 2 [] with base := 0x17FFFFF80 })).headboxRead 1 0x180000000 8) =
      some (.xlate, 0x180000000) ∧
    fieldAt (packet 1 1 1 5 (launchBody 0 1)) 2 1 % 2 = 1 := by decide +kernel
/-- An AHEAD ring whose copy of the next packet is held. -/
theorem witness_ahead :
    let b := packet 1 7 0 5 []
    let k : Queue := { ring 3 1 [] with ahead := [(0, b)] }
    bitsOf k.ctl 2 1 = 1 ∧ k.head = 0 ∧ k.taken = [] ∧ fieldAt b 1 1 = 7 ∧
      ((ringed b k).headboxRead 1 0x140000000 8).toOption = some (b.take 8) := by decide +kernel

/-- A LAUNCH whose gang waits for its cores; and such a gang reserving. -/
theorem witness_reserving :
    ((reserved.queue 3).taken.map fun p => (p.gang, p.started, p.completed, p.failed)) = [(some 2, false, false, false)] ∧
    (reserved.ctx 1).iface ≠ .error ∧ reserved.workAccepted = true ∧ (reserved.ctx 1).ending = false ∧
    (let s : State := { reserved with gangs := reserved.gangs.map fun g => { g with state := .reserving } }
     (s.gang? 2).all (fun g => s.mayCommit [g] [[[1]]] && g.state == .reserving) = true) ∧
    (let s : State := { reserved with permits := [(0, 7)] }
     (s.gang? 2).all (fun g => !s.mayCommit [g] [[[1]]]) = true) ∧
    ({ unborn with sec := { unborn.sec with contexts := [{ unborn.ctx 1 with halted := true }] } } : State).ctx 1 =
      { unborn.ctx 1 with halted := true } := by decide +kernel

/-- The first key slot of a context that has a granule, which an active leaf maps. -/
def mappedBefore : State :=
  secured fun x => { x with owned := [(.granule 16, .assigned [1])], activated := [(0x100000, 1, BitVec.ofNat 64 (0x100000 + 0xCF))] }
theorem witness_first_key :
    (16 ∈ mappedBefore.sec.granulesOf 1) ∧ bitsOf (BitVec.ofNat 64 (0x100000 + 0xCF) : Word) 51 16 = 16 ∧
    16 < 16 + leafSize (BitVec.ofNat 64 (0x100000 + 0xCF)) / 65536 ∧ (mappedBefore.ctx 1).keySlot = none ∧
    (mappingThings (.keySlot 1 2)).all (mappedBefore.sec.mayOwn 1) = true ∧ mappedBefore.mappingOk (.keySlot 1 2) = true ∧
    mappedBefore.core.deckle = mappedBefore.sec.deckle.1 ∧ mappedBefore.others = [] := by decide +kernel

/-- A group that accepts five parts: reports that it admits, that do not fit, and of a LOST member with and without a reset. -/
def judged (st : MemberState) : Group := ⟨4, [(1, .active), (2, st)], 1, ⟨fiveParts, false, []⟩, [0], [(2, 1)], [1]⟩
def judging (st : MemberState) : State := { secured id with groups := [judged st] }
theorem witness_reports :
    (∀ e ∈ fiveParts, e ∈ (judged .attesting).policy.accept) ∧ (judging .attesting).groups = [judged .attesting] ∧
    ((judged .lost).members.map (·.1)).Nodup ∧ (2, MemberState.lost) ∈ (judged .lost).members ∧ (1 : Nat) ≠ 2 ∧
    (after (.memberVerified 4 ⟨2, fiveParts, 1, false⟩) (judging .attesting) fun t =>
      t.groups.all fun g => g.members == [(1, .active), (2, .active)] && g.pairs.contains (1, 2)) = true ∧
    (after (.memberVerified 4 ⟨2, fiveParts, 1, false⟩) (judging .lost) fun t => t.groups == [judged .lost]) = true ∧
    (after (.memberVerified 4 ⟨2, fiveParts, 1, true⟩) (judging .lost) fun t =>
      t.groups.all fun g => g.members == [(1, .active), (2, .attesting)]) = true := by decide +kernel
/-- A spill area whose granules are not owned, the versions of parts, and the numbers of groups and modules. -/
theorem witness_reset_contents :
    ({ secured id with slots := (secured id).slots.set 0 { openSlot with area := some 0x100000 } } : State).slots[0].area = some 0x100000 ∧
    0x100000 ≤ 65536 * 47 ∧ 65536 * 47 < 0x100000 + 2097152 ∧
    (secured fun x => { x with versions := [(.headbox, 0), (.slice, 3)], fuses := 2, measured := [(.headbox, 7), (.slice, 9)] }).sec.versions =
      [(.headbox, 0), (.slice, 3)] ∧ inHbm (2 ^ 50) = false ∧ (2 ^ 50 : Nat) < 2 ^ 52 := by decide +kernel
/-- R356, R373: after a reset a part whose version is below the fuses is measured anew, the others as before. -/
theorem test_reset_measures :
    after .moduleReset (secured fun x => { x with
      versions := [(.headbox, 0), (.slice, 3)], fuses := 2, measured := [(.headbox, 7), (.slice, 9)] }) (fun t =>
      t.sec.measured.contains (.slice, 9) && t.sec.versions == [(.headbox, 2), (.slice, 3)]) = true := by decide +kernel

/-! ### Further clauses: the whole machine -/

/-- A core in monitor mode at an entry point, with an older Deckle image than the module's. -/
def stale : State := { m0 with sec := { m0.sec with deckle := (1, [0x2D]) }, core := { m0.core with pc := 0x2F080 } }
theorem witness_deckle :
    stale.tick.core.mode = .monitor ∧ stale.tick.core.deckle ≠ stale.tick.sec.deckle.1 ∧ stale.tick.core.pc.toNat = 0x2F000 + 0x80 * 1 ∧
    (aboutTo 0).tick.core.deckle = (aboutTo 0).tick.sec.deckle.1 ∧ (aboutTo 0).tick.core.views.late = [] ∧
    (aboutTo 0).tick.core.views.fresh = [] ∧ (aboutTo 0).tick.core.icache = [] ∧ (aboutTo 0).tick.core.pfb = [] := by decide +kernel
theorem witness_history : State.reset.histOk := no_history _ rfl

/-! ### Further clauses: what fails, what waits and what is refused -/

/-- TRING's header with LOG2N 99 and FLAGS 6. -/
def brokenRing : State := poke (poke (ringAt 0) 0x3008 [99]) 0x301C [6]
theorem witness_ring_out_of_range : ¬RingHeader (headerKeys.map brokenRing.readKey) ∧ fieldAt (headerKeys.map brokenRing.readKey) 28 1 = 6 := by
  unfold RingHeader; decide +kernel
/-- R310: a trap at an invalid ring sets LOST alone of the header's FLAGS, and TFLAGS NOREC. -/
theorem test_ring_out_of_range :
    (brokenRing.trapEntry .illegal 0x1000 7).mem.get (localKey 0 0x301C) = 7 ∧
    bitOf (brokenRing.trapEntry .illegal 0x1000 7).core.csr.tflags 1 = true := by decide +kernel

/-- A program waits at a barrier record with a halting watchpoint on it. -/
def watchedBarrier : State := withCore p0 fun c =>
  { c with
    wait := some (.barrier 0x1000 0 1), csr := { c.csr with bargen := 0x100000007, baradr := 0x1000 }
    dbg := { c.dbg with wbase := c.dbg.wbase.set 0 0x1000, wctl := c.dbg.wctl.set 0 0x0010000000009303 } }
theorem witness_watched_barrier :
    (watchedBarrier.focus 0).core.wait = some (.barrier 0x1000 0 1) ∧ (watchedBarrier.focus 0).access .load 0x1000 16 = .halt 0 := by decide +kernel
/-- R321: a watchpoint on the record halts the waiting core, which is not stable while its wait stands. -/
theorem test_watched_barrier :
    after (.barWaitWake 0) watchedBarrier (fun t => t.core.dbg.halted && !t.core.dbg.stable) = true := by decide +kernel

/-- The words of FORK's record, and a JOIN cell in the register window, through a leaf the security core has checked. -/
def regCell : State := { mapped 0 with leaves := [⟨0, 1, 0x14000, 16, BitVec.ofNat 64 (2 ^ 63 + 0x10000000000 + 0x3FCF)⟩] }
theorem witness_team_cells :
    (List.range 4).all (fun i => (forks 0x2000).pageKindIs 0 ((0x1000 : Word) + BitVec.ofNat 64 (8 * i)) == false) = true ∧
    (0x140000000 : Word).toNat % 8 = 0 ∧ regCell.rx 10 = 0x140000000 ∧
    (regCell.resolveSteps (regCell.rightsOf regCell.core) .atomic 0x140000000 8).toOption = some (mappedKeys 0x10000000000) ∧
    (mappedKeys 0x10000000000).all (amoAdmitted .add) = false := by decide +kernel

/-- A chain without a token whose record fails, before a trap ring of two entries with room and without. -/
def tokenless (cons : Nat) : State :=
  let s := poke (chaining 2 (moving 1 0x1400 0x30000 8 0) 0 0 1) 0x3000 (bytesOfNat 8 0x3100 ++ bytesOfNat 8 1 ++ bytesOfNat 8 1 ++ bytesOfNat 8 cons)
  withCore { s with ops := [{ request 0 0 with body := .bte 5 0x1800 0x1000 true 0, tok := 0 }] } fun c =>
    { c with lpt := c.lpt.set 3 255, pe := c.pe.set 0 (BitVec.ofNat 64 (2 ^ 16 + 46 * 2 ^ 8)), csr := { c.csr with tring := 0x3000 } }
/-- R310, R259: while its record waits for room the chain's channel is not idle. -/
theorem test_tokenless_chain :
    after (.bteRecordLanded 5) (tokenless (2 ^ 32 - 1)) (fun t => (t.channel 5).phase == 5 && t.ops.length == 1 && !t.channelIdle 5) = true ∧
    after (.bteRecordLanded 5) (tokenless 0) (fun t => (t.channel 5).phase == 0 && t.ops.isEmpty && t.channelIdle 5) = true := by decide +kernel
/-- Its record's turn at the ring, with room and without. -/
def recordWaits (cons : Nat) : State :=
  { tokenless cons with asyncWaiting := [(0, .rights, 0, 0)], channels := [⟨5, some 0, 0, 0, 5, [], none, 0, .ok⟩] }
def recordWritten (s : State) : State × RingResult :=
  s.writeRecord { s.ownerCore (.thread 5) with cid := chainRights.cid } (causeCode .rights) 3 1 chainRights.domain 0x1000 0 (completionWord .rights 3 0)
theorem witness_record_waits :
    (recordWaits 0).asyncWaiting[0]? = some (0, .rights, 0, 0) ∧
    (recordWaits 0).op? 0 = some { request 0 0 with body := .bte 5 0x1800 0x1000 true 0, tok := 0 } ∧
    (recordWritten (recordWaits 0)).2 = .written ∧ (recordWritten (recordWaits (2 ^ 32 - 1))).2 = .full ∧
    ((recordWaits 0).channels.map fun d => (d.op, d.phase)) = [(some 0, 5)] ∧ ((recordWaits 0).channels.map (·.ch)).Nodup := by decide +kernel

/-- A request's SET that its home has answered while the slot opens; work that the slices of a joined slot's members share. -/
def giving : State := slotted memberSlot { waiting (.tnext 1 2 0) false 0 with threads := [{ th5 with cid := 0 }] }
def taking : State := slotted { openSlot with joined := some 4, queued := 3 } { sharing with slots := (slotted openSlot sharing).slots }
def sharedTask : TaskWords := ⟨98, 7, 0, 3, false⟩
theorem witness_shared_work :
    (asks (some (.set 0 99 3 0)) (some .set) (slotted opening m0)).core.reply = some .set ∧
    ((asks (some (.set 0 99 3 0)) (some .set) (slotted opening m0)).slots.get 0).phase = 1 ∧
    giving.waitingTnext 0 0 = true ∧ giving.recordsAt 0 (.segment 0) = [] ∧
    [sharedTask].length ≤ min 64 (min (memberSlot.queued - ((giving.records.filter fun r => r.slot == (0 : Slot)).length + memberSlot.spill.length))
      (4096 - (giving.inSegment 0).length)) ∧ fails sharedTask.bound.toInt (memberSlot.copy (.segment 0)) = false ∧
    ¬[sharedTask, sharedTask].length ≤ 1 ∧
    (taking.recordsAt 0 (.segment 1)).length = 3 ∧ (taking.placesOf 0).all (fun p => Nat.ble (taking.recordsAt 0 p).length 3) = true ∧
    2 ≤ min ((3 + 1) / 2) 64 ∧ ¬3 ≤ min ((3 + 1) / 2) 64 ∧ (taking.records.map (·.order)).Nodup := by decide +kernel
/-- R272, R368: a record of another member's module comes to the segment of a waiting TNEXT. -/
theorem test_shared_work :
    after (.wmkPropagate 0 (.member (.give 0 [sharedTask]))) giving (fun t => t.records.map (fun r => (r.bound, r.arg, r.seq, r.field)) == [(98, 7, 3, 0)]) = true := by decide +kernel

/-- A monitor core with a page-44 save area of an evicted thread, named by x10; and an operation that it issued itself. -/
def overArea : State := withCore { away with ops := [{ oneOp with apart := true, tok := 9, ctr := some 3 }] } fun c => c.wx 10 0x2C000
theorem witness_evicted_area :
    (overArea.rx 10).toNat % 4096 = 0 ∧ (overArea.rx 10).toNat ≤ 0x2C000 ∧ overArea.core.mode = .monitor ∧
    (overArea.areaThread (localKey 0 0x2C000)).map (fun e => e.1.tid) = some 5 ∧ overArea.savePoisoned (localKey 0 0x2C000) = false ∧
    (overArea.ops.any fun o => o.isMatrix) = false ∧ overArea.ops.map (fun o => (o.owner, o.apart, o.target)) = [(.bare 0, true, 9)] ∧
    overArea.areaHolder (localKey 0 0x2C000) = .thread 5 := by decide +kernel
/-- A service one of whose registers is pending, and the state in which it uses them. -/
def usedBy (s : State) : State := (s.focus 0).useNamed [10, 11, 12, 13] []
theorem witness_service_registers :
    ((withCore (serving 2 255 1 1 0x1000) fun c => { c with pendX := 1 <<< 12 }).focus 0).core.pendX.getLsbD 12 = true ∧
    (∀ r ∈ [(10 : XReg), 11, 12, 13], ((serving 2 255 1 1 0x1000).focus 0).core.pendX.getLsbD r.val = false) ∧
    (usedBy (serving 2 255 1 1 0x1000)).rx 11 = 1 ∧ (usedBy (serving 2 255 0 2 0x1000)).rx 12 = 2 ∧
    ((usedBy (serving 2 255 1 1 0x1000)).resolveAll (usedBy (serving 2 255 1 1 0x1000)).svcRights .load 0x1000 32).toOption = some forkKeys ∧
    (forkKeys.all fun q => !(usedBy (serving 2 255 1 1 0x1000)).poisoned q 1) = true ∧
    ({ usedBy (serving 2 255 1 1 0x1000) with poison := [hostKey (localKey 0 0x1000) / 8] } : State).poisoned (localKey 0 0x1000) 1 = true ∧
    errorOf ((usedBy (serving 2 255 1 1 0x30000)).resolveAll (usedBy (serving 2 255 1 1 0x30000)).svcRights .load 0x30000 32) = some (.loc, 0x30000) ∧
    ((usedBy writable).resolveAll (usedBy writable).svcRights .store 0x1000 32).toOption = some forkKeys ∧
    errorOf ((usedBy (serving 3 255 1 1 0x2F000)).resolveAll (usedBy (serving 3 255 1 1 0x2F000)).svcRights .store 0x2F000 32) =
      some (.rights, 0x2F000) := by decide +kernel

/-- A module before its first release, its links keyed, and after it; an interface in RUN. -/
def booting (keyed : Bool) : State :=
  { m0 with
    core := { Core.reset 0 with held := true }
    sec := { m0.sec with
      links := (List.range 61).map fun n => ⟨n, keyed, 0, 0, []⟩
      contexts := [{ (m0.ctx 1) with protect := true, iface := .run }] } }
theorem witness_power_on :
    (∀ b ∈ [true, false], ((booting b).core :: (booting b).others).all (fun q => q.held && q.mode == .monitor) = true ∧
      ((List.range 61).all fun n => ((booting b).sec.link n).keyed) = b ∧ (booting b).sec.window = none ∧ ((booting b).getCore 0).tid = none) ∧
    (booting true).memWf ∧ (booting true).sec.fuses ≤ 1 ∧ ((booting true).sec.contexts.map (·.iface)) = [.run] ∧
    (∀ image, image ∉ [(FwPart.deckle, Config.digest [])] → image ∉ ([] : List (FwPart × Nat))) ∧
    m0.core.held = false ∧ m0.sec.deckle.2 = [] ∧ m0.sec.deckle.2 ≠ [1] ∧ (m0.getCore 1).tid = none ∧
    1 < (secured fun x => { x with fuses := 2 }).sec.fuses := by
  refine ⟨?_, rfl, ?_, ?_, ?_, ?_⟩ <;> first | exact fun _ _ h => nomatch h | decide +kernel
/-- R358, R373: the first release waits for keyed links; later ones bring the live image and no other. -/
theorem test_power_on :
    after (.powerOn 0 ⟨[], 1⟩) (booting false) (fun t => t.core.held) = true ∧
    after (.powerOn 0 ⟨[], 1⟩) (booting true) (fun t => !t.core.held && t.sec.released == 1) = true ∧
    after (.powerOn 1 ⟨[1], 1⟩) m0 (fun t => (t.getCore 1).held) = true ∧
    after (.powerOn 1 ⟨[], 1⟩) m0 (fun t => !(t.getCore 1).held) = true := by decide +kernel

/-- An acquiring load of host memory at the pc; and a load whose member was lost on its way. -/
def acquiring : State := { strong with mem := strong.mem.write (localKey 0 0x1000) (bytesOfNat 4 (encode (.ldA .dev 4 10 0))) }
def lostOnWay : State := { delayed (0xC000000000000 + 2 * 2 ^ 42) with
  ops := (delayed (0xC000000000000 + 2 * 2 ^ 42)).ops.map fun o => { o with phase := .moved .peerlost 0 4 }, groups := [{ aGroup with members := [(1, .active), (2, .active)] }] }
theorem witness_lost_load :
    acquiring.decodeNext.2 = .run (.ldA .dev 4 10 0) ∧ acquiring.issues = true ∧ acquiring.core.wait = none ∧
    acquiring.decodeNext.1.access .load 0x140000000 8 = .ok (mappedKeys (2 ^ 50)) ∧
    (lostOnWay.ops.map (·.phase)) = [.moved .peerlost 0 4] ∧ lostOnWay.lostAt (0xC000000000000 + 2 * 2 ^ 42) = none ∧
    ((delayed 0).ops.map (·.phase)) = [.issued] := by decide +kernel
theorem witness_lost_load_resident : Resident lostOnWay (.bare 0) 0 := ⟨rfl, .inl rfl⟩
/-- R368: the load that was on its way to a member when that was lost fails, though the member is ACTIVE again. -/
theorem test_lost_load :
    after (.memberLost 4 2) { delayed (0xC000000000000 + 2 * 2 ^ 42) with groups := [{ aGroup with members := [(1, .active), (2, .active)] }] }
      (fun t => t.ops.map (·.phase) == [.moved .peerlost 0 4]) = true ∧
    (0xC000000000000 ≤ 0xC000000000000 + 2 * 2 ^ 42 ∧ 0xC000000000000 + 2 * 2 ^ 42 < 2 ^ 52 ∧ (0xC000000000000 + 2 * 2 ^ 42) / 2 ^ 42 % 256 = 2) := by
  decide +kernel

/-- A slice moves no thread of a context that is halted or in ERROR. -/
theorem witness_frozen_context :
    (∀ f ∈ [(fun x : Context => { x with halted := true }), fun x => { x with iface := .error }],
      (away.modCtx 1 f).mayMigrate aTeam [{ th5 with evicted := some idling.core }] [2] = false) ∧
    (away.ctx 1).halted = false ∧ (away.ctx 1).iface ≠ .error := by
  refine ⟨?_, ?_⟩
  · intro f hf
    simp only [List.mem_cons, List.not_mem_nil, or_false] at hf
    rcases hf with rfl | rfl <;> decide +kernel
  · decide +kernel

/-- Bytes of a slot's spill area, which nobody outside writes; and a peer's write to a sealed line. -/
theorem witness_outside_refused :
    (slotted spilled m0).monitorBytes 0x1000000 8 = true ∧ (slotted spilled m0).monitorBytes 0x1200000 8 = false ∧
    inHbm 0x1000007 = true ∧ (sealedAt1.sealedAt 0x100003 = true) := by decide +kernel
/-- R271, R355: neither reaches plaintext: the area keeps its bytes, and the line takes free ones. -/
theorem test_outside_refused :
    after (.inboundWrite ⟨3, .store, 0x1000000, true⟩ [1, 2]) (slotted spilled m0) (fun t => t.mem.get 0x1000000 == 0) = true := by decide +kernel

/-- An executable with one text section of domain 0, at 0x110000000. -/
def domainless : List Byte :=
  (object.set 24 64).set 28 1 ++ bytesOfNat 4 0 ++ [0, 0, 0, 0] ++ bytesOfNat 8 0x110000000 ++ bytesOfNat 8 2 ++ bytesOfNat 8 64
theorem witness_domainless :
    (parseObject domainless).map (fun l => l.map fun x => (x.kind, x.domain, x.size)) = some [(0, 0, 2)] ∧
    ((loading 0 domainless []).placeObject 1 ((parseObject domainless).getD []) []).isNone = true := by decide +kernel
/-- Two teams of a gang in field 0, whose table names fields 0 and 1 (R324); an object with an image in page 1 of a core. -/
def pairGang : Gang :=
  { makeGang 2 (ring 1 1 []) (taken false (packet 1 1 0 5 (launchBody 1 2))) [⟨0, 1, 0, 0⟩, ⟨1, 1, 0, 0⟩] with state := .reserving }
def twoTeams : State :=
  { reserved with
    gangs := [pairGang]
    others := [{ Core.reset 1 with held := false }, { Core.reset 2 with held := false }, { Core.reset 1025 with held := false }]
    sec := { reserved.sec with owned := [(.core 1, .assigned [1]), (.core 2, .assigned [1]), (.core 1025, .assigned [1])] } }
theorem witness_two_teams :
    (twoTeams.gang? 2) = some pairGang ∧ twoTeams.reservable pairGang = true ∧ twoTeams.mayCommit [pairGang] [[[1], [2]]] = true ∧
    twoTeams.mayCommit [pairGang] [[[1], [1025]]] = true ∧ pairGang.cls = 1 ∧
    (let s : State := { twoTeams with others := [{ Core.reset 1 with held := false }, { Core.reset 2 with held := false }] }
     s.mayCommit [pairGang] [[[1], [2]]] = false) := by decide +kernel
theorem witness_image_pages :
    (let o : CodeObject := { aObject [3] with image := [(0x1000, 255, [1])] }
     let s (l : List (Thing × Own)) : State := { twoTeams with
       objects := [o], sec := { twoTeams.sec with owned := twoTeams.sec.owned ++ l }
       others := twoTeams.others.map fun k => { k with pe := p0.core.pe } }
     let pages := (List.range 47).map fun p => (Thing.page 1 p, Own.assigned [1])
     o.imagePages = [1] ∧ (s pages).mayHost o 3 0 0 1 = true ∧ (s []).mayHost o 3 0 0 1 = false) := by decide +kernel

/-- A claim after every core has been released, and before; a scrub that a reset left; and a leaf of another context. -/
def released (f : Security → Security) : State := secured fun x => f { x with released := 1048576 }
theorem witness_released :
    (released id).sec.released = 1048576 ∧ (secured id).sec.released ≠ 1048576 ∧ (released fun x => { x with owner := none }).sec.owner = none ∧
    (released fun x => { x with boot := true, scrub := [.page 0 46] }).sec.boot = true ∧
    mappedBefore.sec.activated.all (fun l => l.2.1 == 1) = true := by decide +kernel
/-- R373, R345: the claim waits for the cores; an activated leaf serves the context alone that it was checked for. -/
theorem test_bring_up :
    after (.ownerClaim 1) (secured fun x => { x with owner := none }) (fun t => t.sec.answers == []) = true ∧
    after (.ownerClaim 1) (released fun x => { x with owner := none }) (fun t => t.sec.owner == some 1) = true ∧
    (let s : State := { m0 with sec := { m0.sec with activated := [(0x110028, 1, 0x800000004000BFCF)] } }
     s.leafOk 1 0x800000004000BFCF 0x110028 30 2 = true ∧ s.leafOk 2 0x800000004000BFCF 0x110028 30 2 = false) := by decide +kernel
end Sys2Proof.Tests
end

section
/-! PROOF. Register arithmetic and division (R47, R48): what each OPR instruction writes, in the terms of the claim. -/
namespace Sys2Proof.Machine
open Sys2Proof

/-! ### Counting bits -/

/-- The count of leading zeros is the place of the first one bit from the top, or n when there is none. -/
theorem leadingZeros_spec (v n : Nat) :
    leadingZeros v n ≤ n ∧ (∀ i < leadingZeros v n, v.testBit (n - 1 - i) = false) ∧
      (leadingZeros v n < n → v.testBit (n - 1 - leadingZeros v n) = true) := by
  induction n with
  | zero => simp [leadingZeros]
  | succ n ih =>
    obtain ⟨hle, hzero, hone⟩ := ih
    have htop : v.testBit n = decide (v / 2 ^ n % 2 = 1) := Nat.testBit_eq_decide_div_mod_eq
    by_cases h : v / 2 ^ n % 2 = 1
    · simp [leadingZeros, h, htop]
    · simp only [leadingZeros, if_neg h]
      refine ⟨Nat.succ_le_succ hle, fun i hi => ?_, fun hlt => ?_⟩
      · cases i with
        | zero => simp [htop, h]
        | succ i =>
          have hs : n + 1 - 1 - (i + 1) = n - 1 - i := by omega
          exact hs ▸ hzero i (by omega)
      · have hs : n + 1 - 1 - (leadingZeros v n + 1) = n - 1 - leadingZeros v n := by omega
        exact hs ▸ hone (by omega)

/-- The count of trailing zeros is the place of the lowest one bit, or n when the low n bits have none. -/
theorem trailingZeros_spec (v n : Nat) :
    trailingZeros v n ≤ n ∧ (∀ i < trailingZeros v n, v.testBit i = false) ∧
      (trailingZeros v n < n → v.testBit (trailingZeros v n) = true) := by
  induction n generalizing v with
  | zero => simp [trailingZeros]
  | succ n ih =>
    by_cases h : v % 2 = 1
    · simp [trailingZeros, h, Nat.testBit_zero]
    · obtain ⟨hle, hzero, hone⟩ := ih (v / 2)
      simp only [trailingZeros, if_neg h]
      refine ⟨Nat.succ_le_succ hle, fun i hi => ?_, fun hlt => ?_⟩
      · cases i with
        | zero => simp [Nat.testBit_zero, h]
        | succ i => exact (Nat.testBit_succ v i).trans (hzero i (by omega))
      · exact (Nat.testBit_succ v _).trans (hone (by omega))

/-- The count of one bits is the number of bit places that hold a one. -/
theorem popCount_eq_length (v n : Nat) :
    popCount v n = ((List.range n).filter fun i => v.testBit i).length := by
  induction n generalizing v with
  | zero => rfl
  | succ n ih =>
    have hshift : (fun i => v.testBit i) ∘ Nat.succ = fun i => (v / 2).testBit i := by
      funext i; exact Nat.testBit_succ v i
    rw [List.range_succ_eq_map, List.filter_cons, List.filter_map, hshift, Nat.testBit_zero, popCount, ih]
    rcases Nat.mod_two_eq_zero_or_one v with h | h <;> simp [h, Nat.add_comm]

/-! ### Values of R47 -/

theorem boolWord_decide (p : Prop) [Decidable p] : boolWord (decide p) = if p then 1 else 0 := by
  simp [boolWord]

theorem slt_word (a b : Word) : boolWord (a.slt b) = if a.toInt < b.toInt then 1 else 0 := boolWord_decide _

theorem ult_word (a b : Word) : boolWord (a.ult b) = if a.toNat < b.toNat then 1 else 0 := boolWord_decide _

/-- A choice between two words is the word of a reading m, when the chosen word reads as m and g gives words back from
their reading f. -/
theorem ite_eq_of_reading {α : Type} {f : Word → α} {g : α → Word} (hg : ∀ x, g (f x) = x) {a b : Word} {t : Bool} {m : α}
    (hb : t = true → m = f b) (ha : ¬t = true → m = f a) : (if t then b else a) = g m := by
  by_cases h : t = true
  · rw [if_pos h, hb h, hg]
  · rw [if_neg h, ha h, hg]

theorem ofNat_toNat_word (x : Word) : BitVec.ofNat 64 x.toNat = x := BitVec.eq_of_toNat_eq (Nat.mod_eq_of_lt x.isLt)

theorem le_of_not_slt {a b : Word} (h : ¬a.slt b = true) : b.toInt ≤ a.toInt :=
  Int.not_lt.mp (mt BitVec.slt_iff_toInt_lt.mpr h)

theorem le_of_not_ult {a b : Word} (h : ¬a.ult b = true) : b.toNat ≤ a.toNat :=
  Nat.not_lt.mp (mt BitVec.ult_iff_lt.mpr h)

theorem min_signed (a b : Word) : (if b.slt a then b else a) = BitVec.ofInt 64 (min a.toInt b.toInt) :=
  ite_eq_of_reading (fun _ => BitVec.ofInt_toInt)
    (fun h => Int.min_eq_right (Int.le_of_lt (BitVec.slt_iff_toInt_lt.mp h))) (fun h => Int.min_eq_left (le_of_not_slt h))

theorem max_signed (a b : Word) : (if a.slt b then b else a) = BitVec.ofInt 64 (max a.toInt b.toInt) :=
  ite_eq_of_reading (fun _ => BitVec.ofInt_toInt)
    (fun h => Int.max_eq_right (Int.le_of_lt (BitVec.slt_iff_toInt_lt.mp h))) (fun h => Int.max_eq_left (le_of_not_slt h))

theorem min_unsigned (a b : Word) : (if b.ult a then b else a) = BitVec.ofNat 64 (min a.toNat b.toNat) :=
  ite_eq_of_reading ofNat_toNat_word
    (fun h => Nat.min_eq_right (Nat.le_of_lt (BitVec.ult_iff_lt.mp h))) (fun h => Nat.min_eq_left (le_of_not_ult h))

theorem max_unsigned (a b : Word) : (if a.ult b then b else a) = BitVec.ofNat 64 (max a.toNat b.toNat) :=
  ite_eq_of_reading ofNat_toNat_word
    (fun h => Nat.max_eq_right (Nat.le_of_lt (BitVec.ult_iff_lt.mp h))) (fun h => Nat.max_eq_left (le_of_not_ult h))

theorem mul_eq_ofNat (a b : Word) : a * b = BitVec.ofNat 64 (a.toNat * b.toNat) :=
  BitVec.eq_of_toNat_eq (by simp)

/-- The high half of the signed product is bits 127 to 64 of the product at 128 bits. -/
theorem mulHigh_signed (a b : Word) :
    mulHigh true a b = (BitVec.ofInt 128 (a.toInt * b.toInt)).extractLsb' 64 64 := by
  apply BitVec.eq_of_toNat_eq
  simp only [mulHigh, if_true, BitVec.toNat_ofInt, BitVec.extractLsb'_toNat, Nat.shiftRight_eq_div_pow]
  generalize a.toInt * b.toInt = p
  omega

theorem mulHigh_unsigned (a b : Word) :
    mulHigh false a b = (BitVec.ofNat 128 (a.toNat * b.toNat)).extractLsb' 64 64 := by
  apply BitVec.eq_of_toNat_eq
  simp only [mulHigh, nat64, Bool.false_eq_true, if_false, BitVec.toNat_ofNat, BitVec.extractLsb'_toNat,
    Nat.shiftRight_eq_div_pow]
  generalize a.toNat * b.toNat = p
  omega

theorem popCount_word (a : Word) :
    nat64 (popCount a.toNat 64) = BitVec.ofNat 64 ((List.range 64).filter fun i => a.getLsbD i).length :=
  congrArg nat64 (popCount_eq_length a.toNat 64)

theorem rotateLeft_shamt (a b : Word) :
    a.rotateLeft (shamt b) = a <<< (b.toNat % 64) ||| a >>> (64 - b.toNat % 64) := by
  rw [BitVec.rotateLeft_def, shamt, Nat.mod_mod]

theorem rotateRight_shamt (a b : Word) :
    a.rotateRight (shamt b) = a >>> (b.toNat % 64) ||| a <<< (64 - b.toNat % 64) := by
  rw [BitVec.rotateRight_def, shamt, Nat.mod_mod]

/-- CLZ's count, read off the bits from the top. -/
theorem leadingZeros_word (a : Word) :
    (∀ i < leadingZeros a.toNat 64, a.getMsbD i = false) ∧
      (leadingZeros a.toNat 64 < 64 → a.getMsbD (leadingZeros a.toNat 64) = true) := by
  obtain ⟨hle, hzero, hone⟩ := leadingZeros_spec a.toNat 64
  have hmsb (i : Nat) (hi : i < 64) : a.getMsbD i = a.toNat.testBit (64 - 1 - i) := by
    simp [BitVec.getMsbD, hi, BitVec.getLsbD]
  exact ⟨fun i hi => (hmsb i (by omega)).trans (hzero i hi), fun h => (hmsb _ h).trans (hone h)⟩

/-! ### Quotients and remainders (R48) -/

theorem divide_zero (signed : Bool) (a : Word) : divide signed a 0 = (0, a, true) := rfl

theorem divide_signed (a : Word) {b : Word} (hb : b ≠ 0) :
    divide true a b = (BitVec.ofInt 64 (a.toInt.tdiv b.toInt), BitVec.ofInt 64 (a.toInt.tmod b.toInt), false) :=
  if_neg hb

theorem divide_unsigned (a : Word) {b : Word} (hb : b ≠ 0) :
    divide false a b = (BitVec.ofNat 64 (a.toNat / b.toNat), BitVec.ofNat 64 (a.toNat % b.toNat), false) :=
  if_neg hb

/-- The signed quotient of R48, with its two cases: by zero, and of the least value by -1. -/
theorem divide_signed_quotient (a b : Word) :
    (divide true a b).1 =
      if b = 0 then 0
      else if a = 0x8000000000000000 ∧ b = 0xFFFFFFFFFFFFFFFF then 0x8000000000000000
      else BitVec.ofInt 64 (a.toInt.tdiv b.toInt) := by
  by_cases hb : b = 0
  · rw [hb, divide_zero, if_pos rfl]
  · rw [divide_signed a hb, if_neg hb]
    by_cases ho : a = 0x8000000000000000 ∧ b = 0xFFFFFFFFFFFFFFFF
    · obtain ⟨rfl, rfl⟩ := ho
      decide
    · rw [if_neg ho]

theorem divide_unsigned_quotient (a b : Word) : (divide false a b).1 = BitVec.ofNat 64 (a.toNat / b.toNat) := by
  by_cases hb : b = 0
  · rw [hb, divide_zero]; simp
  · rw [divide_unsigned a hb]

/-- The remainder belongs to the quotient: it is what the dividend leaves over, also where the quotient wraps. -/
theorem divide_remainder (signed : Bool) (a b : Word) : (divide signed a b).2.1 = a - (divide signed a b).1 * b := by
  by_cases hb : b = 0
  · rw [hb, divide_zero]; simp
  · refine BitVec.eq_sub_iff_add_eq.mpr ?_
    cases signed with
    | true =>
      rw [divide_signed a hb]
      calc BitVec.ofInt 64 (a.toInt.tmod b.toInt) + BitVec.ofInt 64 (a.toInt.tdiv b.toInt) * b
          = BitVec.ofInt 64 (a.toInt.tmod b.toInt + a.toInt.tdiv b.toInt * b.toInt) := by
            rw [BitVec.ofInt_add, BitVec.ofInt_mul, BitVec.ofInt_toInt]
        _ = a := by rw [Int.tmod_add_tdiv_mul, BitVec.ofInt_toInt]
    | false =>
      rw [divide_unsigned a hb]
      calc BitVec.ofNat 64 (a.toNat % b.toNat) + BitVec.ofNat 64 (a.toNat / b.toNat) * b
          = BitVec.ofNat 64 (a.toNat % b.toNat + a.toNat / b.toNat * b.toNat) := by
            rw [BitVec.ofNat_add, BitVec.ofNat_mul, ofNat_toNat_word]
        _ = a := by rw [Nat.mod_add_div', ofNat_toNat_word]

/-- DZ is set by the divisor 0 alone. -/
theorem divide_dz (signed : Bool) (a b : Word) : (divide signed a b).2.2 = decide (b = 0) := by
  by_cases hb : b = 0
  · rw [hb, divide_zero]; rfl
  · rw [decide_eq_false hb]
    cases signed with
    | true => rw [divide_signed a hb]
    | false => rw [divide_unsigned a hb]

/-- The state whose xd a division then writes: FCSR.DZ (bit 4, R14) is set if the divisor is zero. -/
def State.noteDivisor (s : State) (b : Word) : State :=
  if b = 0 then s.setCsr { s.core.csr with fcsr := s.core.csr.fcsr ||| 16 } else s

theorem State.divideInto_eq (s : State) (signed rem : Bool) (d ra rb : XReg) :
    s.divideInto signed rem d ra rb =
      (s.noteDivisor (s.rx rb)).writeX 4 d
        (if rem then (divide signed (s.rx ra) (s.rx rb)).2.1 else (divide signed (s.rx ra) (s.rx rb)).1) := by
  have hs : (if (divide signed (s.rx ra) (s.rx rb)).2.2 then s.orFlags flDZ else s) = s.noteDivisor (s.rx rb) := by
    rw [divide_dz, State.noteDivisor]
    by_cases h : s.rx rb = 0
    · rw [if_pos (decide_eq_true h), if_pos h]; rfl
    · rw [if_neg (mt of_decide_eq_true h), if_neg h]
  exact congrArg (fun u => State.writeX u 4 d _) hs

/-! ### What an instruction that writes xd answers -/

/-- An instruction whose meaning is a write of w to xd answers with every value equal to w. -/
theorem answers_of_writeX {i : Instr} {s u : State} {n : Word} {d : XReg} {v w : Word}
    (he : exec i s = u.writeX n d w) (hv : w = v) : Answers i s fun t => WritesX d v u t ∧ Advances n u t :=
  ⟨_, he, hv ▸ u.wx_retire d w n⟩

theorem answers_quotient {i : Instr} {s : State} {signed : Bool} {d ra rb : XReg} {q : Word}
    (he : exec i s = s.divideInto signed false d ra rb) (hq : (divide signed (s.rx ra) (s.rx rb)).1 = q) :
    Answers i s fun t => WritesX d q (s.noteDivisor (s.rx rb)) t ∧ Advances 4 (s.noteDivisor (s.rx rb)) t :=
  answers_of_writeX (he.trans (s.divideInto_eq signed false d ra rb)) hq

theorem answers_remainder {i : Instr} {s : State} {signed : Bool} {d ra rb : XReg} {q : Word}
    (he : exec i s = s.divideInto signed true d ra rb) (hq : (divide signed (s.rx ra) (s.rx rb)).1 = q) :
    Answers i s fun t =>
      WritesX d (s.rx ra - q * s.rx rb) (s.noteDivisor (s.rx rb)) t ∧ Advances 4 (s.noteDivisor (s.rx rb)) t :=
  answers_of_writeX (he.trans (s.divideInto_eq signed true d ra rb)) (hq ▸ divide_remainder signed _ _)

/-- Settles O1, row by row: each OPR instruction is one write of xd (`answers_of_writeX`), so what remains is that the
model's value is the row's; the divisions note DZ before they write. -/
theorem aluRegister : Obligations.AluRegister := by
  intro s d ra rb a b k
  refine ⟨?rows, ?clz, ?ctz, ?division⟩
  case rows =>
    simp only [List.forall_mem_cons, List.not_mem_nil, false_imp_iff, implies_true, and_true]
    exact
      ⟨answers_of_writeX rfl rfl, -- add
        answers_of_writeX rfl rfl, -- sub
        answers_of_writeX rfl rfl, -- and
        answers_of_writeX rfl rfl, -- or
        answers_of_writeX rfl rfl, -- xor
        answers_of_writeX rfl rfl, -- sll
        answers_of_writeX rfl rfl, -- srl
        answers_of_writeX rfl rfl, -- sra
        answers_of_writeX rfl (rotateLeft_shamt a b),
        answers_of_writeX rfl (rotateRight_shamt a b),
        answers_of_writeX rfl (slt_word a b),
        answers_of_writeX rfl (ult_word a b),
        answers_of_writeX rfl (min_signed a b),
        answers_of_writeX rfl (max_signed a b),
        answers_of_writeX rfl (min_unsigned a b),
        answers_of_writeX rfl (max_unsigned a b),
        answers_of_writeX rfl (mul_eq_ofNat a b),
        answers_of_writeX rfl (mulHigh_signed a b),
        answers_of_writeX rfl (mulHigh_unsigned a b),
        answers_of_writeX rfl (popCount_word a)⟩
  case clz =>
    obtain ⟨hzero, hone⟩ := leadingZeros_word a
    exact ⟨_, (leadingZeros_spec a.toNat 64).1, hzero, hone, answers_of_writeX rfl rfl⟩
  case ctz =>
    obtain ⟨hle, hzero, hone⟩ := trailingZeros_spec a.toNat 64
    exact ⟨_, hle, hzero, hone, answers_of_writeX rfl rfl⟩
  case division =>
    have hqs := divide_signed_quotient a b
    have hqu := divide_unsigned_quotient a b
    simp only [List.forall_mem_cons, List.not_mem_nil, false_imp_iff, implies_true, and_true]
    exact ⟨answers_quotient rfl hqs, answers_quotient rfl hqu, answers_remainder rfl hqs, answers_remainder rfl hqu⟩

end Sys2Proof.Machine
end

section
/-! PROOF. Retirement does not read FCSR or VL (R17, R65, R280): an instruction that writes them advances as from before. -/
namespace Sys2Proof.Machine
open Sys2Proof

/-- The CSRs with other flags and another vector length. -/
def Csrs.withVector (c : Csrs) (fcsr vl : Word) : Csrs := { c with fcsr := fcsr, vl := vl }

/-- The back-edge rule of R65 neither reads nor writes FCSR and VL. -/
theorem backEdge_withVector (c : Csrs) (fcsr vl a next : Word) (taken : Bool) :
    backEdge (c.withVector fcsr vl) a next taken = (backEdge c a next taken).map (·.withVector fcsr vl) id := by
  simp only [backEdge, apply_ite (Prod.map (Csrs.withVector · fcsr vl) id)]
  rfl

/-- A retirement after a write of FCSR or VL advances from the state before it as well. -/
theorem Advances.of_withVector {s t : State} {n fcsr vl : Word}
    (h : Advances n (s.setCsr (s.core.csr.withVector fcsr vl)) t) : Advances n s t := by
  obtain ⟨⟨hcount, hlpc0, hlpc1, hpc⟩, hidle⟩ := h
  have hedge := backEdge_withVector s.core.csr fcsr vl s.core.pc (s.core.pc + n) false
  exact ⟨⟨hcount, hlpc0.trans (congrArg (·.1.lpc0) hedge), hlpc1.trans (congrArg (·.1.lpc1) hedge),
    fun hk => (hpc hk).trans (congrArg (·.2.1) hedge)⟩, hidle⟩

end Sys2Proof.Machine
end

section
/-! PROOF. Mask instructions and SETVL (R95, R108): each is one write of kd or xd, and KFIRST's number is the lowest one
bit. -/
namespace Sys2Proof.Machine
open Sys2Proof

/-- An instruction whose meaning is a write of m to kd answers with it. -/
theorem answers_of_writeK {i : Instr} {s : State} {n : Word} {d : KReg} {m : BitVec 32}
    (he : exec i s = .next ((s.wk d m).retire n)) : Answers i s fun t => WritesK d m s t ∧ Advances n s t :=
  ⟨_, he, s.wk_retire d m n⟩

/-- The first place below n where p holds, with n for none: p holds nowhere before it, and there unless it is n. -/
theorem find?_range_getD_spec (p : Nat → Bool) (n : Nat) :
    ((List.range n).find? p).getD n ≤ n ∧ (∀ i < ((List.range n).find? p).getD n, p i = false) ∧
      (((List.range n).find? p).getD n < n → p (((List.range n).find? p).getD n) = true) := by
  cases h : (List.range n).find? p with
  | none => simpa [List.find?_range_eq_none] using h
  | some m =>
    obtain ⟨hm, hmem, hbefore⟩ := List.find?_range_eq_some.mp h
    exact ⟨Nat.le_of_lt (List.mem_range.mp hmem), fun i hi => by simpa using hbefore i hi, fun _ => hm⟩

/-- Settles O35: the rows are one write of kd, KPOP and SETVL one write of xd, and KFIRST's place is the first of the
32 bits that is set. -/
theorem maskAndLength : Obligations.MaskAndLength := by
  intro s d a b x y f
  refine ⟨?rows, ?kpop, ?kfirst, ?setvl⟩
  case rows =>
    simp only [List.forall_mem_cons, List.not_mem_nil, false_imp_iff, implies_true, and_true]
    exact ⟨answers_of_writeK rfl, answers_of_writeK rfl, answers_of_writeK rfl, answers_of_writeK rfl⟩
  case kpop => exact answers_of_writeX rfl rfl
  case kfirst =>
    obtain ⟨hle, hbefore, hfirst⟩ := find?_range_getD_spec (fun i => (s.rk a).getLsbD i) 32
    exact ⟨_, hle, hbefore, hfirst, answers_of_writeX rfl rfl⟩
  case setvl =>
    intro vl
    obtain ⟨hwrites, hadvances⟩ := (s.setCsr { s.core.csr with vl := vl }).wx_retire x vl 4
    exact ⟨_, rfl, hwrites, .of_withVector (fcsr := s.core.csr.fcsr) (vl := vl) hadvances⟩

end Sys2Proof.Machine
end

section
/-! PROOF. Integer vector arithmetic (R98) in the frame of R97: lanes after lane writes, the frame once for every
instruction that `State.vop` gives its meaning, and the value of each lane operation. -/
namespace Sys2Proof.Machine
open Sys2Proof

/-! ### Lanes after lane writes (R89, R91) -/

theorem testBit_getLane (v : BitVec 256) (w i n : Nat) :
    (getLane v w i).testBit n = (decide (n < w) && v.toNat.testBit (w * i + n)) := by
  rw [getLane, Nat.testBit_mod_two_pow, Nat.testBit_div_two_pow, Nat.add_comm]

/-- Bit n of a register after a write of lane i: the value's bit inside the lane, the old bit outside. -/
theorem testBit_setLane (v : BitVec 256) (w i x : Nat) {n : Nat} (hn : n < 256) :
    (setLane v w i x).toNat.testBit n =
      if w * i ≤ n ∧ n < w * (i + 1) then x.testBit (n - w * i) else v.toNat.testBit n := by
  have hlo : v.toNat % 2 ^ (w * i) < 2 ^ (w * i) := Nat.mod_lt _ (Nat.two_pow_pos _)
  have hmid : x % 2 ^ w < 2 ^ w := Nat.mod_lt _ (Nat.two_pow_pos _)
  have hparts : v.toNat % 2 ^ (w * i) + x % 2 ^ w * 2 ^ (w * i) + v.toNat / 2 ^ (w * (i + 1)) * 2 ^ (w * (i + 1)) =
      2 ^ (w * i) * (2 ^ w * (v.toNat / 2 ^ (w * (i + 1))) + x % 2 ^ w) + v.toNat % 2 ^ (w * i) := by
    have hsplit : 2 ^ (w * (i + 1)) = 2 ^ (w * i) * 2 ^ w := by rw [Nat.mul_succ, Nat.pow_add]
    have hhigh : v.toNat / 2 ^ (w * (i + 1)) * 2 ^ (w * (i + 1)) =
        2 ^ (w * i) * (2 ^ w * (v.toNat / 2 ^ (w * (i + 1)))) := by
      rw [Nat.mul_comm, ← Nat.mul_assoc, ← hsplit]
    rw [hhigh, Nat.mul_add (2 ^ (w * i)), Nat.mul_comm (x % 2 ^ w)]
    omega
  have hend : w * (i + 1) = w * i + w := Nat.mul_succ w i
  rw [setLane, hparts, BitVec.toNat_ofNat, Nat.testBit_mod_two_pow, decide_eq_true hn, Bool.true_and,
    Nat.testBit_two_pow_mul_add _ hlo]
  by_cases hbelow : n < w * i
  · rw [if_pos hbelow, if_neg (by omega), Nat.testBit_mod_two_pow, decide_eq_true hbelow, Bool.true_and]
  · rw [if_neg hbelow, Nat.testBit_two_pow_mul_add _ hmid]
    by_cases hin : n < w * (i + 1)
    · have hin' : n - w * i < w := by omega
      rw [if_pos hin', if_pos (by omega), Nat.testBit_mod_two_pow, decide_eq_true hin', Bool.true_and]
    · have hplace : n - w * i - w + w * (i + 1) = n := by omega
      rw [if_neg (by omega), if_neg (by omega), Nat.testBit_div_two_pow, hplace]

/-- A lane read after a lane written. -/
theorem getLane_setLane (v : BitVec 256) {w j : Nat} (i x : Nat) (hj : w * (j + 1) ≤ 256) :
    getLane (setLane v w i x) w j = if j = i then x % 2 ^ w else getLane v w j := by
  have hend (l : Nat) : w * (l + 1) = w * l + w := Nat.mul_succ w l
  refine Nat.eq_of_testBit_eq fun n => ?_
  rw [testBit_getLane]
  by_cases hn : n < w
  · have := hend j
    rw [testBit_setLane v w i x (by omega), decide_eq_true hn, Bool.true_and]
    by_cases hji : j = i
    · subst hji
      rw [if_pos (by omega), if_pos rfl, Nat.testBit_mod_two_pow, decide_eq_true hn, Bool.true_and, Nat.add_sub_cancel_left]
    · have hout : ¬(w * i ≤ w * j + n ∧ w * j + n < w * (i + 1)) := by
        have := hend i
        rcases Nat.lt_or_gt_of_ne hji with hlt | hlt
        · have := Nat.mul_le_mul_left w (show j + 1 ≤ i from hlt); omega
        · have := Nat.mul_le_mul_left w (show i + 1 ≤ j from hlt); omega
      rw [if_neg hout, if_neg hji, testBit_getLane, decide_eq_true hn, Bool.true_and]
  · by_cases hji : j = i <;> simp [hji, hn, testBit_getLane]

/-- A lane read after the lanes of a list are written: its result if it is one of them, its old bits otherwise. -/
theorem getLane_writeLanes (v : BitVec 256) {w j : Nat} (l : List Nat) (op : Nat → Nat × Word) (hj : w * (j + 1) ≤ 256) :
    getLane (writeLanes v w (l.map fun i => (i, op i))) w j = if j ∈ l then (op j).1 % 2 ^ w else getLane v w j := by
  induction l generalizing v with
  | nil => simp [writeLanes]
  | cons i l ih =>
    have hcons : writeLanes v w ((i :: l).map fun i => (i, op i)) =
        writeLanes (setLane v w i (op i).1) w (l.map fun i => (i, op i)) := rfl
    rw [hcons, ih, getLane_setLane v i _ hj]
    by_cases hl : j ∈ l
    · simp [hl]
    · by_cases hji : j = i
      · subst hji; simp
      · simp [hl, hji]

/-- Every lane of a format lies in the 256 bits. -/
theorem lane_le_of_lt_lanes {f : Fmt} {l : Nat} (h : l < lanes f) : lanewidth f * (l + 1) ≤ 256 :=
  Nat.mul_comm _ _ ▸ Nat.mul_le_of_le_div _ _ _ h

theorem getLane_lt (v : BitVec 256) (w i : Nat) : getLane v w i < 2 ^ w := Nat.mod_lt _ (Nat.two_pow_pos _)

/-! ### The frame of R97 -/

/-- Places that satisfy p can be looked for below any bound on them. -/
theorem filter_range_of_lt {n m : Nat} (h : n ≤ m) {p : Nat → Bool} (hp : ∀ i, p i = true → i < n) :
    (List.range n).filter p = (List.range m).filter p := by
  obtain ⟨c, rfl⟩ := Nat.exists_eq_add_of_le h
  have htail : ((List.range c).map (n + ·)).filter p = [] := by
    rw [List.filter_eq_nil_iff]
    intro i hi hpi
    obtain ⟨j, -, rfl⟩ := List.mem_map.mp hi
    exact absurd (hp _ hpi) (by omega)
  rw [List.range_add, List.filter_append, htail, List.append_nil]

theorem Core.lt_of_active {c : Core} {k : KReg} {n i : Nat} (h : c.active k n i = true) : i < n :=
  of_decide_eq_true (Bool.and_eq_true_iff.mp h).1

/-- The active lanes, counted among all lanes of the format. -/
theorem Core.laneResults_effLen (c : Core) (k : KReg) (f : Fmt) (op : Nat → Nat × Word) :
    c.laneResults k (c.effLen f) op = ((List.range (lanes f)).filter (c.active k (c.effLen f))).map fun i => (i, op i) :=
  congrArg (List.map fun i => (i, op i)) (filter_range_of_lt (Nat.min_le_right _ _) fun _ => Core.lt_of_active)

/-- The lanes that an instruction of R97's frame writes, each with its value and flags. -/
def State.vopResults (s : State) (k : KReg) (d a b : VReg) (op : Nat → Nat → Nat → Nat × Word) : List (Nat × Nat × Word) :=
  let f := (s.rv a).tag
  let lane (r : VReg) (l : Nat) : Nat := getLane (s.rv r).bits (lanewidth f) l
  s.core.laneResults k (s.core.effLen f) fun l => op (lane a l) (lane b l) (lane d l)

/-- R97 without a fault: the flags go into FCSR, the lanes into vd, and the instruction retires. -/
theorem State.vop_of_checked (s : State) (len : Word) (k : KReg) (d a b : VReg) {checks : List (Bool × Fmt)}
    (op : Fmt → Nat → Nat → Nat → Nat × Word) (hc : badTag checks = none) :
    let f := (s.rv a).tag
    let rs := s.vopResults k d a b (op f)
    s.vop len k d a b checks op =
      .next (((s.setCsr { s.core.csr with fcsr := s.core.csr.fcsr ||| orAll (rs.map (·.2.2)) }).wv d
        ⟨writeLanes (s.rv d).bits (lanewidth f) rs, f⟩).retire len) := by
  rw [State.vop, hc]
  rfl

/-- The results depend on the lane operation's values at patterns of the format alone. -/
theorem State.vopResults_congr (s : State) (k : KReg) (d a b : VReg) {op g : Nat → Nat → Nat → Nat × Word}
    (h : ∀ x y z, x < 2 ^ lanewidth (s.rv a).tag → y < 2 ^ lanewidth (s.rv a).tag → op x y z = g x y z) :
    s.vopResults k d a b op = s.vopResults k d a b g :=
  congrArg (s.core.laneResults k (s.core.effLen (s.rv a).tag)) (funext fun _ => h _ _ _ (getLane_lt _ _ _) (getLane_lt _ _ _))

/-- An instruction whose meaning is `State.vop` acts as R97 says, with the values g that its lane operation has on the
patterns of the format, once no check fails. -/
theorem vectorFrame_of_vop {s : State} {len : Word} {i : Instr} {k : KReg} {d a b : VReg} {checks : List (Bool × Fmt)}
    {op : Fmt → Nat → Nat → Nat → Nat × Word} {g : Nat → Nat → Nat → Nat × Word}
    (he : exec i s = s.vop len k d a b checks op) (hc : badTag checks = none)
    (hop : ∀ x y z, x < 2 ^ lanewidth (s.rv a).tag → y < 2 ^ lanewidth (s.rv a).tag → op (s.rv a).tag x y z = g x y z) :
    vectorFrame len i k d a b g s := by
  have hrun := he.trans (s.vop_of_checked len k d a b op hc)
  rw [s.vopResults_congr k d a b hop] at hrun
  unfold vectorFrame
  intro f w on val flags
  have hres : s.vopResults k d a b g = ((List.range (lanes f)).filter on).map fun l => (l, val l) :=
    s.core.laneResults_effLen k f val
  have hflags : orAll ((s.vopResults k d a b g).map (·.2.2)) = flags := by
    rw [hres, List.map_map]
    rfl
  rw [hflags] at hrun
  obtain ⟨hwrites, hadvances⟩ := (s.setCsr { s.core.csr with fcsr := s.core.csr.fcsr ||| flags }).wv_retire d
    ⟨writeLanes (s.rv d).bits w (s.vopResults k d a b g), f⟩ len
  refine ⟨_, hrun, ⟨writeLanes (s.rv d).bits w (s.vopResults k d a b g), f⟩, rfl, fun l hl => ?_, hwrites,
    .of_withVector (fcsr := s.core.csr.fcsr ||| flags) (vl := s.core.csr.vl) hadvances⟩
  rw [hres, getLane_writeLanes _ _ _ (lane_le_of_lt_lanes hl)]
  simp only [List.mem_filter, List.mem_range, hl, true_and, w]

end Sys2Proof.Machine
end

section
/-! PROOF. The integer lane operations (R98): the value of each on patterns of its width, and the frame of R97 for them. -/
namespace Sys2Proof.Machine
open Sys2Proof

/-! ### Integers modulo 2^w -/

/-- The value of a w-bit pattern read as two's complement. -/
def signedPattern (w x : Nat) : Int := if x < 2 ^ (w - 1) then (x : Int) else (x : Int) - 2 ^ w

/-- The w-bit pattern of an integer modulo 2^w. -/
def patternOf (w : Nat) (v : Int) : Nat := (v % 2 ^ w).toNat

theorem two_pow_pred_mul_two {w : Nat} (hw : 0 < w) : 2 ^ (w - 1) * 2 = 2 ^ w := by
  rw [← Nat.pow_succ, Nat.succ_eq_add_one, Nat.sub_add_cancel hw]

theorem wrapInt_eq (w : Nat) (v : Int) : wrapInt w v = patternOf w v := by
  rw [wrapInt, BitVec.toNat_ofInt, patternOf]
  norm_cast

theorem signedOf_eq {w x : Nat} (hw : 0 < w) (hx : x < 2 ^ w) : signedOf w x = signedPattern w x := by
  have h2 := two_pow_pred_mul_two hw
  rw [signedOf, BitVec.toInt_eq_toNat_cond, BitVec.toNat_ofNat, Nat.mod_eq_of_lt hx, signedPattern]
  push_cast
  by_cases h : x < 2 ^ (w - 1)
  · rw [if_pos h, if_pos (by omega)]
  · rw [if_neg h, if_neg (by omega)]

/-- A pattern and its signed reading are one integer modulo 2^w. -/
@[simp] theorem ofInt_signedOf (w x : Nat) : BitVec.ofInt w (signedOf w x) = BitVec.ofInt w x := by
  rw [signedOf, BitVec.ofInt_toInt, BitVec.ofInt_natCast]

theorem patternOf_natCast {w x : Nat} (hx : x < 2 ^ w) : patternOf w x = x := by
  rw [patternOf]
  norm_cast
  exact Nat.mod_eq_of_lt hx

/-- Integers that agree modulo 2^w have one pattern. -/
theorem patternOf_congr {w : Nat} {u v : Int} (h : BitVec.ofInt w u = BitVec.ofInt w v) : patternOf w u = patternOf w v := by
  rw [← wrapInt_eq, ← wrapInt_eq, wrapInt, wrapInt, h]

theorem patternOf_signedOf {w x : Nat} (hx : x < 2 ^ w) : patternOf w (signedOf w x) = x :=
  (patternOf_congr (ofInt_signedOf w x)).trans (patternOf_natCast hx)

/-- Saturation is the nearest value of the signed range. -/
theorem satInt_eq (w : Nat) (v : Int) : (satInt w v).1 = patternOf w (max (-(2 ^ (w - 1))) (min v (2 ^ (w - 1) - 1))) := by
  have hpos : (0 : Int) < 2 ^ (w - 1) := Int.pow_pos (by decide)
  rw [satInt]
  generalize (2 : Int) ^ (w - 1) = h at hpos ⊢
  simp only [wrapInt_eq]
  by_cases hhi : v > h - 1
  · rw [if_pos hhi, Int.min_eq_right (by omega), Int.max_eq_right (by omega)]
  · rw [if_neg hhi, Int.min_eq_left (by omega)]
    by_cases hlo : v < -h
    · rw [if_pos hlo, Int.max_eq_left (by omega)]
    · rw [if_neg hlo, Int.max_eq_right (by omega)]

/-! ### The lane operations of R98 -/

theorem lanewidth_pos (f : Fmt) : 0 < lanewidth f := by cases f <;> decide

theorem fpFmt_of_isInt {f : Fmt} (h : isInt f = true) : fpFmt f = none := by
  revert h
  cases f <;> decide

theorem sgn_eq {f : Fmt} {x : Nat} (hx : x < 2 ^ lanewidth f) : sgn f x = signedPattern (lanewidth f) x :=
  signedOf_eq (lanewidth_pos f) hx

/-- A result modulo 2^w is the same for any integer that agrees with it modulo 2^w. -/
theorem wrapped_eq {f : Fmt} {u v : Int} (h : BitVec.ofInt (lanewidth f) u = BitVec.ofInt (lanewidth f) v) :
    wrapped f u = (patternOf (lanewidth f) v, 0) := by
  rw [wrapped, wrapInt_eq, patternOf_congr h]

section
variable {f : Fmt} (hf : isInt f = true) (rm : Rm) (x y z : Nat)
include hf

theorem laneAdd_int : laneAdd rm f x y z = (patternOf (lanewidth f) (x + y), 0) := by
  rw [laneAdd, fpFmt_of_isInt hf]
  exact wrapped_eq (by simp [sgn, BitVec.ofInt_add])

theorem laneSub_int : laneSub rm f x y z = (patternOf (lanewidth f) (x - y), 0) := by
  rw [laneSub, fpFmt_of_isInt hf]
  exact wrapped_eq (by simp [sgn, Int.sub_eq_add_neg, BitVec.ofInt_add, BitVec.ofInt_neg])

theorem laneMul_int : laneMul rm f x y z = (patternOf (lanewidth f) (x * y), 0) := by
  rw [laneMul, fpFmt_of_isInt hf]
  exact wrapped_eq (by simp [sgn, BitVec.ofInt_mul])

theorem laneNeg_int : laneNeg f x y z = (patternOf (lanewidth f) (-x), 0) := by
  rw [laneNeg, fpFmt_of_isInt hf]
  exact wrapped_eq (by simp [sgn, BitVec.ofInt_neg])

theorem laneFma_int : laneFma false false rm f x y z = (patternOf (lanewidth f) (x * y + z), 0) := by
  rw [laneFma, fpFmt_of_isInt hf]
  exact wrapped_eq (by simp [sgn, BitVec.ofInt_add, BitVec.ofInt_mul])

/-- VFMS: the addend negated. -/
theorem laneFms_int : laneFma false true rm f x y z = (patternOf (lanewidth f) (x * y - z), 0) := by
  rw [laneFma, fpFmt_of_isInt hf]
  exact wrapped_eq (by simp [sgn, Int.sub_eq_add_neg, BitVec.ofInt_add, BitVec.ofInt_mul, BitVec.ofInt_neg])

/-- VFNMA: the product negated. -/
theorem laneFnma_int : laneFma true false rm f x y z = (patternOf (lanewidth f) (z - x * y), 0) := by
  rw [laneFma, fpFmt_of_isInt hf]
  exact wrapped_eq (by simp [sgn, Int.sub_eq_add_neg, BitVec.ofInt_add, BitVec.ofInt_mul, BitVec.ofInt_neg, BitVec.add_comm])

variable {x y} (hx : x < 2 ^ lanewidth f) (hy : y < 2 ^ lanewidth f)

include hx in
theorem laneAbs_int : laneAbs f x y z = (patternOf (lanewidth f) (signedPattern (lanewidth f) x).natAbs, 0) := by
  have habs (v : Int) : (if v < 0 then -v else v) = v.natAbs := by split <;> omega
  rw [laneAbs, fpFmt_of_isInt hf, ← sgn_eq hx, ← habs]
  exact wrapped_eq rfl

include hx hy

theorem laneMin_int : laneMinMax false f x y z =
    (patternOf (lanewidth f) (min (signedPattern (lanewidth f) x) (signedPattern (lanewidth f) y)), 0) := by
  rw [laneMinMax, fpFmt_of_isInt hf, ← sgn_eq hx, ← sgn_eq hy]
  refine congrArg (·, (0 : Word)) ?_
  by_cases h : sgn f y < sgn f x
  · rw [Int.min_eq_right (Int.le_of_lt h)]
    exact (if_pos h).trans (patternOf_signedOf hy).symm
  · rw [Int.min_eq_left (Int.not_lt.mp h)]
    exact (if_neg h).trans (patternOf_signedOf hx).symm

theorem laneMax_int : laneMinMax true f x y z =
    (patternOf (lanewidth f) (max (signedPattern (lanewidth f) x) (signedPattern (lanewidth f) y)), 0) := by
  rw [laneMinMax, fpFmt_of_isInt hf, ← sgn_eq hx, ← sgn_eq hy]
  refine congrArg (·, (0 : Word)) ?_
  by_cases h : sgn f x < sgn f y
  · rw [Int.max_eq_right (Int.le_of_lt h)]
    exact (if_pos h).trans (patternOf_signedOf hy).symm
  · rw [Int.max_eq_left (Int.not_lt.mp h)]
    exact (if_neg h).trans (patternOf_signedOf hx).symm

theorem laneDiv_int : laneDiv rm f x y z =
    if y = 0 then (0, 16)
    else (patternOf (lanewidth f) ((signedPattern (lanewidth f) x).tdiv (signedPattern (lanewidth f) y)), 0) := by
  rw [laneDiv, fpFmt_of_isInt hf, ← sgn_eq hx, ← sgn_eq hy, ← wrapped_eq rfl]
  rfl

end

/-! Operations that R98 alone has: the model gives them no floating-point case. AND, OR, XOR, NOT and SRL are the row's
value by definition. -/

section
variable {f : Fmt} (x y z : Nat)

theorem laneMinu_eq : laneMinu f x y z = (min x y, 0) := by
  refine congrArg (·, (0 : Word)) ?_
  by_cases h : y < x
  · exact (if_pos h).trans (Nat.min_eq_right (Nat.le_of_lt h)).symm
  · exact (if_neg h).trans (Nat.min_eq_left (Nat.not_lt.mp h)).symm

theorem laneMaxu_eq : laneMaxu f x y z = (max x y, 0) := by
  refine congrArg (·, (0 : Word)) ?_
  by_cases h : x < y
  · exact (if_pos h).trans (Nat.max_eq_right (Nat.le_of_lt h)).symm
  · exact (if_neg h).trans (Nat.max_eq_left (Nat.not_lt.mp h)).symm

theorem laneSll_eq : laneSll f x y z = (patternOf (lanewidth f) (x * 2 ^ (y % lanewidth f)), 0) := by
  rw [laneSll, patternOf]
  norm_cast

variable {x y} (hx : x < 2 ^ lanewidth f) (hy : y < 2 ^ lanewidth f)
include hx

theorem laneSra_eq :
    laneSra f x y z = (patternOf (lanewidth f) (signedPattern (lanewidth f) x / 2 ^ (y % lanewidth f)), 0) := by
  rw [laneSra, sgn_eq hx]
  exact wrapped_eq rfl

include hy

theorem laneAdds_eq :
    laneAdds f x y z = (patternOf (lanewidth f) (max (-(2 ^ (lanewidth f - 1)))
      (min (signedPattern (lanewidth f) x + signedPattern (lanewidth f) y) (2 ^ (lanewidth f - 1) - 1))), 0) := by
  rw [laneAdds, satInt_eq, sgn_eq hx, sgn_eq hy]

theorem laneSubs_eq :
    laneSubs f x y z = (patternOf (lanewidth f) (max (-(2 ^ (lanewidth f - 1)))
      (min (signedPattern (lanewidth f) x - signedPattern (lanewidth f) y) (2 ^ (lanewidth f - 1) - 1))), 0) := by
  rw [laneSubs, satInt_eq, sgn_eq hx, sgn_eq hy]

end

/-! ### Checks that pass (R93) -/

theorem badTag_twoChecks {c : Core} {okTag : Fmt → Bool} {a b : VReg} (ha : okTag (c.rv a).tag = true)
    (hb : (c.rv b).tag = (c.rv a).tag) : badTag (c.twoChecks okTag a b) = none := by
  simp [badTag, Core.twoChecks, ha, hb]

theorem badTag_threeChecks {c : Core} {okTag : Fmt → Bool} {d a b : VReg} (ha : okTag (c.rv a).tag = true)
    (hb : (c.rv b).tag = (c.rv a).tag) (hd : (c.rv d).tag = (c.rv a).tag) : badTag (c.threeChecks okTag d a b) = none := by
  simp [badTag, Core.threeChecks, Core.twoChecks, ha, hb, hd]

theorem badTag_oneCheck {c : Core} {okTag : Fmt → Bool} {a : VReg} (ha : okTag (c.rv a).tag = true) :
    badTag (c.oneCheck okTag a) = none := by
  simp [badTag, Core.oneCheck, ha]

theorem admitArith_of_isInt {f : Fmt} (h : isInt f = true) : admitArith f = true := by simp [admitArith, h]

/-! ### The rows of `intOps` -/

/-- What the claim says of one row of `intOps`: its instruction, and where it has one its 16-bit form, acts in the frame of
R97 with the row's value. -/
def RowHolds (s : State) (k : KReg) (d a b : VReg)
    (e : Bool × (KReg → VReg → VReg → VReg → Instr) × Option (VReg → VReg → Instr) × (Nat → Nat → Nat × Word)) : Prop :=
  (e.1 = true → (s.rv b).tag = (s.rv a).tag) →
    vectorFrame 4 (e.2.1 k d a b) k d a (if e.1 then b else a) (fun x y _ => e.2.2.2 x y) s ∧
    (a = d → ∀ h, e.2.2.1 = some h → vectorFrame 2 (h d b) 0 d d b (fun x y _ => e.2.2.2 x y) s)

section
variable {s : State} {k : KReg} {d a b : VReg} {okTag : Fmt → Bool} (ha : okTag (s.rv a).tag = true)
  {i : KReg → VReg → VReg → VReg → Instr} {op : Fmt → Nat → Nat → Nat → Nat × Word} {g : Nat → Nat → Nat × Word}
include ha

/-- A row with two operands and a 16-bit form. -/
theorem rowHolds_pair {h : VReg → VReg → Instr}
    (hi : exec (i k d a b) s = s.vop 4 k d a b (s.core.twoChecks okTag a b) op)
    (hh : exec (h d b) s = s.vop 2 0 d d b (s.core.twoChecks okTag d b) op)
    (hop : ∀ x y z, x < 2 ^ lanewidth (s.rv a).tag → y < 2 ^ lanewidth (s.rv a).tag → op (s.rv a).tag x y z = g x y) :
    RowHolds s k d a b (true, i, some h, g) := by
  intro hb
  refine ⟨vectorFrame_of_vop hi (badTag_twoChecks ha (hb rfl)) hop, fun had h' hsome => ?_⟩
  subst had
  obtain rfl := Option.some.inj hsome
  exact vectorFrame_of_vop hh (badTag_twoChecks ha (hb rfl)) hop

/-- A row with two operands and no 16-bit form. -/
theorem rowHolds_long (hi : exec (i k d a b) s = s.vop 4 k d a b (s.core.twoChecks okTag a b) op)
    (hop : ∀ x y z, x < 2 ^ lanewidth (s.rv a).tag → y < 2 ^ lanewidth (s.rv a).tag → op (s.rv a).tag x y z = g x y) :
    RowHolds s k d a b (true, i, none, g) :=
  fun hb => ⟨vectorFrame_of_vop hi (badTag_twoChecks ha (hb rfl)) hop, fun _ _ hnone => nomatch hnone⟩

/-- A row with one operand. -/
theorem rowHolds_single (hi : exec (i k d a b) s = s.vop 4 k d a a (s.core.oneCheck okTag a) op)
    (hop : ∀ x y z, x < 2 ^ lanewidth (s.rv a).tag → y < 2 ^ lanewidth (s.rv a).tag → op (s.rv a).tag x y z = g x y) :
    RowHolds s k d a b (false, i, none, g) :=
  fun _ => ⟨vectorFrame_of_vop hi (badTag_oneCheck ha) hop, fun _ _ hnone => nomatch hnone⟩

end

/-- Every row of R98's table holds: the instruction is `State.vop` of a lane operation whose value the row gives. -/
theorem rowHolds_intOps {s : State} (k : KReg) (d : VReg) {a : VReg} (b : VReg) (hint : isInt (s.rv a).tag = true) :
    ∀ e ∈ intOps (lanewidth (s.rv a).tag), RowHolds s k d a b e := by
  have hari := admitArith_of_isInt hint
  simp only [intOps, List.forall_mem_cons, List.not_mem_nil, false_imp_iff, implies_true, and_true]
  exact
    ⟨rowHolds_pair hari rfl rfl fun x y z _ _ => laneAdd_int hint _ x y z,
      rowHolds_pair hari rfl rfl fun x y z _ _ => laneSub_int hint _ x y z,
      rowHolds_pair hari rfl rfl fun x y z _ _ => laneMul_int hint _ x y z,
      rowHolds_pair hari rfl rfl fun _ _ z hx hy => laneMin_int hint z hx hy,
      rowHolds_pair hari rfl rfl fun _ _ z hx hy => laneMax_int hint z hx hy,
      rowHolds_pair hint rfl rfl fun x y z _ _ => laneMinu_eq x y z,
      rowHolds_pair hint rfl rfl fun x y z _ _ => laneMaxu_eq x y z,
      rowHolds_single hari rfl fun _ _ z hx _ => laneAbs_int hint z hx,
      rowHolds_single hari rfl fun x y z _ _ => laneNeg_int hint x y z,
      rowHolds_pair hint rfl rfl fun _ _ _ _ _ => rfl, -- and
      rowHolds_pair hint rfl rfl fun _ _ _ _ _ => rfl, -- or
      rowHolds_pair hint rfl rfl fun _ _ _ _ _ => rfl, -- xor
      rowHolds_single hint rfl fun _ _ _ _ _ => rfl, -- not
      rowHolds_pair hint rfl rfl fun x y z _ _ => laneSll_eq x y z,
      rowHolds_pair hint rfl rfl fun _ _ _ _ _ => rfl, -- srl
      rowHolds_pair hint rfl rfl fun _ _ z hx _ => laneSra_eq z hx,
      rowHolds_pair hint rfl rfl fun _ _ z hx hy => laneAdds_eq z hx hy,
      rowHolds_pair hint rfl rfl fun _ _ z hx hy => laneSubs_eq z hx hy,
      rowHolds_long hari rfl fun _ _ z hx hy => laneDiv_int hint _ z hx hy⟩

/-- Settles O28: the rows of R98's table with their 16-bit forms, and the fused forms, whose addend is vd. -/
theorem vectorInteger : Obligations.VectorInteger := by
  intro s k d a b hmem w
  have hint : isInt (s.rv a).tag = true := by
    simp only [List.mem_cons, List.not_mem_nil, or_false] at hmem
    rcases hmem with h | h | h | h <;> rw [h] <;> rfl
  refine ⟨rowHolds_intOps k d b hint, fun hb hd => ?_⟩
  have hpass := badTag_threeChecks (c := s.core) (okTag := admitArith) (admitArith_of_isInt hint) hb hd
  simp only [List.forall_mem_cons, List.not_mem_nil, false_imp_iff, implies_true, and_true]
  exact
    ⟨vectorFrame_of_vop rfl hpass fun x y z _ _ => laneFma_int hint _ x y z,
      vectorFrame_of_vop rfl hpass fun x y z _ _ => laneFms_int hint _ x y z,
      vectorFrame_of_vop rfl hpass fun x y z _ _ => laneFnma_int hint _ x y z⟩

end Sys2Proof.Machine
end
